-- ==== Sys2Proof/Word.lean ====
section
/-! DEFINITION. Word: the 32-bit word of Llynone, bytes, and the plainest arithmetic on them (R63, R76). -/

namespace Sys2Proof

/-- A general register, an instruction word, a special register: 32 bits (R51). -/
abbrev Word := BitVec 32

/-- One byte of memory. -/
abbrev Byte := BitVec 8

/-- A 57-bit virtual byte address (R53). -/
abbrev VAddr := BitVec 57

/-- `SignExtend(v, 32)` of R76. -/
def Word.s (w : Word) : Int := w.toInt

/-- `ZeroExtend(v, 32)` of R76. -/
def Word.u (w : Word) : Int := (w.toNat : Int)

/-- An exact integer modulo 2^32 (R63). -/
def wordOfInt (x : Int) : Word := BitVec.ofInt 32 x

/-- `Clamp(x, lo, hi)` of R76: sets no flag. -/
def clampInt (x lo hi : Int) : Int := if x < lo then lo else if hi < x then hi else x

end Sys2Proof
end

