-- ==== Sys2Proof/Config.lean ====
section
/-! DEFINITION. Config: what the spec leaves open, as opaque constants with no body. Nothing can be proved of their
values, so a statement that holds of the model holds whatever they are (logs 1, 5, 6, 9-14, 16, 18, 69). -/

namespace Sys2Proof.Config

/-- Whose step is next, where several agents can move (log 1). -/
opaque pick : Nat → Nat

/-- How many cycles pass before what happens next (R57, R188; log 5). -/
opaque stepTime : Nat → Nat

/-- Whether a thread's next word still waits for a latency (R184, R187; log 5). -/
opaque lags : Nat → Nat → Bool

/-- How many of the writes performed since a byte was last seen a load served from a held copy misses
(R289, R330 rule 3; log 6). -/
opaque copyAge : Nat → Nat → Nat

/-- Whether a cached translation or instruction line has been displaced (R341, R347; log 11). -/
opaque displaced : Nat → Nat → Bool

/-- What an engine operation that ends LOST or FAULT leaves in a destination word: 0 the earlier value, 1 the new
value, otherwise zero (R209, R224, R265; log 9). -/
opaque leftover : Nat → Nat → Nat

/-- The undefined elements of a fresh reservation (R219; log 10). -/
opaque freshByte : Nat → Byte

/-- A byte of a cold page, decompressed from the bytes that stand at its image (R343; log 12). -/
opaque expandedByte : List Byte → Nat → Byte

/-- A transcendental result that the enclosure of log 13 does not decide (R102). -/
opaque elementary : Nat → Word → Word

/-- SHAKE256 of a run of bytes, to 256 bits (R371, R372; log 69). -/
opaque shake : List Byte → BitVec 256

/-- The XMSS check of a signature over a digest, under a public key (R371; log 69). -/
opaque verifies : List Byte → BitVec 256 → List Byte → Bool

/-- The digest of the vendor's public key in the module's fuses (R371; log 69). -/
opaque fusedKey : BitVec 256

/-- The module's serial (R372; log 69). -/
opaque serial : BitVec 128

/-- A byte of the attestation key's signature with a leaf over a digest (R372; log 69). -/
opaque signatureByte : Nat → BitVec 256 → Nat → Byte

/-- What another module of the fabric answers a copy: 0 complete, 1 LOST, otherwise FAULT (R397; log 14). -/
opaque remoteVerdict : Nat → Nat → Nat

/-- A byte that a copy reads on another module (R397; log 14). -/
opaque remoteByte : Nat → Nat → Byte

/-- The link a flit takes among those that carry traffic to its module (R392; log 14). -/
opaque linkChoice : Nat → Nat

/-- A byte of a flit's payload, whose layout the spec does not give (R393; log 14). -/
opaque payloadByte : Nat → Nat → Byte

/-- The CRC of a flit's bytes, whose polynomial the spec does not give (R393; log 14). -/
opaque flitCrc : List Byte → BitVec 64

/-- A field of a record that the spec gives no value for (R303, R344; log 18). -/
opaque unstated : Nat → Nat → Nat

/-- Bytes of spill area beyond 32 that one spilled entry or record takes (R140, R285; log 16). -/
opaque spillExtra : Nat

end Sys2Proof.Config
end

