-- ==== Sys2Proof/Syntax.lean ====
section
/-! DEFINITION. Syntax: the instruction words and the device steps of the DK64, one constructor per row of
spec/opcode_table.json (R39-R47; file 95 for the device steps). -/

namespace Sys2Proof

/-- What an in-field test tests (R368, R369): one lane after its shadow unit has found a mismatch or for its signal of a
vertical bus (R304, R368); a column's clock and control signals. -/
inductive TestPart where
  | array
  | laneGroup
  | slice
  | lane
  | column
deriving DecidableEq, Repr

/-- What Worxus assigns to a new launch (R62, R322, R338, R348; log 15): its identifier, the bases of its pool region
and of its eight commons regions, its spill and restart areas, and where its `.text` and `.drive` sections were loaded
(R17). -/
structure WorxusLaunch where
  id : Word
  pool : VAddr
  commons : VAddr
  spill : VAddr
  rest : VAddr
  text : VAddr
  drive : VAddr
deriving DecidableEq, Repr

/-- A fabric copy of another module as it reaches this one (R395, R397): the module that issued it, the peer process
here, a number that tells the module's copies apart, and its workgroup as fault records name it (R344). -/
structure FabricPeer where
  module : BitVec 12
  proc : Nat
  copy : Nat
  launch : Word
  wgid : BitVec 24
deriving DecidableEq, Repr

/-- An access of a fabric copy of another module to bytes of the peer process: a write of data, or a read (R395). -/
structure FabricAccess where
  peer : FabricPeer
  va : BitVec 44
  bytes : Nat
  data : Option (List Byte)
deriving DecidableEq, Repr

/-- What a flit's payload stands for (R395, R397, R401, R402, R408); the spec does not lay a payload out (log 14). A fabric
copy begins on a range of the receiver and ends; it accesses bytes, and is told done (0), LOST (1) or FAULT (2) with the bytes
read; a release of a module is complete; a member of a reduction sends its cells, or has failed; a signal of `fsig` to an
event. -/
inductive FabricMessage where
  | other
  | begins (x : FabricPeer) (va : BitVec 44) (len : Nat) (write : Bool)
  | access (a : FabricAccess)
  | answer (copy : Nat) (code : BitVec 8) (data : List Byte)
  | ends (x : FabricPeer)
  | released (module : BitVec 12)
  | reduce (group : BitVec 16) (units : List Byte)
  | fredFailed (proc : Nat) (group : BitVec 16)
  | signal (domain : Nat) (e : BitVec 16)
deriving DecidableEq, Repr

/-- A flit (R393), and what its payload stands for. -/
structure Flit where
  dest : BitVec 16
  vc : BitVec 8
  len : BitVec 8
  seq : BitVec 16
  ack : BitVec 16
  payload : List Byte
  crc : BitVec 64
  message : FabricMessage
deriving DecidableEq, Repr

/-- Another member's part in a reduction (R399): what arrives over the links, its cells in the compressed form of R400. -/
structure FredMember where
  rank : Nat
  n : Nat
  table : List (BitVec 16)
  rows : Nat
  cols : Nat
  exp : BitVec 10
  mode : BitVec 3
  units : List Byte
deriving DecidableEq, Repr

/-- A gang slice's plan (R403): its start and length in ac, its modules, and the teams (launch, team) that leave and
that enter on this module, the latter with the cores of each member. -/
structure GangPlan where
  start : Nat
  length : Nat
  modules : List Nat
  outgoing : List (Nat × Nat)
  incoming : List (Nat × Nat)
deriving DecidableEq, Repr

/-- A firmware image and its signature (R371). -/
structure Image where
  bytes : List Byte
  signature : List Byte
deriving DecidableEq, Repr

/-- An image set of the flash (R370, R371): the public key it carries, its images, and the repair files that go with it
(log 69). -/
structure ImageSet where
  key : List Byte
  images : List Image
  repair : List (Nat × Word)
deriving DecidableEq, Repr

/-- What Worxus does through the command mailbox and the die hubs' registers, whose layout the spec does not give (R346,
R357, R380; log 70): a node of its run tree (R359); a process with its root table, its event domain and table, and its
fabric job (R338, R352, R395); a launch submitted to a process's device queue (R349); a resident core that begins to run a
leaf's thread (R359); a line that leaves the instruction caches of a die (R380). -/
inductive HubCommand where
  | node (parent : Option Nat) (weight : Nat)
  | process (root domain : Nat) (table : Option Nat) (parent : Nat) (weight : Nat) (job : List Nat)
  | launch (p : Nat) (desc : VAddr) (priv : Bool) (sys : WorxusLaunch)
  | runs (core : Nat) (leaf : Option Nat)
  | dropLine (p : Nat) (va : VAddr)
deriving DecidableEq, Repr

/-- What a register write carries (R357): the word, or a command of Worxus. -/
inductive HubWrite where
  | word (v : Word)
  | command (c : HubCommand)
deriving DecidableEq, Repr

/-- What the host addresses (R373): a byte of the DRAM layer through CXL.mem, or of the hub's registers through BAR 0. -/
inductive HostAddr where
  | dram (a : Nat)
  | bar0 (off : Nat)
deriving DecidableEq, Repr

/-- Who consumes an uncorrectable error: the thread, and the lane or slice that erred (R304, R305) or the detached copy
whose page-table read did (R356). -/
structure ErrorSite where
  tid : BitVec 10
  part : Nat
deriving DecidableEq, Repr

/-- What a debug handler writes of a thread in a saved context (R294, R378): its place, registers, special registers, and
the call-stack entries on core, most recent first, with the depth. -/
structure ThreadEdit where
  pc : Option (VAddr × BitVec 4)
  g : List (BitVec 7 × Word)
  m : List (BitVec 2 × Word)
  p : Option (BitVec 7)
  rm : Option Word
  flags : Option Word
  tcause : Option Word
  tval : Option Word
  tac : Option Word
  tpc : Option VAddr
  tvec : Option VAddr
  csb : Option VAddr
  stack : Option (List VAddr × BitVec 13)
deriving DecidableEq, Repr

/-- What a debug handler writes in a saved context (R294, R378): a thread; a drive stream's place, registers and rounding
mode; bytes of a workgroup's scratchpad, from an offset of its pool on. -/
inductive ContextEdit where
  | thread (i : Nat) (x : ThreadEdit)
  | drive (w : Nat) (pc : Option (VAddr × BitVec 4)) (d : List (BitVec 5 × Word)) (mode : Option (BitVec 3))
  | scratch (w off : Nat) (bytes : List Byte)
deriving DecidableEq, Repr

/-- One constructor per row of spec/opcode_table.json. A word row carries its operand fields (the guard `g`
first; a word of the drive stream alone has no guard field: R45 fixes it to 7), a literal form also its literal
word; a device step with no word carries what the step needs to be told (log 1). -/
inductive Instr where
  /-- Adds two 32-bit registers modulo 2^32. (R81) -/
  | addS32 (g : BitVec 3) (d : BitVec 7) (a : BitVec 7) (b : BitVec 7)
  /-- Adds two signed 32-bit values and saturates the result, setting SAT when clamped. (R81) -/
  | addS32Sat (g : BitVec 3) (d : BitVec 7) (a : BitVec 7) (b : BitVec 7)
  /-- Adds two unsigned 32-bit values and saturates to 0..2^32-1. (R81) -/
  | addN32Sat (g : BitVec 3) (d : BitVec 7) (a : BitVec 7) (b : BitVec 7)
  /-- Adds two 64-bit register pairs modulo 2^64. (R81) -/
  | addN64 (g : BitVec 3) (d : BitVec 7) (a : BitVec 7) (b : BitVec 7)
  /-- Subtracts two 32-bit registers modulo 2^32. (R81) -/
  | subS32 (g : BitVec 3) (d : BitVec 7) (a : BitVec 7) (b : BitVec 7)
  /-- Signed 32-bit subtraction with saturation. (R81) -/
  | subS32Sat (g : BitVec 3) (d : BitVec 7) (a : BitVec 7) (b : BitVec 7)
  /-- Unsigned 32-bit subtraction with saturation. (R81) -/
  | subN32Sat (g : BitVec 3) (d : BitVec 7) (a : BitVec 7) (b : BitVec 7)
  /-- Subtracts two 64-bit register pairs modulo 2^64. (R81) -/
  | subN64 (g : BitVec 3) (d : BitVec 7) (a : BitVec 7) (b : BitVec 7)
  /-- Multiplies two 32-bit registers modulo 2^32. (R81) -/
  | mulS32 (g : BitVec 3) (d : BitVec 7) (a : BitVec 7) (b : BitVec 7)
  /-- Signed 32-bit multiplication with saturation. (R81) -/
  | mulS32Sat (g : BitVec 3) (d : BitVec 7) (a : BitVec 7) (b : BitVec 7)
  /-- Unsigned 32-bit multiplication with saturation. (R81) -/
  | mulN32Sat (g : BitVec 3) (d : BitVec 7) (a : BitVec 7) (b : BitVec 7)
  /-- Multiplies two unsigned 32-bit values into a 64-bit pair. (R81) -/
  | mulN64 (g : BitVec 3) (d : BitVec 7) (a : BitVec 7) (b : BitVec 7)
  /-- Multiplies two registers and adds the destination modulo 2^32. (R81) -/
  | madS32 (g : BitVec 3) (d : BitVec 7) (a : BitVec 7) (b : BitVec 7)
  /-- Signed multiply-add with saturation. (R81) -/
  | madS32Sat (g : BitVec 3) (d : BitVec 7) (a : BitVec 7) (b : BitVec 7)
  /-- Unsigned multiply-add with saturation. (R81) -/
  | madN32Sat (g : BitVec 3) (d : BitVec 7) (a : BitVec 7) (b : BitVec 7)
  /-- Adds the unsigned product of two 32-bit values into a 64-bit pair modulo 2^64. (R81) -/
  | madN64 (g : BitVec 3) (d : BitVec 7) (a : BitVec 7) (b : BitVec 7)
  /-- Writes the high 32 bits of the signed 64-bit product. (R82) -/
  | mulhS32 (g : BitVec 3) (d : BitVec 7) (a : BitVec 7) (b : BitVec 7)
  /-- Writes the high 32 bits of the unsigned 64-bit product. (R82) -/
  | mulhN32 (g : BitVec 3) (d : BitVec 7) (a : BitVec 7) (b : BitVec 7)
  /-- Signed division truncating toward zero, with defined results and IDZ for a zero divisor. (R83) -/
  | divS32 (g : BitVec 3) (d : BitVec 7) (a : BitVec 7) (b : BitVec 7)
  /-- Unsigned division, returning all ones and setting IDZ for a zero divisor. (R83) -/
  | divN32 (g : BitVec 3) (d : BitVec 7) (a : BitVec 7) (b : BitVec 7)
  /-- Signed remainder taking the dividend's sign. (R83) -/
  | remS32 (g : BitVec 3) (d : BitVec 7) (a : BitVec 7) (b : BitVec 7)
  /-- Unsigned remainder. (R83) -/
  | remN32 (g : BitVec 3) (d : BitVec 7) (a : BitVec 7) (b : BitVec 7)
  /-- Writes the signed lesser of two registers. (R84) -/
  | minS32 (g : BitVec 3) (d : BitVec 7) (a : BitVec 7) (b : BitVec 7)
  /-- Writes the unsigned lesser of two registers. (R84) -/
  | minN32 (g : BitVec 3) (d : BitVec 7) (a : BitVec 7) (b : BitVec 7)
  /-- Writes the signed greater of two registers. (R84) -/
  | maxS32 (g : BitVec 3) (d : BitVec 7) (a : BitVec 7) (b : BitVec 7)
  /-- Writes the unsigned greater of two registers. (R84) -/
  | maxN32 (g : BitVec 3) (d : BitVec 7) (a : BitVec 7) (b : BitVec 7)
  /-- Forms a signed saturated sum and writes its minimum with the destination. (R85) -/
  | addminS32 (g : BitVec 3) (d : BitVec 7) (a : BitVec 7) (b : BitVec 7)
  /-- Forms an unsigned saturated sum and writes its minimum with the destination. (R85) -/
  | addminN32 (g : BitVec 3) (d : BitVec 7) (a : BitVec 7) (b : BitVec 7)
  /-- Forms a signed saturated sum and writes its maximum with the destination. (R85) -/
  | addmaxS32 (g : BitVec 3) (d : BitVec 7) (a : BitVec 7) (b : BitVec 7)
  /-- Forms an unsigned saturated sum and writes its maximum with the destination. (R85) -/
  | addmaxN32 (g : BitVec 3) (d : BitVec 7) (a : BitVec 7) (b : BitVec 7)
  /-- Clamps the destination between a and b as signed values. (R84) -/
  | clampS32 (g : BitVec 3) (d : BitVec 7) (a : BitVec 7) (b : BitVec 7)
  /-- Clamps the destination between a and b as unsigned values. (R84) -/
  | clampN32 (g : BitVec 3) (d : BitVec 7) (a : BitVec 7) (b : BitVec 7)
  /-- Adds with the carry from g(d) bit 0, writing the sum to g(d) and the carry to g(d+1). (R86) -/
  | addc (g : BitVec 3) (d : BitVec 7) (a : BitVec 7) (b : BitVec 7)
  /-- Subtracts with borrow through the pair at d. (R86) -/
  | subb (g : BitVec 3) (d : BitVec 7) (a : BitVec 7) (b : BitVec 7)
  /-- Writes the two's-complement negation of a. (R87) -/
  | neg (g : BitVec 3) (d : BitVec 7) (a : BitVec 7)
  /-- Writes the absolute value of a modulo 2^32. (R87) -/
  | abs (g : BitVec 3) (d : BitVec 7) (a : BitVec 7)
  /-- Adds a sign-extended 32-bit register to a 64-bit pair. (R87) -/
  | lea (g : BitVec 3) (d : BitVec 7) (a : BitVec 7) (b : BitVec 7)
  /-- Bitwise and of two registers. (R88) -/
  | and (g : BitVec 3) (d : BitVec 7) (a : BitVec 7) (b : BitVec 7)
  /-- Bitwise or of two registers. (R88) -/
  | or (g : BitVec 3) (d : BitVec 7) (a : BitVec 7) (b : BitVec 7)
  /-- Bitwise exclusive or of two registers. (R88) -/
  | xor (g : BitVec 3) (d : BitVec 7) (a : BitVec 7) (b : BitVec 7)
  /-- Writes a and not b. (R88) -/
  | andn (g : BitVec 3) (d : BitVec 7) (a : BitVec 7) (b : BitVec 7)
  /-- Writes the bitwise complement of a. (R88) -/
  | not (g : BitVec 3) (d : BitVec 7) (a : BitVec 7)
  /-- Shifts left by a register count, zero for counts of 32 or more. (R88) -/
  | shl (g : BitVec 3) (d : BitVec 7) (a : BitVec 7) (b : BitVec 7)
  /-- Logical right shift by a register count. (R88) -/
  | shr (g : BitVec 3) (d : BitVec 7) (a : BitVec 7) (b : BitVec 7)
  /-- Arithmetic right shift by a register count. (R88) -/
  | sar (g : BitVec 3) (d : BitVec 7) (a : BitVec 7) (b : BitVec 7)
  /-- Rotates left by a register count modulo 32. (R88) -/
  | rot (g : BitVec 3) (d : BitVec 7) (a : BitVec 7) (b : BitVec 7)
  /-- Extracts a bit field controlled by register b, zero- or sign-extended. (R89) -/
  | bfx (g : BitVec 3) (d : BitVec 7) (a : BitVec 7) (b : BitVec 7)
  /-- Inserts the low bits of a into a field of d controlled by register b. (R89) -/
  | bfi (g : BitVec 3) (d : BitVec 7) (a : BitVec 7) (b : BitVec 7)
  /-- Counts the one bits of a. (R90) -/
  | popc (g : BitVec 3) (d : BitVec 7) (a : BitVec 7)
  /-- Counts the leading zero bits of a. (R90) -/
  | clz (g : BitVec 3) (d : BitVec 7) (a : BitVec 7)
  /-- Counts the trailing zero bits of a. (R90) -/
  | ctz (g : BitVec 3) (d : BitVec 7) (a : BitVec 7)
  /-- Reverses the bit order of a. (R90) -/
  | brev (g : BitVec 3) (d : BitVec 7) (a : BitVec 7)
  /-- Reverses the byte order of a. (R90) -/
  | bswap (g : BitVec 3) (d : BitVec 7) (a : BitVec 7)
  /-- Always executes and writes a where the guard predicate holds and b elsewhere. (R91) -/
  | sel (g : BitVec 3) (d : BitVec 7) (a : BitVec 7) (b : BitVec 7)
  /-- Copies register a. (R91) -/
  | mov (g : BitVec 3) (d : BitVec 7) (a : BitVec 7)
  /-- Compares two registers under a condition and writes a predicate. (R92) -/
  | cmp (g : BitVec 3) (c : BitVec 4) (p : BitVec 3) (a : BitVec 7) (b : BitVec 7)
  /-- Sets a predicate from a 4-bit truth table of two predicates. (R93) -/
  | plog (g : BitVec 3) (t : BitVec 4) (d : BitVec 3) (a : BitVec 3) (b : BitVec 3)
  /-- Packs p0-p6 and a set bit 7 into a register. (R93) -/
  | pmovRd (g : BitVec 3) (d : BitVec 7)
  /-- Sets p0-p6 from bits [6:0] of a register. (R93) -/
  | pmovWr (g : BitVec 3) (a : BitVec 7)
  /-- Writes a sign-extended 14-bit immediate. (R91) -/
  | movi (g : BitVec 3) (d : BitVec 7) (i : BitVec 14)
  /-- Writes the 32-bit literal word that follows the instruction. (R91) -/
  | movl (g : BitVec 3) (d : BitVec 7) (lit : Word)
  /-- Compares a register with a sign-extended 7-bit immediate and writes a predicate. (R92) -/
  | cmpi (g : BitVec 3) (c : BitVec 4) (p : BitVec 3) (a : BitVec 7) (i : BitVec 7)
  /-- Adds a sign-extended 7-bit immediate, wrapping. (R94) -/
  | addImm (g : BitVec 3) (d : BitVec 7) (a : BitVec 7) (i : BitVec 7)
  /-- Bitwise and with a sign-extended immediate. (R94) -/
  | andImm (g : BitVec 3) (d : BitVec 7) (a : BitVec 7) (i : BitVec 7)
  /-- Bitwise or with a sign-extended immediate. (R94) -/
  | orImm (g : BitVec 3) (d : BitVec 7) (a : BitVec 7) (i : BitVec 7)
  /-- Bitwise exclusive or with a sign-extended immediate. (R94) -/
  | xorImm (g : BitVec 3) (d : BitVec 7) (a : BitVec 7) (i : BitVec 7)
  /-- Shifts left by an immediate count 0-31. (R94) -/
  | shlImm (g : BitVec 3) (d : BitVec 7) (a : BitVec 7) (i : BitVec 5)
  /-- Logical right shift by an immediate count 0-31. (R94) -/
  | shrImm (g : BitVec 3) (d : BitVec 7) (a : BitVec 7) (i : BitVec 5)
  /-- Arithmetic right shift by an immediate count 0-31. (R94) -/
  | sarImm (g : BitVec 3) (d : BitVec 7) (a : BitVec 7) (i : BitVec 5)
  /-- Rotates left by an immediate count 0-31. (R94) -/
  | rotImm (g : BitVec 3) (d : BitVec 7) (a : BitVec 7) (i : BitVec 5)
  /-- Returns the lesser FP32 operand, ignoring a single NaN. (R96) -/
  | fmin (g : BitVec 3) (d : BitVec 7) (a : BitVec 7) (b : BitVec 7)
  /-- Returns the greater FP32 operand, ignoring a single NaN. (R96) -/
  | fmax (g : BitVec 3) (d : BitVec 7) (a : BitVec 7) (b : BitVec 7)
  /-- Divides two FP32 values correctly rounded in s.rm. (R97) -/
  | fdiv (g : BitVec 3) (d : BitVec 7) (a : BitVec 7) (b : BitVec 7)
  /-- Adds two FP32 values rounded in s.rm. (R95) -/
  | fadd (g : BitVec 3) (d : BitVec 7) (a : BitVec 7) (b : BitVec 7)
  /-- Adds two FP32 values rounded to nearest-even. (R95) -/
  | faddRn (g : BitVec 3) (d : BitVec 7) (a : BitVec 7) (b : BitVec 7)
  /-- Subtracts two FP32 values rounded in s.rm. (R95) -/
  | fsub (g : BitVec 3) (d : BitVec 7) (a : BitVec 7) (b : BitVec 7)
  /-- Subtracts two FP32 values rounded to nearest-even. (R95) -/
  | fsubRn (g : BitVec 3) (d : BitVec 7) (a : BitVec 7) (b : BitVec 7)
  /-- Multiplies two FP32 values rounded in s.rm. (R95) -/
  | fmul (g : BitVec 3) (d : BitVec 7) (a : BitVec 7) (b : BitVec 7)
  /-- Multiplies two FP32 values rounded to nearest-even. (R95) -/
  | fmulRn (g : BitVec 3) (d : BitVec 7) (a : BitVec 7) (b : BitVec 7)
  /-- Fused multiply-add a x b + d with one rounding in s.rm. (R95) -/
  | ffma (g : BitVec 3) (d : BitVec 7) (a : BitVec 7) (b : BitVec 7)
  /-- Fused multiply-add rounded to nearest-even. (R95) -/
  | ffmaRn (g : BitVec 3) (d : BitVec 7) (a : BitVec 7) (b : BitVec 7)
  /-- Scales an FP32 value by 2 to a signed integer power with one rounding. (R98) -/
  | fscale (g : BitVec 3) (d : BitVec 7) (a : BitVec 7) (b : BitVec 7)
  /-- Compares two FP32 values and writes a predicate. (R99) -/
  | fcmp (g : BitVec 3) (c : BitVec 4) (p : BitVec 3) (a : BitVec 7) (b : BitVec 7)
  /-- Clears the sign of a non-NaN FP32 operand. (R100) -/
  | fabs (g : BitVec 3) (d : BitVec 7) (a : BitVec 7)
  /-- Inverts the sign of a non-NaN FP32 operand. (R100) -/
  | fneg (g : BitVec 3) (d : BitVec 7) (a : BitVec 7)
  /-- Writes a one-hot class mask of an FP32 operand. (R100) -/
  | fclass (g : BitVec 3) (d : BitVec 7) (a : BitVec 7)
  /-- Rounds an FP32 value to an integral value in the field's mode. (R101) -/
  | frnd (g : BitVec 3) (d : BitVec 7) (a : BitVec 7) (m : BitVec 7)
  /-- Correctly rounded reciprocal. (R102) -/
  | frcp (g : BitVec 3) (d : BitVec 7) (a : BitVec 7) (m : BitVec 7)
  /-- Correctly rounded reciprocal square root. (R102) -/
  | frsq (g : BitVec 3) (d : BitVec 7) (a : BitVec 7) (m : BitVec 7)
  /-- Correctly rounded square root. (R102) -/
  | fsqrt (g : BitVec 3) (d : BitVec 7) (a : BitVec 7) (m : BitVec 7)
  /-- Correctly rounded power of two. (R102) -/
  | fex2 (g : BitVec 3) (d : BitVec 7) (a : BitVec 7) (m : BitVec 7)
  /-- Correctly rounded base-2 logarithm. (R102) -/
  | flg2 (g : BitVec 3) (d : BitVec 7) (a : BitVec 7) (m : BitVec 7)
  /-- Correctly rounded sine. (R102) -/
  | fsin (g : BitVec 3) (d : BitVec 7) (a : BitVec 7) (m : BitVec 7)
  /-- Correctly rounded cosine. (R102) -/
  | fcos (g : BitVec 3) (d : BitVec 7) (a : BitVec 7) (m : BitVec 7)
  /-- Converts between formats under the selector, rounding in s.rm. (R104) -/
  | cvt (g : BitVec 3) (d : BitVec 7) (a : BitVec 7) (cs : BitVec 7)
  /-- Conversion rounding to nearest-even. (R104) -/
  | cvtRn (g : BitVec 3) (d : BitVec 7) (a : BitVec 7) (cs : BitVec 7)
  /-- Conversion rounding to nearest, ties away. (R104) -/
  | cvtRna (g : BitVec 3) (d : BitVec 7) (a : BitVec 7) (cs : BitVec 7)
  /-- Conversion rounding toward zero. (R104) -/
  | cvtRz (g : BitVec 3) (d : BitVec 7) (a : BitVec 7) (cs : BitVec 7)
  /-- Conversion rounding toward +infinity. (R104) -/
  | cvtRp (g : BitVec 3) (d : BitVec 7) (a : BitVec 7) (cs : BitVec 7)
  /-- Conversion rounding toward -infinity. (R104) -/
  | cvtRm (g : BitVec 3) (d : BitVec 7) (a : BitVec 7) (cs : BitVec 7)
  /-- Adds two packed BF16 element pairs. (R103) -/
  | hadd2Bf16 (g : BitVec 3) (d : BitVec 7) (a : BitVec 7) (b : BitVec 7)
  /-- Subtracts packed BF16 elements. (R103) -/
  | hsub2Bf16 (g : BitVec 3) (d : BitVec 7) (a : BitVec 7) (b : BitVec 7)
  /-- Multiplies packed BF16 elements. (R103) -/
  | hmul2Bf16 (g : BitVec 3) (d : BitVec 7) (a : BitVec 7) (b : BitVec 7)
  /-- Fused multiply-add on packed BF16 elements. (R103) -/
  | hfma2Bf16 (g : BitVec 3) (d : BitVec 7) (a : BitVec 7) (b : BitVec 7)
  /-- Packed BF16 minimum. (R103) -/
  | hmin2Bf16 (g : BitVec 3) (d : BitVec 7) (a : BitVec 7) (b : BitVec 7)
  /-- Packed BF16 maximum. (R103) -/
  | hmax2Bf16 (g : BitVec 3) (d : BitVec 7) (a : BitVec 7) (b : BitVec 7)
  /-- Adds packed FP16 elements. (R103) -/
  | hadd2Hf16 (g : BitVec 3) (d : BitVec 7) (a : BitVec 7) (b : BitVec 7)
  /-- Subtracts packed FP16 elements. (R103) -/
  | hsub2Hf16 (g : BitVec 3) (d : BitVec 7) (a : BitVec 7) (b : BitVec 7)
  /-- Multiplies packed FP16 elements. (R103) -/
  | hmul2Hf16 (g : BitVec 3) (d : BitVec 7) (a : BitVec 7) (b : BitVec 7)
  /-- Fused multiply-add on packed FP16 elements. (R103) -/
  | hfma2Hf16 (g : BitVec 3) (d : BitVec 7) (a : BitVec 7) (b : BitVec 7)
  /-- Packed FP16 minimum. (R103) -/
  | hmin2Hf16 (g : BitVec 3) (d : BitVec 7) (a : BitVec 7) (b : BitVec 7)
  /-- Packed FP16 maximum. (R103) -/
  | hmax2Hf16 (g : BitVec 3) (d : BitVec 7) (a : BitVec 7) (b : BitVec 7)
  /-- Loads a byte sign-extended to 32 bits. (R141) -/
  | ldS8 (g : BitVec 3) (d : BitVec 7) (a : BitVec 7) (o : BitVec 7)
  /-- Loads a byte zero-extended to 32 bits. (R141) -/
  | ldZ8 (g : BitVec 3) (d : BitVec 7) (a : BitVec 7) (o : BitVec 7)
  /-- Loads a halfword sign-extended. (R141) -/
  | ldS16 (g : BitVec 3) (d : BitVec 7) (a : BitVec 7) (o : BitVec 7)
  /-- Loads a halfword zero-extended. (R141) -/
  | ldZ16 (g : BitVec 3) (d : BitVec 7) (a : BitVec 7) (o : BitVec 7)
  /-- Loads a 4-byte word. (R141) -/
  | ldW (g : BitVec 3) (d : BitVec 7) (a : BitVec 7) (o : BitVec 7)
  /-- Loads 8 bytes into an even pair. (R141) -/
  | ldD (g : BitVec 3) (d : BitVec 7) (a : BitVec 7) (o : BitVec 7)
  /-- Loads 16 bytes into a quad. (R141) -/
  | ldQ (g : BitVec 3) (d : BitVec 7) (a : BitVec 7) (o : BitVec 7)
  /-- Load with a 32-bit literal byte offset and optional advanced bit. (R142) -/
  | ldl (g : BitVec 3) (d : BitVec 7) (a : BitVec 7) (sz : BitVec 3) (adv : BitVec 1) (lit : Word)
  /-- Advanced word load that enters the read set inside speculation. (R141) -/
  | ldAdvW (g : BitVec 3) (d : BitVec 7) (a : BitVec 7) (o : BitVec 7)
  /-- Advanced 8-byte load. (R141) -/
  | ldAdvD (g : BitVec 3) (d : BitVec 7) (a : BitVec 7) (o : BitVec 7)
  /-- Advanced 16-byte load. (R141) -/
  | ldAdvQ (g : BitVec 3) (d : BitVec 7) (a : BitVec 7) (o : BitVec 7)
  /-- Store with a 32-bit literal byte offset. (R142) -/
  | stl (g : BitVec 3) (d : BitVec 7) (a : BitVec 7) (sz : BitVec 3) (lit : Word)
  /-- Stores the low byte of a register. (R141) -/
  | stB8 (g : BitVec 3) (d : BitVec 7) (a : BitVec 7) (o : BitVec 7)
  /-- Stores the low halfword of a register. (R141) -/
  | stB16 (g : BitVec 3) (d : BitVec 7) (a : BitVec 7) (o : BitVec 7)
  /-- Stores a 4-byte word, to the banks or into the Hayrick. (R141) -/
  | stW (g : BitVec 3) (d : BitVec 7) (a : BitVec 7) (o : BitVec 7)
  /-- Stores an 8-byte pair. (R141) -/
  | stD (g : BitVec 3) (d : BitVec 7) (a : BitVec 7) (o : BitVec 7)
  /-- Stores a 16-byte quad. (R141) -/
  | stQ (g : BitVec 3) (d : BitVec 7) (a : BitVec 7) (o : BitVec 7)
  /-- Loads a scratchpad word without running a loss handler. (R143) -/
  | shld (g : BitVec 3) (d : BitVec 7) (a : BitVec 7) (o : BitVec 7)
  /-- Collective transposing load of byte fragments from the own scratchpad. (R155) -/
  | ldfragT8 (g : BitVec 3) (d : BitVec 7) (a : BitVec 7) (o : BitVec 7)
  /-- Collective transposing load of halfword fragments. (R155) -/
  | ldfragT16 (g : BitVec 3) (d : BitVec 7) (a : BitVec 7) (o : BitVec 7)
  /-- Loads one tensor element through a shape register, or the fill value out of bounds. (R145) -/
  | ldt (g : BitVec 3) (d : BitVec 7) (c : BitVec 7) (h : BitVec 3)
  /-- Stores one tensor element through a shape register when in bounds. (R145) -/
  | stt (g : BitVec 3) (d : BitVec 7) (c : BitVec 7) (h : BitVec 3)
  /-- Adds an FP32 value into a wide cell at its home. (R148) -/
  | wadd (g : BitVec 3) (a : BitVec 7) (b : BitVec 7)
  /-- Reads a wide cell and its header into a register image. (R149) -/
  | wld (g : BitVec 3) (d : BitVec 7) (a : BitVec 7)
  /-- Atomic add at the home, returning the old value. (R146) -/
  | atomAdd (g : BitVec 3) (d : BitVec 7) (a : BitVec 7) (b : BitVec 7)
  /-- Atomic signed minimum. (R146) -/
  | atomMin (g : BitVec 3) (d : BitVec 7) (a : BitVec 7) (b : BitVec 7)
  /-- Atomic signed maximum. (R146) -/
  | atomMax (g : BitVec 3) (d : BitVec 7) (a : BitVec 7) (b : BitVec 7)
  /-- Atomic and. (R146) -/
  | atomAnd (g : BitVec 3) (d : BitVec 7) (a : BitVec 7) (b : BitVec 7)
  /-- Atomic or. (R146) -/
  | atomOr (g : BitVec 3) (d : BitVec 7) (a : BitVec 7) (b : BitVec 7)
  /-- Atomic exclusive or. (R146) -/
  | atomXor (g : BitVec 3) (d : BitVec 7) (a : BitVec 7) (b : BitVec 7)
  /-- Atomic exchange. (R146) -/
  | atomExch (g : BitVec 3) (d : BitVec 7) (a : BitVec 7) (b : BitVec 7)
  /-- Atomic compare and swap. (R146) -/
  | atomCas (g : BitVec 3) (d : BitVec 7) (a : BitVec 7) (b : BitVec 7)
  /-- Acquire through an object at a scope. (R150) -/
  | acq (g : BitVec 3) (a : BitVec 7) (sc : BitVec 4) (k : BitVec 3)
  /-- Release through an object at a scope; a commit point. (R150) -/
  | rel (g : BitVec 3) (a : BitVec 7) (sc : BitVec 4) (k : BitVec 3)
  /-- Release followed by acquire of the default object at a scope. (R150) -/
  | fence (g : BitVec 3) (sc : BitVec 4)
  /-- Binds a memory region to a synchronisation object. (R151) -/
  | bind (g : BitVec 3) (d : BitVec 7) (a : BitVec 7) (b : BitVec 7)
  /-- Removes every binding to the described object. (R151) -/
  | unbind (g : BitVec 3) (d : BitVec 7)
  /-- Requests that a page be made resident. (R152) -/
  | pgreq (g : BitVec 3) (a : BitVec 7) (o : BitVec 7)
  /-- Writes the residency state of a page. (R152) -/
  | pgprobe (g : BitVec 3) (d : BitVec 7) (a : BitVec 7) (o : BitVec 7)
  /-- Branches by a signed 21-bit word offset. (R113) -/
  | br (g : BitVec 3) (o : BitVec 21)
  /-- Branches and writes the next header address into a link pair. (R113) -/
  | brl (g : BitVec 3) (l : BitVec 7) (o : BitVec 14)
  /-- Jumps to the address in a register pair. (R114) -/
  | jmp (g : BitVec 3) (a : BitVec 7)
  /-- Pushes the next header and branches by offset. (R114) -/
  | call (g : BitVec 3) (o : BitVec 21)
  /-- Pushes the next header and jumps to a register pair. (R114) -/
  | calli (g : BitVec 3) (a : BitVec 7)
  /-- Pops the call stack and resumes there. (R114) -/
  | ret (g : BitVec 3)
  /-- Enrols the thread in a join register. (R116) -/
  | enrol (g : BitVec 3) (j : BitVec 3)
  /-- Parks an enrolled thread until all enrolled threads arrive. (R116) -/
  | join (g : BitVec 3) (j : BitVec 3)
  /-- Ends the thread; a commit point. (R118) -/
  | exit (g : BitVec 3)
  /-- Raises the TRAP cause with a code. (R124) -/
  | trap (g : BitVec 3) (c : BitVec 8)
  /-- Leaves handler mode and resumes the thread. (R125) -/
  | tret (g : BitVec 3)
  /-- Passes the thread to the debug handler or raises BRK. (R124) -/
  | brk (g : BitVec 3) (c : BitVec 8)
  /-- Does nothing for one issue slot. (R119) -/
  | nop (g : BitVec 3)
  /-- Holds the thread until its outstanding counters are at or below the limits. (R119) -/
  | wait (g : BitVec 3) (l : BitVec 4) (st : BitVec 4) (c : BitVec 4) (t : BitVec 4)
  /-- Begins group speculation with the squad. (R132) -/
  | tryW (g : BitVec 3) (o : BitVec 21)
  /-- Begins speculation for the thread alone. (R133) -/
  | tryL (g : BitVec 3) (o : BitVec 21)
  /-- Ends speculation, turning speculative stores into ordinary entries. (R134) -/
  | tcommit (g : BitVec 3)
  /-- Aborts the speculation with a user code. (R135) -/
  | tabort (g : BitVec 3) (c : BitVec 8)
  /-- Another agent's write to a read-set byte is observed and aborts the speculation with code 1. (R129) -/
  | speculationConflict
  /-- Reads a special register. (R120) -/
  | srd (g : BitVec 3) (d : BitVec 7) (n : BitVec 12)
  /-- Writes a special register. (R120) -/
  | swr (g : BitVec 3) (src : BitVec 7) (n : BitVec 12)
  /-- Collective shuffle reading a value from an indexed position. (R158) -/
  | shflIdx (g : BitVec 3) (k : BitVec 2) (d : BitVec 7) (a : BitVec 7) (b : BitVec 7)
  /-- Collective shuffle from position p - n. (R158) -/
  | shflUp (g : BitVec 3) (d : BitVec 7) (a : BitVec 7) (m : BitVec 2) (n : BitVec 5)
  /-- Collective shuffle from position p + n. (R158) -/
  | shflDown (g : BitVec 3) (d : BitVec 7) (a : BitVec 7) (m : BitVec 2) (n : BitVec 5)
  /-- Collective shuffle from position p xor n. (R158) -/
  | shflXor (g : BitVec 3) (d : BitVec 7) (a : BitVec 7) (m : BitVec 2) (n : BitVec 5)
  /-- Collective vote over the members' truth values. (R159) -/
  | vote (g : BitVec 3) (d : BitVec 7) (a : BitVec 7) (m : BitVec 2) (o : BitVec 5)
  /-- Collective match of members' values. (R159) -/
  | matchLanes (g : BitVec 3) (d : BitVec 7) (a : BitVec 7) (m : BitVec 2) (o : BitVec 5)
  /-- Collective reduction delivered to every member. (R160) -/
  | gred (g : BitVec 3) (d : BitVec 7) (a : BitVec 7) (m : BitVec 2) (o : BitVec 5)
  /-- Collective prefix scan over member positions. (R161) -/
  | gscan (g : BitVec 3) (d : BitVec 7) (a : BitVec 7) (m : BitVec 2) (o : BitVec 5)
  /-- Copies a mask register into a general register. (R162) -/
  | lanesGet (g : BitVec 3) (d : BitVec 7) (m : BitVec 2)
  /-- Writes a mask register from a general register. (R162) -/
  | lanesSet (g : BitVec 3) (a : BitVec 7) (m : BitVec 2)
  /-- Writes a mask ANDed with the squad's present threads. (R162) -/
  | lanesPresent (g : BitVec 3) (d : BitVec 7) (m : BitVec 2)
  /-- Reserves operand-buffer space described by a reservation record. (R219) -/
  | breserve (u : BitVec 3) (r : BitVec 5)
  /-- Frees an operand-buffer reservation after its readers complete. (R219) -/
  | brelease (u : BitVec 3)
  /-- Fills buffer rows from memory, optionally transposed or converted. (R220) -/
  | bfill (u : BitVec 3) (r : BitVec 5) (x : BitVec 3)
  /-- Fills buffer rows from table rows chosen by an index list. (R220) -/
  | bgather (u : BitVec 3) (r : BitVec 5) (x : BitVec 2)
  /-- Contracts two buffers into an accumulator tile on its wide-cell grid. (R226) -/
  | mma (t : BitVec 4) (a : BitVec 3) (b : BitVec 3) (l : BitVec 5) (m : BitVec 2) (n : BitVec 2) (z : BitVec 1)
  /-- Contracts a wide tile with a buffer into an accumulator tile. (R226) -/
  | mmaw (t : BitVec 4) (a : BitVec 3) (b : BitVec 3) (l : BitVec 5) (m : BitVec 2) (n : BitVec 2) (z : BitVec 1)
  /-- Allocates a zeroed accumulator tile. (R221) -/
  | talloc (t : BitVec 4) (r : BitVec 5)
  /-- Frees an accumulator tile. (R221) -/
  | tfree (t : BitVec 4)
  /-- Zeroes every cell and sticky bit of a tile. (R221) -/
  | tzero (t : BitVec 4)
  /-- Loads a whole tile from memory. (R222) -/
  | tld (t : BitVec 4) (r : BitVec 5) (x : BitVec 3)
  /-- Stores a whole tile to memory as an engine write. (R222) -/
  | tst (t : BitVec 4) (r : BitVec 5) (x : BitVec 3)
  /-- Posts a plain tile as the provisional root of a lineage tag. (R232) -/
  | tpost (t : BitVec 4) (l : BitVec 5)
  /-- Declares a provisional root's contraction final. (R233) -/
  | tfinal (t : BitVec 4)
  /-- Completes when a tag settles and writes its sticky status. (R234) -/
  | tsettle (l : BitVec 5) (r : BitVec 5)
  /-- Converts a tile into an operand-buffer reservation. (R230) -/
  | tcvtBuffer (t : BitVec 4) (u : BitVec 3) (n : BitVec 1) (z : BitVec 1)
  /-- Converts a tile into memory in a chosen format. (R230) -/
  | tcvtMemory (t : BitVec 4) (r : BitVec 5) (n : BitVec 1) (z : BitVec 1)
  /-- Sums a tile across a reduction group of modules. (R398) -/
  | fred (t : BitVec 4) (r : BitVec 5)
  /-- Adds tile U into tile T exactly. (R229) -/
  | tadd (t : BitVec 4) (u : BitVec 4) (l : BitVec 5)
  /-- Subtracts tile U from tile T exactly. (R229) -/
  | tsub (t : BitVec 4) (u : BitVec 4) (l : BitVec 5)
  /-- Writes the negation of tile U. (R229) -/
  | tneg (t : BitVec 4) (u : BitVec 4) (l : BitVec 5)
  /-- Writes tile U scaled by 2^k. (R229) -/
  | tshift (t : BitVec 4) (u : BitVec 4) (l : BitVec 5) (r : BitVec 5)
  /-- Writes tile U times an integer. (R229) -/
  | tmuli (t : BitVec 4) (u : BitVec 4) (l : BitVec 5) (r : BitVec 5)
  /-- Writes the row sums of tile U. (R229) -/
  | trsum (t : BitVec 4) (u : BitVec 4) (l : BitVec 5)
  /-- Writes the column sums of tile U. (R229) -/
  | tcsum (t : BitVec 4) (u : BitVec 4) (l : BitVec 5)
  /-- Writes the transpose of tile U. (R229) -/
  | ttrans (t : BitVec 4) (u : BitVec 4) (l : BitVec 5)
  /-- Writes a sub-block of tile U. (R229) -/
  | tslice (t : BitVec 4) (u : BitVec 4) (l : BitVec 5) (r : BitVec 5)
  /-- Copies tile U into tile T. (R229) -/
  | tcopy (t : BitVec 4) (u : BitVec 4) (l : BitVec 5)
  /-- Copies one drive register to another. (R249) -/
  | dmov (d : BitVec 5) (a : BitVec 5)
  /-- Writes a sign-extended 10-bit immediate into a drive register. (R249) -/
  | dmovImm (d : BitVec 5) (i : BitVec 10)
  /-- Reads the tile status word. (R249) -/
  | dmovRdstat (d : BitVec 5)
  /-- Writes the tile status word. (R249) -/
  | dmovWrstat (a : BitVec 5)
  /-- Reads the drive mode register. (R249) -/
  | dmovRdrm (d : BitVec 5)
  /-- Writes the drive mode register. (R249) -/
  | dmovWrrm (a : BitVec 5)
  /-- Reads the drive copies and tiles counters. (R249) -/
  | dmovRdcnt (d : BitVec 5)
  /-- Reads the workgroup identifier. (R249) -/
  | dmovRdwg (d : BitVec 5)
  /-- Reads the low cycle count and latches the high half. (R249) -/
  | dmovRdclk (d : BitVec 5)
  /-- Reads the latched or live high cycle count. (R249) -/
  | dmovRdclkh (d : BitVec 5)
  /-- Writes a literal word into a drive register. (R250) -/
  | dmovl (d : BitVec 5) (lit : Word)
  /-- Adds two drive registers modulo 2^32. (R251) -/
  | dadd (d : BitVec 5) (a : BitVec 5) (b : BitVec 5)
  /-- Subtracts two drive registers. (R251) -/
  | daddSub (d : BitVec 5) (a : BitVec 5) (b : BitVec 5)
  /-- Adds a 5-bit signed immediate to a drive register. (R251) -/
  | daddImm (d : BitVec 5) (a : BitVec 5) (i : BitVec 5)
  /-- Steps a 57-bit address pair by a signed register. (R251) -/
  | daddD (d : BitVec 5) (a : BitVec 5) (b : BitVec 5)
  /-- Multiplies two drive registers modulo 2^32. (R252) -/
  | dmul (d : BitVec 5) (a : BitVec 5) (b : BitVec 5)
  /-- Writes 1 or 0 by comparing two drive registers. (R253) -/
  | dcmp (d : BitVec 5) (a : BitVec 5) (b : BitVec 5) (c : BitVec 4)
  /-- Branches the drive stream when a register is nonzero. (R254) -/
  | dbr (a : BitVec 5) (o : BitVec 16)
  /-- Counts a drive loop down and branches while nonzero. (R254) -/
  | dloop (a : BitVec 5) (o : BitVec 16)
  /-- Closes the current iteration and writes the new iteration number. (R255) -/
  | dnext (d : BitVec 5)
  /-- Stops the drive stream. (R256) -/
  | dhalt
  /-- Holds the drive stream until its counters fall to the limits. (R257) -/
  | dsync (c : BitVec 4) (t : BitVec 4)
  /-- Issues a plain copy tracked by a tag. (R263) -/
  | xcopy (g : BitVec 3) (r : BitVec 7) (t : BitVec 6) (b : BitVec 4) (e : BitVec 1)
  /-- Issues a copy that adds each element at its home. (R266) -/
  | xcopyAdd (g : BitVec 3) (r : BitVec 7) (t : BitVec 6) (b : BitVec 4) (e : BitVec 1)
  /-- Issues an untagged copy that posts an event at completion. (R267) -/
  | xcopyDetach (g : BitVec 3) (r : BitVec 7)
  /-- Issues a copy with one side on another module. (R397) -/
  | xcopyFabric (g : BitVec 3) (r : BitVec 7) (t : BitVec 6) (b : BitVec 4) (e : BitVec 1)
  /-- Waits until some tag in a mask is done. (R273) -/
  | xwaitany (g : BitVec 3) (r : BitVec 7)
  /-- Waits until every tag in a mask is done. (R273) -/
  | xwaitall (g : BitVec 3) (r : BitVec 7)
  /-- Returns the lowest done tag of a mask and its status. (R274) -/
  | xffr (g : BitVec 3) (r : BitVec 7)
  /-- Returns the done bits of all tags. (R275) -/
  | xtags (g : BitVec 3) (r : BitVec 7)
  /-- Sets a named barrier's expected count. (R277) -/
  | barInit (g : BitVec 3) (r : BitVec 7) (b : BitVec 4)
  /-- Arrives at a named barrier without waiting. (R278) -/
  | barArv (g : BitVec 3) (r : BitVec 7) (b : BitVec 4)
  /-- Arrives at a named barrier and waits for a phase, or waits on parity. (R278) -/
  | barSync (g : BitVec 3) (r : BitVec 7) (b : BitVec 4)
  /-- Uninitialises a named barrier. (R277) -/
  | barInval (g : BitVec 3) (b : BitVec 4)
  /-- Workgroup-wide checkpoint and commit point writing the restart record. (R281) -/
  | ckpt (g : BitVec 3)
  /-- Places a scratchpad allocation of a rank and handler. (R202) -/
  | salloc (g : BitVec 3) (d : BitVec 7) (a : BitVec 7)
  /-- Frees a scratchpad allocation. (R204) -/
  | sfree (g : BitVec 3) (a : BitVec 7)
  /-- Relights a lost allocation's banks if the budget allows. (R207) -/
  | srelight (g : BitVec 3) (d : BitVec 7) (a : BitVec 7)
  /-- Ends a loss entry and resumes the retried access. (R212) -/
  | sret (g : BitVec 3)
  /-- Describes an allocation. (R205) -/
  | sinfoAlloc (g : BitVec 3) (d : BitVec 7) (a : BitVec 7)
  /-- Describes the current loss entry. (R205) -/
  | sinfoEntry (g : BitVec 3) (d : BitVec 7)
  /-- Describes the core's scratchpad capacity. (R205) -/
  | sinfoCore (g : BitVec 3) (d : BitVec 7)
  /-- Adjusts the core's bank budget offset in a test-budget launch. (R206) -/
  | bdgt (g : BitVec 3) (a : BitVec 7)
  /-- Joins the workgroup to a commons slot. (R324) -/
  | cjoin (g : BitVec 3) (d : BitVec 7) (a : BitVec 7)
  /-- Describes the workgroup's commons membership. (R324) -/
  | cjoinInfo (g : BitVec 3) (d : BitVec 7)
  /-- Ends commons membership after draining and revokes the slot. (R325) -/
  | cleave (g : BitVec 3) (d : BitVec 7)
  /-- Arrives at the team barrier and waits. (R320) -/
  | tmbarSync (g : BitVec 3) (a : BitVec 7)
  /-- Arrives at the team barrier without waiting. (R320) -/
  | tmbarArv (g : BitVec 3) (a : BitVec 7)
  /-- Releases at device scope and then signals a named event. (R353) -/
  | evsig (g : BitVec 3) (a : BitVec 7)
  /-- Waits until a named event is set, then acquires at device scope. (R353) -/
  | evwait (g : BitVec 3) (a : BitVec 7)
  /-- Clears a named event. (R353) -/
  | evclr (g : BitVec 3) (a : BitVec 7)
  /-- Sets a named event's target and clears it. (R353) -/
  | evarm (g : BitVec 3) (a : BitVec 7)
  /-- Submits a launch descriptor to the device queue. (R349) -/
  | lnch (g : BitVec 3) (d : BitVec 7) (a : BitVec 7)
  /-- Releases at device scope and signals the workgroup's wgev event once. (R351) -/
  | wgdone (g : BitVec 3)
  /-- Removes translations of one page module-wide and replays its parked accesses. (R346) -/
  | ptsyncPage (g : BitVec 3) (a : BitVec 7)
  /-- Removes every translation of the context and replays parked accesses. (R346) -/
  | ptsyncAll (g : BitVec 3)
  /-- Removes an instruction-cache line from every core within a scope. (R347) -/
  | icinv (g : BitVec 3) (a : BitVec 7) (sc : BitVec 4)
  /-- Releases at fabric scope and signals an event on another module. (R402) -/
  | fsig (g : BitVec 3) (a : BitVec 7)
  /-- A thread or drive stream takes a clause header, checks it and waits on its counter limits before the first word. (R35) -/
  | clauseHeaderTake
  /-- A thread or drive stream about to issue a word matching an enabled comparator is held and recorded. (R378) -/
  | pcComparatorHold (k : Nat)
  /-- A load's data returns, its registers are written and the loads counter falls. (R185) -/
  | loadComplete (t : Nat) (k : Nat)
  /-- A committed Hayrick entry is performed at its home in drain order. (R284) -/
  | hayrickEntryDrain (w : Nat)
  /-- The core begins exchanging a blocked or absent active squad for a ready pending squad. (R181) -/
  | squadSwapBegin (c : Nat) (slot : Nat) (w : Nat) (q : Nat)
  /-- A swap completes and the incoming squad may issue. (R181) -/
  | squadSwapEnd (c : Nat)
  /-- The Stile places a whole team once all its workgroups fit. (R318) -/
  | teamPlacement (l : Nat) (cores : List Nat) (tvec : VAddr) (csb : VAddr)
  /-- A workgroup whose threads, drive stream, copies and drain are finished ends and returns its reservations. (R178) -/
  | workgroupEnd (w : Nat)
  /-- A queued launch becomes ready when its wait events are all set and begins placement. (R350) -/
  | launchReady (l : Nat)
  /-- Meridian answers a lnch with a launch id or a status. (R349) -/
  | lnchAnswer (r : Nat) (sys : WorxusLaunch)
  /-- A copy waiting for its tag, a queue entry and lock entries takes effect. (R263) -/
  | copyTakesEffect (c : Nat)
  /-- A copy completes, releases locks, sets its tag, arrives at its barrier and frees its entry. (R265) -/
  | copyComplete (c : Nat)
  /-- A queued drive-stream engine instruction executes once its dependences have completed. (R223) -/
  | engineOpExecute (w : Nat) (k : Nat)
  /-- An engine instruction completes, returning its permit and lowering the tiles counter. (R223) -/
  | engineOpComplete (w : Nat) (k : Nat)
  /-- Meridian commands a Stile to pre-empt a team. (R358) -/
  | preemptTeam (l : Nat) (t : Nat)
  /-- At expiry of the ckpt bound every squad stops and the whole context is saved. (R294) -/
  | fullSave (w : Nat)
  /-- A saved context is written to its DRAM area and the reservations are freed. (R296) -/
  | contextWritten (w : Nat)
  /-- Meridian commands a Stile to resume a saved team: its launch, its place in the launch and the Stile
commanded. (R358) -/
  | resumeTeam (team : Nat × Nat × Nat) (edits : List ContextEdit)
  /-- A saved workgroup is restored on a core once its reservations and banks are available. (R298) -/
  | workgroupResume (w : Nat) (core : Nat)
  /-- Meridian commands a Stile to kill a workgroup. (R358) -/
  | killWorkgroup (w : Nat)
  /-- A workgroup consumes an uncorrectable error and is killed. (R301) -/
  | uncorrectableErrorConsumed (w : Nat) (source : BitVec 4) (site : ErrorSite) (addr : BitVec 64)
  /-- A killed workgroup is relaunched from its record or start once committed entries are performed. (R302) -/
  | workgroupRelaunch (w : Nat) (core : Nat)
  /-- Meridian commands a Stile to withdraw a core. (R358) -/
  | withdrawCore (c : Nat)
  /-- Meridian commands a Stile to return a core to placement. (R358) -/
  | returnCore (c : Nat)
  /-- A receiver acknowledges a command, returning a send permit. (R358) -/
  | commandAck (stile : Nat) (up : Bool)
  /-- Every 100 us the Stiles report workgroup charges to Meridian. (R359) -/
  | chargeReport (stile : Nat)
  /-- A write of the host budget step changes the effective step. (R360) -/
  | budgetHostWrite (v : Word)
  /-- A management-port message sets the management budget step. (R374) -/
  | budgetMgmtSet (v : Word)
  /-- Assertion of the power-brake input forces step 0. (R374) -/
  | pwrbrkNAssert
  /-- Deassertion of the power-brake input releases the forced step. (R374) -/
  | pwrbrkNDeassert
  /-- Every 10 us input power is measured and the fast limit may change. (R363) -/
  | powerMeasurement (watts : Nat)
  /-- A change of step or thermal reduction reaches a column and its lit counts change. (R362) -/
  | budgetApply (c : Nat)
  /-- An array, lane group or slice finishes its in-field test and is lit or retired. (R369) -/
  | inFieldTestComplete (c : Nat) (part : TestPart) (n : Nat) (pass : Bool)
  /-- A scratchpad array reports an uncorrectable error, darkening its bank and retiring it. (R214) -/
  | uncorrectableArrayError (c : Nat) (array : Nat) (bank : Nat)
  /-- Every 64 us a column sensor is sampled and checked. (R364) `power`: the estimate for the column, in mW. -/
  | sensorSample (c : Nat) (raw : BitVec 16) (power : Nat)
  /-- Writes the thermal ring control, ignored for base or size while enabled. (R366) -/
  | tringCtlWrite (v : Word)
  /-- Software advances the thermal ring tail, freeing space. (R366) -/
  | tringTailWrite (v : Word)
  /-- Writing a slot number replays that parked access. (R345) -/
  | replayDoorbell (die : Nat) (slot : Nat)
  /-- Worxus supplies free frames to the die hub's frame ring. (R343) -/
  | frameRingSupply (die : Nat) (frames : List (BitVec 52))
  /-- A resident core performs ptsync through the die hub registers. (R346) -/
  | hubPtsync (p : Nat) (va : Option VAddr)
  /-- The expander decompresses a cold page into a frame once one is available. (R343) -/
  | expansion (die : Nat) (k : Nat)
  /-- The expanded page is marked resident, translations removed and parked accesses replayed. (R343) -/
  | expansionComplete (die : Nat) (k : Nat)
  /-- The Almanac counts a signal, setting the event and releasing waiters at its target. (R353) -/
  | eventSignalApply (k : Nat)
  /-- An uncorrectable Almanac entry is repaired from the table and its hardware waiters' workgroups killed. (R356) -/
  | almanacError (domain : Nat) (e : BitVec 16)
  /-- A die hub failure kills every workgroup on the die for relaunch elsewhere. (R356) -/
  | dieHubFailure (die : Nat)
  /-- Links train and Worxus assigns fabric numbers and routing tables. (R392) -/
  | linkTraining (link : Nat) (width : Nat) (number : BitVec 12) (routes : List (Nat × List Nat))
  /-- A flit is received and checked by CRC. (R393) -/
  | flitReceive (link : Nat) (good : Bool) (flit : Flit)
  /-- A link retrains at a lower width or goes down. (R394) -/
  | linkRetrain (link : Nat) (trains : Bool)
  /-- A reduction begins when every member has issued fred. (R399) -/
  | fredReductionBegin (group : Nat) (others : List FredMember)
  /-- A remote signal arrives and is applied to an event on the target module. (R402) -/
  | fsigArrival (domain : Nat) (e : BitVec 16)
  /-- At the planned start each module pre-empts outgoing contexts and places incoming ones. (R403) -/
  | gangSliceStart (gang : Nat) (plan : GangPlan)
  /-- A module reports ready to the gang's first module. (R403) -/
  | gangReady (gang : Nat) (m : Nat)
  /-- The slice begins when the last module reports ready. (R404) -/
  | gangSliceBegin (gang : Nat)
  /-- At P + 50 us the slice begins and late modules full-save at once. (R404) -/
  | gangLateTimeout (gang : Nat)
  /-- 48 V power-good starts the boot ROM sequence, the supply being within what the module accepts. (R370, R375) -/
  | powerGood (volts : Nat)
  /-- Input below 38 V for 1 ms kills every workgroup and stops the module. (R375) -/
  | inputUndervoltage
  /-- A quote request with a nonce is queued and its counter read and written. (R372) -/
  | quoteRequest (nonce : BitVec 256)
  /-- After the counter write completes the block signs and returns the quote. (R372) -/
  | quoteSign
  /-- A PLDM firmware-update message through the management port. (R374) -/
  | firmwareUpdate (setB : Bool) (image : ImageSet) (prefer : Bool)
  /-- A PLDM monitoring request through the management port. (R374) -/
  | pldmMonitoring
  /-- Worxus attaches a process with a debug context block loaded into its cores. (R376) -/
  | attachProcess (p : Nat) (block : Nat)
  /-- Worxus detaches a process, clearing the cores' copies. (R376) -/
  | detachProcess (p : Nat)
  /-- Every period Blink samples one active squad and writes a record. (R385) -/
  | blinkSample (c : Nat)
  /-- Every 65,536 ac Blink adds its on-core counts to the histogram area. (R384) -/
  | histogramFlush (c : Nat)
  /-- A write to a hub register without a row of its own. (R357) -/
  | registerWrite (off : Nat) (x : HubWrite)
  /-- A wadd is performed at the home of its address, adding into the wide cell and lowering the issuer's stores counter. (R148) -/
  | waddPerformed (w : Nat) (k : Nat)
  /-- The resident debug handler resumes a held thread or drive stream, which then issues its held word once or continues at the next header after brk. (R378) -/
  | debugHandlerResume (drive : Bool) (i : Nat)
  /-- Software advances dqtail, freeing debug-queue space so that a waiting kind 1-3 record is written and its thread may proceed. (R382) -/
  | dqtailWrite (p : Nat) (v : Word)
  /-- An uncorrectable DRAM error that is not consumed marks its data poisoned and sends a record. (R356) -/
  | dataPoisoned (addr : Nat)
  /-- The host reads or writes the DRAM layer through CXL.mem as device-coherent HDM with back-invalidation, or a hub
  register through BAR 0. (R357, R373) -/
  | cxlMemRequest (write : Bool) (addr : HostAddr) (data : List Byte)
  /-- Worxus ends a launch whose queued team no longer fits any cluster even when empty. (R318) -/
  | worxusEndsLaunch (l : Nat)
deriving DecidableEq, Repr

end Sys2Proof
end

