-- ==== Sys2Proof/WellFormed.lean ====
section
/-! DEFINITION. WellFormed: the operand values an instruction word may hold (R40, R41, R48, R80, R150, R216). -/

namespace Sys2Proof

/-- A register that may name a pair (R41). -/
def even (r : BitVec 7) : Bool := r.toNat % 2 = 0

/-- A register that may name a quad (R41). -/
def quad (r : BitVec 7) : Bool := r.toNat % 4 = 0

/-- A register that may name an octet (R80). -/
def octet (r : BitVec 7) : Bool := r.toNat % 8 = 0

/-- A drive register that may name a pair (R216). -/
def evenD (r : BitVec 5) : Bool := r.toNat % 2 = 0

/-- The data register a literal form of this size may name (R41, R42): 5 is `.d`, 6 is `.q`. -/
def sizeOk (sz : BitVec 3) (d : BitVec 7) : Bool :=
  if sz = 5#3 then even d else if sz = 6#3 then quad d else true

/-- The conversion selectors of R104 and the register groups each needs (R80). -/
def cvtOk (d a : BitVec 7) (s : BitVec 7) : Bool :=
  if s.toNat ≤ 7 then true
  else if s.toNat ≤ 9 then even a
  else if 0x10 ≤ s.toNat && s.toNat ≤ 0x17 then true
  else if 0x18 ≤ s.toNat && s.toNat ≤ 0x1A then quad a
  else if s.toNat = 0x20 then octet d
  else if s.toNat = 0x21 then octet a
  else if s.toNat = 0x28 || s.toNat = 0x29 then quad a
  else if s.toNat = 0x2A || s.toNat = 0x2B then quad d
  else false

/-- The object kinds of `acq` and `rel`, with the a field and the scopes each allows (R150). -/
def objectOk (a : BitVec 7) (s : BitVec 4) (k : BitVec 3) : Bool :=
  if k = 0#3 then a = 0#7 && s ≤ 9#4
  else if k = 1#3 then a ≤ 15#7 && s = 2#4
  else if k = 2#3 then a = 0#7 && s = 5#4
  else if k = 3#3 then even a && s ≤ 9#4
  else false

/-- The checks that depend on the word's fields alone (R41, R48). A device step has no word and no such check. -/
def Instr.wellFormed : Instr → Bool
  | .addS32 _ _ _ _ => true
  | .addS32Sat _ _ _ _ => true
  | .addN32Sat _ _ _ _ => true
  | .addN64 _ d a b => even d && even a && even b
  | .subS32 _ _ _ _ => true
  | .subS32Sat _ _ _ _ => true
  | .subN32Sat _ _ _ _ => true
  | .subN64 _ d a b => even d && even a && even b
  | .mulS32 _ _ _ _ => true
  | .mulS32Sat _ _ _ _ => true
  | .mulN32Sat _ _ _ _ => true
  | .mulN64 _ d _ _ => even d
  | .madS32 _ _ _ _ => true
  | .madS32Sat _ _ _ _ => true
  | .madN32Sat _ _ _ _ => true
  | .madN64 _ d _ _ => even d
  | .mulhS32 _ _ _ _ => true
  | .mulhN32 _ _ _ _ => true
  | .divS32 _ _ _ _ => true
  | .divN32 _ _ _ _ => true
  | .remS32 _ _ _ _ => true
  | .remN32 _ _ _ _ => true
  | .minS32 _ _ _ _ => true
  | .minN32 _ _ _ _ => true
  | .maxS32 _ _ _ _ => true
  | .maxN32 _ _ _ _ => true
  | .addminS32 _ _ _ _ => true
  | .addminN32 _ _ _ _ => true
  | .addmaxS32 _ _ _ _ => true
  | .addmaxN32 _ _ _ _ => true
  | .clampS32 _ _ _ _ => true
  | .clampN32 _ _ _ _ => true
  | .addc _ d _ _ => d ≤ 126#7
  | .subb _ d _ _ => d ≤ 126#7
  | .neg _ _ _ => true
  | .abs _ _ _ => true
  | .lea _ d a _ => even d && even a
  | .and _ _ _ _ => true
  | .or _ _ _ _ => true
  | .xor _ _ _ _ => true
  | .andn _ _ _ _ => true
  | .not _ _ _ => true
  | .shl _ _ _ _ => true
  | .shr _ _ _ _ => true
  | .sar _ _ _ _ => true
  | .rot _ _ _ _ => true
  | .bfx _ _ _ _ => true
  | .bfi _ _ _ _ => true
  | .popc _ _ _ => true
  | .clz _ _ _ => true
  | .ctz _ _ _ => true
  | .brev _ _ _ => true
  | .bswap _ _ _ => true
  | .sel _ _ _ _ => true
  | .mov _ _ _ => true
  | .cmp _ c p _ _ => c ≤ 9#4 && p ≠ 7#3
  | .plog _ _ d _ _ => d ≠ 7#3
  | .pmovRd _ _ => true
  | .pmovWr _ _ => true
  | .movi _ _ _ => true
  | .movl _ _ _ => true
  | .cmpi _ c p _ _ => c ≤ 9#4 && p ≠ 7#3
  | .addImm _ _ _ _ => true
  | .andImm _ _ _ _ => true
  | .orImm _ _ _ _ => true
  | .xorImm _ _ _ _ => true
  | .shlImm _ _ _ _ => true
  | .shrImm _ _ _ _ => true
  | .sarImm _ _ _ _ => true
  | .rotImm _ _ _ _ => true
  | .fmin _ _ _ _ => true
  | .fmax _ _ _ _ => true
  | .fdiv _ _ _ _ => true
  | .fadd _ _ _ _ => true
  | .faddRn _ _ _ _ => true
  | .fsub _ _ _ _ => true
  | .fsubRn _ _ _ _ => true
  | .fmul _ _ _ _ => true
  | .fmulRn _ _ _ _ => true
  | .ffma _ _ _ _ => true
  | .ffmaRn _ _ _ _ => true
  | .fscale _ _ _ _ => true
  | .fcmp _ c p _ _ => c ≤ 7#4 && p ≠ 7#3
  | .fabs _ _ _ => true
  | .fneg _ _ _ => true
  | .fclass _ _ _ => true
  | .frnd _ _ _ m => m ≤ 5#7
  | .frcp _ _ _ m => m ≤ 5#7
  | .frsq _ _ _ m => m ≤ 5#7
  | .fsqrt _ _ _ m => m ≤ 5#7
  | .fex2 _ _ _ m => m ≤ 5#7
  | .flg2 _ _ _ m => m ≤ 5#7
  | .fsin _ _ _ m => m ≤ 5#7
  | .fcos _ _ _ m => m ≤ 5#7
  | .cvt _ d a cs => cvtOk d a cs
  | .cvtRn _ d a cs => cvtOk d a cs
  | .cvtRna _ d a cs => cvtOk d a cs
  | .cvtRz _ d a cs => cvtOk d a cs
  | .cvtRp _ d a cs => cvtOk d a cs
  | .cvtRm _ d a cs => cvtOk d a cs
  | .hadd2Bf16 _ _ _ _ => true
  | .hsub2Bf16 _ _ _ _ => true
  | .hmul2Bf16 _ _ _ _ => true
  | .hfma2Bf16 _ _ _ _ => true
  | .hmin2Bf16 _ _ _ _ => true
  | .hmax2Bf16 _ _ _ _ => true
  | .hadd2Hf16 _ _ _ _ => true
  | .hsub2Hf16 _ _ _ _ => true
  | .hmul2Hf16 _ _ _ _ => true
  | .hfma2Hf16 _ _ _ _ => true
  | .hmin2Hf16 _ _ _ _ => true
  | .hmax2Hf16 _ _ _ _ => true
  | .ldS8 _ _ a _ => even a
  | .ldZ8 _ _ a _ => even a
  | .ldS16 _ _ a _ => even a
  | .ldZ16 _ _ a _ => even a
  | .ldW _ _ a _ => even a
  | .ldD _ d a _ => even d && even a
  | .ldQ _ d a _ => quad d && even a
  | .ldl _ d a sz adv _ => even a && sz ≤ 6#3 && (adv = 0#1 || 4#3 ≤ sz) && sizeOk sz d
  | .ldAdvW _ _ a _ => even a
  | .ldAdvD _ d a _ => even d && even a
  | .ldAdvQ _ d a _ => quad d && even a
  | .stl _ d a sz _ => even a && (sz = 0#3 || sz = 2#3 || sz = 4#3 || sz = 5#3 || sz = 6#3) && sizeOk sz d
  | .stB8 _ _ a _ => even a
  | .stB16 _ _ a _ => even a
  | .stW _ _ a _ => even a
  | .stD _ d a _ => even d && even a
  | .stQ _ d a _ => quad d && even a
  | .shld _ _ a _ => even a
  | .ldfragT8 _ d a _ => quad d && even a
  | .ldfragT16 _ d a _ => quad d && even a
  | .ldt _ _ _ _ => true
  | .stt _ _ _ _ => true
  | .wadd _ a _ => even a
  | .wld _ d a => quad d && even a
  | .atomAdd _ _ a _ => even a
  | .atomMin _ _ a _ => even a
  | .atomMax _ _ a _ => even a
  | .atomAnd _ _ a _ => even a
  | .atomOr _ _ a _ => even a
  | .atomXor _ _ a _ => even a
  | .atomExch _ _ a _ => even a
  | .atomCas _ _ a b => even a && even b
  | .acq _ a sc k => objectOk a sc k
  | .rel _ a sc k => objectOk a sc k
  | .fence _ sc => sc ≤ 9#4
  | .bind _ d a _ => quad d && even a
  | .unbind _ d => quad d
  | .pgreq _ a _ => even a
  | .pgprobe _ _ a _ => even a
  | .br _ _ => true
  | .brl _ l _ => even l
  | .jmp _ a => even a
  | .call _ _ => true
  | .calli _ a => even a
  | .ret _ => true
  | .enrol _ _ => true
  | .join _ _ => true
  | .exit _ => true
  | .trap _ _ => true
  | .tret _ => true
  | .brk _ _ => true
  | .nop _ => true
  | .wait _ _ _ _ _ => true
  | .tryW _ _ => true
  | .tryL _ _ => true
  | .tcommit _ => true
  | .tabort _ c => 0x40#8 ≤ c
  | .speculationConflict => true
  | .srd _ _ _ => true
  | .swr _ _ _ => true
  | .shflIdx _ _ _ _ _ => true
  | .shflUp _ _ _ _ _ => true
  | .shflDown _ _ _ _ _ => true
  | .shflXor _ _ _ _ _ => true
  | .vote _ _ _ _ o => o ≤ 5#5
  | .matchLanes _ d a _ o => o ≤ 3#5 && (o ≤ 1#5 || (even d && even a))
  | .gred _ _ _ _ o => o ≤ 10#5
  | .gscan _ _ _ _ o => o ≤ 5#5
  | .lanesGet _ _ _ => true
  | .lanesSet _ _ _ => true
  | .lanesPresent _ _ _ => true
  | .breserve _ r => r ≤ 30#5
  | .brelease _ => true
  | .bfill _ r x => evenD r && r ≤ 28#5 && x.extractLsb' 0 2 ≠ 3#2
  | .bgather _ r x => evenD r && r ≤ 26#5 && x ≠ 3#2
  | .mma _ _ _ _ _ _ _ => true
  | .mmaw _ _ _ _ _ _ _ => true
  | .talloc _ r => r ≤ 30#5
  | .tfree _ => true
  | .tzero _ => true
  | .tld _ r x => evenD r && r ≤ 29#5 && x ≤ 2#3
  | .tst _ r x => evenD r && r ≤ 29#5 && x ≤ 2#3
  | .tpost _ _ => true
  | .tfinal _ => true
  | .tsettle _ _ => true
  | .tcvtBuffer _ _ _ _ => true
  | .tcvtMemory _ r _ _ => evenD r && r ≤ 28#5
  | .fred _ r => evenD r && r ≤ 28#5
  | .tadd _ _ _ => true
  | .tsub _ _ _ => true
  | .tneg _ _ _ => true
  | .tshift _ _ _ _ => true
  | .tmuli _ _ _ _ => true
  | .trsum _ _ _ => true
  | .tcsum _ _ _ => true
  | .ttrans _ _ _ => true
  | .tslice _ _ _ _ => true
  | .tcopy _ _ _ => true
  | .dmov _ _ => true
  | .dmovImm _ _ => true
  | .dmovRdstat _ => true
  | .dmovWrstat _ => true
  | .dmovRdrm _ => true
  | .dmovWrrm _ => true
  | .dmovRdcnt _ => true
  | .dmovRdwg _ => true
  | .dmovRdclk _ => true
  | .dmovRdclkh _ => true
  | .dmovl _ _ => true
  | .dadd _ _ _ => true
  | .daddSub _ _ _ => true
  | .daddImm _ _ _ => true
  | .daddD d a _ => evenD d && evenD a
  | .dmul _ _ _ => true
  | .dcmp _ _ _ c => c ≤ 9#4
  | .dbr _ _ => true
  | .dloop _ _ => true
  | .dnext _ => true
  | .dhalt => true
  | .dsync _ _ => true
  | .xcopy _ _ _ b e => e = 1#1 || b = 0#4
  | .xcopyAdd _ _ _ b e => e = 1#1 || b = 0#4
  | .xcopyDetach _ _ => true
  | .xcopyFabric _ _ _ b e => e = 1#1 || b = 0#4
  | .xwaitany _ r => even r
  | .xwaitall _ r => even r
  | .xffr _ r => even r
  | .xtags _ r => even r
  | .barInit _ _ _ => true
  | .barArv _ _ _ => true
  | .barSync _ _ _ => true
  | .barInval _ _ => true
  | .ckpt _ => true
  | .salloc _ d a => even d && quad a
  | .sfree _ a => even a
  | .srelight _ _ a => even a
  | .sret _ => true
  | .sinfoAlloc _ d a => quad d && even a
  | .sinfoEntry _ d => quad d
  | .sinfoCore _ d => quad d
  | .bdgt _ _ => true
  | .cjoin _ d _ => even d
  | .cjoinInfo _ d => quad d
  | .cleave _ _ => true
  | .tmbarSync _ _ => true
  | .tmbarArv _ _ => true
  | .evsig _ _ => true
  | .evwait _ _ => true
  | .evclr _ _ => true
  | .evarm _ _ => true
  | .lnch _ d a => even d && even a
  | .wgdone _ => true
  | .ptsyncPage _ a => even a
  | .ptsyncAll _ => true
  | .icinv _ a sc => even a && (sc = 3#4 || sc = 5#4 || sc = 6#4 || sc = 7#4)
  | .fsig _ _ => true
  | .clauseHeaderTake => true
  | .pcComparatorHold _ => true
  | .loadComplete _ _ => true
  | .hayrickEntryDrain _ => true
  | .squadSwapBegin _ _ _ _ => true
  | .squadSwapEnd _ => true
  | .teamPlacement _ _ _ _ => true
  | .workgroupEnd _ => true
  | .launchReady _ => true
  | .lnchAnswer _ _ => true
  | .copyTakesEffect _ => true
  | .copyComplete _ => true
  | .engineOpExecute _ _ => true
  | .engineOpComplete _ _ => true
  | .preemptTeam _ _ => true
  | .fullSave _ => true
  | .contextWritten _ => true
  | .resumeTeam _ _ => true
  | .workgroupResume _ _ => true
  | .killWorkgroup _ => true
  | .uncorrectableErrorConsumed _ _ _ _ => true
  | .workgroupRelaunch _ _ => true
  | .withdrawCore _ => true
  | .returnCore _ => true
  | .commandAck _ _ => true
  | .chargeReport _ => true
  | .budgetHostWrite _ => true
  | .budgetMgmtSet _ => true
  | .pwrbrkNAssert => true
  | .pwrbrkNDeassert => true
  | .powerMeasurement _ => true
  | .budgetApply _ => true
  | .inFieldTestComplete _ _ _ _ => true
  | .uncorrectableArrayError _ _ _ => true
  | .sensorSample _ _ _ => true
  | .tringCtlWrite _ => true
  | .tringTailWrite _ => true
  | .replayDoorbell _ _ => true
  | .frameRingSupply _ _ => true
  | .hubPtsync _ _ => true
  | .expansion _ _ => true
  | .expansionComplete _ _ => true
  | .eventSignalApply _ => true
  | .almanacError _ _ => true
  | .dieHubFailure _ => true
  | .linkTraining _ _ _ _ => true
  | .flitReceive _ _ _ => true
  | .linkRetrain _ _ => true
  | .fredReductionBegin _ _ => true
  | .fsigArrival _ _ => true
  | .gangSliceStart _ _ => true
  | .gangReady _ _ => true
  | .gangSliceBegin _ => true
  | .gangLateTimeout _ => true
  | .powerGood _ => true
  | .inputUndervoltage => true
  | .quoteRequest _ => true
  | .quoteSign => true
  | .firmwareUpdate _ _ _ => true
  | .pldmMonitoring => true
  | .attachProcess _ _ => true
  | .detachProcess _ => true
  | .blinkSample _ => true
  | .histogramFlush _ => true
  | .registerWrite _ _ => true
  | .waddPerformed _ _ => true
  | .debugHandlerResume _ _ => true
  | .dqtailWrite _ _ => true
  | .dataPoisoned _ => true
  | .cxlMemRequest _ _ _ => true
  | .worxusEndsLaunch _ => true

end Sys2Proof
end

