-- ==== Sys2Proof/Decode.lean ====
section
/-! DEFINITION. Decode: from bytes to an instruction, by the opcode map of R46 and the layouts of R39-R44, rejecting
by name; and the encoder of a well-formed instruction, from the same tables. -/

namespace Sys2Proof

/-- Why a word is no instruction (R48, R45). -/
inductive DecodeError where
  /-- fewer than four bytes -/
  | tooShort
  /-- a dash of the map of R46 -/
  | unassignedOpcode
  /-- a nonzero reserved field, or a drive word whose guard is not 7 -/
  | reservedField
  /-- a reserved sub-operation value -/
  | reservedValue
  /-- an operand value that R40, R41, R80 or R150 forbids -/
  | illegalOperand
  /-- a literal form with no literal word after it (R43) -/
  | noLiteral
deriving DecidableEq, Repr

/-- Bits [lo + len - 1 : lo] of a word. -/
def bits (w : Word) (lo len : Nat) : BitVec len := w.extractLsb' lo len

/-- A literal form takes the word after it (R43). -/
def literal (lit : Option Word) (f : Word → Instr) : Except DecodeError Instr :=
  match lit with
  | some v => .ok (f v)
  | none => .error .noLiteral

/-- Row 0x00 of the map of R46. -/
def decodeRow00 (w : Word) (_ : Option Word) : Except DecodeError Instr :=
  match (bits w 21 3).toNat with
  | 0 => .ok (.addS32 (bits w 29 3) (bits w 14 7) (bits w 7 7) (bits w 0 7))
  | 1 => .ok (.addS32Sat (bits w 29 3) (bits w 14 7) (bits w 7 7) (bits w 0 7))
  | 2 => .ok (.addN32Sat (bits w 29 3) (bits w 14 7) (bits w 7 7) (bits w 0 7))
  | 3 => .ok (.addN64 (bits w 29 3) (bits w 14 7) (bits w 7 7) (bits w 0 7))
  | 4 => .ok (.subS32 (bits w 29 3) (bits w 14 7) (bits w 7 7) (bits w 0 7))
  | 5 => .ok (.subS32Sat (bits w 29 3) (bits w 14 7) (bits w 7 7) (bits w 0 7))
  | 6 => .ok (.subN32Sat (bits w 29 3) (bits w 14 7) (bits w 7 7) (bits w 0 7))
  | 7 => .ok (.subN64 (bits w 29 3) (bits w 14 7) (bits w 7 7) (bits w 0 7))
  | _ => .error .unassignedOpcode

/-- Row 0x08 of the map of R46. -/
def decodeRow08 (w : Word) (_ : Option Word) : Except DecodeError Instr :=
  match (bits w 21 3).toNat with
  | 0 => .ok (.mulS32 (bits w 29 3) (bits w 14 7) (bits w 7 7) (bits w 0 7))
  | 1 => .ok (.mulS32Sat (bits w 29 3) (bits w 14 7) (bits w 7 7) (bits w 0 7))
  | 2 => .ok (.mulN32Sat (bits w 29 3) (bits w 14 7) (bits w 7 7) (bits w 0 7))
  | 3 => .ok (.mulN64 (bits w 29 3) (bits w 14 7) (bits w 7 7) (bits w 0 7))
  | 4 => .ok (.madS32 (bits w 29 3) (bits w 14 7) (bits w 7 7) (bits w 0 7))
  | 5 => .ok (.madS32Sat (bits w 29 3) (bits w 14 7) (bits w 7 7) (bits w 0 7))
  | 6 => .ok (.madN32Sat (bits w 29 3) (bits w 14 7) (bits w 7 7) (bits w 0 7))
  | 7 => .ok (.madN64 (bits w 29 3) (bits w 14 7) (bits w 7 7) (bits w 0 7))
  | _ => .error .unassignedOpcode

/-- Row 0x10 of the map of R46. -/
def decodeRow10 (w : Word) (_ : Option Word) : Except DecodeError Instr :=
  match (bits w 21 3).toNat with
  | 0 => .ok (.mulhS32 (bits w 29 3) (bits w 14 7) (bits w 7 7) (bits w 0 7))
  | 1 => .ok (.mulhN32 (bits w 29 3) (bits w 14 7) (bits w 7 7) (bits w 0 7))
  | 2 => .ok (.divS32 (bits w 29 3) (bits w 14 7) (bits w 7 7) (bits w 0 7))
  | 3 => .ok (.divN32 (bits w 29 3) (bits w 14 7) (bits w 7 7) (bits w 0 7))
  | 4 => .ok (.remS32 (bits w 29 3) (bits w 14 7) (bits w 7 7) (bits w 0 7))
  | 5 => .ok (.remN32 (bits w 29 3) (bits w 14 7) (bits w 7 7) (bits w 0 7))
  | 6 => .ok (.minS32 (bits w 29 3) (bits w 14 7) (bits w 7 7) (bits w 0 7))
  | 7 => .ok (.minN32 (bits w 29 3) (bits w 14 7) (bits w 7 7) (bits w 0 7))
  | _ => .error .unassignedOpcode

/-- Row 0x18 of the map of R46. -/
def decodeRow18 (w : Word) (_ : Option Word) : Except DecodeError Instr :=
  match (bits w 21 3).toNat with
  | 0 => .ok (.maxS32 (bits w 29 3) (bits w 14 7) (bits w 7 7) (bits w 0 7))
  | 1 => .ok (.maxN32 (bits w 29 3) (bits w 14 7) (bits w 7 7) (bits w 0 7))
  | 2 => .ok (.addminS32 (bits w 29 3) (bits w 14 7) (bits w 7 7) (bits w 0 7))
  | 3 => .ok (.addminN32 (bits w 29 3) (bits w 14 7) (bits w 7 7) (bits w 0 7))
  | 4 => .ok (.addmaxS32 (bits w 29 3) (bits w 14 7) (bits w 7 7) (bits w 0 7))
  | 5 => .ok (.addmaxN32 (bits w 29 3) (bits w 14 7) (bits w 7 7) (bits w 0 7))
  | 6 => .ok (.clampS32 (bits w 29 3) (bits w 14 7) (bits w 7 7) (bits w 0 7))
  | 7 => .ok (.clampN32 (bits w 29 3) (bits w 14 7) (bits w 7 7) (bits w 0 7))
  | _ => .error .unassignedOpcode

/-- Row 0x20 of the map of R46. -/
def decodeRow20 (w : Word) (_ : Option Word) : Except DecodeError Instr :=
  match (bits w 21 3).toNat with
  | 0 => .ok (.addc (bits w 29 3) (bits w 14 7) (bits w 7 7) (bits w 0 7))
  | 1 => .ok (.subb (bits w 29 3) (bits w 14 7) (bits w 7 7) (bits w 0 7))
  | 2 => if bits w 0 7 = 0 then .ok (.neg (bits w 29 3) (bits w 14 7) (bits w 7 7)) else .error .reservedField
  | 3 => if bits w 0 7 = 0 then .ok (.abs (bits w 29 3) (bits w 14 7) (bits w 7 7)) else .error .reservedField
  | 4 => .ok (.lea (bits w 29 3) (bits w 14 7) (bits w 7 7) (bits w 0 7))
  | 5 => .ok (.and (bits w 29 3) (bits w 14 7) (bits w 7 7) (bits w 0 7))
  | 6 => .ok (.or (bits w 29 3) (bits w 14 7) (bits w 7 7) (bits w 0 7))
  | 7 => .ok (.xor (bits w 29 3) (bits w 14 7) (bits w 7 7) (bits w 0 7))
  | _ => .error .unassignedOpcode

/-- Row 0x28 of the map of R46. -/
def decodeRow28 (w : Word) (_ : Option Word) : Except DecodeError Instr :=
  match (bits w 21 3).toNat with
  | 0 => .ok (.andn (bits w 29 3) (bits w 14 7) (bits w 7 7) (bits w 0 7))
  | 1 => if bits w 0 7 = 0 then .ok (.not (bits w 29 3) (bits w 14 7) (bits w 7 7)) else .error .reservedField
  | 2 => .ok (.shl (bits w 29 3) (bits w 14 7) (bits w 7 7) (bits w 0 7))
  | 3 => .ok (.shr (bits w 29 3) (bits w 14 7) (bits w 7 7) (bits w 0 7))
  | 4 => .ok (.sar (bits w 29 3) (bits w 14 7) (bits w 7 7) (bits w 0 7))
  | 5 => .ok (.rot (bits w 29 3) (bits w 14 7) (bits w 7 7) (bits w 0 7))
  | 6 => .ok (.bfx (bits w 29 3) (bits w 14 7) (bits w 7 7) (bits w 0 7))
  | 7 => .ok (.bfi (bits w 29 3) (bits w 14 7) (bits w 7 7) (bits w 0 7))
  | _ => .error .unassignedOpcode

/-- Row 0x30 of the map of R46. -/
def decodeRow30 (w : Word) (_ : Option Word) : Except DecodeError Instr :=
  match (bits w 21 3).toNat with
  | 0 => if bits w 0 7 = 0 then .ok (.popc (bits w 29 3) (bits w 14 7) (bits w 7 7)) else .error .reservedField
  | 1 => if bits w 0 7 = 0 then .ok (.clz (bits w 29 3) (bits w 14 7) (bits w 7 7)) else .error .reservedField
  | 2 => if bits w 0 7 = 0 then .ok (.ctz (bits w 29 3) (bits w 14 7) (bits w 7 7)) else .error .reservedField
  | 3 => if bits w 0 7 = 0 then .ok (.brev (bits w 29 3) (bits w 14 7) (bits w 7 7)) else .error .reservedField
  | 4 => if bits w 0 7 = 0 then .ok (.bswap (bits w 29 3) (bits w 14 7) (bits w 7 7)) else .error .reservedField
  | 5 => .ok (.sel (bits w 29 3) (bits w 14 7) (bits w 7 7) (bits w 0 7))
  | 6 => if bits w 0 7 = 0 then .ok (.mov (bits w 29 3) (bits w 14 7) (bits w 7 7)) else .error .reservedField
  | 7 => .ok (.cmp (bits w 29 3) (bits w 17 4) (bits w 14 3) (bits w 7 7) (bits w 0 7))
  | _ => .error .unassignedOpcode

/-- Row 0x38 of the map of R46. -/
def decodeRow38 (w : Word) (lit : Option Word) : Except DecodeError Instr :=
  match (bits w 21 3).toNat with
  | 0 => if bits w 3 4 = 0 ∧ bits w 10 4 = 0 then .ok (.plog (bits w 29 3) (bits w 17 4) (bits w 14 3) (bits w 7 3) (bits w 0 3)) else .error .reservedField
  | 1 =>
    if bits w 0 7 = 0 then
      if bits w 7 7 = 0 then .ok (.pmovRd (bits w 29 3) (bits w 14 7)) else .error .reservedField
    else
    if bits w 0 7 = 1 then
      if bits w 14 7 = 0 then .ok (.pmovWr (bits w 29 3) (bits w 7 7)) else .error .reservedField
    else .error .reservedValue
  | 2 => .ok (.movi (bits w 29 3) (bits w 14 7) (bits w 0 14))
  | 3 => if bits w 0 14 = 0 then literal lit fun v => (.movl (bits w 29 3) (bits w 14 7) v) else .error .reservedField
  | 4 => .ok (.cmpi (bits w 29 3) (bits w 17 4) (bits w 14 3) (bits w 7 7) (bits w 0 7))
  | 5 => .ok (.addImm (bits w 29 3) (bits w 14 7) (bits w 7 7) (bits w 0 7))
  | 6 => .ok (.andImm (bits w 29 3) (bits w 14 7) (bits w 7 7) (bits w 0 7))
  | 7 => .ok (.orImm (bits w 29 3) (bits w 14 7) (bits w 7 7) (bits w 0 7))
  | _ => .error .unassignedOpcode

/-- Row 0x40 of the map of R46. -/
def decodeRow40 (w : Word) (_ : Option Word) : Except DecodeError Instr :=
  match (bits w 21 3).toNat with
  | 0 => .ok (.xorImm (bits w 29 3) (bits w 14 7) (bits w 7 7) (bits w 0 7))
  | 1 => if bits w 5 2 = 0 then .ok (.shlImm (bits w 29 3) (bits w 14 7) (bits w 7 7) (bits w 0 5)) else .error .reservedField
  | 2 => if bits w 5 2 = 0 then .ok (.shrImm (bits w 29 3) (bits w 14 7) (bits w 7 7) (bits w 0 5)) else .error .reservedField
  | 3 => if bits w 5 2 = 0 then .ok (.sarImm (bits w 29 3) (bits w 14 7) (bits w 7 7) (bits w 0 5)) else .error .reservedField
  | 4 => if bits w 5 2 = 0 then .ok (.rotImm (bits w 29 3) (bits w 14 7) (bits w 7 7) (bits w 0 5)) else .error .reservedField
  | 5 => .ok (.fmin (bits w 29 3) (bits w 14 7) (bits w 7 7) (bits w 0 7))
  | 6 => .ok (.fmax (bits w 29 3) (bits w 14 7) (bits w 7 7) (bits w 0 7))
  | 7 => .ok (.fdiv (bits w 29 3) (bits w 14 7) (bits w 7 7) (bits w 0 7))
  | _ => .error .unassignedOpcode

/-- Row 0x48 of the map of R46. -/
def decodeRow48 (w : Word) (_ : Option Word) : Except DecodeError Instr :=
  match (bits w 21 3).toNat with
  | 0 => .ok (.fadd (bits w 29 3) (bits w 14 7) (bits w 7 7) (bits w 0 7))
  | 1 => .ok (.faddRn (bits w 29 3) (bits w 14 7) (bits w 7 7) (bits w 0 7))
  | 2 => .ok (.fsub (bits w 29 3) (bits w 14 7) (bits w 7 7) (bits w 0 7))
  | 3 => .ok (.fsubRn (bits w 29 3) (bits w 14 7) (bits w 7 7) (bits w 0 7))
  | 4 => .ok (.fmul (bits w 29 3) (bits w 14 7) (bits w 7 7) (bits w 0 7))
  | 5 => .ok (.fmulRn (bits w 29 3) (bits w 14 7) (bits w 7 7) (bits w 0 7))
  | 6 => .ok (.ffma (bits w 29 3) (bits w 14 7) (bits w 7 7) (bits w 0 7))
  | 7 => .ok (.ffmaRn (bits w 29 3) (bits w 14 7) (bits w 7 7) (bits w 0 7))
  | _ => .error .unassignedOpcode

/-- Row 0x50 of the map of R46. -/
def decodeRow50 (w : Word) (_ : Option Word) : Except DecodeError Instr :=
  match (bits w 21 3).toNat with
  | 0 => .ok (.fscale (bits w 29 3) (bits w 14 7) (bits w 7 7) (bits w 0 7))
  | 1 => .ok (.fcmp (bits w 29 3) (bits w 17 4) (bits w 14 3) (bits w 7 7) (bits w 0 7))
  | 2 => if bits w 0 7 = 0 then .ok (.fabs (bits w 29 3) (bits w 14 7) (bits w 7 7)) else .error .reservedField
  | 3 => if bits w 0 7 = 0 then .ok (.fneg (bits w 29 3) (bits w 14 7) (bits w 7 7)) else .error .reservedField
  | 4 => if bits w 0 7 = 0 then .ok (.fclass (bits w 29 3) (bits w 14 7) (bits w 7 7)) else .error .reservedField
  | 5 => .ok (.frnd (bits w 29 3) (bits w 14 7) (bits w 7 7) (bits w 0 7))
  | 6 => .ok (.frcp (bits w 29 3) (bits w 14 7) (bits w 7 7) (bits w 0 7))
  | 7 => .ok (.frsq (bits w 29 3) (bits w 14 7) (bits w 7 7) (bits w 0 7))
  | _ => .error .unassignedOpcode

/-- Row 0x58 of the map of R46. -/
def decodeRow58 (w : Word) (_ : Option Word) : Except DecodeError Instr :=
  match (bits w 21 3).toNat with
  | 0 => .ok (.fsqrt (bits w 29 3) (bits w 14 7) (bits w 7 7) (bits w 0 7))
  | 1 => .ok (.fex2 (bits w 29 3) (bits w 14 7) (bits w 7 7) (bits w 0 7))
  | 2 => .ok (.flg2 (bits w 29 3) (bits w 14 7) (bits w 7 7) (bits w 0 7))
  | 3 => .ok (.fsin (bits w 29 3) (bits w 14 7) (bits w 7 7) (bits w 0 7))
  | 4 => .ok (.fcos (bits w 29 3) (bits w 14 7) (bits w 7 7) (bits w 0 7))
  | 5 => .ok (.cvt (bits w 29 3) (bits w 14 7) (bits w 7 7) (bits w 0 7))
  | 6 => .ok (.cvtRn (bits w 29 3) (bits w 14 7) (bits w 7 7) (bits w 0 7))
  | 7 => .ok (.cvtRna (bits w 29 3) (bits w 14 7) (bits w 7 7) (bits w 0 7))
  | _ => .error .unassignedOpcode

/-- Row 0x60 of the map of R46. -/
def decodeRow60 (w : Word) (_ : Option Word) : Except DecodeError Instr :=
  match (bits w 21 3).toNat with
  | 0 => .ok (.cvtRz (bits w 29 3) (bits w 14 7) (bits w 7 7) (bits w 0 7))
  | 1 => .ok (.cvtRp (bits w 29 3) (bits w 14 7) (bits w 7 7) (bits w 0 7))
  | 2 => .ok (.cvtRm (bits w 29 3) (bits w 14 7) (bits w 7 7) (bits w 0 7))
  | 3 => .ok (.hadd2Bf16 (bits w 29 3) (bits w 14 7) (bits w 7 7) (bits w 0 7))
  | 4 => .ok (.hsub2Bf16 (bits w 29 3) (bits w 14 7) (bits w 7 7) (bits w 0 7))
  | 5 => .ok (.hmul2Bf16 (bits w 29 3) (bits w 14 7) (bits w 7 7) (bits w 0 7))
  | 6 => .ok (.hfma2Bf16 (bits w 29 3) (bits w 14 7) (bits w 7 7) (bits w 0 7))
  | 7 => .ok (.hmin2Bf16 (bits w 29 3) (bits w 14 7) (bits w 7 7) (bits w 0 7))
  | _ => .error .unassignedOpcode

/-- Row 0x68 of the map of R46. -/
def decodeRow68 (w : Word) (_ : Option Word) : Except DecodeError Instr :=
  match (bits w 21 3).toNat with
  | 0 => .ok (.hmax2Bf16 (bits w 29 3) (bits w 14 7) (bits w 7 7) (bits w 0 7))
  | 1 => .ok (.hadd2Hf16 (bits w 29 3) (bits w 14 7) (bits w 7 7) (bits w 0 7))
  | 2 => .ok (.hsub2Hf16 (bits w 29 3) (bits w 14 7) (bits w 7 7) (bits w 0 7))
  | 3 => .ok (.hmul2Hf16 (bits w 29 3) (bits w 14 7) (bits w 7 7) (bits w 0 7))
  | 4 => .ok (.hfma2Hf16 (bits w 29 3) (bits w 14 7) (bits w 7 7) (bits w 0 7))
  | 5 => .ok (.hmin2Hf16 (bits w 29 3) (bits w 14 7) (bits w 7 7) (bits w 0 7))
  | 6 => .ok (.hmax2Hf16 (bits w 29 3) (bits w 14 7) (bits w 7 7) (bits w 0 7))
  | _ => .error .unassignedOpcode

/-- Row 0x70 of the map of R46. -/
def decodeRow70 (w : Word) (lit : Option Word) : Except DecodeError Instr :=
  match (bits w 21 3).toNat with
  | 0 => .ok (.ldS8 (bits w 29 3) (bits w 14 7) (bits w 7 7) (bits w 0 7))
  | 1 => .ok (.ldZ8 (bits w 29 3) (bits w 14 7) (bits w 7 7) (bits w 0 7))
  | 2 => .ok (.ldS16 (bits w 29 3) (bits w 14 7) (bits w 7 7) (bits w 0 7))
  | 3 => .ok (.ldZ16 (bits w 29 3) (bits w 14 7) (bits w 7 7) (bits w 0 7))
  | 4 => .ok (.ldW (bits w 29 3) (bits w 14 7) (bits w 7 7) (bits w 0 7))
  | 5 => .ok (.ldD (bits w 29 3) (bits w 14 7) (bits w 7 7) (bits w 0 7))
  | 6 => .ok (.ldQ (bits w 29 3) (bits w 14 7) (bits w 7 7) (bits w 0 7))
  | 7 => if bits w 0 3 = 0 then literal lit fun v => (.ldl (bits w 29 3) (bits w 14 7) (bits w 7 7) (bits w 4 3) (bits w 3 1) v) else .error .reservedField
  | _ => .error .unassignedOpcode

/-- Row 0x78 of the map of R46. -/
def decodeRow78 (w : Word) (lit : Option Word) : Except DecodeError Instr :=
  match (bits w 21 3).toNat with
  | 0 => .ok (.ldAdvW (bits w 29 3) (bits w 14 7) (bits w 7 7) (bits w 0 7))
  | 1 => .ok (.ldAdvD (bits w 29 3) (bits w 14 7) (bits w 7 7) (bits w 0 7))
  | 2 => .ok (.ldAdvQ (bits w 29 3) (bits w 14 7) (bits w 7 7) (bits w 0 7))
  | 3 => if bits w 0 4 = 0 then literal lit fun v => (.stl (bits w 29 3) (bits w 14 7) (bits w 7 7) (bits w 4 3) v) else .error .reservedField
  | 4 => .ok (.stB8 (bits w 29 3) (bits w 14 7) (bits w 7 7) (bits w 0 7))
  | 5 => .ok (.stB16 (bits w 29 3) (bits w 14 7) (bits w 7 7) (bits w 0 7))
  | 6 => .ok (.stW (bits w 29 3) (bits w 14 7) (bits w 7 7) (bits w 0 7))
  | 7 => .ok (.stD (bits w 29 3) (bits w 14 7) (bits w 7 7) (bits w 0 7))
  | _ => .error .unassignedOpcode

/-- Row 0x80 of the map of R46. -/
def decodeRow80 (w : Word) (_ : Option Word) : Except DecodeError Instr :=
  match (bits w 21 3).toNat with
  | 0 => .ok (.stQ (bits w 29 3) (bits w 14 7) (bits w 7 7) (bits w 0 7))
  | 1 => .ok (.shld (bits w 29 3) (bits w 14 7) (bits w 7 7) (bits w 0 7))
  | 2 => .ok (.ldfragT8 (bits w 29 3) (bits w 14 7) (bits w 7 7) (bits w 0 7))
  | 3 => .ok (.ldfragT16 (bits w 29 3) (bits w 14 7) (bits w 7 7) (bits w 0 7))
  | 4 => if bits w 3 4 = 0 then .ok (.ldt (bits w 29 3) (bits w 14 7) (bits w 7 7) (bits w 0 3)) else .error .reservedField
  | 5 => if bits w 3 4 = 0 then .ok (.stt (bits w 29 3) (bits w 14 7) (bits w 7 7) (bits w 0 3)) else .error .reservedField
  | 6 => if bits w 14 7 = 0 then .ok (.wadd (bits w 29 3) (bits w 7 7) (bits w 0 7)) else .error .reservedField
  | 7 => if bits w 0 7 = 0 then .ok (.wld (bits w 29 3) (bits w 14 7) (bits w 7 7)) else .error .reservedField
  | _ => .error .unassignedOpcode

/-- Row 0x88 of the map of R46. -/
def decodeRow88 (w : Word) (_ : Option Word) : Except DecodeError Instr :=
  match (bits w 21 3).toNat with
  | 0 => .ok (.atomAdd (bits w 29 3) (bits w 14 7) (bits w 7 7) (bits w 0 7))
  | 1 => .ok (.atomMin (bits w 29 3) (bits w 14 7) (bits w 7 7) (bits w 0 7))
  | 2 => .ok (.atomMax (bits w 29 3) (bits w 14 7) (bits w 7 7) (bits w 0 7))
  | 3 => .ok (.atomAnd (bits w 29 3) (bits w 14 7) (bits w 7 7) (bits w 0 7))
  | 4 => .ok (.atomOr (bits w 29 3) (bits w 14 7) (bits w 7 7) (bits w 0 7))
  | 5 => .ok (.atomXor (bits w 29 3) (bits w 14 7) (bits w 7 7) (bits w 0 7))
  | 6 => .ok (.atomExch (bits w 29 3) (bits w 14 7) (bits w 7 7) (bits w 0 7))
  | 7 => .ok (.atomCas (bits w 29 3) (bits w 14 7) (bits w 7 7) (bits w 0 7))
  | _ => .error .unassignedOpcode

/-- Row 0x90 of the map of R46. -/
def decodeRow90 (w : Word) (_ : Option Word) : Except DecodeError Instr :=
  match (bits w 21 3).toNat with
  | 0 => if bits w 14 7 = 0 then .ok (.acq (bits w 29 3) (bits w 7 7) (bits w 3 4) (bits w 0 3)) else .error .reservedField
  | 1 => if bits w 14 7 = 0 then .ok (.rel (bits w 29 3) (bits w 7 7) (bits w 3 4) (bits w 0 3)) else .error .reservedField
  | 2 => if bits w 0 3 = 0 ∧ bits w 7 14 = 0 then .ok (.fence (bits w 29 3) (bits w 3 4)) else .error .reservedField
  | 3 => .ok (.bind (bits w 29 3) (bits w 14 7) (bits w 7 7) (bits w 0 7))
  | 4 => if bits w 0 14 = 0 then .ok (.unbind (bits w 29 3) (bits w 14 7)) else .error .reservedField
  | 5 => if bits w 14 7 = 0 then .ok (.pgreq (bits w 29 3) (bits w 7 7) (bits w 0 7)) else .error .reservedField
  | 6 => .ok (.pgprobe (bits w 29 3) (bits w 14 7) (bits w 7 7) (bits w 0 7))
  | _ => .error .unassignedOpcode

/-- Row 0x98 of the map of R46. -/
def decodeRow98 (w : Word) (_ : Option Word) : Except DecodeError Instr :=
  match (bits w 21 3).toNat with
  | 0 => .ok (.br (bits w 29 3) (bits w 0 21))
  | 1 => .ok (.brl (bits w 29 3) (bits w 14 7) (bits w 0 14))
  | 2 => if bits w 0 7 = 0 ∧ bits w 14 7 = 0 then .ok (.jmp (bits w 29 3) (bits w 7 7)) else .error .reservedField
  | 3 => .ok (.call (bits w 29 3) (bits w 0 21))
  | 4 => if bits w 0 7 = 0 ∧ bits w 14 7 = 0 then .ok (.calli (bits w 29 3) (bits w 7 7)) else .error .reservedField
  | 5 => if bits w 0 21 = 0 then .ok (.ret (bits w 29 3)) else .error .reservedField
  | 6 => if bits w 3 18 = 0 then .ok (.enrol (bits w 29 3) (bits w 0 3)) else .error .reservedField
  | 7 => if bits w 3 18 = 0 then .ok (.join (bits w 29 3) (bits w 0 3)) else .error .reservedField
  | _ => .error .unassignedOpcode

/-- Row 0xA0 of the map of R46. -/
def decodeRowA0 (w : Word) (_ : Option Word) : Except DecodeError Instr :=
  match (bits w 21 3).toNat with
  | 0 => if bits w 0 21 = 0 then .ok (.exit (bits w 29 3)) else .error .reservedField
  | 1 => if bits w 8 13 = 0 then .ok (.trap (bits w 29 3) (bits w 0 8)) else .error .reservedField
  | 2 => if bits w 0 21 = 0 then .ok (.tret (bits w 29 3)) else .error .reservedField
  | 3 => if bits w 8 13 = 0 then .ok (.brk (bits w 29 3) (bits w 0 8)) else .error .reservedField
  | 4 => if bits w 0 21 = 0 then .ok (.nop (bits w 29 3)) else .error .reservedField
  | 5 => if bits w 16 5 = 0 then .ok (.wait (bits w 29 3) (bits w 12 4) (bits w 8 4) (bits w 4 4) (bits w 0 4)) else .error .reservedField
  | 6 => .ok (.tryW (bits w 29 3) (bits w 0 21))
  | 7 => .ok (.tryL (bits w 29 3) (bits w 0 21))
  | _ => .error .unassignedOpcode

/-- Row 0xA8 of the map of R46. -/
def decodeRowA8 (w : Word) (_ : Option Word) : Except DecodeError Instr :=
  match (bits w 21 3).toNat with
  | 0 => if bits w 0 21 = 0 then .ok (.tcommit (bits w 29 3)) else .error .reservedField
  | 1 => if bits w 8 13 = 0 then .ok (.tabort (bits w 29 3) (bits w 0 8)) else .error .reservedField
  | 2 => if bits w 12 2 = 0 then .ok (.srd (bits w 29 3) (bits w 14 7) (bits w 0 12)) else .error .reservedField
  | 3 => if bits w 12 2 = 0 then .ok (.swr (bits w 29 3) (bits w 14 7) (bits w 0 12)) else .error .reservedField
  | _ => .error .unassignedOpcode

/-- Row 0xB0 of the map of R46. -/
def decodeRowB0 (w : Word) (_ : Option Word) : Except DecodeError Instr :=
  match (bits w 21 3).toNat with
  | 0 => .ok (.shflIdx (bits w 29 3) (bits w 21 2) (bits w 14 7) (bits w 7 7) (bits w 0 7))
  | 1 => .ok (.shflIdx (bits w 29 3) (bits w 21 2) (bits w 14 7) (bits w 7 7) (bits w 0 7))
  | 2 => .ok (.shflIdx (bits w 29 3) (bits w 21 2) (bits w 14 7) (bits w 7 7) (bits w 0 7))
  | 3 => .ok (.shflIdx (bits w 29 3) (bits w 21 2) (bits w 14 7) (bits w 7 7) (bits w 0 7))
  | 4 => .ok (.shflUp (bits w 29 3) (bits w 14 7) (bits w 7 7) (bits w 5 2) (bits w 0 5))
  | 5 => .ok (.shflDown (bits w 29 3) (bits w 14 7) (bits w 7 7) (bits w 5 2) (bits w 0 5))
  | 6 => .ok (.shflXor (bits w 29 3) (bits w 14 7) (bits w 7 7) (bits w 5 2) (bits w 0 5))
  | 7 => .ok (.vote (bits w 29 3) (bits w 14 7) (bits w 7 7) (bits w 5 2) (bits w 0 5))
  | _ => .error .unassignedOpcode

/-- Row 0xB8 of the map of R46. -/
def decodeRowB8 (w : Word) (_ : Option Word) : Except DecodeError Instr :=
  match (bits w 21 3).toNat with
  | 0 => .ok (.matchLanes (bits w 29 3) (bits w 14 7) (bits w 7 7) (bits w 5 2) (bits w 0 5))
  | 1 => .ok (.gred (bits w 29 3) (bits w 14 7) (bits w 7 7) (bits w 5 2) (bits w 0 5))
  | 2 => .ok (.gscan (bits w 29 3) (bits w 14 7) (bits w 7 7) (bits w 5 2) (bits w 0 5))
  | 3 =>
    if bits w 0 5 = 0 then
      if bits w 7 7 = 0 then .ok (.lanesGet (bits w 29 3) (bits w 14 7) (bits w 5 2)) else .error .reservedField
    else
    if bits w 0 5 = 1 then
      if bits w 14 7 = 0 then .ok (.lanesSet (bits w 29 3) (bits w 7 7) (bits w 5 2)) else .error .reservedField
    else
    if bits w 0 5 = 2 then
      if bits w 7 7 = 0 then .ok (.lanesPresent (bits w 29 3) (bits w 14 7) (bits w 5 2)) else .error .reservedField
    else .error .reservedValue
  | _ => .error .unassignedOpcode

/-- Row 0xC0 of the map of R46. -/
def decodeRowC0 (w : Word) (_ : Option Word) : Except DecodeError Instr :=
  match (bits w 21 3).toNat with
  | 0 => if bits w 29 3 = 7 ∧ bits w 0 3 = 0 ∧ bits w 8 5 = 0 ∧ bits w 16 5 = 0 then .ok (.breserve (bits w 13 3) (bits w 3 5)) else .error .reservedField
  | 1 => if bits w 29 3 = 7 ∧ bits w 0 13 = 0 ∧ bits w 16 5 = 0 then .ok (.brelease (bits w 13 3)) else .error .reservedField
  | 2 => if bits w 29 3 = 7 ∧ bits w 8 5 = 0 ∧ bits w 16 5 = 0 then .ok (.bfill (bits w 13 3) (bits w 3 5) (bits w 0 3)) else .error .reservedField
  | 3 => if bits w 29 3 = 7 ∧ bits w 2 1 = 0 ∧ bits w 8 5 = 0 ∧ bits w 16 5 = 0 then .ok (.bgather (bits w 13 3) (bits w 3 5) (bits w 0 2)) else .error .reservedField
  | 4 => if bits w 29 3 = 7 ∧ bits w 0 1 = 0 then .ok (.mma (bits w 17 4) (bits w 14 3) (bits w 11 3) (bits w 6 5) (bits w 4 2) (bits w 2 2) (bits w 1 1)) else .error .reservedField
  | 5 => if bits w 29 3 = 7 ∧ bits w 0 1 = 0 then .ok (.mmaw (bits w 17 4) (bits w 14 3) (bits w 11 3) (bits w 6 5) (bits w 4 2) (bits w 2 2) (bits w 1 1)) else .error .reservedField
  | 6 => if bits w 29 3 = 7 ∧ bits w 0 3 = 0 ∧ bits w 8 9 = 0 then .ok (.talloc (bits w 17 4) (bits w 3 5)) else .error .reservedField
  | 7 => if bits w 29 3 = 7 ∧ bits w 0 17 = 0 then .ok (.tfree (bits w 17 4)) else .error .reservedField
  | _ => .error .unassignedOpcode

/-- Row 0xC8 of the map of R46. -/
def decodeRowC8 (w : Word) (_ : Option Word) : Except DecodeError Instr :=
  match (bits w 21 3).toNat with
  | 0 => if bits w 29 3 = 7 ∧ bits w 0 17 = 0 then .ok (.tzero (bits w 17 4)) else .error .reservedField
  | 1 => if bits w 29 3 = 7 ∧ bits w 8 9 = 0 then .ok (.tld (bits w 17 4) (bits w 3 5) (bits w 0 3)) else .error .reservedField
  | 2 => if bits w 29 3 = 7 ∧ bits w 8 9 = 0 then .ok (.tst (bits w 17 4) (bits w 3 5) (bits w 0 3)) else .error .reservedField
  | 3 => if bits w 29 3 = 7 ∧ bits w 0 8 = 0 ∧ bits w 13 4 = 0 then .ok (.tpost (bits w 17 4) (bits w 8 5)) else .error .reservedField
  | 4 => if bits w 29 3 = 7 ∧ bits w 0 17 = 0 then .ok (.tfinal (bits w 17 4)) else .error .reservedField
  | 5 => if bits w 29 3 = 7 ∧ bits w 0 3 = 0 ∧ bits w 13 8 = 0 then .ok (.tsettle (bits w 8 5) (bits w 3 5)) else .error .reservedField
  | 6 =>
    if bits w 2 1 = 0 then
      if bits w 29 3 = 7 ∧ bits w 3 10 = 0 ∧ bits w 16 1 = 0 then .ok (.tcvtBuffer (bits w 17 4) (bits w 13 3) (bits w 1 1) (bits w 0 1)) else .error .reservedField
    else
    if bits w 2 1 = 1 then
      if bits w 29 3 = 7 ∧ bits w 8 9 = 0 then .ok (.tcvtMemory (bits w 17 4) (bits w 3 5) (bits w 1 1) (bits w 0 1)) else .error .reservedField
    else .error .reservedValue
  | 7 => if bits w 29 3 = 7 ∧ bits w 0 3 = 0 ∧ bits w 8 9 = 0 then .ok (.fred (bits w 17 4) (bits w 3 5)) else .error .reservedField
  | _ => .error .unassignedOpcode

/-- Row 0xD0 of the map of R46. -/
def decodeRowD0 (w : Word) (_ : Option Word) : Except DecodeError Instr :=
  match (bits w 21 3).toNat with
  | 0 => if bits w 29 3 = 7 ∧ bits w 0 8 = 0 then .ok (.tadd (bits w 17 4) (bits w 13 4) (bits w 8 5)) else .error .reservedField
  | 1 => if bits w 29 3 = 7 ∧ bits w 0 8 = 0 then .ok (.tsub (bits w 17 4) (bits w 13 4) (bits w 8 5)) else .error .reservedField
  | 2 => if bits w 29 3 = 7 ∧ bits w 0 8 = 0 then .ok (.tneg (bits w 17 4) (bits w 13 4) (bits w 8 5)) else .error .reservedField
  | 3 => if bits w 29 3 = 7 ∧ bits w 0 3 = 0 then .ok (.tshift (bits w 17 4) (bits w 13 4) (bits w 8 5) (bits w 3 5)) else .error .reservedField
  | 4 => if bits w 29 3 = 7 ∧ bits w 0 3 = 0 then .ok (.tmuli (bits w 17 4) (bits w 13 4) (bits w 8 5) (bits w 3 5)) else .error .reservedField
  | 5 => if bits w 29 3 = 7 ∧ bits w 0 8 = 0 then .ok (.trsum (bits w 17 4) (bits w 13 4) (bits w 8 5)) else .error .reservedField
  | 6 => if bits w 29 3 = 7 ∧ bits w 0 8 = 0 then .ok (.tcsum (bits w 17 4) (bits w 13 4) (bits w 8 5)) else .error .reservedField
  | 7 => if bits w 29 3 = 7 ∧ bits w 0 8 = 0 then .ok (.ttrans (bits w 17 4) (bits w 13 4) (bits w 8 5)) else .error .reservedField
  | _ => .error .unassignedOpcode

/-- Row 0xD8 of the map of R46. -/
def decodeRowD8 (w : Word) (_ : Option Word) : Except DecodeError Instr :=
  match (bits w 21 3).toNat with
  | 0 => if bits w 29 3 = 7 ∧ bits w 0 3 = 0 then .ok (.tslice (bits w 17 4) (bits w 13 4) (bits w 8 5) (bits w 3 5)) else .error .reservedField
  | 1 => if bits w 29 3 = 7 ∧ bits w 0 8 = 0 then .ok (.tcopy (bits w 17 4) (bits w 13 4) (bits w 8 5)) else .error .reservedField
  | _ => .error .unassignedOpcode

/-- Row 0xE0 of the map of R46. -/
def decodeRowE0 (w : Word) (lit : Option Word) : Except DecodeError Instr :=
  match (bits w 21 3).toNat with
  | 0 =>
    if bits w 0 6 = 0 then
      if bits w 29 3 = 7 ∧ bits w 6 5 = 0 then .ok (.dmov (bits w 16 5) (bits w 11 5)) else .error .reservedField
    else
    if bits w 0 6 = 1 then
      if bits w 29 3 = 7 then .ok (.dmovImm (bits w 16 5) (bits w 6 10)) else .error .reservedField
    else
    if bits w 0 6 = 2 then
      if bits w 29 3 = 7 ∧ bits w 6 10 = 0 then .ok (.dmovRdstat (bits w 16 5)) else .error .reservedField
    else
    if bits w 0 6 = 3 then
      if bits w 29 3 = 7 ∧ bits w 6 5 = 0 ∧ bits w 16 5 = 0 then .ok (.dmovWrstat (bits w 11 5)) else .error .reservedField
    else
    if bits w 0 6 = 4 then
      if bits w 29 3 = 7 ∧ bits w 6 10 = 0 then .ok (.dmovRdrm (bits w 16 5)) else .error .reservedField
    else
    if bits w 0 6 = 5 then
      if bits w 29 3 = 7 ∧ bits w 6 5 = 0 ∧ bits w 16 5 = 0 then .ok (.dmovWrrm (bits w 11 5)) else .error .reservedField
    else
    if bits w 0 6 = 6 then
      if bits w 29 3 = 7 ∧ bits w 6 10 = 0 then .ok (.dmovRdcnt (bits w 16 5)) else .error .reservedField
    else
    if bits w 0 6 = 7 then
      if bits w 29 3 = 7 ∧ bits w 6 10 = 0 then .ok (.dmovRdwg (bits w 16 5)) else .error .reservedField
    else
    if bits w 0 6 = 8 then
      if bits w 29 3 = 7 ∧ bits w 6 10 = 0 then .ok (.dmovRdclk (bits w 16 5)) else .error .reservedField
    else
    if bits w 0 6 = 9 then
      if bits w 29 3 = 7 ∧ bits w 6 10 = 0 then .ok (.dmovRdclkh (bits w 16 5)) else .error .reservedField
    else .error .reservedValue
  | 1 => if bits w 29 3 = 7 ∧ bits w 0 16 = 0 then literal lit fun v => (.dmovl (bits w 16 5) v) else .error .reservedField
  | 2 =>
    if bits w 0 6 = 0 then
      if bits w 29 3 = 7 then .ok (.dadd (bits w 16 5) (bits w 11 5) (bits w 6 5)) else .error .reservedField
    else
    if bits w 0 6 = 1 then
      if bits w 29 3 = 7 then .ok (.daddSub (bits w 16 5) (bits w 11 5) (bits w 6 5)) else .error .reservedField
    else
    if bits w 0 6 = 2 then
      if bits w 29 3 = 7 then .ok (.daddImm (bits w 16 5) (bits w 11 5) (bits w 6 5)) else .error .reservedField
    else
    if bits w 0 6 = 3 then
      if bits w 29 3 = 7 then .ok (.daddD (bits w 16 5) (bits w 11 5) (bits w 6 5)) else .error .reservedField
    else .error .reservedValue
  | 3 => if bits w 29 3 = 7 ∧ bits w 0 6 = 0 then .ok (.dmul (bits w 16 5) (bits w 11 5) (bits w 6 5)) else .error .reservedField
  | 4 => if bits w 29 3 = 7 ∧ bits w 4 2 = 0 then .ok (.dcmp (bits w 16 5) (bits w 11 5) (bits w 6 5) (bits w 0 4)) else .error .reservedField
  | 5 => if bits w 29 3 = 7 then .ok (.dbr (bits w 16 5) (bits w 0 16)) else .error .reservedField
  | 6 => if bits w 29 3 = 7 then .ok (.dloop (bits w 16 5) (bits w 0 16)) else .error .reservedField
  | 7 => if bits w 29 3 = 7 ∧ bits w 0 16 = 0 then .ok (.dnext (bits w 16 5)) else .error .reservedField
  | _ => .error .unassignedOpcode

/-- Row 0xE8 of the map of R46. -/
noncomputable def decodeRowE8 (w : Word) (_ : Option Word) : Except DecodeError Instr :=
  match (bits w 21 3).toNat with
  | 0 => if bits w 29 3 = 7 ∧ bits w 0 21 = 0 then .ok (.dhalt) else .error .reservedField
  | 1 => if bits w 29 3 = 7 ∧ bits w 0 6 = 0 ∧ bits w 10 1 = 0 ∧ bits w 15 6 = 0 then .ok (.dsync (bits w 11 4) (bits w 6 4)) else .error .reservedField
  | 2 =>
    if bits w 0 3 = 0 then
      .ok (.xcopy (bits w 29 3) (bits w 14 7) (bits w 8 6) (bits w 4 4) (bits w 3 1))
    else
    if bits w 0 3 = 1 then
      .ok (.xcopyAdd (bits w 29 3) (bits w 14 7) (bits w 8 6) (bits w 4 4) (bits w 3 1))
    else
    if bits w 0 3 = 2 then
      if bits w 3 11 = 0 then .ok (.xcopyDetach (bits w 29 3) (bits w 14 7)) else .error .reservedField
    else
    if bits w 0 3 = 3 then
      .ok (.xcopyFabric (bits w 29 3) (bits w 14 7) (bits w 8 6) (bits w 4 4) (bits w 3 1))
    else .error .reservedValue
  | 3 =>
    if bits w 7 3 = 0 then
      if bits w 0 7 = 0 ∧ bits w 10 4 = 0 then .ok (.xwaitany (bits w 29 3) (bits w 14 7)) else .error .reservedField
    else
    if bits w 7 3 = 1 then
      if bits w 0 7 = 0 ∧ bits w 10 4 = 0 then .ok (.xwaitall (bits w 29 3) (bits w 14 7)) else .error .reservedField
    else .error .reservedValue
  | 4 => if bits w 0 14 = 0 then .ok (.xffr (bits w 29 3) (bits w 14 7)) else .error .reservedField
  | 5 => if bits w 0 14 = 0 then .ok (.xtags (bits w 29 3) (bits w 14 7)) else .error .reservedField
  | 6 =>
    if bits w 7 3 = 0 then
      if bits w 0 7 = 0 then .ok (.barInit (bits w 29 3) (bits w 14 7) (bits w 10 4)) else .error .reservedField
    else
    if bits w 7 3 = 1 then
      if bits w 0 7 = 0 then .ok (.barArv (bits w 29 3) (bits w 14 7) (bits w 10 4)) else .error .reservedField
    else
    if bits w 7 3 = 2 then
      if bits w 0 7 = 0 then .ok (.barSync (bits w 29 3) (bits w 14 7) (bits w 10 4)) else .error .reservedField
    else
    if bits w 7 3 = 3 then
      if bits w 0 7 = 0 ∧ bits w 14 7 = 0 then .ok (.barInval (bits w 29 3) (bits w 10 4)) else .error .reservedField
    else .error .reservedValue
  | 7 => if bits w 0 21 = 0 then .ok (.ckpt (bits w 29 3)) else .error .reservedField
  | _ => .error .unassignedOpcode

/-- Row 0xF0 of the map of R46. -/
noncomputable def decodeRowF0 (w : Word) (_ : Option Word) : Except DecodeError Instr :=
  match (bits w 21 3).toNat with
  | 0 => if bits w 0 7 = 0 then .ok (.salloc (bits w 29 3) (bits w 14 7) (bits w 7 7)) else .error .reservedField
  | 1 => if bits w 0 7 = 0 ∧ bits w 14 7 = 0 then .ok (.sfree (bits w 29 3) (bits w 7 7)) else .error .reservedField
  | 2 => if bits w 0 7 = 0 then .ok (.srelight (bits w 29 3) (bits w 14 7) (bits w 7 7)) else .error .reservedField
  | 3 => if bits w 0 21 = 0 then .ok (.sret (bits w 29 3)) else .error .reservedField
  | 4 =>
    if bits w 0 7 = 0 then
      .ok (.sinfoAlloc (bits w 29 3) (bits w 14 7) (bits w 7 7))
    else
    if bits w 0 7 = 1 then
      if bits w 7 7 = 0 then .ok (.sinfoEntry (bits w 29 3) (bits w 14 7)) else .error .reservedField
    else
    if bits w 0 7 = 2 then
      if bits w 7 7 = 0 then .ok (.sinfoCore (bits w 29 3) (bits w 14 7)) else .error .reservedField
    else .error .reservedValue
  | 5 => if bits w 0 7 = 0 ∧ bits w 14 7 = 0 then .ok (.bdgt (bits w 29 3) (bits w 7 7)) else .error .reservedField
  | 6 =>
    if bits w 0 7 = 0 then
      .ok (.cjoin (bits w 29 3) (bits w 14 7) (bits w 7 7))
    else
    if bits w 0 7 = 1 then
      if bits w 7 7 = 0 then .ok (.cjoinInfo (bits w 29 3) (bits w 14 7)) else .error .reservedField
    else .error .reservedValue
  | 7 => if bits w 0 14 = 0 then .ok (.cleave (bits w 29 3) (bits w 14 7)) else .error .reservedField
  | _ => .error .unassignedOpcode

/-- Row 0xF8 of the map of R46. -/
noncomputable def decodeRowF8 (w : Word) (_ : Option Word) : Except DecodeError Instr :=
  match (bits w 21 3).toNat with
  | 0 =>
    if bits w 0 7 = 0 then
      if bits w 14 7 = 0 then .ok (.tmbarSync (bits w 29 3) (bits w 7 7)) else .error .reservedField
    else
    if bits w 0 7 = 1 then
      if bits w 14 7 = 0 then .ok (.tmbarArv (bits w 29 3) (bits w 7 7)) else .error .reservedField
    else .error .reservedValue
  | 1 =>
    if bits w 0 7 = 0 then
      if bits w 14 7 = 0 then .ok (.evsig (bits w 29 3) (bits w 7 7)) else .error .reservedField
    else
    if bits w 0 7 = 1 then
      if bits w 14 7 = 0 then .ok (.evwait (bits w 29 3) (bits w 7 7)) else .error .reservedField
    else
    if bits w 0 7 = 2 then
      if bits w 14 7 = 0 then .ok (.evclr (bits w 29 3) (bits w 7 7)) else .error .reservedField
    else
    if bits w 0 7 = 3 then
      if bits w 14 7 = 0 then .ok (.evarm (bits w 29 3) (bits w 7 7)) else .error .reservedField
    else .error .reservedValue
  | 2 => if bits w 0 7 = 0 then .ok (.lnch (bits w 29 3) (bits w 14 7) (bits w 7 7)) else .error .reservedField
  | 3 => if bits w 0 21 = 0 then .ok (.wgdone (bits w 29 3)) else .error .reservedField
  | 4 =>
    if bits w 0 7 = 0 then
      if bits w 14 7 = 0 then .ok (.ptsyncPage (bits w 29 3) (bits w 7 7)) else .error .reservedField
    else
    if bits w 0 7 = 1 then
      if bits w 7 14 = 0 then .ok (.ptsyncAll (bits w 29 3)) else .error .reservedField
    else .error .reservedValue
  | 5 => if bits w 4 3 = 0 ∧ bits w 14 7 = 0 then .ok (.icinv (bits w 29 3) (bits w 7 7) (bits w 0 4)) else .error .reservedField
  | 6 => if bits w 0 7 = 0 ∧ bits w 14 7 = 0 then .ok (.fsig (bits w 29 3) (bits w 7 7)) else .error .reservedField
  | _ => .error .unassignedOpcode

/-- The rows of the thread streams' own opcodes, 0x00 to 0xBF (R46). -/
def decodeLow (w : Word) (lit : Option Word) : Except DecodeError Instr :=
  match (bits w 24 5).toNat with
  | 0 => decodeRow00 w lit
  | 1 => decodeRow08 w lit
  | 2 => decodeRow10 w lit
  | 3 => decodeRow18 w lit
  | 4 => decodeRow20 w lit
  | 5 => decodeRow28 w lit
  | 6 => decodeRow30 w lit
  | 7 => decodeRow38 w lit
  | 8 => decodeRow40 w lit
  | 9 => decodeRow48 w lit
  | 10 => decodeRow50 w lit
  | 11 => decodeRow58 w lit
  | 12 => decodeRow60 w lit
  | 13 => decodeRow68 w lit
  | 14 => decodeRow70 w lit
  | 15 => decodeRow78 w lit
  | 16 => decodeRow80 w lit
  | 17 => decodeRow88 w lit
  | 18 => decodeRow90 w lit
  | 19 => decodeRow98 w lit
  | 20 => decodeRowA0 w lit
  | 21 => decodeRowA8 w lit
  | 22 => decodeRowB0 w lit
  | 23 => decodeRowB8 w lit
  | _ => .error .unassignedOpcode

/-- The map of R46 by rows of eight opcodes. -/
noncomputable def decodeMap (w : Word) (lit : Option Word) : Except DecodeError Instr :=
  match (bits w 24 5).toNat with
  | 24 => decodeRowC0 w lit
  | 25 => decodeRowC8 w lit
  | 26 => decodeRowD0 w lit
  | 27 => decodeRowD8 w lit
  | 28 => decodeRowE0 w lit
  | 29 => decodeRowE8 w lit
  | 30 => decodeRowF0 w lit
  | 31 => decodeRowF8 w lit
  | _ => decodeLow w lit

/-- One instruction word, with the literal word after it where it is a literal form. -/
noncomputable def decodeWord (w : Word) (lit : Option Word) : Except DecodeError Instr :=
  match decodeMap w lit with
  | .ok i => if i.wellFormed then .ok i else .error .illegalOperand
  | .error e => .error e

/-- The class of an opcode (R37, R46). -/
def opcodeClass (w : Word) : Option (BitVec 3) :=
  let op := (bits w 21 8).toNat
  if op ≤ 0x6E then some 0#3
  else if 0x70 ≤ op && op ≤ 0x96 then some 1#3
  else if 0x98 ≤ op && op ≤ 0xAB then some 2#3
  else if 0xB0 ≤ op && op ≤ 0xBB then some 3#3
  else if (0xC0 ≤ op && op ≤ 0xD9) || (0xE0 ≤ op && op ≤ 0xEF) then some 4#3
  else if 0xF0 ≤ op && op ≤ 0xFE then some 5#3
  else none

/-- A literal-form opcode (R39, R43): it owns the word after it. -/
def isLiteralForm (w : Word) : Bool :=
  let op := (bits w 21 8).toNat
  op = 0x3B || op = 0x77 || op = 0x7B || op = 0xE1

/-- Four bytes of an instruction stream, little-endian (R22). -/
def wordOfBytes (b0 b1 b2 b3 : Byte) : Word := b3 ++ b2 ++ b1 ++ b0

/-- Decoding, total on any bytes: one instruction and the bytes after it. -/
noncomputable def decode : List Byte → Except DecodeError (Instr × List Byte)
  | b0 :: b1 :: b2 :: b3 :: rest =>
    let w := wordOfBytes b0 b1 b2 b3
    if isLiteralForm w then
      match rest with
      | c0 :: c1 :: c2 :: c3 :: rest' =>
        (decodeWord w (some (wordOfBytes c0 c1 c2 c3))).map fun i => (i, rest')
      | _ => .error .noLiteral
    else (decodeWord w none).map fun i => (i, rest)
  | _ => .error .tooShort

/-- A word's bytes as the hardware stores them (R22). -/
def bytesOfWord (w : Word) : List Byte := [bits w 0 8, bits w 8 8, bits w 16 8, bits w 24 8]

/-- The instruction read from a word of the opcode table (bit 0 the least significant bit of the first word), the
bits above `nbits` zero: the longest instruction is two words. -/
noncomputable def decodeTableWord (nbits w : Nat) : Option Instr :=
  let v := w % 2 ^ nbits
  match decode (bytesOfWord (BitVec.ofNat 32 v) ++ bytesOfWord (BitVec.ofNat 32 (v / 2 ^ 32))) with
  | .ok (i, _) => some i
  | .error _ => none

/-- The words of an instruction (R38, R39, R40, R44): one, or two for a literal form, or none for a device step. -/
def encode : Instr → List Word
  | .addS32 g d a b => [g ++ 0x00#8 ++ d ++ a ++ b]
  | .addS32Sat g d a b => [g ++ 0x01#8 ++ d ++ a ++ b]
  | .addN32Sat g d a b => [g ++ 0x02#8 ++ d ++ a ++ b]
  | .addN64 g d a b => [g ++ 0x03#8 ++ d ++ a ++ b]
  | .subS32 g d a b => [g ++ 0x04#8 ++ d ++ a ++ b]
  | .subS32Sat g d a b => [g ++ 0x05#8 ++ d ++ a ++ b]
  | .subN32Sat g d a b => [g ++ 0x06#8 ++ d ++ a ++ b]
  | .subN64 g d a b => [g ++ 0x07#8 ++ d ++ a ++ b]
  | .mulS32 g d a b => [g ++ 0x08#8 ++ d ++ a ++ b]
  | .mulS32Sat g d a b => [g ++ 0x09#8 ++ d ++ a ++ b]
  | .mulN32Sat g d a b => [g ++ 0x0A#8 ++ d ++ a ++ b]
  | .mulN64 g d a b => [g ++ 0x0B#8 ++ d ++ a ++ b]
  | .madS32 g d a b => [g ++ 0x0C#8 ++ d ++ a ++ b]
  | .madS32Sat g d a b => [g ++ 0x0D#8 ++ d ++ a ++ b]
  | .madN32Sat g d a b => [g ++ 0x0E#8 ++ d ++ a ++ b]
  | .madN64 g d a b => [g ++ 0x0F#8 ++ d ++ a ++ b]
  | .mulhS32 g d a b => [g ++ 0x10#8 ++ d ++ a ++ b]
  | .mulhN32 g d a b => [g ++ 0x11#8 ++ d ++ a ++ b]
  | .divS32 g d a b => [g ++ 0x12#8 ++ d ++ a ++ b]
  | .divN32 g d a b => [g ++ 0x13#8 ++ d ++ a ++ b]
  | .remS32 g d a b => [g ++ 0x14#8 ++ d ++ a ++ b]
  | .remN32 g d a b => [g ++ 0x15#8 ++ d ++ a ++ b]
  | .minS32 g d a b => [g ++ 0x16#8 ++ d ++ a ++ b]
  | .minN32 g d a b => [g ++ 0x17#8 ++ d ++ a ++ b]
  | .maxS32 g d a b => [g ++ 0x18#8 ++ d ++ a ++ b]
  | .maxN32 g d a b => [g ++ 0x19#8 ++ d ++ a ++ b]
  | .addminS32 g d a b => [g ++ 0x1A#8 ++ d ++ a ++ b]
  | .addminN32 g d a b => [g ++ 0x1B#8 ++ d ++ a ++ b]
  | .addmaxS32 g d a b => [g ++ 0x1C#8 ++ d ++ a ++ b]
  | .addmaxN32 g d a b => [g ++ 0x1D#8 ++ d ++ a ++ b]
  | .clampS32 g d a b => [g ++ 0x1E#8 ++ d ++ a ++ b]
  | .clampN32 g d a b => [g ++ 0x1F#8 ++ d ++ a ++ b]
  | .addc g d a b => [g ++ 0x20#8 ++ d ++ a ++ b]
  | .subb g d a b => [g ++ 0x21#8 ++ d ++ a ++ b]
  | .neg g d a => [g ++ 0x22#8 ++ d ++ a ++ 0#7]
  | .abs g d a => [g ++ 0x23#8 ++ d ++ a ++ 0#7]
  | .lea g d a b => [g ++ 0x24#8 ++ d ++ a ++ b]
  | .and g d a b => [g ++ 0x25#8 ++ d ++ a ++ b]
  | .or g d a b => [g ++ 0x26#8 ++ d ++ a ++ b]
  | .xor g d a b => [g ++ 0x27#8 ++ d ++ a ++ b]
  | .andn g d a b => [g ++ 0x28#8 ++ d ++ a ++ b]
  | .not g d a => [g ++ 0x29#8 ++ d ++ a ++ 0#7]
  | .shl g d a b => [g ++ 0x2A#8 ++ d ++ a ++ b]
  | .shr g d a b => [g ++ 0x2B#8 ++ d ++ a ++ b]
  | .sar g d a b => [g ++ 0x2C#8 ++ d ++ a ++ b]
  | .rot g d a b => [g ++ 0x2D#8 ++ d ++ a ++ b]
  | .bfx g d a b => [g ++ 0x2E#8 ++ d ++ a ++ b]
  | .bfi g d a b => [g ++ 0x2F#8 ++ d ++ a ++ b]
  | .popc g d a => [g ++ 0x30#8 ++ d ++ a ++ 0#7]
  | .clz g d a => [g ++ 0x31#8 ++ d ++ a ++ 0#7]
  | .ctz g d a => [g ++ 0x32#8 ++ d ++ a ++ 0#7]
  | .brev g d a => [g ++ 0x33#8 ++ d ++ a ++ 0#7]
  | .bswap g d a => [g ++ 0x34#8 ++ d ++ a ++ 0#7]
  | .sel g d a b => [g ++ 0x35#8 ++ d ++ a ++ b]
  | .mov g d a => [g ++ 0x36#8 ++ d ++ a ++ 0#7]
  | .cmp g c p a b => [g ++ 0x37#8 ++ c ++ p ++ a ++ b]
  | .plog g t d a b => [g ++ 0x38#8 ++ t ++ d ++ 0#4 ++ a ++ 0#4 ++ b]
  | .pmovRd g d => [g ++ 0x39#8 ++ d ++ 0#14]
  | .pmovWr g a => [g ++ 0x39#8 ++ 0#7 ++ a ++ 1#7]
  | .movi g d i => [g ++ 0x3A#8 ++ d ++ i]
  | .movl g d lit => [g ++ 0x3B#8 ++ d ++ 0#14, lit]
  | .cmpi g c p a i => [g ++ 0x3C#8 ++ c ++ p ++ a ++ i]
  | .addImm g d a i => [g ++ 0x3D#8 ++ d ++ a ++ i]
  | .andImm g d a i => [g ++ 0x3E#8 ++ d ++ a ++ i]
  | .orImm g d a i => [g ++ 0x3F#8 ++ d ++ a ++ i]
  | .xorImm g d a i => [g ++ 0x40#8 ++ d ++ a ++ i]
  | .shlImm g d a i => [g ++ 0x41#8 ++ d ++ a ++ 0#2 ++ i]
  | .shrImm g d a i => [g ++ 0x42#8 ++ d ++ a ++ 0#2 ++ i]
  | .sarImm g d a i => [g ++ 0x43#8 ++ d ++ a ++ 0#2 ++ i]
  | .rotImm g d a i => [g ++ 0x44#8 ++ d ++ a ++ 0#2 ++ i]
  | .fmin g d a b => [g ++ 0x45#8 ++ d ++ a ++ b]
  | .fmax g d a b => [g ++ 0x46#8 ++ d ++ a ++ b]
  | .fdiv g d a b => [g ++ 0x47#8 ++ d ++ a ++ b]
  | .fadd g d a b => [g ++ 0x48#8 ++ d ++ a ++ b]
  | .faddRn g d a b => [g ++ 0x49#8 ++ d ++ a ++ b]
  | .fsub g d a b => [g ++ 0x4A#8 ++ d ++ a ++ b]
  | .fsubRn g d a b => [g ++ 0x4B#8 ++ d ++ a ++ b]
  | .fmul g d a b => [g ++ 0x4C#8 ++ d ++ a ++ b]
  | .fmulRn g d a b => [g ++ 0x4D#8 ++ d ++ a ++ b]
  | .ffma g d a b => [g ++ 0x4E#8 ++ d ++ a ++ b]
  | .ffmaRn g d a b => [g ++ 0x4F#8 ++ d ++ a ++ b]
  | .fscale g d a b => [g ++ 0x50#8 ++ d ++ a ++ b]
  | .fcmp g c p a b => [g ++ 0x51#8 ++ c ++ p ++ a ++ b]
  | .fabs g d a => [g ++ 0x52#8 ++ d ++ a ++ 0#7]
  | .fneg g d a => [g ++ 0x53#8 ++ d ++ a ++ 0#7]
  | .fclass g d a => [g ++ 0x54#8 ++ d ++ a ++ 0#7]
  | .frnd g d a m => [g ++ 0x55#8 ++ d ++ a ++ m]
  | .frcp g d a m => [g ++ 0x56#8 ++ d ++ a ++ m]
  | .frsq g d a m => [g ++ 0x57#8 ++ d ++ a ++ m]
  | .fsqrt g d a m => [g ++ 0x58#8 ++ d ++ a ++ m]
  | .fex2 g d a m => [g ++ 0x59#8 ++ d ++ a ++ m]
  | .flg2 g d a m => [g ++ 0x5A#8 ++ d ++ a ++ m]
  | .fsin g d a m => [g ++ 0x5B#8 ++ d ++ a ++ m]
  | .fcos g d a m => [g ++ 0x5C#8 ++ d ++ a ++ m]
  | .cvt g d a cs => [g ++ 0x5D#8 ++ d ++ a ++ cs]
  | .cvtRn g d a cs => [g ++ 0x5E#8 ++ d ++ a ++ cs]
  | .cvtRna g d a cs => [g ++ 0x5F#8 ++ d ++ a ++ cs]
  | .cvtRz g d a cs => [g ++ 0x60#8 ++ d ++ a ++ cs]
  | .cvtRp g d a cs => [g ++ 0x61#8 ++ d ++ a ++ cs]
  | .cvtRm g d a cs => [g ++ 0x62#8 ++ d ++ a ++ cs]
  | .hadd2Bf16 g d a b => [g ++ 0x63#8 ++ d ++ a ++ b]
  | .hsub2Bf16 g d a b => [g ++ 0x64#8 ++ d ++ a ++ b]
  | .hmul2Bf16 g d a b => [g ++ 0x65#8 ++ d ++ a ++ b]
  | .hfma2Bf16 g d a b => [g ++ 0x66#8 ++ d ++ a ++ b]
  | .hmin2Bf16 g d a b => [g ++ 0x67#8 ++ d ++ a ++ b]
  | .hmax2Bf16 g d a b => [g ++ 0x68#8 ++ d ++ a ++ b]
  | .hadd2Hf16 g d a b => [g ++ 0x69#8 ++ d ++ a ++ b]
  | .hsub2Hf16 g d a b => [g ++ 0x6A#8 ++ d ++ a ++ b]
  | .hmul2Hf16 g d a b => [g ++ 0x6B#8 ++ d ++ a ++ b]
  | .hfma2Hf16 g d a b => [g ++ 0x6C#8 ++ d ++ a ++ b]
  | .hmin2Hf16 g d a b => [g ++ 0x6D#8 ++ d ++ a ++ b]
  | .hmax2Hf16 g d a b => [g ++ 0x6E#8 ++ d ++ a ++ b]
  | .ldS8 g d a o => [g ++ 0x70#8 ++ d ++ a ++ o]
  | .ldZ8 g d a o => [g ++ 0x71#8 ++ d ++ a ++ o]
  | .ldS16 g d a o => [g ++ 0x72#8 ++ d ++ a ++ o]
  | .ldZ16 g d a o => [g ++ 0x73#8 ++ d ++ a ++ o]
  | .ldW g d a o => [g ++ 0x74#8 ++ d ++ a ++ o]
  | .ldD g d a o => [g ++ 0x75#8 ++ d ++ a ++ o]
  | .ldQ g d a o => [g ++ 0x76#8 ++ d ++ a ++ o]
  | .ldl g d a sz adv lit => [g ++ 0x77#8 ++ d ++ a ++ sz ++ adv ++ 0#3, lit]
  | .ldAdvW g d a o => [g ++ 0x78#8 ++ d ++ a ++ o]
  | .ldAdvD g d a o => [g ++ 0x79#8 ++ d ++ a ++ o]
  | .ldAdvQ g d a o => [g ++ 0x7A#8 ++ d ++ a ++ o]
  | .stl g d a sz lit => [g ++ 0x7B#8 ++ d ++ a ++ sz ++ 0#4, lit]
  | .stB8 g d a o => [g ++ 0x7C#8 ++ d ++ a ++ o]
  | .stB16 g d a o => [g ++ 0x7D#8 ++ d ++ a ++ o]
  | .stW g d a o => [g ++ 0x7E#8 ++ d ++ a ++ o]
  | .stD g d a o => [g ++ 0x7F#8 ++ d ++ a ++ o]
  | .stQ g d a o => [g ++ 0x80#8 ++ d ++ a ++ o]
  | .shld g d a o => [g ++ 0x81#8 ++ d ++ a ++ o]
  | .ldfragT8 g d a o => [g ++ 0x82#8 ++ d ++ a ++ o]
  | .ldfragT16 g d a o => [g ++ 0x83#8 ++ d ++ a ++ o]
  | .ldt g d c h => [g ++ 0x84#8 ++ d ++ c ++ 0#4 ++ h]
  | .stt g d c h => [g ++ 0x85#8 ++ d ++ c ++ 0#4 ++ h]
  | .wadd g a b => [g ++ 0x86#8 ++ 0#7 ++ a ++ b]
  | .wld g d a => [g ++ 0x87#8 ++ d ++ a ++ 0#7]
  | .atomAdd g d a b => [g ++ 0x88#8 ++ d ++ a ++ b]
  | .atomMin g d a b => [g ++ 0x89#8 ++ d ++ a ++ b]
  | .atomMax g d a b => [g ++ 0x8A#8 ++ d ++ a ++ b]
  | .atomAnd g d a b => [g ++ 0x8B#8 ++ d ++ a ++ b]
  | .atomOr g d a b => [g ++ 0x8C#8 ++ d ++ a ++ b]
  | .atomXor g d a b => [g ++ 0x8D#8 ++ d ++ a ++ b]
  | .atomExch g d a b => [g ++ 0x8E#8 ++ d ++ a ++ b]
  | .atomCas g d a b => [g ++ 0x8F#8 ++ d ++ a ++ b]
  | .acq g a sc k => [g ++ 0x90#8 ++ 0#7 ++ a ++ sc ++ k]
  | .rel g a sc k => [g ++ 0x91#8 ++ 0#7 ++ a ++ sc ++ k]
  | .fence g sc => [g ++ 0x92#8 ++ 0#14 ++ sc ++ 0#3]
  | .bind g d a b => [g ++ 0x93#8 ++ d ++ a ++ b]
  | .unbind g d => [g ++ 0x94#8 ++ d ++ 0#14]
  | .pgreq g a o => [g ++ 0x95#8 ++ 0#7 ++ a ++ o]
  | .pgprobe g d a o => [g ++ 0x96#8 ++ d ++ a ++ o]
  | .br g o => [g ++ 0x98#8 ++ o]
  | .brl g l o => [g ++ 0x99#8 ++ l ++ o]
  | .jmp g a => [g ++ 0x9A#8 ++ 0#7 ++ a ++ 0#7]
  | .call g o => [g ++ 0x9B#8 ++ o]
  | .calli g a => [g ++ 0x9C#8 ++ 0#7 ++ a ++ 0#7]
  | .ret g => [g ++ 0x9D#8 ++ 0#21]
  | .enrol g j => [g ++ 0x9E#8 ++ 0#18 ++ j]
  | .join g j => [g ++ 0x9F#8 ++ 0#18 ++ j]
  | .exit g => [g ++ 0xA0#8 ++ 0#21]
  | .trap g c => [g ++ 0xA1#8 ++ 0#13 ++ c]
  | .tret g => [g ++ 0xA2#8 ++ 0#21]
  | .brk g c => [g ++ 0xA3#8 ++ 0#13 ++ c]
  | .nop g => [g ++ 0xA4#8 ++ 0#21]
  | .wait g l st c t => [g ++ 0xA5#8 ++ 0#5 ++ l ++ st ++ c ++ t]
  | .tryW g o => [g ++ 0xA6#8 ++ o]
  | .tryL g o => [g ++ 0xA7#8 ++ o]
  | .tcommit g => [g ++ 0xA8#8 ++ 0#21]
  | .tabort g c => [g ++ 0xA9#8 ++ 0#13 ++ c]
  | .speculationConflict => []
  | .srd g d n => [g ++ 0xAA#8 ++ d ++ 0#2 ++ n]
  | .swr g src n => [g ++ 0xAB#8 ++ src ++ 0#2 ++ n]
  | .shflIdx g k d a b => [g ++ 0x2C#6 ++ k ++ d ++ a ++ b]
  | .shflUp g d a m n => [g ++ 0xB4#8 ++ d ++ a ++ m ++ n]
  | .shflDown g d a m n => [g ++ 0xB5#8 ++ d ++ a ++ m ++ n]
  | .shflXor g d a m n => [g ++ 0xB6#8 ++ d ++ a ++ m ++ n]
  | .vote g d a m o => [g ++ 0xB7#8 ++ d ++ a ++ m ++ o]
  | .matchLanes g d a m o => [g ++ 0xB8#8 ++ d ++ a ++ m ++ o]
  | .gred g d a m o => [g ++ 0xB9#8 ++ d ++ a ++ m ++ o]
  | .gscan g d a m o => [g ++ 0xBA#8 ++ d ++ a ++ m ++ o]
  | .lanesGet g d m => [g ++ 0xBB#8 ++ d ++ 0#7 ++ m ++ 0#5]
  | .lanesSet g a m => [g ++ 0xBB#8 ++ 0#7 ++ a ++ m ++ 1#5]
  | .lanesPresent g d m => [g ++ 0xBB#8 ++ d ++ 0#7 ++ m ++ 2#5]
  | .breserve u r => [7#3 ++ 0xC0#8 ++ 0#5 ++ u ++ 0#5 ++ r ++ 0#3]
  | .brelease u => [7#3 ++ 0xC1#8 ++ 0#5 ++ u ++ 0#13]
  | .bfill u r x => [7#3 ++ 0xC2#8 ++ 0#5 ++ u ++ 0#5 ++ r ++ x]
  | .bgather u r x => [7#3 ++ 0xC3#8 ++ 0#5 ++ u ++ 0#5 ++ r ++ 0#1 ++ x]
  | .mma t a b l m n z => [7#3 ++ 0xC4#8 ++ t ++ a ++ b ++ l ++ m ++ n ++ z ++ 0#1]
  | .mmaw t a b l m n z => [7#3 ++ 0xC5#8 ++ t ++ a ++ b ++ l ++ m ++ n ++ z ++ 0#1]
  | .talloc t r => [7#3 ++ 0xC6#8 ++ t ++ 0#9 ++ r ++ 0#3]
  | .tfree t => [7#3 ++ 0xC7#8 ++ t ++ 0#17]
  | .tzero t => [7#3 ++ 0xC8#8 ++ t ++ 0#17]
  | .tld t r x => [7#3 ++ 0xC9#8 ++ t ++ 0#9 ++ r ++ x]
  | .tst t r x => [7#3 ++ 0xCA#8 ++ t ++ 0#9 ++ r ++ x]
  | .tpost t l => [7#3 ++ 0xCB#8 ++ t ++ 0#4 ++ l ++ 0#8]
  | .tfinal t => [7#3 ++ 0xCC#8 ++ t ++ 0#17]
  | .tsettle l r => [7#3 ++ 0xCD#8 ++ 0#8 ++ l ++ r ++ 0#3]
  | .tcvtBuffer t u n z => [7#3 ++ 0xCE#8 ++ t ++ 0#1 ++ u ++ 0#11 ++ n ++ z]
  | .tcvtMemory t r n z => [7#3 ++ 0xCE#8 ++ t ++ 0#9 ++ r ++ 1#1 ++ n ++ z]
  | .fred t r => [7#3 ++ 0xCF#8 ++ t ++ 0#9 ++ r ++ 0#3]
  | .tadd t u l => [7#3 ++ 0xD0#8 ++ t ++ u ++ l ++ 0#8]
  | .tsub t u l => [7#3 ++ 0xD1#8 ++ t ++ u ++ l ++ 0#8]
  | .tneg t u l => [7#3 ++ 0xD2#8 ++ t ++ u ++ l ++ 0#8]
  | .tshift t u l r => [7#3 ++ 0xD3#8 ++ t ++ u ++ l ++ r ++ 0#3]
  | .tmuli t u l r => [7#3 ++ 0xD4#8 ++ t ++ u ++ l ++ r ++ 0#3]
  | .trsum t u l => [7#3 ++ 0xD5#8 ++ t ++ u ++ l ++ 0#8]
  | .tcsum t u l => [7#3 ++ 0xD6#8 ++ t ++ u ++ l ++ 0#8]
  | .ttrans t u l => [7#3 ++ 0xD7#8 ++ t ++ u ++ l ++ 0#8]
  | .tslice t u l r => [7#3 ++ 0xD8#8 ++ t ++ u ++ l ++ r ++ 0#3]
  | .tcopy t u l => [7#3 ++ 0xD9#8 ++ t ++ u ++ l ++ 0#8]
  | .dmov d a => [7#3 ++ 0xE0#8 ++ d ++ a ++ 0#11]
  | .dmovImm d i => [7#3 ++ 0xE0#8 ++ d ++ i ++ 1#6]
  | .dmovRdstat d => [7#3 ++ 0xE0#8 ++ d ++ 2#16]
  | .dmovWrstat a => [7#3 ++ 0xE0#8 ++ 0#5 ++ a ++ 3#11]
  | .dmovRdrm d => [7#3 ++ 0xE0#8 ++ d ++ 4#16]
  | .dmovWrrm a => [7#3 ++ 0xE0#8 ++ 0#5 ++ a ++ 5#11]
  | .dmovRdcnt d => [7#3 ++ 0xE0#8 ++ d ++ 6#16]
  | .dmovRdwg d => [7#3 ++ 0xE0#8 ++ d ++ 7#16]
  | .dmovRdclk d => [7#3 ++ 0xE0#8 ++ d ++ 8#16]
  | .dmovRdclkh d => [7#3 ++ 0xE0#8 ++ d ++ 9#16]
  | .dmovl d lit => [7#3 ++ 0xE1#8 ++ d ++ 0#16, lit]
  | .dadd d a b => [7#3 ++ 0xE2#8 ++ d ++ a ++ b ++ 0#6]
  | .daddSub d a b => [7#3 ++ 0xE2#8 ++ d ++ a ++ b ++ 1#6]
  | .daddImm d a i => [7#3 ++ 0xE2#8 ++ d ++ a ++ i ++ 2#6]
  | .daddD d a b => [7#3 ++ 0xE2#8 ++ d ++ a ++ b ++ 3#6]
  | .dmul d a b => [7#3 ++ 0xE3#8 ++ d ++ a ++ b ++ 0#6]
  | .dcmp d a b c => [7#3 ++ 0xE4#8 ++ d ++ a ++ b ++ 0#2 ++ c]
  | .dbr a o => [7#3 ++ 0xE5#8 ++ a ++ o]
  | .dloop a o => [7#3 ++ 0xE6#8 ++ a ++ o]
  | .dnext d => [7#3 ++ 0xE7#8 ++ d ++ 0#16]
  | .dhalt => [7#3 ++ 0xE8#8 ++ 0#21]
  | .dsync c t => [7#3 ++ 0xE9#8 ++ 0#6 ++ c ++ 0#1 ++ t ++ 0#6]
  | .xcopy g r t b e => [g ++ 0xEA#8 ++ r ++ t ++ b ++ e ++ 0#3]
  | .xcopyAdd g r t b e => [g ++ 0xEA#8 ++ r ++ t ++ b ++ e ++ 1#3]
  | .xcopyDetach g r => [g ++ 0xEA#8 ++ r ++ 2#14]
  | .xcopyFabric g r t b e => [g ++ 0xEA#8 ++ r ++ t ++ b ++ e ++ 3#3]
  | .xwaitany g r => [g ++ 0xEB#8 ++ r ++ 0#14]
  | .xwaitall g r => [g ++ 0xEB#8 ++ r ++ 128#14]
  | .xffr g r => [g ++ 0xEC#8 ++ r ++ 0#14]
  | .xtags g r => [g ++ 0xED#8 ++ r ++ 0#14]
  | .barInit g r b => [g ++ 0xEE#8 ++ r ++ b ++ 0#10]
  | .barArv g r b => [g ++ 0xEE#8 ++ r ++ b ++ 128#10]
  | .barSync g r b => [g ++ 0xEE#8 ++ r ++ b ++ 256#10]
  | .barInval g b => [g ++ 0xEE#8 ++ 0#7 ++ b ++ 384#10]
  | .ckpt g => [g ++ 0xEF#8 ++ 0#21]
  | .salloc g d a => [g ++ 0xF0#8 ++ d ++ a ++ 0#7]
  | .sfree g a => [g ++ 0xF1#8 ++ 0#7 ++ a ++ 0#7]
  | .srelight g d a => [g ++ 0xF2#8 ++ d ++ a ++ 0#7]
  | .sret g => [g ++ 0xF3#8 ++ 0#21]
  | .sinfoAlloc g d a => [g ++ 0xF4#8 ++ d ++ a ++ 0#7]
  | .sinfoEntry g d => [g ++ 0xF4#8 ++ d ++ 1#14]
  | .sinfoCore g d => [g ++ 0xF4#8 ++ d ++ 2#14]
  | .bdgt g a => [g ++ 0xF5#8 ++ 0#7 ++ a ++ 0#7]
  | .cjoin g d a => [g ++ 0xF6#8 ++ d ++ a ++ 0#7]
  | .cjoinInfo g d => [g ++ 0xF6#8 ++ d ++ 1#14]
  | .cleave g d => [g ++ 0xF7#8 ++ d ++ 0#14]
  | .tmbarSync g a => [g ++ 0xF8#8 ++ 0#7 ++ a ++ 0#7]
  | .tmbarArv g a => [g ++ 0xF8#8 ++ 0#7 ++ a ++ 1#7]
  | .evsig g a => [g ++ 0xF9#8 ++ 0#7 ++ a ++ 0#7]
  | .evwait g a => [g ++ 0xF9#8 ++ 0#7 ++ a ++ 1#7]
  | .evclr g a => [g ++ 0xF9#8 ++ 0#7 ++ a ++ 2#7]
  | .evarm g a => [g ++ 0xF9#8 ++ 0#7 ++ a ++ 3#7]
  | .lnch g d a => [g ++ 0xFA#8 ++ d ++ a ++ 0#7]
  | .wgdone g => [g ++ 0xFB#8 ++ 0#21]
  | .ptsyncPage g a => [g ++ 0xFC#8 ++ 0#7 ++ a ++ 0#7]
  | .ptsyncAll g => [g ++ 0xFC#8 ++ 1#21]
  | .icinv g a sc => [g ++ 0xFD#8 ++ 0#7 ++ a ++ 0#3 ++ sc]
  | .fsig g a => [g ++ 0xFE#8 ++ 0#7 ++ a ++ 0#7]
  | .clauseHeaderTake => []
  | .pcComparatorHold _ => []
  | .loadComplete _ _ => []
  | .hayrickEntryDrain _ => []
  | .squadSwapBegin _ _ _ _ => []
  | .squadSwapEnd _ => []
  | .teamPlacement _ _ _ _ => []
  | .workgroupEnd _ => []
  | .launchReady _ => []
  | .lnchAnswer _ _ => []
  | .copyTakesEffect _ => []
  | .copyComplete _ => []
  | .engineOpExecute _ _ => []
  | .engineOpComplete _ _ => []
  | .preemptTeam _ _ => []
  | .fullSave _ => []
  | .contextWritten _ => []
  | .resumeTeam _ _ => []
  | .workgroupResume _ _ => []
  | .killWorkgroup _ => []
  | .uncorrectableErrorConsumed _ _ _ _ => []
  | .workgroupRelaunch _ _ => []
  | .withdrawCore _ => []
  | .returnCore _ => []
  | .commandAck _ _ => []
  | .chargeReport _ => []
  | .budgetHostWrite _ => []
  | .budgetMgmtSet _ => []
  | .pwrbrkNAssert => []
  | .pwrbrkNDeassert => []
  | .powerMeasurement _ => []
  | .budgetApply _ => []
  | .inFieldTestComplete _ _ _ _ => []
  | .uncorrectableArrayError _ _ _ => []
  | .sensorSample _ _ _ => []
  | .tringCtlWrite _ => []
  | .tringTailWrite _ => []
  | .replayDoorbell _ _ => []
  | .frameRingSupply _ _ => []
  | .hubPtsync _ _ => []
  | .expansion _ _ => []
  | .expansionComplete _ _ => []
  | .eventSignalApply _ => []
  | .almanacError _ _ => []
  | .dieHubFailure _ => []
  | .linkTraining _ _ _ _ => []
  | .flitReceive _ _ _ => []
  | .linkRetrain _ _ => []
  | .fredReductionBegin _ _ => []
  | .fsigArrival _ _ => []
  | .gangSliceStart _ _ => []
  | .gangReady _ _ => []
  | .gangSliceBegin _ => []
  | .gangLateTimeout _ => []
  | .powerGood _ => []
  | .inputUndervoltage => []
  | .quoteRequest _ => []
  | .quoteSign => []
  | .firmwareUpdate _ _ _ => []
  | .pldmMonitoring => []
  | .attachProcess _ _ => []
  | .detachProcess _ => []
  | .blinkSample _ => []
  | .histogramFlush _ => []
  | .registerWrite _ _ => []
  | .waddPerformed _ _ => []
  | .debugHandlerResume _ _ => []
  | .dqtailWrite _ _ => []
  | .dataPoisoned _ => []
  | .cxlMemRequest _ _ _ => []
  | .worxusEndsLaunch _ => []

end Sys2Proof
end

