-- ==== Sys2Proof/Machine/Operands.lean ====
section
/-! DEFINITION. Operands: of every instruction word, the general registers it names (R41, R80, R184), its guard
(R38), the word positions it takes (R43), whether it is forbidden in speculation (R136), and whether it belongs to the
drive stream alone (R45, R248). -/

namespace Sys2Proof

/-- The registers of a pair (R51). -/
def pair (r : BitVec 7) : List (BitVec 7) := [r, r + 1]

/-- The registers of a quad (R51). -/
def quadOf (r : BitVec 7) : List (BitVec 7) := [r, r + 1, r + 2, r + 3]

/-- The registers of an octet (R80). -/
def octetOf (r : BitVec 7) : List (BitVec 7) := quadOf r ++ quadOf (r + 4)

/-- The data registers of a literal form (R42). -/
def sized (sz : BitVec 3) (d : BitVec 7) : List (BitVec 7) :=
  if sz = 5#3 then pair d else if sz = 6#3 then quadOf d else [d]

/-- The registers of a conversion, by its selector (R104). -/
def cvtRegs (d a : BitVec 7) (s : BitVec 7) : List (BitVec 7) :=
  if s = 8#7 || s = 9#7 then d :: pair a
  else if s = 0x18#7 || s = 0x19#7 || s = 0x1A#7 || s = 0x28#7 || s = 0x29#7 then d :: quadOf a
  else if s = 0x20#7 then octetOf d ++ [a]
  else if s = 0x21#7 then d :: octetOf a
  else if s = 0x2A#7 || s = 0x2B#7 then quadOf d ++ [a]
  else [d, a]

/-- The general registers a word names in its fields. -/
def Instr.regs : Instr → List (BitVec 7)
  | .addS32 _ d a b => [d, a, b]
  | .addS32Sat _ d a b => [d, a, b]
  | .addN32Sat _ d a b => [d, a, b]
  | .addN64 _ d a b => pair d ++ pair a ++ pair b
  | .subS32 _ d a b => [d, a, b]
  | .subS32Sat _ d a b => [d, a, b]
  | .subN32Sat _ d a b => [d, a, b]
  | .subN64 _ d a b => pair d ++ pair a ++ pair b
  | .mulS32 _ d a b => [d, a, b]
  | .mulS32Sat _ d a b => [d, a, b]
  | .mulN32Sat _ d a b => [d, a, b]
  | .mulN64 _ d a b => pair d ++ [a, b]
  | .madS32 _ d a b => [d, a, b]
  | .madS32Sat _ d a b => [d, a, b]
  | .madN32Sat _ d a b => [d, a, b]
  | .madN64 _ d a b => pair d ++ [a, b]
  | .mulhS32 _ d a b => [d, a, b]
  | .mulhN32 _ d a b => [d, a, b]
  | .divS32 _ d a b => [d, a, b]
  | .divN32 _ d a b => [d, a, b]
  | .remS32 _ d a b => [d, a, b]
  | .remN32 _ d a b => [d, a, b]
  | .minS32 _ d a b => [d, a, b]
  | .minN32 _ d a b => [d, a, b]
  | .maxS32 _ d a b => [d, a, b]
  | .maxN32 _ d a b => [d, a, b]
  | .addminS32 _ d a b => [d, a, b]
  | .addminN32 _ d a b => [d, a, b]
  | .addmaxS32 _ d a b => [d, a, b]
  | .addmaxN32 _ d a b => [d, a, b]
  | .clampS32 _ d a b => [d, a, b]
  | .clampN32 _ d a b => [d, a, b]
  | .addc _ d a b => pair d ++ [a, b]
  | .subb _ d a b => pair d ++ [a, b]
  | .neg _ d a => [d, a]
  | .abs _ d a => [d, a]
  | .lea _ d a b => pair d ++ pair a ++ [b]
  | .and _ d a b => [d, a, b]
  | .or _ d a b => [d, a, b]
  | .xor _ d a b => [d, a, b]
  | .andn _ d a b => [d, a, b]
  | .not _ d a => [d, a]
  | .shl _ d a b => [d, a, b]
  | .shr _ d a b => [d, a, b]
  | .sar _ d a b => [d, a, b]
  | .rot _ d a b => [d, a, b]
  | .bfx _ d a b => [d, a, b]
  | .bfi _ d a b => [d, a, b]
  | .popc _ d a => [d, a]
  | .clz _ d a => [d, a]
  | .ctz _ d a => [d, a]
  | .brev _ d a => [d, a]
  | .bswap _ d a => [d, a]
  | .sel _ d a b => [d, a, b]
  | .mov _ d a => [d, a]
  | .cmp _ _ _ a b => [a, b]
  | .plog _ _ _ _ _ => []
  | .pmovRd _ d => [d]
  | .pmovWr _ a => [a]
  | .movi _ d _ => [d]
  | .movl _ d _ => [d]
  | .cmpi _ _ _ a _ => [a]
  | .addImm _ d a _ => [d, a]
  | .andImm _ d a _ => [d, a]
  | .orImm _ d a _ => [d, a]
  | .xorImm _ d a _ => [d, a]
  | .shlImm _ d a _ => [d, a]
  | .shrImm _ d a _ => [d, a]
  | .sarImm _ d a _ => [d, a]
  | .rotImm _ d a _ => [d, a]
  | .fmin _ d a b => [d, a, b]
  | .fmax _ d a b => [d, a, b]
  | .fdiv _ d a b => [d, a, b]
  | .fadd _ d a b => [d, a, b]
  | .faddRn _ d a b => [d, a, b]
  | .fsub _ d a b => [d, a, b]
  | .fsubRn _ d a b => [d, a, b]
  | .fmul _ d a b => [d, a, b]
  | .fmulRn _ d a b => [d, a, b]
  | .ffma _ d a b => [d, a, b]
  | .ffmaRn _ d a b => [d, a, b]
  | .fscale _ d a b => [d, a, b]
  | .fcmp _ _ _ a b => [a, b]
  | .fabs _ d a => [d, a]
  | .fneg _ d a => [d, a]
  | .fclass _ d a => [d, a]
  | .frnd _ d a _ => [d, a]
  | .frcp _ d a _ => [d, a]
  | .frsq _ d a _ => [d, a]
  | .fsqrt _ d a _ => [d, a]
  | .fex2 _ d a _ => [d, a]
  | .flg2 _ d a _ => [d, a]
  | .fsin _ d a _ => [d, a]
  | .fcos _ d a _ => [d, a]
  | .cvt _ d a cs => cvtRegs d a cs
  | .cvtRn _ d a cs => cvtRegs d a cs
  | .cvtRna _ d a cs => cvtRegs d a cs
  | .cvtRz _ d a cs => cvtRegs d a cs
  | .cvtRp _ d a cs => cvtRegs d a cs
  | .cvtRm _ d a cs => cvtRegs d a cs
  | .hadd2Bf16 _ d a b => [d, a, b]
  | .hsub2Bf16 _ d a b => [d, a, b]
  | .hmul2Bf16 _ d a b => [d, a, b]
  | .hfma2Bf16 _ d a b => [d, a, b]
  | .hmin2Bf16 _ d a b => [d, a, b]
  | .hmax2Bf16 _ d a b => [d, a, b]
  | .hadd2Hf16 _ d a b => [d, a, b]
  | .hsub2Hf16 _ d a b => [d, a, b]
  | .hmul2Hf16 _ d a b => [d, a, b]
  | .hfma2Hf16 _ d a b => [d, a, b]
  | .hmin2Hf16 _ d a b => [d, a, b]
  | .hmax2Hf16 _ d a b => [d, a, b]
  | .ldS8 _ d a _ => d :: pair a
  | .ldZ8 _ d a _ => d :: pair a
  | .ldS16 _ d a _ => d :: pair a
  | .ldZ16 _ d a _ => d :: pair a
  | .ldW _ d a _ => d :: pair a
  | .ldD _ d a _ => pair d ++ pair a
  | .ldQ _ d a _ => quadOf d ++ pair a
  | .ldl _ d a sz _ _ => sized sz d ++ pair a
  | .ldAdvW _ d a _ => d :: pair a
  | .ldAdvD _ d a _ => pair d ++ pair a
  | .ldAdvQ _ d a _ => quadOf d ++ pair a
  | .stl _ d a sz _ => sized sz d ++ pair a
  | .stB8 _ d a _ => d :: pair a
  | .stB16 _ d a _ => d :: pair a
  | .stW _ d a _ => d :: pair a
  | .stD _ d a _ => pair d ++ pair a
  | .stQ _ d a _ => quadOf d ++ pair a
  | .shld _ d a _ => d :: pair a
  | .ldfragT8 _ d a _ => quadOf d ++ pair a
  | .ldfragT16 _ d a _ => quadOf d ++ pair a
  | .ldt _ d c _ => [d, c]
  | .stt _ d c _ => [d, c]
  | .wadd _ a b => pair a ++ [b]
  | .wld _ d a => quadOf d ++ pair a
  | .atomAdd _ d a b => d :: pair a ++ [b]
  | .atomMin _ d a b => d :: pair a ++ [b]
  | .atomMax _ d a b => d :: pair a ++ [b]
  | .atomAnd _ d a b => d :: pair a ++ [b]
  | .atomOr _ d a b => d :: pair a ++ [b]
  | .atomXor _ d a b => d :: pair a ++ [b]
  | .atomExch _ d a b => d :: pair a ++ [b]
  | .atomCas _ d a b => d :: pair a ++ pair b
  | .acq _ a _ k => if k = 3#3 then pair a else []
  | .rel _ a _ k => if k = 3#3 then pair a else []
  | .fence _ _ => []
  | .bind _ d a b => quadOf d ++ pair a ++ [b]
  | .unbind _ d => quadOf d
  | .pgreq _ a _ => pair a
  | .pgprobe _ d a _ => d :: pair a
  | .br _ _ => []
  | .brl _ l _ => pair l
  | .jmp _ a => pair a
  | .call _ _ => []
  | .calli _ a => pair a
  | .ret _ => []
  | .enrol _ _ => []
  | .join _ _ => []
  | .exit _ => []
  | .trap _ _ => []
  | .tret _ => []
  | .brk _ _ => []
  | .nop _ => []
  | .wait _ _ _ _ _ => []
  | .tryW _ _ => []
  | .tryL _ _ => []
  | .tcommit _ => []
  | .tabort _ _ => []
  | .speculationConflict => []
  | .srd _ d _ => [d]
  | .swr _ src _ => [src]
  | .shflIdx _ _ d a b => [d, a, b]
  | .shflUp _ d a _ _ => [d, a]
  | .shflDown _ d a _ _ => [d, a]
  | .shflXor _ d a _ _ => [d, a]
  | .vote _ d a _ _ => [d, a]
  | .matchLanes _ d a _ o => if o ≤ 1#5 then [d, a] else pair d ++ pair a
  | .gred _ d a _ _ => [d, a]
  | .gscan _ d a _ _ => [d, a]
  | .lanesGet _ d _ => [d]
  | .lanesSet _ a _ => [a]
  | .lanesPresent _ d _ => [d]
  | .breserve _ _ => []
  | .brelease _ => []
  | .bfill _ _ _ => []
  | .bgather _ _ _ => []
  | .mma _ _ _ _ _ _ _ => []
  | .mmaw _ _ _ _ _ _ _ => []
  | .talloc _ _ => []
  | .tfree _ => []
  | .tzero _ => []
  | .tld _ _ _ => []
  | .tst _ _ _ => []
  | .tpost _ _ => []
  | .tfinal _ => []
  | .tsettle _ _ => []
  | .tcvtBuffer _ _ _ _ => []
  | .tcvtMemory _ _ _ _ => []
  | .fred _ _ => []
  | .tadd _ _ _ => []
  | .tsub _ _ _ => []
  | .tneg _ _ _ => []
  | .tshift _ _ _ _ => []
  | .tmuli _ _ _ _ => []
  | .trsum _ _ _ => []
  | .tcsum _ _ _ => []
  | .ttrans _ _ _ => []
  | .tslice _ _ _ _ => []
  | .tcopy _ _ _ => []
  | .dmov _ _ => []
  | .dmovImm _ _ => []
  | .dmovRdstat _ => []
  | .dmovWrstat _ => []
  | .dmovRdrm _ => []
  | .dmovWrrm _ => []
  | .dmovRdcnt _ => []
  | .dmovRdwg _ => []
  | .dmovRdclk _ => []
  | .dmovRdclkh _ => []
  | .dmovl _ _ => []
  | .dadd _ _ _ => []
  | .daddSub _ _ _ => []
  | .daddImm _ _ _ => []
  | .daddD _ _ _ => []
  | .dmul _ _ _ => []
  | .dcmp _ _ _ _ => []
  | .dbr _ _ => []
  | .dloop _ _ => []
  | .dnext _ => []
  | .dhalt => []
  | .dsync _ _ => []
  | .xcopy _ r _ _ _ => octetOf r
  | .xcopyAdd _ r _ _ _ => octetOf r
  | .xcopyDetach _ r => octetOf r
  | .xcopyFabric _ r _ _ _ => octetOf r
  | .xwaitany _ r => pair r
  | .xwaitall _ r => pair r
  | .xffr _ r => pair r
  | .xtags _ r => pair r
  | .barInit _ r _ => [r]
  | .barArv _ r _ => [r]
  | .barSync _ r _ => [r]
  | .barInval _ _ => []
  | .ckpt _ => []
  | .salloc _ d a => pair d ++ quadOf a
  | .sfree _ a => pair a
  | .srelight _ d a => d :: pair a
  | .sret _ => []
  | .sinfoAlloc _ d a => quadOf d ++ pair a
  | .sinfoEntry _ d => quadOf d
  | .sinfoCore _ d => quadOf d
  | .bdgt _ a => [a]
  | .cjoin _ d a => pair d ++ [a]
  | .cjoinInfo _ d => quadOf d
  | .cleave _ d => [d]
  | .tmbarSync _ a => [a]
  | .tmbarArv _ a => [a]
  | .evsig _ a => [a]
  | .evwait _ a => [a]
  | .evclr _ a => [a]
  | .evarm _ a => [a]
  | .lnch _ d a => pair d ++ pair a
  | .wgdone _ => []
  | .ptsyncPage _ a => pair a
  | .ptsyncAll _ => []
  | .icinv _ a _ => pair a
  | .fsig _ a => [a]
  | .clauseHeaderTake => []
  | .pcComparatorHold _ => []
  | .loadComplete _ _ => []
  | .hayrickEntryDrain _ => []
  | .squadSwapBegin _ _ _ _ => []
  | .squadSwapEnd _ => []
  | .teamPlacement _ _ _ _ => []
  | .workgroupEnd _ => []
  | .launchReady _ => []
  | .lnchAnswer _ _ => []
  | .copyTakesEffect _ => []
  | .copyComplete _ => []
  | .engineOpExecute _ _ => []
  | .engineOpComplete _ _ => []
  | .preemptTeam _ _ => []
  | .fullSave _ => []
  | .contextWritten _ => []
  | .resumeTeam _ _ => []
  | .workgroupResume _ _ => []
  | .killWorkgroup _ => []
  | .uncorrectableErrorConsumed _ _ _ _ => []
  | .workgroupRelaunch _ _ => []
  | .withdrawCore _ => []
  | .returnCore _ => []
  | .commandAck _ _ => []
  | .chargeReport _ => []
  | .budgetHostWrite _ => []
  | .budgetMgmtSet _ => []
  | .pwrbrkNAssert => []
  | .pwrbrkNDeassert => []
  | .powerMeasurement _ => []
  | .budgetApply _ => []
  | .inFieldTestComplete _ _ _ _ => []
  | .uncorrectableArrayError _ _ _ => []
  | .sensorSample _ _ _ => []
  | .tringCtlWrite _ => []
  | .tringTailWrite _ => []
  | .replayDoorbell _ _ => []
  | .frameRingSupply _ _ => []
  | .hubPtsync _ _ => []
  | .expansion _ _ => []
  | .expansionComplete _ _ => []
  | .eventSignalApply _ => []
  | .almanacError _ _ => []
  | .dieHubFailure _ => []
  | .linkTraining _ _ _ _ => []
  | .flitReceive _ _ _ => []
  | .linkRetrain _ _ => []
  | .fredReductionBegin _ _ => []
  | .fsigArrival _ _ => []
  | .gangSliceStart _ _ => []
  | .gangReady _ _ => []
  | .gangSliceBegin _ => []
  | .gangLateTimeout _ => []
  | .powerGood _ => []
  | .inputUndervoltage => []
  | .quoteRequest _ => []
  | .quoteSign => []
  | .firmwareUpdate _ _ _ => []
  | .pldmMonitoring => []
  | .attachProcess _ _ => []
  | .detachProcess _ => []
  | .blinkSample _ => []
  | .histogramFlush _ => []
  | .registerWrite _ _ => []
  | .waddPerformed _ _ => []
  | .debugHandlerResume _ _ => []
  | .dqtailWrite _ _ => []
  | .dataPoisoned _ => []
  | .cxlMemRequest _ _ _ => []
  | .worxusEndsLaunch _ => []

/-- The guard of a word (R38); `sel` always executes, and a word of the drive stream
alone has guard 7 (R45). -/
def Instr.guard : Instr → BitVec 3
  | .addS32 g _ _ _ => g
  | .addS32Sat g _ _ _ => g
  | .addN32Sat g _ _ _ => g
  | .addN64 g _ _ _ => g
  | .subS32 g _ _ _ => g
  | .subS32Sat g _ _ _ => g
  | .subN32Sat g _ _ _ => g
  | .subN64 g _ _ _ => g
  | .mulS32 g _ _ _ => g
  | .mulS32Sat g _ _ _ => g
  | .mulN32Sat g _ _ _ => g
  | .mulN64 g _ _ _ => g
  | .madS32 g _ _ _ => g
  | .madS32Sat g _ _ _ => g
  | .madN32Sat g _ _ _ => g
  | .madN64 g _ _ _ => g
  | .mulhS32 g _ _ _ => g
  | .mulhN32 g _ _ _ => g
  | .divS32 g _ _ _ => g
  | .divN32 g _ _ _ => g
  | .remS32 g _ _ _ => g
  | .remN32 g _ _ _ => g
  | .minS32 g _ _ _ => g
  | .minN32 g _ _ _ => g
  | .maxS32 g _ _ _ => g
  | .maxN32 g _ _ _ => g
  | .addminS32 g _ _ _ => g
  | .addminN32 g _ _ _ => g
  | .addmaxS32 g _ _ _ => g
  | .addmaxN32 g _ _ _ => g
  | .clampS32 g _ _ _ => g
  | .clampN32 g _ _ _ => g
  | .addc g _ _ _ => g
  | .subb g _ _ _ => g
  | .neg g _ _ => g
  | .abs g _ _ => g
  | .lea g _ _ _ => g
  | .and g _ _ _ => g
  | .or g _ _ _ => g
  | .xor g _ _ _ => g
  | .andn g _ _ _ => g
  | .not g _ _ => g
  | .shl g _ _ _ => g
  | .shr g _ _ _ => g
  | .sar g _ _ _ => g
  | .rot g _ _ _ => g
  | .bfx g _ _ _ => g
  | .bfi g _ _ _ => g
  | .popc g _ _ => g
  | .clz g _ _ => g
  | .ctz g _ _ => g
  | .brev g _ _ => g
  | .bswap g _ _ => g
  | .sel _ _ _ _ => 7
  | .mov g _ _ => g
  | .cmp g _ _ _ _ => g
  | .plog g _ _ _ _ => g
  | .pmovRd g _ => g
  | .pmovWr g _ => g
  | .movi g _ _ => g
  | .movl g _ _ => g
  | .cmpi g _ _ _ _ => g
  | .addImm g _ _ _ => g
  | .andImm g _ _ _ => g
  | .orImm g _ _ _ => g
  | .xorImm g _ _ _ => g
  | .shlImm g _ _ _ => g
  | .shrImm g _ _ _ => g
  | .sarImm g _ _ _ => g
  | .rotImm g _ _ _ => g
  | .fmin g _ _ _ => g
  | .fmax g _ _ _ => g
  | .fdiv g _ _ _ => g
  | .fadd g _ _ _ => g
  | .faddRn g _ _ _ => g
  | .fsub g _ _ _ => g
  | .fsubRn g _ _ _ => g
  | .fmul g _ _ _ => g
  | .fmulRn g _ _ _ => g
  | .ffma g _ _ _ => g
  | .ffmaRn g _ _ _ => g
  | .fscale g _ _ _ => g
  | .fcmp g _ _ _ _ => g
  | .fabs g _ _ => g
  | .fneg g _ _ => g
  | .fclass g _ _ => g
  | .frnd g _ _ _ => g
  | .frcp g _ _ _ => g
  | .frsq g _ _ _ => g
  | .fsqrt g _ _ _ => g
  | .fex2 g _ _ _ => g
  | .flg2 g _ _ _ => g
  | .fsin g _ _ _ => g
  | .fcos g _ _ _ => g
  | .cvt g _ _ _ => g
  | .cvtRn g _ _ _ => g
  | .cvtRna g _ _ _ => g
  | .cvtRz g _ _ _ => g
  | .cvtRp g _ _ _ => g
  | .cvtRm g _ _ _ => g
  | .hadd2Bf16 g _ _ _ => g
  | .hsub2Bf16 g _ _ _ => g
  | .hmul2Bf16 g _ _ _ => g
  | .hfma2Bf16 g _ _ _ => g
  | .hmin2Bf16 g _ _ _ => g
  | .hmax2Bf16 g _ _ _ => g
  | .hadd2Hf16 g _ _ _ => g
  | .hsub2Hf16 g _ _ _ => g
  | .hmul2Hf16 g _ _ _ => g
  | .hfma2Hf16 g _ _ _ => g
  | .hmin2Hf16 g _ _ _ => g
  | .hmax2Hf16 g _ _ _ => g
  | .ldS8 g _ _ _ => g
  | .ldZ8 g _ _ _ => g
  | .ldS16 g _ _ _ => g
  | .ldZ16 g _ _ _ => g
  | .ldW g _ _ _ => g
  | .ldD g _ _ _ => g
  | .ldQ g _ _ _ => g
  | .ldl g _ _ _ _ _ => g
  | .ldAdvW g _ _ _ => g
  | .ldAdvD g _ _ _ => g
  | .ldAdvQ g _ _ _ => g
  | .stl g _ _ _ _ => g
  | .stB8 g _ _ _ => g
  | .stB16 g _ _ _ => g
  | .stW g _ _ _ => g
  | .stD g _ _ _ => g
  | .stQ g _ _ _ => g
  | .shld g _ _ _ => g
  | .ldfragT8 g _ _ _ => g
  | .ldfragT16 g _ _ _ => g
  | .ldt g _ _ _ => g
  | .stt g _ _ _ => g
  | .wadd g _ _ => g
  | .wld g _ _ => g
  | .atomAdd g _ _ _ => g
  | .atomMin g _ _ _ => g
  | .atomMax g _ _ _ => g
  | .atomAnd g _ _ _ => g
  | .atomOr g _ _ _ => g
  | .atomXor g _ _ _ => g
  | .atomExch g _ _ _ => g
  | .atomCas g _ _ _ => g
  | .acq g _ _ _ => g
  | .rel g _ _ _ => g
  | .fence g _ => g
  | .bind g _ _ _ => g
  | .unbind g _ => g
  | .pgreq g _ _ => g
  | .pgprobe g _ _ _ => g
  | .br g _ => g
  | .brl g _ _ => g
  | .jmp g _ => g
  | .call g _ => g
  | .calli g _ => g
  | .ret g => g
  | .enrol g _ => g
  | .join g _ => g
  | .exit g => g
  | .trap g _ => g
  | .tret g => g
  | .brk g _ => g
  | .nop g => g
  | .wait g _ _ _ _ => g
  | .tryW g _ => g
  | .tryL g _ => g
  | .tcommit g => g
  | .tabort g _ => g
  | .speculationConflict => 7
  | .srd g _ _ => g
  | .swr g _ _ => g
  | .shflIdx g _ _ _ _ => g
  | .shflUp g _ _ _ _ => g
  | .shflDown g _ _ _ _ => g
  | .shflXor g _ _ _ _ => g
  | .vote g _ _ _ _ => g
  | .matchLanes g _ _ _ _ => g
  | .gred g _ _ _ _ => g
  | .gscan g _ _ _ _ => g
  | .lanesGet g _ _ => g
  | .lanesSet g _ _ => g
  | .lanesPresent g _ _ => g
  | .breserve _ _ => 7
  | .brelease _ => 7
  | .bfill _ _ _ => 7
  | .bgather _ _ _ => 7
  | .mma _ _ _ _ _ _ _ => 7
  | .mmaw _ _ _ _ _ _ _ => 7
  | .talloc _ _ => 7
  | .tfree _ => 7
  | .tzero _ => 7
  | .tld _ _ _ => 7
  | .tst _ _ _ => 7
  | .tpost _ _ => 7
  | .tfinal _ => 7
  | .tsettle _ _ => 7
  | .tcvtBuffer _ _ _ _ => 7
  | .tcvtMemory _ _ _ _ => 7
  | .fred _ _ => 7
  | .tadd _ _ _ => 7
  | .tsub _ _ _ => 7
  | .tneg _ _ _ => 7
  | .tshift _ _ _ _ => 7
  | .tmuli _ _ _ _ => 7
  | .trsum _ _ _ => 7
  | .tcsum _ _ _ => 7
  | .ttrans _ _ _ => 7
  | .tslice _ _ _ _ => 7
  | .tcopy _ _ _ => 7
  | .dmov _ _ => 7
  | .dmovImm _ _ => 7
  | .dmovRdstat _ => 7
  | .dmovWrstat _ => 7
  | .dmovRdrm _ => 7
  | .dmovWrrm _ => 7
  | .dmovRdcnt _ => 7
  | .dmovRdwg _ => 7
  | .dmovRdclk _ => 7
  | .dmovRdclkh _ => 7
  | .dmovl _ _ => 7
  | .dadd _ _ _ => 7
  | .daddSub _ _ _ => 7
  | .daddImm _ _ _ => 7
  | .daddD _ _ _ => 7
  | .dmul _ _ _ => 7
  | .dcmp _ _ _ _ => 7
  | .dbr _ _ => 7
  | .dloop _ _ => 7
  | .dnext _ => 7
  | .dhalt => 7
  | .dsync _ _ => 7
  | .xcopy g _ _ _ _ => g
  | .xcopyAdd g _ _ _ _ => g
  | .xcopyDetach g _ => g
  | .xcopyFabric g _ _ _ _ => g
  | .xwaitany g _ => g
  | .xwaitall g _ => g
  | .xffr g _ => g
  | .xtags g _ => g
  | .barInit g _ _ => g
  | .barArv g _ _ => g
  | .barSync g _ _ => g
  | .barInval g _ => g
  | .ckpt g => g
  | .salloc g _ _ => g
  | .sfree g _ => g
  | .srelight g _ _ => g
  | .sret g => g
  | .sinfoAlloc g _ _ => g
  | .sinfoEntry g _ => g
  | .sinfoCore g _ => g
  | .bdgt g _ => g
  | .cjoin g _ _ => g
  | .cjoinInfo g _ => g
  | .cleave g _ => g
  | .tmbarSync g _ => g
  | .tmbarArv g _ => g
  | .evsig g _ => g
  | .evwait g _ => g
  | .evclr g _ => g
  | .evarm g _ => g
  | .lnch g _ _ => g
  | .wgdone g => g
  | .ptsyncPage g _ => g
  | .ptsyncAll g => g
  | .icinv g _ _ => g
  | .fsig g _ => g
  | .clauseHeaderTake => 7
  | .pcComparatorHold _ => 7
  | .loadComplete _ _ => 7
  | .hayrickEntryDrain _ => 7
  | .squadSwapBegin _ _ _ _ => 7
  | .squadSwapEnd _ => 7
  | .teamPlacement _ _ _ _ => 7
  | .workgroupEnd _ => 7
  | .launchReady _ => 7
  | .lnchAnswer _ _ => 7
  | .copyTakesEffect _ => 7
  | .copyComplete _ => 7
  | .engineOpExecute _ _ => 7
  | .engineOpComplete _ _ => 7
  | .preemptTeam _ _ => 7
  | .fullSave _ => 7
  | .contextWritten _ => 7
  | .resumeTeam _ _ => 7
  | .workgroupResume _ _ => 7
  | .killWorkgroup _ => 7
  | .uncorrectableErrorConsumed _ _ _ _ => 7
  | .workgroupRelaunch _ _ => 7
  | .withdrawCore _ => 7
  | .returnCore _ => 7
  | .commandAck _ _ => 7
  | .chargeReport _ => 7
  | .budgetHostWrite _ => 7
  | .budgetMgmtSet _ => 7
  | .pwrbrkNAssert => 7
  | .pwrbrkNDeassert => 7
  | .powerMeasurement _ => 7
  | .budgetApply _ => 7
  | .inFieldTestComplete _ _ _ _ => 7
  | .uncorrectableArrayError _ _ _ => 7
  | .sensorSample _ _ _ => 7
  | .tringCtlWrite _ => 7
  | .tringTailWrite _ => 7
  | .replayDoorbell _ _ => 7
  | .frameRingSupply _ _ => 7
  | .hubPtsync _ _ => 7
  | .expansion _ _ => 7
  | .expansionComplete _ _ => 7
  | .eventSignalApply _ => 7
  | .almanacError _ _ => 7
  | .dieHubFailure _ => 7
  | .linkTraining _ _ _ _ => 7
  | .flitReceive _ _ _ => 7
  | .linkRetrain _ _ => 7
  | .fredReductionBegin _ _ => 7
  | .fsigArrival _ _ => 7
  | .gangSliceStart _ _ => 7
  | .gangReady _ _ => 7
  | .gangSliceBegin _ => 7
  | .gangLateTimeout _ => 7
  | .powerGood _ => 7
  | .inputUndervoltage => 7
  | .quoteRequest _ => 7
  | .quoteSign => 7
  | .firmwareUpdate _ _ _ => 7
  | .pldmMonitoring => 7
  | .attachProcess _ _ => 7
  | .detachProcess _ => 7
  | .blinkSample _ => 7
  | .histogramFlush _ => 7
  | .registerWrite _ _ => 7
  | .waddPerformed _ _ => 7
  | .debugHandlerResume _ _ => 7
  | .dqtailWrite _ _ => 7
  | .dataPoisoned _ => 7
  | .cxlMemRequest _ _ _ => 7
  | .worxusEndsLaunch _ => 7

/-- The word positions of the clause that an instruction takes (R33, R43). -/
def Instr.slots : Instr → Nat
  | .addS32 _ _ _ _ => 1
  | .addS32Sat _ _ _ _ => 1
  | .addN32Sat _ _ _ _ => 1
  | .addN64 _ _ _ _ => 1
  | .subS32 _ _ _ _ => 1
  | .subS32Sat _ _ _ _ => 1
  | .subN32Sat _ _ _ _ => 1
  | .subN64 _ _ _ _ => 1
  | .mulS32 _ _ _ _ => 1
  | .mulS32Sat _ _ _ _ => 1
  | .mulN32Sat _ _ _ _ => 1
  | .mulN64 _ _ _ _ => 1
  | .madS32 _ _ _ _ => 1
  | .madS32Sat _ _ _ _ => 1
  | .madN32Sat _ _ _ _ => 1
  | .madN64 _ _ _ _ => 1
  | .mulhS32 _ _ _ _ => 1
  | .mulhN32 _ _ _ _ => 1
  | .divS32 _ _ _ _ => 1
  | .divN32 _ _ _ _ => 1
  | .remS32 _ _ _ _ => 1
  | .remN32 _ _ _ _ => 1
  | .minS32 _ _ _ _ => 1
  | .minN32 _ _ _ _ => 1
  | .maxS32 _ _ _ _ => 1
  | .maxN32 _ _ _ _ => 1
  | .addminS32 _ _ _ _ => 1
  | .addminN32 _ _ _ _ => 1
  | .addmaxS32 _ _ _ _ => 1
  | .addmaxN32 _ _ _ _ => 1
  | .clampS32 _ _ _ _ => 1
  | .clampN32 _ _ _ _ => 1
  | .addc _ _ _ _ => 1
  | .subb _ _ _ _ => 1
  | .neg _ _ _ => 1
  | .abs _ _ _ => 1
  | .lea _ _ _ _ => 1
  | .and _ _ _ _ => 1
  | .or _ _ _ _ => 1
  | .xor _ _ _ _ => 1
  | .andn _ _ _ _ => 1
  | .not _ _ _ => 1
  | .shl _ _ _ _ => 1
  | .shr _ _ _ _ => 1
  | .sar _ _ _ _ => 1
  | .rot _ _ _ _ => 1
  | .bfx _ _ _ _ => 1
  | .bfi _ _ _ _ => 1
  | .popc _ _ _ => 1
  | .clz _ _ _ => 1
  | .ctz _ _ _ => 1
  | .brev _ _ _ => 1
  | .bswap _ _ _ => 1
  | .sel _ _ _ _ => 1
  | .mov _ _ _ => 1
  | .cmp _ _ _ _ _ => 1
  | .plog _ _ _ _ _ => 1
  | .pmovRd _ _ => 1
  | .pmovWr _ _ => 1
  | .movi _ _ _ => 1
  | .movl _ _ _ => 2
  | .cmpi _ _ _ _ _ => 1
  | .addImm _ _ _ _ => 1
  | .andImm _ _ _ _ => 1
  | .orImm _ _ _ _ => 1
  | .xorImm _ _ _ _ => 1
  | .shlImm _ _ _ _ => 1
  | .shrImm _ _ _ _ => 1
  | .sarImm _ _ _ _ => 1
  | .rotImm _ _ _ _ => 1
  | .fmin _ _ _ _ => 1
  | .fmax _ _ _ _ => 1
  | .fdiv _ _ _ _ => 1
  | .fadd _ _ _ _ => 1
  | .faddRn _ _ _ _ => 1
  | .fsub _ _ _ _ => 1
  | .fsubRn _ _ _ _ => 1
  | .fmul _ _ _ _ => 1
  | .fmulRn _ _ _ _ => 1
  | .ffma _ _ _ _ => 1
  | .ffmaRn _ _ _ _ => 1
  | .fscale _ _ _ _ => 1
  | .fcmp _ _ _ _ _ => 1
  | .fabs _ _ _ => 1
  | .fneg _ _ _ => 1
  | .fclass _ _ _ => 1
  | .frnd _ _ _ _ => 1
  | .frcp _ _ _ _ => 1
  | .frsq _ _ _ _ => 1
  | .fsqrt _ _ _ _ => 1
  | .fex2 _ _ _ _ => 1
  | .flg2 _ _ _ _ => 1
  | .fsin _ _ _ _ => 1
  | .fcos _ _ _ _ => 1
  | .cvt _ _ _ _ => 1
  | .cvtRn _ _ _ _ => 1
  | .cvtRna _ _ _ _ => 1
  | .cvtRz _ _ _ _ => 1
  | .cvtRp _ _ _ _ => 1
  | .cvtRm _ _ _ _ => 1
  | .hadd2Bf16 _ _ _ _ => 1
  | .hsub2Bf16 _ _ _ _ => 1
  | .hmul2Bf16 _ _ _ _ => 1
  | .hfma2Bf16 _ _ _ _ => 1
  | .hmin2Bf16 _ _ _ _ => 1
  | .hmax2Bf16 _ _ _ _ => 1
  | .hadd2Hf16 _ _ _ _ => 1
  | .hsub2Hf16 _ _ _ _ => 1
  | .hmul2Hf16 _ _ _ _ => 1
  | .hfma2Hf16 _ _ _ _ => 1
  | .hmin2Hf16 _ _ _ _ => 1
  | .hmax2Hf16 _ _ _ _ => 1
  | .ldS8 _ _ _ _ => 1
  | .ldZ8 _ _ _ _ => 1
  | .ldS16 _ _ _ _ => 1
  | .ldZ16 _ _ _ _ => 1
  | .ldW _ _ _ _ => 1
  | .ldD _ _ _ _ => 1
  | .ldQ _ _ _ _ => 1
  | .ldl _ _ _ _ _ _ => 2
  | .ldAdvW _ _ _ _ => 1
  | .ldAdvD _ _ _ _ => 1
  | .ldAdvQ _ _ _ _ => 1
  | .stl _ _ _ _ _ => 2
  | .stB8 _ _ _ _ => 1
  | .stB16 _ _ _ _ => 1
  | .stW _ _ _ _ => 1
  | .stD _ _ _ _ => 1
  | .stQ _ _ _ _ => 1
  | .shld _ _ _ _ => 1
  | .ldfragT8 _ _ _ _ => 1
  | .ldfragT16 _ _ _ _ => 1
  | .ldt _ _ _ _ => 1
  | .stt _ _ _ _ => 1
  | .wadd _ _ _ => 1
  | .wld _ _ _ => 1
  | .atomAdd _ _ _ _ => 1
  | .atomMin _ _ _ _ => 1
  | .atomMax _ _ _ _ => 1
  | .atomAnd _ _ _ _ => 1
  | .atomOr _ _ _ _ => 1
  | .atomXor _ _ _ _ => 1
  | .atomExch _ _ _ _ => 1
  | .atomCas _ _ _ _ => 1
  | .acq _ _ _ _ => 1
  | .rel _ _ _ _ => 1
  | .fence _ _ => 1
  | .bind _ _ _ _ => 1
  | .unbind _ _ => 1
  | .pgreq _ _ _ => 1
  | .pgprobe _ _ _ _ => 1
  | .br _ _ => 1
  | .brl _ _ _ => 1
  | .jmp _ _ => 1
  | .call _ _ => 1
  | .calli _ _ => 1
  | .ret _ => 1
  | .enrol _ _ => 1
  | .join _ _ => 1
  | .exit _ => 1
  | .trap _ _ => 1
  | .tret _ => 1
  | .brk _ _ => 1
  | .nop _ => 1
  | .wait _ _ _ _ _ => 1
  | .tryW _ _ => 1
  | .tryL _ _ => 1
  | .tcommit _ => 1
  | .tabort _ _ => 1
  | .speculationConflict => 1
  | .srd _ _ _ => 1
  | .swr _ _ _ => 1
  | .shflIdx _ _ _ _ _ => 1
  | .shflUp _ _ _ _ _ => 1
  | .shflDown _ _ _ _ _ => 1
  | .shflXor _ _ _ _ _ => 1
  | .vote _ _ _ _ _ => 1
  | .matchLanes _ _ _ _ _ => 1
  | .gred _ _ _ _ _ => 1
  | .gscan _ _ _ _ _ => 1
  | .lanesGet _ _ _ => 1
  | .lanesSet _ _ _ => 1
  | .lanesPresent _ _ _ => 1
  | .breserve _ _ => 1
  | .brelease _ => 1
  | .bfill _ _ _ => 1
  | .bgather _ _ _ => 1
  | .mma _ _ _ _ _ _ _ => 1
  | .mmaw _ _ _ _ _ _ _ => 1
  | .talloc _ _ => 1
  | .tfree _ => 1
  | .tzero _ => 1
  | .tld _ _ _ => 1
  | .tst _ _ _ => 1
  | .tpost _ _ => 1
  | .tfinal _ => 1
  | .tsettle _ _ => 1
  | .tcvtBuffer _ _ _ _ => 1
  | .tcvtMemory _ _ _ _ => 1
  | .fred _ _ => 1
  | .tadd _ _ _ => 1
  | .tsub _ _ _ => 1
  | .tneg _ _ _ => 1
  | .tshift _ _ _ _ => 1
  | .tmuli _ _ _ _ => 1
  | .trsum _ _ _ => 1
  | .tcsum _ _ _ => 1
  | .ttrans _ _ _ => 1
  | .tslice _ _ _ _ => 1
  | .tcopy _ _ _ => 1
  | .dmov _ _ => 1
  | .dmovImm _ _ => 1
  | .dmovRdstat _ => 1
  | .dmovWrstat _ => 1
  | .dmovRdrm _ => 1
  | .dmovWrrm _ => 1
  | .dmovRdcnt _ => 1
  | .dmovRdwg _ => 1
  | .dmovRdclk _ => 1
  | .dmovRdclkh _ => 1
  | .dmovl _ _ => 2
  | .dadd _ _ _ => 1
  | .daddSub _ _ _ => 1
  | .daddImm _ _ _ => 1
  | .daddD _ _ _ => 1
  | .dmul _ _ _ => 1
  | .dcmp _ _ _ _ => 1
  | .dbr _ _ => 1
  | .dloop _ _ => 1
  | .dnext _ => 1
  | .dhalt => 1
  | .dsync _ _ => 1
  | .xcopy _ _ _ _ _ => 1
  | .xcopyAdd _ _ _ _ _ => 1
  | .xcopyDetach _ _ => 1
  | .xcopyFabric _ _ _ _ _ => 1
  | .xwaitany _ _ => 1
  | .xwaitall _ _ => 1
  | .xffr _ _ => 1
  | .xtags _ _ => 1
  | .barInit _ _ _ => 1
  | .barArv _ _ _ => 1
  | .barSync _ _ _ => 1
  | .barInval _ _ => 1
  | .ckpt _ => 1
  | .salloc _ _ _ => 1
  | .sfree _ _ => 1
  | .srelight _ _ _ => 1
  | .sret _ => 1
  | .sinfoAlloc _ _ _ => 1
  | .sinfoEntry _ _ => 1
  | .sinfoCore _ _ => 1
  | .bdgt _ _ => 1
  | .cjoin _ _ _ => 1
  | .cjoinInfo _ _ => 1
  | .cleave _ _ => 1
  | .tmbarSync _ _ => 1
  | .tmbarArv _ _ => 1
  | .evsig _ _ => 1
  | .evwait _ _ => 1
  | .evclr _ _ => 1
  | .evarm _ _ => 1
  | .lnch _ _ _ => 1
  | .wgdone _ => 1
  | .ptsyncPage _ _ => 1
  | .ptsyncAll _ => 1
  | .icinv _ _ _ => 1
  | .fsig _ _ => 1
  | .clauseHeaderTake => 1
  | .pcComparatorHold _ => 1
  | .loadComplete _ _ => 1
  | .hayrickEntryDrain _ => 1
  | .squadSwapBegin _ _ _ _ => 1
  | .squadSwapEnd _ => 1
  | .teamPlacement _ _ _ _ => 1
  | .workgroupEnd _ => 1
  | .launchReady _ => 1
  | .lnchAnswer _ _ => 1
  | .copyTakesEffect _ => 1
  | .copyComplete _ => 1
  | .engineOpExecute _ _ => 1
  | .engineOpComplete _ _ => 1
  | .preemptTeam _ _ => 1
  | .fullSave _ => 1
  | .contextWritten _ => 1
  | .resumeTeam _ _ => 1
  | .workgroupResume _ _ => 1
  | .killWorkgroup _ => 1
  | .uncorrectableErrorConsumed _ _ _ _ => 1
  | .workgroupRelaunch _ _ => 1
  | .withdrawCore _ => 1
  | .returnCore _ => 1
  | .commandAck _ _ => 1
  | .chargeReport _ => 1
  | .budgetHostWrite _ => 1
  | .budgetMgmtSet _ => 1
  | .pwrbrkNAssert => 1
  | .pwrbrkNDeassert => 1
  | .powerMeasurement _ => 1
  | .budgetApply _ => 1
  | .inFieldTestComplete _ _ _ _ => 1
  | .uncorrectableArrayError _ _ _ => 1
  | .sensorSample _ _ _ => 1
  | .tringCtlWrite _ => 1
  | .tringTailWrite _ => 1
  | .replayDoorbell _ _ => 1
  | .frameRingSupply _ _ => 1
  | .hubPtsync _ _ => 1
  | .expansion _ _ => 1
  | .expansionComplete _ _ => 1
  | .eventSignalApply _ => 1
  | .almanacError _ _ => 1
  | .dieHubFailure _ => 1
  | .linkTraining _ _ _ _ => 1
  | .flitReceive _ _ _ => 1
  | .linkRetrain _ _ => 1
  | .fredReductionBegin _ _ => 1
  | .fsigArrival _ _ => 1
  | .gangSliceStart _ _ => 1
  | .gangReady _ _ => 1
  | .gangSliceBegin _ => 1
  | .gangLateTimeout _ => 1
  | .powerGood _ => 1
  | .inputUndervoltage => 1
  | .quoteRequest _ => 1
  | .quoteSign => 1
  | .firmwareUpdate _ _ _ => 1
  | .pldmMonitoring => 1
  | .attachProcess _ _ => 1
  | .detachProcess _ => 1
  | .blinkSample _ => 1
  | .histogramFlush _ => 1
  | .registerWrite _ _ => 1
  | .waddPerformed _ _ => 1
  | .debugHandlerResume _ _ => 1
  | .dqtailWrite _ _ => 1
  | .dataPoisoned _ => 1
  | .cxlMemRequest _ _ _ => 1
  | .worxusEndsLaunch _ => 1

/-- The words that abort with code 5 in speculation whatever they address (R136). -/
def Instr.noSpec : Instr → Bool
  | .addS32 _ _ _ _ => false
  | .addS32Sat _ _ _ _ => false
  | .addN32Sat _ _ _ _ => false
  | .addN64 _ _ _ _ => false
  | .subS32 _ _ _ _ => false
  | .subS32Sat _ _ _ _ => false
  | .subN32Sat _ _ _ _ => false
  | .subN64 _ _ _ _ => false
  | .mulS32 _ _ _ _ => false
  | .mulS32Sat _ _ _ _ => false
  | .mulN32Sat _ _ _ _ => false
  | .mulN64 _ _ _ _ => false
  | .madS32 _ _ _ _ => false
  | .madS32Sat _ _ _ _ => false
  | .madN32Sat _ _ _ _ => false
  | .madN64 _ _ _ _ => false
  | .mulhS32 _ _ _ _ => false
  | .mulhN32 _ _ _ _ => false
  | .divS32 _ _ _ _ => false
  | .divN32 _ _ _ _ => false
  | .remS32 _ _ _ _ => false
  | .remN32 _ _ _ _ => false
  | .minS32 _ _ _ _ => false
  | .minN32 _ _ _ _ => false
  | .maxS32 _ _ _ _ => false
  | .maxN32 _ _ _ _ => false
  | .addminS32 _ _ _ _ => false
  | .addminN32 _ _ _ _ => false
  | .addmaxS32 _ _ _ _ => false
  | .addmaxN32 _ _ _ _ => false
  | .clampS32 _ _ _ _ => false
  | .clampN32 _ _ _ _ => false
  | .addc _ _ _ _ => false
  | .subb _ _ _ _ => false
  | .neg _ _ _ => false
  | .abs _ _ _ => false
  | .lea _ _ _ _ => false
  | .and _ _ _ _ => false
  | .or _ _ _ _ => false
  | .xor _ _ _ _ => false
  | .andn _ _ _ _ => false
  | .not _ _ _ => false
  | .shl _ _ _ _ => false
  | .shr _ _ _ _ => false
  | .sar _ _ _ _ => false
  | .rot _ _ _ _ => false
  | .bfx _ _ _ _ => false
  | .bfi _ _ _ _ => false
  | .popc _ _ _ => false
  | .clz _ _ _ => false
  | .ctz _ _ _ => false
  | .brev _ _ _ => false
  | .bswap _ _ _ => false
  | .sel _ _ _ _ => false
  | .mov _ _ _ => false
  | .cmp _ _ _ _ _ => false
  | .plog _ _ _ _ _ => false
  | .pmovRd _ _ => false
  | .pmovWr _ _ => false
  | .movi _ _ _ => false
  | .movl _ _ _ => false
  | .cmpi _ _ _ _ _ => false
  | .addImm _ _ _ _ => false
  | .andImm _ _ _ _ => false
  | .orImm _ _ _ _ => false
  | .xorImm _ _ _ _ => false
  | .shlImm _ _ _ _ => false
  | .shrImm _ _ _ _ => false
  | .sarImm _ _ _ _ => false
  | .rotImm _ _ _ _ => false
  | .fmin _ _ _ _ => false
  | .fmax _ _ _ _ => false
  | .fdiv _ _ _ _ => false
  | .fadd _ _ _ _ => false
  | .faddRn _ _ _ _ => false
  | .fsub _ _ _ _ => false
  | .fsubRn _ _ _ _ => false
  | .fmul _ _ _ _ => false
  | .fmulRn _ _ _ _ => false
  | .ffma _ _ _ _ => false
  | .ffmaRn _ _ _ _ => false
  | .fscale _ _ _ _ => false
  | .fcmp _ _ _ _ _ => false
  | .fabs _ _ _ => false
  | .fneg _ _ _ => false
  | .fclass _ _ _ => false
  | .frnd _ _ _ _ => false
  | .frcp _ _ _ _ => false
  | .frsq _ _ _ _ => false
  | .fsqrt _ _ _ _ => false
  | .fex2 _ _ _ _ => false
  | .flg2 _ _ _ _ => false
  | .fsin _ _ _ _ => false
  | .fcos _ _ _ _ => false
  | .cvt _ _ _ _ => false
  | .cvtRn _ _ _ _ => false
  | .cvtRna _ _ _ _ => false
  | .cvtRz _ _ _ _ => false
  | .cvtRp _ _ _ _ => false
  | .cvtRm _ _ _ _ => false
  | .hadd2Bf16 _ _ _ _ => false
  | .hsub2Bf16 _ _ _ _ => false
  | .hmul2Bf16 _ _ _ _ => false
  | .hfma2Bf16 _ _ _ _ => false
  | .hmin2Bf16 _ _ _ _ => false
  | .hmax2Bf16 _ _ _ _ => false
  | .hadd2Hf16 _ _ _ _ => false
  | .hsub2Hf16 _ _ _ _ => false
  | .hmul2Hf16 _ _ _ _ => false
  | .hfma2Hf16 _ _ _ _ => false
  | .hmin2Hf16 _ _ _ _ => false
  | .hmax2Hf16 _ _ _ _ => false
  | .ldS8 _ _ _ _ => false
  | .ldZ8 _ _ _ _ => false
  | .ldS16 _ _ _ _ => false
  | .ldZ16 _ _ _ _ => false
  | .ldW _ _ _ _ => false
  | .ldD _ _ _ _ => false
  | .ldQ _ _ _ _ => false
  | .ldl _ _ _ _ _ _ => false
  | .ldAdvW _ _ _ _ => false
  | .ldAdvD _ _ _ _ => false
  | .ldAdvQ _ _ _ _ => false
  | .stl _ _ _ _ _ => false
  | .stB8 _ _ _ _ => false
  | .stB16 _ _ _ _ => false
  | .stW _ _ _ _ => false
  | .stD _ _ _ _ => false
  | .stQ _ _ _ _ => false
  | .shld _ _ _ _ => false
  | .ldfragT8 _ _ _ _ => false
  | .ldfragT16 _ _ _ _ => false
  | .ldt _ _ _ _ => false
  | .stt _ _ _ _ => false
  | .wadd _ _ _ => true
  | .wld _ _ _ => false
  | .atomAdd _ _ _ _ => true
  | .atomMin _ _ _ _ => true
  | .atomMax _ _ _ _ => true
  | .atomAnd _ _ _ _ => true
  | .atomOr _ _ _ _ => true
  | .atomXor _ _ _ _ => true
  | .atomExch _ _ _ _ => true
  | .atomCas _ _ _ _ => true
  | .acq _ _ _ _ => false
  | .rel _ _ _ _ => true
  | .fence _ _ => true
  | .bind _ _ _ _ => true
  | .unbind _ _ => true
  | .pgreq _ _ _ => true
  | .pgprobe _ _ _ _ => false
  | .br _ _ => false
  | .brl _ _ _ => false
  | .jmp _ _ => false
  | .call _ _ => false
  | .calli _ _ => false
  | .ret _ => false
  | .enrol _ _ => false
  | .join _ _ => false
  | .exit _ => true
  | .trap _ _ => false
  | .tret _ => true
  | .brk _ _ => true
  | .nop _ => false
  | .wait _ _ _ _ _ => false
  | .tryW _ _ => false
  | .tryL _ _ => false
  | .tcommit _ => false
  | .tabort _ _ => false
  | .speculationConflict => false
  | .srd _ _ _ => false
  | .swr _ _ _ => false
  | .shflIdx _ _ _ _ _ => false
  | .shflUp _ _ _ _ _ => false
  | .shflDown _ _ _ _ _ => false
  | .shflXor _ _ _ _ _ => false
  | .vote _ _ _ _ _ => false
  | .matchLanes _ _ _ _ _ => false
  | .gred _ _ _ _ _ => false
  | .gscan _ _ _ _ _ => false
  | .lanesGet _ _ _ => false
  | .lanesSet _ _ _ => false
  | .lanesPresent _ _ _ => false
  | .breserve _ _ => false
  | .brelease _ => false
  | .bfill _ _ _ => false
  | .bgather _ _ _ => false
  | .mma _ _ _ _ _ _ _ => false
  | .mmaw _ _ _ _ _ _ _ => false
  | .talloc _ _ => false
  | .tfree _ => false
  | .tzero _ => false
  | .tld _ _ _ => false
  | .tst _ _ _ => false
  | .tpost _ _ => false
  | .tfinal _ => false
  | .tsettle _ _ => false
  | .tcvtBuffer _ _ _ _ => false
  | .tcvtMemory _ _ _ _ => false
  | .fred _ _ => false
  | .tadd _ _ _ => false
  | .tsub _ _ _ => false
  | .tneg _ _ _ => false
  | .tshift _ _ _ _ => false
  | .tmuli _ _ _ _ => false
  | .trsum _ _ _ => false
  | .tcsum _ _ _ => false
  | .ttrans _ _ _ => false
  | .tslice _ _ _ _ => false
  | .tcopy _ _ _ => false
  | .dmov _ _ => false
  | .dmovImm _ _ => false
  | .dmovRdstat _ => false
  | .dmovWrstat _ => false
  | .dmovRdrm _ => false
  | .dmovWrrm _ => false
  | .dmovRdcnt _ => false
  | .dmovRdwg _ => false
  | .dmovRdclk _ => false
  | .dmovRdclkh _ => false
  | .dmovl _ _ => false
  | .dadd _ _ _ => false
  | .daddSub _ _ _ => false
  | .daddImm _ _ _ => false
  | .daddD _ _ _ => false
  | .dmul _ _ _ => false
  | .dcmp _ _ _ _ => false
  | .dbr _ _ => false
  | .dloop _ _ => false
  | .dnext _ => false
  | .dhalt => false
  | .dsync _ _ => false
  | .xcopy _ _ _ _ _ => true
  | .xcopyAdd _ _ _ _ _ => true
  | .xcopyDetach _ _ => true
  | .xcopyFabric _ _ _ _ _ => true
  | .xwaitany _ _ => false
  | .xwaitall _ _ => false
  | .xffr _ _ => false
  | .xtags _ _ => false
  | .barInit _ _ _ => true
  | .barArv _ _ _ => true
  | .barSync _ _ _ => true
  | .barInval _ _ => true
  | .ckpt _ => true
  | .salloc _ _ _ => true
  | .sfree _ _ => true
  | .srelight _ _ _ => true
  | .sret _ => true
  | .sinfoAlloc _ _ _ => false
  | .sinfoEntry _ _ => false
  | .sinfoCore _ _ => false
  | .bdgt _ _ => true
  | .cjoin _ _ _ => true
  | .cjoinInfo _ _ => true
  | .cleave _ _ => true
  | .tmbarSync _ _ => true
  | .tmbarArv _ _ => true
  | .evsig _ _ => true
  | .evwait _ _ => true
  | .evclr _ _ => true
  | .evarm _ _ => true
  | .lnch _ _ _ => true
  | .wgdone _ => true
  | .ptsyncPage _ _ => true
  | .ptsyncAll _ => true
  | .icinv _ _ _ => true
  | .fsig _ _ => true
  | .clauseHeaderTake => false
  | .pcComparatorHold _ => false
  | .loadComplete _ _ => false
  | .hayrickEntryDrain _ => false
  | .squadSwapBegin _ _ _ _ => false
  | .squadSwapEnd _ => false
  | .teamPlacement _ _ _ _ => false
  | .workgroupEnd _ => false
  | .launchReady _ => false
  | .lnchAnswer _ _ => false
  | .copyTakesEffect _ => false
  | .copyComplete _ => false
  | .engineOpExecute _ _ => false
  | .engineOpComplete _ _ => false
  | .preemptTeam _ _ => false
  | .fullSave _ => false
  | .contextWritten _ => false
  | .resumeTeam _ _ => false
  | .workgroupResume _ _ => false
  | .killWorkgroup _ => false
  | .uncorrectableErrorConsumed _ _ _ _ => false
  | .workgroupRelaunch _ _ => false
  | .withdrawCore _ => false
  | .returnCore _ => false
  | .commandAck _ _ => false
  | .chargeReport _ => false
  | .budgetHostWrite _ => false
  | .budgetMgmtSet _ => false
  | .pwrbrkNAssert => false
  | .pwrbrkNDeassert => false
  | .powerMeasurement _ => false
  | .budgetApply _ => false
  | .inFieldTestComplete _ _ _ _ => false
  | .uncorrectableArrayError _ _ _ => false
  | .sensorSample _ _ _ => false
  | .tringCtlWrite _ => false
  | .tringTailWrite _ => false
  | .replayDoorbell _ _ => false
  | .frameRingSupply _ _ => false
  | .hubPtsync _ _ => false
  | .expansion _ _ => false
  | .expansionComplete _ _ => false
  | .eventSignalApply _ => false
  | .almanacError _ _ => false
  | .dieHubFailure _ => false
  | .linkTraining _ _ _ _ => false
  | .flitReceive _ _ _ => false
  | .linkRetrain _ _ => false
  | .fredReductionBegin _ _ => false
  | .fsigArrival _ _ => false
  | .gangSliceStart _ _ => false
  | .gangReady _ _ => false
  | .gangSliceBegin _ => false
  | .gangLateTimeout _ => false
  | .powerGood _ => false
  | .inputUndervoltage => false
  | .quoteRequest _ => false
  | .quoteSign => false
  | .firmwareUpdate _ _ _ => false
  | .pldmMonitoring => false
  | .attachProcess _ _ => false
  | .detachProcess _ => false
  | .blinkSample _ => false
  | .histogramFlush _ => false
  | .registerWrite _ _ => false
  | .waddPerformed _ _ => false
  | .debugHandlerResume _ _ => false
  | .dqtailWrite _ _ => false
  | .dataPoisoned _ => false
  | .cxlMemRequest _ _ _ => false
  | .worxusEndsLaunch _ => false

/-- Which streams a word may stand in (R45, R48, R259): 0 threads, 1 the drive stream, 2 both, 3 none. -/
def Instr.stream : Instr → Nat
  | .addS32 _ _ _ _ => 0
  | .addS32Sat _ _ _ _ => 0
  | .addN32Sat _ _ _ _ => 0
  | .addN64 _ _ _ _ => 0
  | .subS32 _ _ _ _ => 0
  | .subS32Sat _ _ _ _ => 0
  | .subN32Sat _ _ _ _ => 0
  | .subN64 _ _ _ _ => 0
  | .mulS32 _ _ _ _ => 0
  | .mulS32Sat _ _ _ _ => 0
  | .mulN32Sat _ _ _ _ => 0
  | .mulN64 _ _ _ _ => 0
  | .madS32 _ _ _ _ => 0
  | .madS32Sat _ _ _ _ => 0
  | .madN32Sat _ _ _ _ => 0
  | .madN64 _ _ _ _ => 0
  | .mulhS32 _ _ _ _ => 0
  | .mulhN32 _ _ _ _ => 0
  | .divS32 _ _ _ _ => 0
  | .divN32 _ _ _ _ => 0
  | .remS32 _ _ _ _ => 0
  | .remN32 _ _ _ _ => 0
  | .minS32 _ _ _ _ => 0
  | .minN32 _ _ _ _ => 0
  | .maxS32 _ _ _ _ => 0
  | .maxN32 _ _ _ _ => 0
  | .addminS32 _ _ _ _ => 0
  | .addminN32 _ _ _ _ => 0
  | .addmaxS32 _ _ _ _ => 0
  | .addmaxN32 _ _ _ _ => 0
  | .clampS32 _ _ _ _ => 0
  | .clampN32 _ _ _ _ => 0
  | .addc _ _ _ _ => 0
  | .subb _ _ _ _ => 0
  | .neg _ _ _ => 0
  | .abs _ _ _ => 0
  | .lea _ _ _ _ => 0
  | .and _ _ _ _ => 0
  | .or _ _ _ _ => 0
  | .xor _ _ _ _ => 0
  | .andn _ _ _ _ => 0
  | .not _ _ _ => 0
  | .shl _ _ _ _ => 0
  | .shr _ _ _ _ => 0
  | .sar _ _ _ _ => 0
  | .rot _ _ _ _ => 0
  | .bfx _ _ _ _ => 0
  | .bfi _ _ _ _ => 0
  | .popc _ _ _ => 0
  | .clz _ _ _ => 0
  | .ctz _ _ _ => 0
  | .brev _ _ _ => 0
  | .bswap _ _ _ => 0
  | .sel _ _ _ _ => 0
  | .mov _ _ _ => 0
  | .cmp _ _ _ _ _ => 0
  | .plog _ _ _ _ _ => 0
  | .pmovRd _ _ => 0
  | .pmovWr _ _ => 0
  | .movi _ _ _ => 0
  | .movl _ _ _ => 0
  | .cmpi _ _ _ _ _ => 0
  | .addImm _ _ _ _ => 0
  | .andImm _ _ _ _ => 0
  | .orImm _ _ _ _ => 0
  | .xorImm _ _ _ _ => 0
  | .shlImm _ _ _ _ => 0
  | .shrImm _ _ _ _ => 0
  | .sarImm _ _ _ _ => 0
  | .rotImm _ _ _ _ => 0
  | .fmin _ _ _ _ => 0
  | .fmax _ _ _ _ => 0
  | .fdiv _ _ _ _ => 0
  | .fadd _ _ _ _ => 0
  | .faddRn _ _ _ _ => 0
  | .fsub _ _ _ _ => 0
  | .fsubRn _ _ _ _ => 0
  | .fmul _ _ _ _ => 0
  | .fmulRn _ _ _ _ => 0
  | .ffma _ _ _ _ => 0
  | .ffmaRn _ _ _ _ => 0
  | .fscale _ _ _ _ => 0
  | .fcmp _ _ _ _ _ => 0
  | .fabs _ _ _ => 0
  | .fneg _ _ _ => 0
  | .fclass _ _ _ => 0
  | .frnd _ _ _ _ => 0
  | .frcp _ _ _ _ => 0
  | .frsq _ _ _ _ => 0
  | .fsqrt _ _ _ _ => 0
  | .fex2 _ _ _ _ => 0
  | .flg2 _ _ _ _ => 0
  | .fsin _ _ _ _ => 0
  | .fcos _ _ _ _ => 0
  | .cvt _ _ _ _ => 0
  | .cvtRn _ _ _ _ => 0
  | .cvtRna _ _ _ _ => 0
  | .cvtRz _ _ _ _ => 0
  | .cvtRp _ _ _ _ => 0
  | .cvtRm _ _ _ _ => 0
  | .hadd2Bf16 _ _ _ _ => 0
  | .hsub2Bf16 _ _ _ _ => 0
  | .hmul2Bf16 _ _ _ _ => 0
  | .hfma2Bf16 _ _ _ _ => 0
  | .hmin2Bf16 _ _ _ _ => 0
  | .hmax2Bf16 _ _ _ _ => 0
  | .hadd2Hf16 _ _ _ _ => 0
  | .hsub2Hf16 _ _ _ _ => 0
  | .hmul2Hf16 _ _ _ _ => 0
  | .hfma2Hf16 _ _ _ _ => 0
  | .hmin2Hf16 _ _ _ _ => 0
  | .hmax2Hf16 _ _ _ _ => 0
  | .ldS8 _ _ _ _ => 0
  | .ldZ8 _ _ _ _ => 0
  | .ldS16 _ _ _ _ => 0
  | .ldZ16 _ _ _ _ => 0
  | .ldW _ _ _ _ => 0
  | .ldD _ _ _ _ => 0
  | .ldQ _ _ _ _ => 0
  | .ldl _ _ _ _ _ _ => 0
  | .ldAdvW _ _ _ _ => 0
  | .ldAdvD _ _ _ _ => 0
  | .ldAdvQ _ _ _ _ => 0
  | .stl _ _ _ _ _ => 0
  | .stB8 _ _ _ _ => 0
  | .stB16 _ _ _ _ => 0
  | .stW _ _ _ _ => 0
  | .stD _ _ _ _ => 0
  | .stQ _ _ _ _ => 0
  | .shld _ _ _ _ => 0
  | .ldfragT8 _ _ _ _ => 0
  | .ldfragT16 _ _ _ _ => 0
  | .ldt _ _ _ _ => 0
  | .stt _ _ _ _ => 0
  | .wadd _ _ _ => 0
  | .wld _ _ _ => 0
  | .atomAdd _ _ _ _ => 0
  | .atomMin _ _ _ _ => 0
  | .atomMax _ _ _ _ => 0
  | .atomAnd _ _ _ _ => 0
  | .atomOr _ _ _ _ => 0
  | .atomXor _ _ _ _ => 0
  | .atomExch _ _ _ _ => 0
  | .atomCas _ _ _ _ => 0
  | .acq _ _ _ _ => 0
  | .rel _ _ _ _ => 0
  | .fence _ _ => 0
  | .bind _ _ _ _ => 0
  | .unbind _ _ => 0
  | .pgreq _ _ _ => 0
  | .pgprobe _ _ _ _ => 0
  | .br _ _ => 0
  | .brl _ _ _ => 0
  | .jmp _ _ => 0
  | .call _ _ => 0
  | .calli _ _ => 0
  | .ret _ => 0
  | .enrol _ _ => 0
  | .join _ _ => 0
  | .exit _ => 0
  | .trap _ _ => 0
  | .tret _ => 0
  | .brk _ _ => 0
  | .nop _ => 0
  | .wait _ _ _ _ _ => 0
  | .tryW _ _ => 0
  | .tryL _ _ => 0
  | .tcommit _ => 0
  | .tabort _ _ => 0
  | .speculationConflict => 3
  | .srd _ _ _ => 0
  | .swr _ _ _ => 0
  | .shflIdx _ _ _ _ _ => 0
  | .shflUp _ _ _ _ _ => 0
  | .shflDown _ _ _ _ _ => 0
  | .shflXor _ _ _ _ _ => 0
  | .vote _ _ _ _ _ => 0
  | .matchLanes _ _ _ _ _ => 0
  | .gred _ _ _ _ _ => 0
  | .gscan _ _ _ _ _ => 0
  | .lanesGet _ _ _ => 0
  | .lanesSet _ _ _ => 0
  | .lanesPresent _ _ _ => 0
  | .breserve _ _ => 1
  | .brelease _ => 1
  | .bfill _ _ _ => 1
  | .bgather _ _ _ => 1
  | .mma _ _ _ _ _ _ _ => 1
  | .mmaw _ _ _ _ _ _ _ => 1
  | .talloc _ _ => 1
  | .tfree _ => 1
  | .tzero _ => 1
  | .tld _ _ _ => 1
  | .tst _ _ _ => 1
  | .tpost _ _ => 1
  | .tfinal _ => 1
  | .tsettle _ _ => 1
  | .tcvtBuffer _ _ _ _ => 1
  | .tcvtMemory _ _ _ _ => 1
  | .fred _ _ => 1
  | .tadd _ _ _ => 1
  | .tsub _ _ _ => 1
  | .tneg _ _ _ => 1
  | .tshift _ _ _ _ => 1
  | .tmuli _ _ _ _ => 1
  | .trsum _ _ _ => 1
  | .tcsum _ _ _ => 1
  | .ttrans _ _ _ => 1
  | .tslice _ _ _ _ => 1
  | .tcopy _ _ _ => 1
  | .dmov _ _ => 1
  | .dmovImm _ _ => 1
  | .dmovRdstat _ => 1
  | .dmovWrstat _ => 1
  | .dmovRdrm _ => 1
  | .dmovWrrm _ => 1
  | .dmovRdcnt _ => 1
  | .dmovRdwg _ => 1
  | .dmovRdclk _ => 1
  | .dmovRdclkh _ => 1
  | .dmovl _ _ => 1
  | .dadd _ _ _ => 1
  | .daddSub _ _ _ => 1
  | .daddImm _ _ _ => 1
  | .daddD _ _ _ => 1
  | .dmul _ _ _ => 1
  | .dcmp _ _ _ _ => 1
  | .dbr _ _ => 1
  | .dloop _ _ => 1
  | .dnext _ => 1
  | .dhalt => 1
  | .dsync _ _ => 1
  | .xcopy _ _ _ _ _ => 2
  | .xcopyAdd _ _ _ _ _ => 2
  | .xcopyDetach _ _ => 2
  | .xcopyFabric _ _ _ _ _ => 2
  | .xwaitany _ _ => 2
  | .xwaitall _ _ => 2
  | .xffr _ _ => 2
  | .xtags _ _ => 2
  | .barInit _ _ _ => 2
  | .barArv _ _ _ => 2
  | .barSync _ _ _ => 2
  | .barInval _ _ => 2
  | .ckpt _ => 2
  | .salloc _ _ _ => 0
  | .sfree _ _ => 0
  | .srelight _ _ _ => 0
  | .sret _ => 0
  | .sinfoAlloc _ _ _ => 0
  | .sinfoEntry _ _ => 0
  | .sinfoCore _ _ => 0
  | .bdgt _ _ => 0
  | .cjoin _ _ _ => 0
  | .cjoinInfo _ _ => 0
  | .cleave _ _ => 0
  | .tmbarSync _ _ => 0
  | .tmbarArv _ _ => 0
  | .evsig _ _ => 0
  | .evwait _ _ => 0
  | .evclr _ _ => 0
  | .evarm _ _ => 0
  | .lnch _ _ _ => 0
  | .wgdone _ => 0
  | .ptsyncPage _ _ => 0
  | .ptsyncAll _ => 0
  | .icinv _ _ _ => 0
  | .fsig _ _ => 0
  | .clauseHeaderTake => 3
  | .pcComparatorHold _ => 3
  | .loadComplete _ _ => 3
  | .hayrickEntryDrain _ => 3
  | .squadSwapBegin _ _ _ _ => 3
  | .squadSwapEnd _ => 3
  | .teamPlacement _ _ _ _ => 3
  | .workgroupEnd _ => 3
  | .launchReady _ => 3
  | .lnchAnswer _ _ => 3
  | .copyTakesEffect _ => 3
  | .copyComplete _ => 3
  | .engineOpExecute _ _ => 3
  | .engineOpComplete _ _ => 3
  | .preemptTeam _ _ => 3
  | .fullSave _ => 3
  | .contextWritten _ => 3
  | .resumeTeam _ _ => 3
  | .workgroupResume _ _ => 3
  | .killWorkgroup _ => 3
  | .uncorrectableErrorConsumed _ _ _ _ => 3
  | .workgroupRelaunch _ _ => 3
  | .withdrawCore _ => 3
  | .returnCore _ => 3
  | .commandAck _ _ => 3
  | .chargeReport _ => 3
  | .budgetHostWrite _ => 3
  | .budgetMgmtSet _ => 3
  | .pwrbrkNAssert => 3
  | .pwrbrkNDeassert => 3
  | .powerMeasurement _ => 3
  | .budgetApply _ => 3
  | .inFieldTestComplete _ _ _ _ => 3
  | .uncorrectableArrayError _ _ _ => 3
  | .sensorSample _ _ _ => 3
  | .tringCtlWrite _ => 3
  | .tringTailWrite _ => 3
  | .replayDoorbell _ _ => 3
  | .frameRingSupply _ _ => 3
  | .hubPtsync _ _ => 3
  | .expansion _ _ => 3
  | .expansionComplete _ _ => 3
  | .eventSignalApply _ => 3
  | .almanacError _ _ => 3
  | .dieHubFailure _ => 3
  | .linkTraining _ _ _ _ => 3
  | .flitReceive _ _ _ => 3
  | .linkRetrain _ _ => 3
  | .fredReductionBegin _ _ => 3
  | .fsigArrival _ _ => 3
  | .gangSliceStart _ _ => 3
  | .gangReady _ _ => 3
  | .gangSliceBegin _ => 3
  | .gangLateTimeout _ => 3
  | .powerGood _ => 3
  | .inputUndervoltage => 3
  | .quoteRequest _ => 3
  | .quoteSign => 3
  | .firmwareUpdate _ _ _ => 3
  | .pldmMonitoring => 3
  | .attachProcess _ _ => 3
  | .detachProcess _ => 3
  | .blinkSample _ => 3
  | .histogramFlush _ => 3
  | .registerWrite _ _ => 3
  | .waddPerformed _ _ => 3
  | .debugHandlerResume _ _ => 3
  | .dqtailWrite _ _ => 3
  | .dataPoisoned _ => 3
  | .cxlMemRequest _ _ _ => 3
  | .worxusEndsLaunch _ => 3

end Sys2Proof
end

