-- ==== Sys2Proof/Machine/State.lean ====
section
/-! DEFINITION. State: everything the spec gives the machine, as plain data (R50, R174, R231, R244, R276, R317, R336,
R357 and the rules named at each field). Fields marked MODEL are the model's own bookkeeping. -/

namespace Sys2Proof.Machine

/-- Why a step of the model stops. Neither can come from `step`: `exec` is called outside its conditions (log 1). -/
inductive Fault where
  /-- An instruction word is executed while no stream issues: raised by every word's meaning. Safe: the hardware has
  no such step. -/
  | noIssuer
  /-- A device step is executed whose condition does not hold: raised by the meanings of the device steps. Safe: the
  hardware does not take the step. -/
  | stepNotEnabled
deriving DecidableEq, Repr

/-- Why the model gives no meaning. -/
inductive Refusal where
  /-- No meaning yet for the instruction named: raised by a refused arm of `exec`. Safe: nothing is claimed of it. -/
  | notModelled (mnemonic : String)
deriving DecidableEq, Repr

/-- An agent: a thread by its index or a workgroup's drive stream, which issue words; the host (R8, R373); another module
of the fabric (R395, R405). -/
inductive Agent where
  | thread (i : Nat)
  | drive (w : Nat)
  | host
  | peer (m : Nat)
deriving DecidableEq, Repr

/-- The program counter (R53). -/
structure Pc where
  hdr : VAddr
  idx : BitVec 4
deriving DecidableEq, Repr

/-- A clause as fetched (R33, R36): its header, and the words after it, none where a position lies outside the
header's mapping. -/
structure Clause where
  header : Word
  words : List (Option Word)
deriving DecidableEq, Repr

/-- A load in flight (R185): the registers it will write, the flags it raises, whether it goes to far memory (log 7). -/
structure Pending where
  id : Nat
  writes : List (BitVec 7 × Word)
  flags : Word
  far : Bool
deriving DecidableEq, Repr

/-- The record of a loss entry (R210): the allocation's base in the pool, EA, nested, the resume point. -/
structure LossEntry where
  alloc : Nat
  ea : BitVec 64
  nested : Bool
  resume : Pc
deriving DecidableEq, Repr

/-- The two kinds of speculation (R132, R133). -/
inductive SpecKind where
  | squad
  | lone
deriving DecidableEq, Repr

/-- What `try` checkpoints (R126). -/
structure Checkpoint where
  stack : List VAddr
  /-- the entries below those on core, down to position D − 16, that rets have refilled since, the highest first (R54,
  R62) -/
  refilled : List VAddr
  depth : BitVec 13
  g : Vector Word 128
  p : BitVec 7
  m : Vector Word 4
  rm : Word
  flags : Word
  tvec : VAddr
  csb : VAddr
deriving DecidableEq, Repr

/-- A speculation (R126-R129): kind, checkpoint, abort target, the bytes read and the fragments written; loads with an
identifier below `since` were issued before it. -/
structure Spec where
  kind : SpecKind
  since : Nat
  check : Checkpoint
  target : VAddr
  reads : List Nat
  writes : List Nat
deriving DecidableEq, Repr

/-- An abort condition that a member of a `try.w` group has raised and whose group has not rolled back yet (R132): the
code, and for code 4 the cause and value. -/
structure Doom where
  code : BitVec 8
  cause : BitVec 8
  val : Word
deriving DecidableEq, Repr

/-- What a `salloc` (`fresh`) or `srelight` waits for (R199, R207): its result register, the allocation's place, size,
rank and handler, the banks that were dark when it began, and those whose arrays have not passed their tests yet. -/
structure Lighting where
  fresh : Bool
  d : BitVec 7
  base : Nat
  size : Nat
  rank : BitVec 3
  handler : BitVec 64
  want : List Nat
  left : List Nat
deriving DecidableEq, Repr

/-- Where a thread or drive stream is parked or held at a word. -/
inductive Park where
  /-- not parked -/
  | none
  /-- a commit point's drain: the operations still to be performed (R284) -/
  | drain (ids : List Nat)
  /-- released: the word completes at the next issue -/
  | released
  /-- `join` (R116) -/
  | join (j : BitVec 3)
  /-- a named barrier, or the team barrier for none (R278, R320): waits for the next completion of a phase -/
  | phase (n : Option (BitVec 4))
  /-- a weight-0 wait for the phase of a parity (R278) -/
  | parity (n : Option (BitVec 4)) (p : Bool)
  /-- a collective word (R153) -/
  | collective
  /-- `try.w`, forming a group, or fixed as a member of it (R132) -/
  | tryGroup (fixed : Bool)
  /-- `tcommit` in a group (R132) -/
  | commitGroup
  /-- `evwait` (R354) -/
  | event (domain : Nat) (e : BitVec 16)
  /-- `ckpt` (R281) -/
  | ckpt
  /-- `xcopy`, step 4 of R263 -/
  | copy
  /-- an array test of `salloc` or `srelight` (R201) -/
  | array (p : Lighting)
  /-- behind another thread's loss handler (R210) -/
  | handler (alloc : Nat)
  /-- a parked access (R342) -/
  | page
  /-- `lnch`, waiting for Meridian (R349) -/
  | launch
  /-- `cleave` past its drain (R325): in step 2, or in step 3 behind the operations named -/
  | cleave (ids : List Nat)
  /-- a `try` that waits for a `try.w` group of its squad to end (R132, R133) -/
  | tryWait
  /-- the wait of `tmbar.sync` or `evwait` is over, its acquire of the default object at a scope waits for the drains named
  (R320, R353, R406) -/
  | acquire (sc : BitVec 4) (ids : List Nat)
deriving DecidableEq, Repr

/-- A debug hold (R378): whether it is a `brk` hold, or one that a debug handler has moved, whose next word may be matched
like any other, or else a comparator or watch hold; its record, while it is still to be written. -/
structure Hold where
  brk : Bool
  record : Option (BitVec 256)
deriving DecidableEq, Repr

/-- MODEL. What a thread has seen of one aligned word (R289, R330; log 6): the position in the write log up to which
it has loaded, the position it has obtained by acquires, and the position below which no copy is held for its workgroup
(R405). -/
structure Floor where
  word : Nat
  seen : Nat
  got : Nat
  fresh : Nat
deriving DecidableEq, Repr

/-- MODEL. Whose releases an acquire covers (R9, R332): one agent's, or those of the agents of workgroups, of one squad
there or of all, with the host and other modules from a scope up. -/
inductive Reach where
  | agent (a : Agent)
  | within (scope : BitVec 4) (wgs : List Nat) (squad : Option Nat)
deriving DecidableEq, Repr

/-- MODEL. Up to when the releases of those an acquire covered come before what a thread writes from now on (R332). -/
structure Related where
  reach : Reach
  time : Nat
deriving DecidableEq, Repr

/-- A thread (R50, R62). -/
structure Thread where
  wg : Nat
  tid : BitVec 10
  role : Bool
  regs : Nat
  pc : Pc
  clause : Clause
  /-- the header's checks and waits are to be applied again before the next word (R49) -/
  recheck : Bool
  /-- on-core call-stack entries, most recent first (R54) -/
  stack : List VAddr
  depth : BitVec 13
  g : Vector Word 128
  p : BitVec 7
  m : Vector Word 4
  rm : Word
  flags : Word
  tcause : Word
  tval : Word
  tac : Word
  tpc : VAddr
  tvec : VAddr
  csb : VAddr
  /-- the latched upper half of the cycle count (R57) -/
  clkLatch : Option Word
  loads : List Pending
  /-- handler mode and its resume point (R122) -/
  handler : Option Pc
  loss : Option LossEntry
  spec : Option Spec
  /-- a conflict observed and not yet taken (R129) -/
  conflict : Bool
  doom : Option Doom
  park : Park
  exited : Bool
  hold : Option Hold
  /-- a held word issues once without being matched again (R378) -/
  unmatched : Bool
  /-- MODEL: what the thread has seen (log 6) -/
  floors : List Floor
  /-- MODEL: when the thread last completed an acquire at workgroup scope or wider (R285) -/
  lastAcq : Nat
  /-- MODEL: the releases that come before what the thread writes from now on (R332) -/
  related : List Related
deriving DecidableEq, Repr

/-- A join register (R115). -/
structure Join where
  arrived : BitVec 32
  enrolled : BitVec 32
deriving DecidableEq, Repr

/-- A member's arrival at a collective word (R153): its position, whether its guard held, its operand values. -/
structure Arrival where
  pos : Nat
  live : Bool
  a : List Word
deriving DecidableEq, Repr

/-- A collective word being gathered (R153): its place, the word, the reference mask, the arrivals, the positions that
count as absent for it, and whether every present member has arrived, so that it executes. -/
structure Gather where
  pc : Pc
  word : Instr
  mask : Word
  arrivals : List Arrival
  absent : Word
  formed : Bool
deriving DecidableEq, Repr

/-- A squad (R115, R153, R179). -/
structure Squad where
  joins : List Join
  gathers : List Gather
  /-- its active slot, or none in the pending set (R179) -/
  slot : Option Nat
  /-- in a saved context: it stood in the active set (R294) -/
  was : Bool
  /-- the ac of its last issue (R183) -/
  last : Option Nat
  /-- since when an active squad is blocked long, or a pending one ready (R181) -/
  since : Option Nat
deriving DecidableEq, Repr

/-- A named or team barrier (R276, R317). MODEL: who has arrived, and when, and who had when the last phase completed
(R332). -/
structure Barrier where
  init : Bool
  phase : BitVec 16
  count : BitVec 16
  expected : BitVec 16
  came : List (Agent × Nat)
  past : List (Agent × Nat)
deriving DecidableEq, Repr

/-- An arrival that waits for its commit point's drain, or for earlier engine words (R278, R279): who made it, at
which barrier (none the team barrier), with what weight, behind which operations, whether its word then waits for a
phase, and (MODEL) when it was made. -/
structure Due where
  agent : Agent
  bar : Option (BitVec 4)
  weight : Nat
  ids : List Nat
  sync : Bool
  time : Nat
deriving DecidableEq, Repr

/-- A synchronisation object other than the default one (R151, R288). -/
inductive Obj where
  | default
  | barrier (w : Nat) (n : BitVec 4)
  | team (l t : Nat)
  /-- a flag word in a pool, by the workgroup and the byte of its pool (R323) -/
  | flag (w off : Nat)
  /-- a flag word elsewhere, by its process and address (log 61) -/
  | mapped (proc va : Nat)
  /-- MODEL: what the signals counted toward an event release (R350, R353) -/
  | event (domain : Nat) (e : BitVec 16)
deriving DecidableEq, Repr

/-- A region binding (R151): the descriptor quad, the base, the length. -/
structure Binding where
  desc : Word
  flag : BitVec 64
  base : BitVec 64
  len : Word
deriving DecidableEq, Repr

/-- MODEL. What an engine's writes take from their issue (R306, R332, R410): when that was, the issuer's bindings then, and
what it had acquired. -/
structure Origin where
  time : Nat
  binds : List Binding
  related : List Related
deriving DecidableEq, Repr

/-- A copy tag (R272), and (MODEL) the copy issued on it last. -/
structure Tag where
  done : Bool
  status : BitVec 8
  copy : Nat
deriving DecidableEq, Repr

/-- An allocation (R196): base and size in the pool, loss rank, handler, lost. -/
structure Alloc where
  base : Nat
  size : Nat
  rank : BitVec 3
  handler : BitVec 64
  lost : Bool
deriving DecidableEq, Repr

/-- A Hayrick entry (R140, R177): one thread's store, in program order. -/
structure Entry where
  id : Nat
  thread : Nat
  tid : BitVec 10
  va : BitVec 64
  bytes : List Byte
  spec : Bool
  committed : Bool
  /-- the objects its aligned words were bound to at issue (R151, R288) -/
  objs : List Obj
  spilled : Bool
  /-- reinstated from a saved context: it drains from the next commit point on (R291) -/
  held : Bool
  /-- parked at a die hub (R342) -/
  parked : Bool
  /-- the member whose slot of a commons it addresses (R322) -/
  target : Option Nat
  /-- the commons slot it addresses was revoked after it issued (R325) -/
  gone : Bool
  /-- MODEL: the thread's last acquire before the store issued (R285) -/
  acq : Nat
  /-- MODEL: as the thread's, when the store issued (R332) -/
  related : List Related
  /-- MODEL: when the store issued (R407) -/
  made : Nat
deriving DecidableEq, Repr

/-- A drain record (R285): the writer's index, the byte by its home and as the workgroup addressed it, outside a slot of a
commons, and (MODEL) when it was made and how long the write log was then. -/
structure DrainRecord where
  tid : BitVec 10
  byte : Nat
  va : Option Nat
  at_ : Nat
  pos : Nat
deriving DecidableEq, Repr

/-- A `wadd` not yet performed (R148). -/
structure Wadd where
  id : Nat
  thread : Nat
  va : BitVec 64
  value : Word
  mode : BitVec 3
  objs : List Obj
  parked : Bool
  target : Option Nat
  gone : Bool
  related : List Related
  made : Nat
deriving DecidableEq, Repr

/-- A wide cell (R72). -/
structure WCell where
  v : BitVec 96
  sov : Bool
deriving DecidableEq, Repr

/-- The states of an allocated tile (R231); Free is the absence of a tile. -/
inductive TileState where
  | plain
  | provisional
  | final
  | derived
deriving DecidableEq, Repr

/-- An accumulator tile (R221, R231, R235): its cells row by row, its tag, its correction shadow. -/
structure Tile where
  rows : Nat
  cols : Nat
  exp : BitVec 10
  cells : List WCell
  state : TileState
  tag : Option (BitVec 5)
  shadow : Option (List WCell)
deriving DecidableEq, Repr

/-- An operand-buffer reservation (R218, R219): the record, and each row's bytes with its block offsets last. -/
structure Buffer where
  rec0 : Word
  rec1 : Word
  data : List (List Byte)
deriving DecidableEq, Repr

/-- An entry of the lineage log (R236). -/
structure LogEntry where
  word : Instr
  t : BitVec 4
  u : BitVec 4
  dval : Word
  buf : Option (BitVec 3)
  tag : BitVec 5
deriving DecidableEq, Repr

/-- A lineage tag in use (R232, R234): its root tile. -/
structure TagUse where
  root : BitVec 4
deriving DecidableEq, Repr

/-- An engine word in the queue or executing (R223, R224, R246): its address, the drive registers and the mode it read
at issue, the iteration it belongs to, whether it executes, the correction it has formed (R235). -/
structure Op where
  id : Nat
  word : Instr
  addr : VAddr
  dregs : Vector Word 32
  mode : BitVec 3
  iter : Word
  running : Bool
  parked : Bool
  /-- its range touched a lost allocation at issue (R209) -/
  lost : Bool
  /-- a bank of its range darkened since (R209) -/
  dark : Bool
  correction : Option (List WCell)
  /-- the status bits it will set at completion (R225) -/
  flags : Word
  /-- the status a `tsettle` will write, once its tag has settled (R234) -/
  settled : Option Word
  /-- MODEL: of its issue -/
  origin : Origin
deriving DecidableEq, Repr

/-- The drive stream (R244, R246, R255). -/
structure Drive where
  pc : Pc
  clause : Clause
  recheck : Bool
  d : Vector Word 32
  mode : BitVec 3
  clkLatch : Option Word
  iter : Word
  ops : List Op
  halted : Bool
  park : Park
  hold : Option Hold
  unmatched : Bool
  /-- MODEL: as a thread's (R332) -/
  related : List Related
deriving DecidableEq, Repr

/-- Where a workgroup stands in its life. -/
inductive WgState where
  /-- resident on its core -/
  | resident
  /-- saved, its reservations still held until the context is written (R296) -/
  | saving
  /-- saved in the DRAM layer (R296) -/
  | saved
  /-- resumed by its Stile, waiting for room (R298, R319) -/
  | resuming
  /-- its reservations taken, its banks being lit and its contents on their way back (R298 step 2) -/
  | lighting
  /-- its reservations taken and its state restored; no squad issues until its whole team stands so (R298, R319) -/
  | restored
  /-- killed and waiting for relaunch (R301, R302) -/
  | killed
  /-- ended (R178) -/
  | ended
  /-- failed for good -/
  | failed
deriving DecidableEq, Repr

/-- Contents of an allocation kept in a saved context (R215). -/
structure Kept where
  base : Nat
  bytes : List Host.Cell
deriving DecidableEq, Repr

/-- A pre-emption request (R292): t0, whether it has been taken by the checkpoint path (R293), and whether its bound is
waived (R404). -/
structure Request where
  t0 : Nat
  ckpt : Bool
  now : Bool
deriving DecidableEq, Repr

/-- Who waits at a die hub for a page (R342). -/
inductive Waiter where
  | thread (i : Nat)
  | drive (w : Nat)
  | entry (w id : Nat)
  | wadd (w id : Nat)
  | op (w id : Nat)
  | copy (id : Nat)
  /-- an access of another module (R397) -/
  | peer (a : FabricAccess)
deriving DecidableEq, Repr

/-- A slot of the parked-access table (R336, R345). -/
structure ParkedAccess where
  waiter : Waiter
  proc : Nat
  va : VAddr
  kind : BitVec 2
  count : Nat
  wg : Nat
  tid : BitVec 10
  source : BitVec 4
  core : Nat
deriving DecidableEq, Repr

/-- A workgroup (R174-R178, R221, R225, R231, R244, R272, R276). -/
structure Wg where
  launch : Nat
  wgid : BitVec 24
  team : Nat
  core : Nat
  slot : Nat
  state : WgState
  squads : List Squad
  barriers : List Barrier
  due : List Due
  bindings : List Binding
  shapes : List (List Word)
  tags : List Tag
  poolFirst : Nat
  poolBanks : Nat
  allocs : List Alloc
  hay : List Entry
  records : List DrainRecord
  /-- fragments of drain records held in the spill area (R285) -/
  spilledRecords : Nat
  wadds : List Wadd
  buffers : List (Option Buffer)
  tiles : List (Option Tile)
  lineage : List (Option TagUse)
  log : List LogEntry
  tstat : Word
  drive : Option Drive
  /-- commons id and slot (R324) -/
  commons : Option (BitVec 3 × BitVec 4)
  dropped : BitVec 16
  /-- wgev signalled (R351) -/
  published : Bool
  /-- a commit point passed since start (R302) -/
  committed : Bool
  /-- kills from the current half, and from the start (R302) -/
  killsHalf : Nat
  killsStart : Nat
  request : Option Request
  kept : List Kept
  /-- parked accesses in a saved context (R297) -/
  parks : List ParkedAccess
  /-- placement order on the core (R384) -/
  placedAt : Nat
  /-- squad-cycles of residence not yet reported (R359): 64 are one ac -/
  charge : Nat
  /-- s.tvec, and s.csb of thread 0, as Worxus set them at the start (R62) -/
  tvec : VAddr
  csb : VAddr
  /-- its ac 0 (R179), once its first squad has taken a header -/
  ac0 : Option Nat
  /-- placed while no workgroup of its process was resident on the core (R387) -/
  alone : Bool
  /-- debug records of holds that are over, still waiting for room in the queue (R379, R382) -/
  waiting : List (BitVec 256)
deriving DecidableEq, Repr

/-- The forms of `xcopy` (R260). -/
inductive CopyForm where
  | plain
  | add
  | detach
  | fabric
deriving DecidableEq, Repr

/-- A copy waiting at issue, or in flight (R263-R267, R397). -/
structure Copy where
  id : Nat
  agent : Agent
  wg : Nat
  core : Nat
  form : CopyForm
  tag : Nat
  bar : Option (BitVec 4)
  desc : List Word
  mode : BitVec 3
  iter : Word
  /-- the members a multicast copy writes to, by workgroup, and its commons; none for another copy (R328) -/
  members : List Nat
  cast : Option Nat
  /-- the slots of its workgroup's commons as they stood at issue, a slot revoked since being empty (R325) -/
  commons : List (Option Nat)
  /-- a slot it addressed has been revoked (R325, R328) -/
  revoked : Bool
  /-- step 5 of R263 has been taken -/
  inFlight : Bool
  /-- it touched a lost allocation at issue: it transfers nothing and completes with LOST (R211, R209) -/
  lost : Bool
  /-- a bank of its sides darkened while it was in flight (R209); of a multicast copy's destinations, by member -/
  dark : Bool
  darkIn : List Nat
  /-- squashed at a pre-emption, to be issued again (R282) -/
  squashed : Bool
  parked : Bool
  /-- MODEL: of its issue -/
  origin : Origin
deriving DecidableEq, Repr

/-- MODEL. Engine work that ended with its workgroup after it had begun to write (R45; log 9): a copy, or an engine word
with its workgroup and drive stream. -/
inductive Remnant where
  | copy (c : Copy)
  | op (w : Nat) (d : Drive) (o : Op)
deriving DecidableEq, Repr

/-- A part [lo, hi) of a locked range (R269): of a workgroup's pool, of the pages that a workgroup addresses, or of those of
a process that another module's copy addresses. Pages and pools may move under it. -/
inductive LockPart where
  | pool (w lo hi : Nat)
  | mapped (w lo hi : Nat)
  | peer (proc lo hi : Nat)
deriving DecidableEq, Repr

/-- A range-lock entry (R269): its holder, whether it locks a destination, its parts. -/
structure Lock where
  holder : Nat
  dst : Bool
  parts : List LockPart
deriving DecidableEq, Repr

/-- What a physical array is doing (R193). -/
inductive ArrayState where
  | free
  | testing (bank : Nat)
  | lit (bank : Nat)
  | retired
deriving DecidableEq, Repr

/-- A translation held in a buffer (R341): process, page base, size in bytes, the entry. -/
structure Cached where
  proc : Nat
  base : Nat
  size : Nat
  pte : BitVec 64
deriving DecidableEq, Repr

/-- A line of an instruction cache (R347): physical line number and its 32 words. -/
structure ILine where
  line : Nat
  words : List Word
deriving DecidableEq, Repr

/-- A swap in progress (R181): the slot, the incoming squad, the ac it began. -/
structure Swap where
  slot : Nat
  wg : Nat
  squad : Nat
  at_ : Nat
deriving DecidableEq, Repr

/-- A core's copy of a debug context block and Blink's state (R376, R384, R385): process, block address, the block's
128 words, the counts, the ac of the next sample and the slot sampled last. -/
structure Debug where
  proc : Nat
  block : Nat
  words : List Word
  bins : List Nat
  reasons : List Nat
  t0 : Option Nat
  lastSlot : Option Nat
  /-- samples taken and not yet in the ring (R385) -/
  samples : List (BitVec 256)
  /-- the ac of the last addition to the histogram area (R384) -/
  flushed : Nat
deriving DecidableEq, Repr

/-- What a core has issued in an ac (R183, R385): the bundle's place, its threads that have issued, and the threads that
have taken a header. -/
structure IssueNote where
  ac : Nat
  pc : VAddr
  threads : List Nat
  heads : List Nat
deriving DecidableEq, Repr

/-- A full in-field test under way (R368-R370): the parts still to be tested. -/
structure Proving where
  arrays : List Nat
  groups : BitVec 4
  slices : BitVec 4
deriving DecidableEq, Repr

/-- A core (R174, R191, R193, R194, R228, R269, R341, R347, R361, R376). -/
structure Core where
  arrays : List ArrayState
  offset : Int
  scol : Nat
  lanesFused : BitVec 64
  /-- lanes that serve no bundle until they are retested (R304) -/
  lanesTesting : BitVec 64
  groupsLit : BitVec 4
  slicesFused : BitVec 4
  slicesLit : BitVec 4
  /-- lane groups and slices under test, waiting to be relit (R362) -/
  groupsTesting : BitVec 4
  slicesTesting : BitVec 4
  locks : List Lock
  tlb : List Cached
  icache : List ILine
  swap : Option Swap
  debug : Option Debug
  withdrawn : Bool
  tripped : Bool
  proving : Option Proving
  /-- the threads of the bundle of this ac that have still to issue, and the ac of the last bundle (R183) -/
  bundle : List Nat
  issued : Option Nat
  /-- what it has issued in the ac of its last issue -/
  note : IssueNote
  /-- the workgroup slot of the drive stream served last, and the ac (R245) -/
  served : Option (Nat × Nat)
  /-- MODEL: the offset of `bdgt` has returned to zero and the banks are still to fit the budget (R194, R206) -/
  refit : Bool
deriving DecidableEq, Repr

/-- A cold page on its way back (R343): its process, page, image, and the frame once the image is expanded; the access
that began it and its core, as its record names them, and whether it waits for frames and the doorbell. -/
structure Expand where
  proc : Nat
  va : VAddr
  image : Nat
  frame : Option (BitVec 52)
  core : Nat
  wg : Nat
  at_ : Nat
  slot : BitVec 16
  kind : BitVec 2
  source : BitVec 4
  tid : BitVec 10
  waits : Bool
  /-- the access that began it is another module's (R397) -/
  peer : Option FabricPeer
deriving DecidableEq, Repr

/-- A die hub (R336). -/
structure Hub where
  frames : List (BitVec 52)
  slots : List (Option ParkedAccess)
  walk : List Cached
  expands : List Expand
deriving DecidableEq, Repr

/-- A launch descriptor as R348 lays it out. -/
structure Descriptor where
  priv : Bool
  tb : Bool
  pre : Bool
  rst : Bool
  drv : Bool
  two : Bool
  ckbound : Nat
  team : Nat
  grid : Nat
  squads0 : Nat
  squads1 : Nat
  regs0 : Nat
  regs1 : Nat
  entry0 : VAddr
  entry1 : VAddr
  dentry : VAddr
  scratch : Nat
  tags : Nat
  copyq : Nat
  spill : VAddr
  spillsz : Nat
  restsz : Nat
  rest : VAddr
  ranges : VAddr
  nranges : Nat
  domain : Nat
  done : BitVec 16
  waits : List (BitVec 16)
  wgev : BitVec 16
  shapes : List (Option VAddr)
deriving DecidableEq, Repr

/-- A launch's place in its queue (R350). -/
inductive LaunchState where
  | queued
  /-- its wait events have all been set at one moment -/
  | ready
  | placing
  | ended
deriving DecidableEq, Repr

/-- A team's state at its Stile (R317): the team barrier, each commons' members by slot, its cluster, and the cluster on
which a member has failed, where the team is to be placed again elsewhere (R331). -/
structure Team where
  barrier : Barrier
  commons : List (List (Option Nat))
  cluster : Nat
  avoid : Option Nat
deriving DecidableEq, Repr

/-- A launch (R317, R318, R322, R338, R348, R350). -/
structure Launch where
  id : Word
  proc : Nat
  desc : Descriptor
  state : LaunchState
  pool : VAddr
  commons : VAddr
  /-- where the `.text` and `.drive` sections were loaded (R17, R29) -/
  text : VAddr
  drive : VAddr
  /-- the teams that Meridian has sent to a Stile, in the order of their numbers -/
  teams : List Team
  /-- Worxus has been told that a team of it that waits fits no cluster (R318) -/
  reported : Bool
  /-- MODEL: who submitted it by `lnch`, and when (R349) -/
  by_ : Option (Agent × Nat)
deriving DecidableEq, Repr

/-- A process context (R339, R349, R352, R359, R376, R395): its page-table root, the leaf of its device queue in the run
tree, its event domain and event table, attached block, and the modules of its fabric job. -/
structure Process where
  root : Nat
  leaf : Nat
  domain : Nat
  table : Option Nat
  debug : Option Nat
  job : List Nat
  /-- debug records of kinds 4 and 5 dropped since the last record in its queue (R382) -/
  dropped : Nat
deriving DecidableEq, Repr

/-- A node of the run tree (R359): its parent, weight and virtual time in nanoseconds, and for a resident-core thread
whether it has work; nodes stand in the order of their creation. -/
structure Node where
  parent : Option Nat
  weight : Nat
  v : Rat
  ready : Bool
deriving DecidableEq, Repr

/-- A `lnch` on its way to Meridian (R349): the issuing workgroup, the thread that still waits for
the answer, the descriptor's address and the register pair of the answer; (MODEL) who issued it, and when. -/
structure LaunchRequest where
  wg : Nat
  thread : Option Nat
  desc : VAddr
  d : BitVec 7
  by_ : Agent × Nat
deriving DecidableEq, Repr

/-- A waiter of an event (R354): one squad's threads, or a queued launch. -/
inductive EvWaiter where
  | squad (w q : Nat)
  | launch (l : Nat)
deriving DecidableEq, Repr

/-- A named event (R352, R354): its waiters in their order, the first 8 in hardware. -/
structure Event where
  domain : Nat
  num : BitVec 16
  target : BitVec 16
  count : BitVec 16
  set : Bool
  /-- a signal of another module was counted toward the set (R402) -/
  remote : Bool
  waiters : List EvWaiter
deriving DecidableEq, Repr

/-- A signal on its way to the Almanac (R353): the agent whose word sent it, and whether it comes from a `fsig`. -/
structure EventMsg where
  domain : Nat
  num : BitVec 16
  from_ : Option Agent
  remote : Bool
deriving DecidableEq, Repr

/-- A command from Meridian to a Stile (R358). -/
inductive Command where
  | place (l t : Nat)
  | preempt (l t : Nat)
  | resume (l t stile : Nat)
  | kill (w : Nat)
  | withdraw (c : Nat)
  | return_ (c : Nat)
deriving DecidableEq, Repr

/-- What is told to Worxus in records whose layout the spec does not give. -/
inductive Notice where
  | shortfall (core : Nat)
  | arrayRetired (core array : Nat)
  | partFused (core : Nat) (part : TestPart) (n : Nat)
  | sensorless (die : Nat)
  | detachedEnded (launch wgid : Word)
  | copyFault (launch wgid : Word) (tid : BitVec 10) (drive : Bool)
  | teamFitsNowhere (launch : Nat)
  | shapeRefused (launch shape : Nat)
  | imageReturned (image : Nat)
  | linkRetrained (link : Nat)
  | signalDropped (domain : Nat)
  | poisoned (addr : Nat)
  | launchEnded (launch : Nat)
  | eventLost (domain : Nat) (launch : Nat)
  | quoteRefused
  | quote (n : Nat) (sig : List Byte)
  | bootFailed
  | booted (setB : Bool)
  | ready
  | updated (setB : Bool)
  | hostRead (addr : Nat) (data : List Byte)
  | attachRefused (proc : Nat)
  | placed (launch team : Nat)
  | saved (wg : Nat)
  | monitored
  | mgmtError
  | lateGang (gang ns : Nat)
  | delivered (link : Nat) (vc : BitVec 8) (payload : List Byte)
deriving DecidableEq, Repr

/-- What a Stile reports to Meridian (R358): records of failures and faults, other news, charges to the leaves of the run
tree. -/
inductive Report where
  | failure (r : BitVec 256)
  | fault (r : BitVec 256)
  | news (n : Notice)
  | charges (l : List (Nat × Rat))
deriving DecidableEq, Repr

/-- A command link (R358): send permits in each direction, and the commands and reports held for one. -/
structure CmdLink where
  down : Nat
  up : Nat
  held : List Command
  upHeld : List Report
deriving DecidableEq, Repr

/-- A resident core (R357, R359): the leaf of the run tree whose thread it runs, and the ac not yet charged. -/
structure Rcore where
  leaf : Option Nat
  charge : Nat
deriving DecidableEq, Repr

/-- A column's sensor and what is derived of it (R364, R365); `run`: the power estimates, newest first, of the samples
that have read the same raw value, at most 256. -/
structure Sensor where
  raw : BitVec 16
  accepted : Option (BitVec 16)
  run : List Nat
  failed : Bool
  temp : Int
  theta : Nat
  samples : Nat
deriving DecidableEq, Repr

/-- The thermal ring's registers (R366). -/
structure Ring where
  base : VAddr
  period : BitVec 12
  size : BitVec 4
  en : Bool
  head : Word
  tail : Word
  drop : Word
deriving DecidableEq, Repr

/-- A fabric link (R392-R394): up, width in lanes, next sequence numbers sent and received, replays of the flit, and the
flits sent that the other end has not acknowledged, the oldest first. -/
structure FLink where
  up : Bool
  width : Nat
  seqOut : BitVec 16
  seqIn : BitVec 16
  replays : Nat
  sent : List Flit
deriving DecidableEq, Repr

/-- A reduction under way on this module (R399): group, workgroup, operation, the table read at issue, and what the
member sends of its cells once it takes part (R400). -/
structure Reduction where
  group : BitVec 16
  wg : Nat
  op : Nat
  table : List (BitVec 16)
  sent : List Byte
  result : Option (List WCell)
deriving DecidableEq, Repr

/-- A gang slice (R403, R404): the modules that have reported ready, whether it has begun here, and the outgoing teams
that were late. -/
structure Gang where
  id : Nat
  plan : GangPlan
  ready : List Nat
  begun : Bool
  late : List (Nat × Nat)
deriving DecidableEq, Repr

/-- The boot flash (R370, R372): the image sets, the preference byte, the counter of quotes. -/
structure Flash where
  setA : ImageSet
  setB : ImageSet
  preferB : Bool
  counter : Nat
deriving DecidableEq, Repr

/-- The security block and boot (R370-R372): booted, ready after step 4, stopped, the running set, the measurements, the
requests for quotes that wait, the request whose counter write is done. -/
structure Boot where
  booted : Bool
  ready : Bool
  stopped : Bool
  setB : Bool
  measurements : List (BitVec 256)
  quotes : List (BitVec 256)
  signing : Option (BitVec 256 × Nat)
deriving DecidableEq, Repr

/-- MODEL. A release of a write (R288; log 6): by whom, through which object, at which scope, the workgroups its
releaser's commons had then (R330), when it was made, whether the phase of a barrier arrival has completed (R289, R321),
and whether it reaches the releaser's workgroup alone (R329). -/
structure Release where
  agent : Agent
  via : Obj
  scope : BitVec 4
  members : List Nat
  time : Nat
  done : Bool
  inner : Bool
deriving DecidableEq, Repr

/-- MODEL. A write performed at a home (log 6): the aligned word by its name, its value before, who wrote, the object its region
is bound to, the operation it belongs to, and its releases. -/
structure Write where
  word : Nat
  old : Word
  agent : Agent
  obj : Obj
  op : Nat
  rels : List Release
  /-- as its writer's, when it issued (R332) -/
  related : List Related
  /-- when it issued (R407, R410) -/
  made : Nat
deriving DecidableEq, Repr

/-- MODEL. Whose step is next, once chosen (log 1). -/
inductive Turn where
  | stream (a : Agent)
  | event (i : Instr)
deriving DecidableEq, Repr

/-- The module. -/
structure State where
  /-- bytes by 52-bit physical address (R337); an unlisted byte reads zero (log 4) -/
  mem : List Host.Cell
  threads : List Thread
  wgs : List Wg
  cores : List Core
  hubs : List Hub
  copies : List Copy
  remains : List Remnant
  processes : List Process
  launches : List Launch
  requests : List LaunchRequest
  tree : List Node
  events : List Event
  messages : List EventMsg
  links : List CmdLink
  /-- teams waiting for room, by their Stile (R317) -/
  placements : List (List (Nat × Nat))
  rcores : List Rcore
  failures : List (BitVec 256)
  faults : List (BitVec 256)
  notices : List Notice
  hostStep : BitVec 7
  mgmtStep : BitVec 7
  brake : Bool
  limit : Nat
  overCount : Nat
  underCount : Nat
  sensors : List Sensor
  ring : Ring
  repair : List (Nat × Word)
  fabricNo : BitVec 12
  routes : List (Nat × List Nat)
  flinks : List FLink
  reductions : List Reduction
  gangs : List Gang
  flash : Flash
  boot : Boot
  /-- addresses whose data is marked poisoned (R301) -/
  poison : List Nat
  /-- the cycle count (R57) -/
  clk : Nat
  /-- MODEL: identifiers of operations in flight -/
  nextId : Nat
  /-- MODEL: writes performed, newest first (log 6) -/
  writes : List Write
  /-- MODEL: counter of steps and free values (log 1) -/
  draw : Nat
  /-- MODEL: the stream whose word is being executed (log 1) -/
  issuer : Option Agent
  /-- MODEL: whose step is next, once chosen (log 1) -/
  turn : Option Turn
  /-- MODEL: what the outside world is about to do (log 1) -/
  inputs : List Instr
deriving DecidableEq, Repr

/-- The reset of one core: nothing lit, every lane group and slice lit at the full budget (R193, R191, R228, R361). -/
def Core.reset : Core where
  arrays := List.replicate 192 .free
  offset := 0
  scol := 64
  lanesFused := 0
  lanesTesting := 0
  groupsLit := 15
  slicesFused := 0
  slicesLit := 15
  groupsTesting := 0
  slicesTesting := 0
  locks := []
  tlb := []
  icache := []
  swap := none
  debug := none
  withdrawn := false
  tripped := false
  proving := none
  bundle := []
  issued := none
  note := ⟨0, 0, [], []⟩
  served := none
  refit := false

/-- The machine right after reset: no workgroup, no launch, nothing in memory, an empty flash (logs 2, 3, 4, 69). -/
def State.reset : State where
  mem := []
  threads := []
  wgs := []
  cores := List.replicate 64 Core.reset
  hubs := List.replicate 4 ⟨[], List.replicate 1024 none, [], []⟩
  copies := []
  remains := []
  processes := []
  launches := []
  requests := []
  tree := []
  events := []
  messages := []
  links := List.replicate 16 ⟨8, 8, [], []⟩
  placements := List.replicate 16 []
  rcores := List.replicate 32 ⟨none, 0⟩
  failures := []
  faults := []
  notices := []
  hostStep := 64
  mgmtStep := 64
  brake := false
  limit := 0
  overCount := 0
  underCount := 0
  sensors := List.replicate 64 ⟨0, none, [], false, 0, 0, 0⟩
  ring := ⟨0, 0, 6, false, 0, 0, 0⟩
  repair := []
  fabricNo := 0
  routes := []
  flinks := List.replicate 16 ⟨false, 16, 0, 0, 0, []⟩
  reductions := []
  gangs := []
  flash := ⟨⟨[], [], []⟩, ⟨[], [], []⟩, false, 0⟩
  boot := ⟨false, false, false, false, [], [], none⟩
  poison := []
  clk := 0
  nextId := 1
  writes := []
  draw := 0
  issuer := none
  turn := none
  inputs := []

end Sys2Proof.Machine
end

