-- ==== Sys2Proof/Machine/Ops.lean ====
section
/-! DEFINITION. Ops: the named operations over memory, registers and threads; joins, aborts, taking a trap and the
return from one (R54, R116, R117, R122, R123, R125, R131, R132); issuing a word (R38, R41, R48, R184). -/

namespace Sys2Proof.Machine

/-- What every meaning answers. -/
abbrev Out := Host.Outcome State Fault Refusal

/-! ## Memory -/

/-- What an unlisted address reads as (R199 for scratchpad; log 4). -/
def unlisted : Byte := 0

/-- One byte of memory. -/
def memGet : List Host.Cell → Nat → Byte
  | [], _ => unlisted
  | (x, y) :: t, a => if a = x then y else memGet t a

/-- Writing one byte keeps the canonical form. -/
def memSet : List Host.Cell → Nat → Byte → List Host.Cell
  | [], a, b => if b = unlisted then [] else [(a, b)]
  | (x, y) :: t, a, b =>
    if a < x then (if b = unlisted then (x, y) :: t else (a, b) :: (x, y) :: t)
    else if a = x then (if b = unlisted then t else (a, b) :: t)
    else (x, y) :: memSet t a b

/-- The canonical form: addresses strictly rising, no entry equal to what an unlisted address reads as. -/
def Memory.wf (m : List Host.Cell) : Bool :=
  decide (m.Pairwise fun c d => c.1 < d.1) && m.all fun c => c.2 ≠ unlisted

/-- Writing consecutive bytes. -/
def memPut (m : List Host.Cell) (a : Nat) : List Byte → List Host.Cell
  | [] => m
  | b :: t => memPut (memSet m a b) (a + 1) t

/-- Bytes [lo, hi) read as unlisted afterwards: a newly lit bank, a cleared range (R199, R202). -/
def memClear (m : List Host.Cell) (lo hi : Nat) : List Host.Cell := m.filter fun c => c.1 < lo || hi ≤ c.1

/-- Consecutive bytes. -/
def memRead (m : List Host.Cell) (a n : Nat) : List Byte := (List.range n).map fun k => memGet m (a + k)

/-- Little-endian bytes as a number (R22, R141). -/
def ofBytes : List Byte → Nat
  | [] => 0
  | b :: t => b.toNat + 256 * ofBytes t

/-- A number as n little-endian bytes. -/
def toBytes : Nat → Nat → List Byte
  | 0, _ => []
  | n + 1, v => BitVec.ofNat 8 v :: toBytes n (v / 256)

/-- The aligned 4-byte word at a byte address. -/
def memWord (m : List Host.Cell) (a : Nat) : Word := BitVec.ofNat 32 (ofBytes (memRead m a 4))

/-- An aligned 8-byte value. -/
def memDouble (m : List Host.Cell) (a : Nat) : BitVec 64 := BitVec.ofNat 64 (ofBytes (memRead m a 8))

/-! ## Threads and registers -/

/-- Thread index in the workgroup, squad and position (R58). -/
def Thread.squad (th : Thread) : Nat := th.tid.toNat / 32

/-- Position in the squad, s.tid[4:0]. -/
def Thread.pos (th : Thread) : Nat := th.tid.toNat % 32

/-- A general register (R51). -/
def Thread.reg (th : Thread) (r : BitVec 7) : Word := th.g[r.toNat]'(r.isLt)

/-- Writing a general register. -/
def Thread.setReg (th : Thread) (r : BitVec 7) (v : Word) : Thread := { th with g := th.g.set r.toNat v r.isLt }

/-- The 64-bit value of a pair: the even register low (R51). -/
def Thread.pair (th : Thread) (r : BitVec 7) : BitVec 64 := th.reg (r + 1) ++ th.reg r

/-- Writing a pair. -/
def Thread.setPair (th : Thread) (r : BitVec 7) (v : BitVec 64) : Thread :=
  (th.setReg r (v.extractLsb' 0 32)).setReg (r + 1) (v.extractLsb' 32 32)

/-- Writing several registers, in order. -/
def Thread.setRegs (th : Thread) : List (BitVec 7 × Word) → Thread
  | [] => th
  | (r, v) :: t => (th.setReg r v).setRegs t

/-- A predicate; p7 reads true (R52). -/
def Thread.pred (th : Thread) (k : BitVec 3) : Bool := if k = 7#3 then true else th.p.getLsbD k.toNat

/-- Writing a predicate; p7 cannot be written (R52). -/
def Thread.setPred (th : Thread) (k : BitVec 3) (v : Bool) : Thread :=
  let bit : BitVec 7 := 1#7 <<< k.toNat
  { th with p := if v then th.p ||| bit else th.p &&& ~~~bit }

/-- An element mask (R52). -/
def Thread.mask (th : Thread) (k : BitVec 2) : Word := th.m[k.toNat]'(k.isLt)

/-- Writing an element mask. -/
def Thread.setMask (th : Thread) (k : BitVec 2) (v : Word) : Thread := { th with m := th.m.set k.toNat v k.isLt }

/-- Setting sticky flags (R60). -/
def Thread.raise (th : Thread) (f : Word) : Thread := { th with flags := th.flags ||| f }

/-- Setting m3[pos], the residency bit (R139). -/
def Thread.setAbsent (th : Thread) : Thread := th.setMask 3#2 (th.mask 3#2 ||| (1#32 <<< th.pos))

/-- Words after the header of the clause (R33). -/
def Clause.count (c : Clause) : Nat := (c.header.extractLsb' 28 4).toNat

/-- The header after a clause (R112). -/
def nextHeader (pc : Pc) (c : Clause) : VAddr := pc.hdr + BitVec.ofNat 57 (4 * (c.count + 1))

/-- The place after n word positions: the next word of the clause, or the next header (R36). -/
def pcAfter (pc : Pc) (c : Clause) (n : Nat) : Pc :=
  if pc.idx.toNat + n ≤ c.count then ⟨pc.hdr, BitVec.ofNat 4 (pc.idx.toNat + n)⟩ else ⟨nextHeader pc c, 0⟩

/-- The address of the word at a place (R42, R378). -/
def wordAddr (pc : Pc) : VAddr := pc.hdr + BitVec.ofNat 57 (4 * pc.idx.toNat)

/-- The thread goes on after n word positions. -/
def Thread.advance (th : Thread) (n : Nat) : Thread :=
  { th with pc := pcAfter th.pc th.clause n, park := .none, unmatched := false }

/-- A control transfer to a header (R112). -/
def Thread.goto (th : Thread) (t : VAddr) : Thread := { th with pc := ⟨t, 0⟩, park := .none, unmatched := false }

/-- Present for collectives, groups and checkpoints (R132, R153, R281). -/
def Thread.present (th : Thread) : Bool := !th.exited && th.handler.isNone

/-- A register of the list is awaited from memory (R184). -/
def Thread.awaits (th : Thread) (rs : List (BitVec 7)) : Bool :=
  th.loads.any fun l => l.writes.any fun x => rs.contains x.1

/-- Every register of the list lies in the role's allotment (R41). -/
def Thread.allots (th : Thread) (rs : List (BitVec 7)) : Bool := rs.all fun r => r.toNat < th.regs

/-! ## The parts of State -/

/-- The thread at an index changed. -/
def State.updThread (s : State) (i : Nat) (f : Thread → Thread) : State := { s with threads := s.threads.modify i f }

/-- The workgroup at an index changed. -/
def State.updWg (s : State) (w : Nat) (f : Wg → Wg) : State := { s with wgs := s.wgs.modify w f }

/-- The core at an index changed. -/
def State.updCore (s : State) (c : Nat) (f : Core → Core) : State := { s with cores := s.cores.modify c f }

/-- The die hub at an index changed. -/
def State.updHub (s : State) (d : Nat) (f : Hub → Hub) : State := { s with hubs := s.hubs.modify d f }

/-- The drive stream of a workgroup changed. -/
def State.updDrive (s : State) (w : Nat) (f : Drive → Drive) : State :=
  s.updWg w fun g => { g with drive := g.drive.map f }

/-- The squad of a workgroup changed. -/
def State.updSquad (s : State) (w q : Nat) (f : Squad → Squad) : State :=
  s.updWg w fun g => { g with squads := g.squads.modify q f }

/-- The drive stream of a workgroup. -/
def State.drive? (s : State) (w : Nat) : Option Drive := (s.wgs[w]?).bind (·.drive)

/-- The threads of a workgroup, by index, in ascending s.tid. -/
def State.threadsOf (s : State) (w : Nat) : List Nat :=
  (List.range s.threads.length).filter fun i => match s.threads[i]? with
    | some th => th.wg = w
    | none => false

/-- The threads of a squad, by index. -/
def State.squadOf (s : State) (w q : Nat) : List Nat :=
  (s.threadsOf w).filter fun i => match s.threads[i]? with
    | some th => th.squad = q
    | none => false

/-- The positions of a squad's present threads, as a mask (R162). -/
def State.presentMask (s : State) (w q : Nat) : Word :=
  (s.squadOf w q).foldl (fun m i => match s.threads[i]? with
    | some th => if th.present then m ||| (1#32 <<< th.pos) else m
    | none => m) 0

/-- s.launch of a workgroup (R56). -/
def State.launchId (s : State) (w : Nat) : Word :=
  match s.wgs[w]? with
  | some g => ((s.launches[g.launch]?).map (·.id)).getD 0
  | none => 0

/-- s.wgid of a workgroup, as a word (R56). -/
def State.wgidOf (s : State) (w : Nat) : Word :=
  ((s.wgs[w]?).map fun g => g.wgid.setWidth 32).getD 0

/-- The launch of a workgroup. -/
def State.launchOf? (s : State) (w : Nat) : Option Launch := (s.wgs[w]?).bind fun g => s.launches[g.launch]?

/-- The process of a workgroup. -/
def State.procOf (s : State) (w : Nat) : Nat := ((s.launchOf? w).map (·.proc)).getD 0

/-- The core of a workgroup. -/
def State.coreOf (s : State) (w : Nat) : Nat := ((s.wgs[w]?).map (·.core)).getD 0

/-- A fresh identifier (MODEL). -/
def State.fresh (s : State) : State := { s with nextId := s.nextId + 1 }

/-! ## Records to Worxus -/

/-- The layout of a failure record (R303). -/
def failureRecord (addr : BitVec 64) (tval : Word) (cause : BitVec 8) (source : BitVec 4) (action : BitVec 2)
    (tid : BitVec 10) (wgid launch : Word) : BitVec 256 :=
  addr ++ tval ++ cause ++ source ++ action ++ 0#8 ++ tid ++ 0#32 ++ wgid ++ launch ++ 0#32

/-- A record whose layout the spec does not give. -/
def State.notify (s : State) (n : Notice) : State := { s with notices := s.notices ++ [n] }

/-- A charge advances the virtual time of a node and of every node above it (R359); the number bounds the path. -/
def chargePath (tree : List Node) (ns : Rat) : Nat → Nat → List Node
  | 0, _ => tree
  | n + 1, k =>
    match tree[k]? with
    | none => tree
    | some x =>
      let tree := tree.set k { x with v := x.v + ns / x.weight }
      match x.parent with
      | some p => chargePath tree ns n p
      | none => tree

/-- A charge to a leaf and up its path. -/
def State.chargeLeaf (s : State) (leaf : Nat) (ns : Rat) : State := { s with tree := chargePath s.tree ns s.tree.length leaf }

/-- A report has reached Meridian and, through it, Worxus. -/
def State.take_ (s : State) : Report → State
  | .failure r => { s with failures := s.failures ++ [r] }
  | .fault r => { s with faults := s.faults ++ [r] }
  | .news n => s.notify n
  | .charges l => l.foldl (fun s x => s.chargeLeaf x.1 x.2) s

/-- A Stile reports to Meridian (R358): it spends a permit, or without one holds the report behind those held. -/
def State.sendUp (s : State) (stile : Nat) (r : Report) : State :=
  match s.links[stile]? with
  | none => s.take_ r
  | some l =>
    if l.up = 0 || !l.upHeld.isEmpty then
      { s with links := s.links.modify stile fun l => { l with upHeld := l.upHeld ++ [r] } }
    else ({ s with links := s.links.modify stile fun l => { l with up := l.up - 1 } }).take_ r

/-- A failure record of a workgroup goes to Worxus (R303, R358). -/
def State.reportFailure (s : State) (w : Nat) (addr : BitVec 64) (tval : Word) (cause : BitVec 8) (source : BitVec 4)
    (action : BitVec 2) (tid : BitVec 10) : State :=
  s.sendUp (s.coreOf w / 4) (.failure (failureRecord addr tval cause source action tid (s.wgidOf w) (s.launchId w)))

/-! ## Links (R392-R394, R397) -/

/-- A link changed. -/
def State.updLink (s : State) (k : Nat) (f : FLink → FLink) : State := { s with flinks := s.flinks.modify k f }

/-- The links that may carry traffic to a module and are up (R392, R394). -/
def State.linksTo (s : State) (m : Nat) : List Nat :=
  (s.routes.filter fun r => r.1 = m).flatMap fun r => r.2.filter fun l => ((s.flinks[l]?).map (·.up)).getD false

/-- A route to a module stands (R394). -/
def State.routed (s : State) (m : Nat) : Bool := !(s.linksTo m).isEmpty

/-- Bytes 0 to 247 of a flit (R393), which its CRC covers. -/
def flitBytes (f : Flit) : List Byte :=
  toBytes 2 f.dest.toNat ++ toBytes 1 f.vc.toNat ++ toBytes 1 f.len.toNat ++ toBytes 2 f.seq.toNat ++ toBytes 2 f.ack.toNat ++
    ((List.range 240).map fun k => f.payload.getD k 0)

/-- The flit of a message on a virtual channel, as a link sends it next (R393): what its payload is, is open (log 14). -/
def FLink.flit (l : FLink) (draw m : Nat) (vc : BitVec 8) (x : FabricMessage) : Flit :=
  let len := 1 + (Config.payloadByte draw 240).toNat % 240
  let f : Flit := ⟨BitVec.ofNat 16 (m % 4096), vc, BitVec.ofNat 8 len, l.seqOut, l.seqIn - 1,
    (List.range len).map (Config.payloadByte draw), 0, x⟩
  { f with crc := Config.flitCrc (flitBytes f) }

/-- A message leaves for a module over one of the links that carry traffic to it (R392, R393); the flit stays with the link
until the other end acknowledges it (R394). With no route it goes nowhere. -/
def State.sendFlit (s : State) (m : Nat) (vc : BitVec 8) (x : FabricMessage) : State :=
  let ls := s.linksTo m
  match ls[Config.linkChoice s.draw % ls.length]? with
  | some k => s.updLink k fun l => { l with seqOut := l.seqOut + 1, sent := l.sent ++ [l.flit s.draw m vc x] }
  | none => s

/-- How another module is to know a fabric copy of this one (R395). -/
def State.peerOf (s : State) (c : Copy) : FabricPeer :=
  ⟨s.fabricNo, s.procOf c.wg, c.id, s.launchId c.wg, ((s.wgs[c.wg]?).map (·.wgid)).getD 0⟩

/-- The other module a fabric copy's descriptor names: bits [55:44] of the address whose bit 56 is set (R395). -/
def State.farModule (s : State) (c : Copy) : Option Nat :=
  let m : Nat → Option Nat := fun k => let w := c.desc.getD k 0
    if w.getLsbD 24 && (w.extractLsb' 12 12).toNat ≠ s.fabricNo.toNat then some (w.extractLsb' 12 12).toNat else none
  if c.form = .fabric then (m 1).or (m 3) else none

/-- A fabric copy is over, ended or squashed: the other module is told (R397). -/
def State.endFar (s : State) (c : Copy) : State :=
  match s.farModule c with
  | some m => if c.inFlight && !c.squashed then s.sendFlit m 0#8 (.ends (s.peerOf c)) else s
  | none => s

/-! ## Joins (R115-R117) -/

/-- When arrived equals enrolled and is not zero, every parked thread of the register goes on (R116). -/
def State.testJoin (s : State) (w q : Nat) (j : BitVec 3) : State :=
  match (s.wgs[w]?).bind (·.squads[q]?) with
  | none => s
  | some sq =>
    match sq.joins[j.toNat]? with
    | none => s
    | some r =>
      if r.arrived = r.enrolled ∧ r.arrived ≠ 0 then
        (s.squadOf w q).foldl (fun s i => s.updThread i fun th =>
            if th.park = .join j then th.advance 1 else th)
          (s.updSquad w q fun sq => { sq with joins := sq.joins.set j.toNat ⟨0, 0⟩ })
      else s

/-- The release test of every join register of a squad. -/
def State.testJoins (s : State) (w q : Nat) : State :=
  (List.range 8).foldl (fun s j => s.testJoin w q (BitVec.ofNat 3 j)) s

/-- A thread leaves every enrolment (R117). -/
def State.leaveJoins (s : State) (w q pos : Nat) : State :=
  let keep : BitVec 32 := ~~~(1#32 <<< pos)
  (s.updSquad w q fun sq =>
    { sq with joins := sq.joins.map fun r => ⟨r.arrived &&& keep, r.enrolled &&& keep⟩ }).testJoins w q

/-- A thread's arrived bits are cleared, its enrolled bits stand (R117, rollback). -/
def State.clearArrived (s : State) (w q pos : Nat) : State :=
  s.updSquad w q fun sq =>
    { sq with joins := sq.joins.map fun r => ⟨r.arrived &&& ~~~(1#32 <<< pos), r.enrolled⟩ }

/-- A member's arrivals at collective words where it waits are withdrawn (R153); one whose guard was false has gone on,
and stands. -/
def State.withdrawArrival (s : State) (w q pos : Nat) : State :=
  s.updSquad w q fun sq =>
    let gs := sq.gathers.map fun x => { x with arrivals := x.arrivals.filter fun a => a.pos ≠ pos || !a.live }
    { sq with gathers := gs.filter fun x => !x.arrivals.isEmpty || x.absent ≠ 0 }

/-- Every member of an occurrence that is present and not counted absent has arrived (R153). -/
def State.gathered (s : State) (w q : Nat) (g : Gather) : Bool :=
  (List.range 32).all fun p =>
    !(g.mask.getLsbD p && (s.presentMask w q).getLsbD p && !g.absent.getLsbD p) || g.arrivals.any (·.pos = p)

/-- The test of R153 made again for the occurrences of a squad: one at which every present member has arrived is to
execute, or is over where none waits. -/
def State.formGathers (s : State) (w q : Nat) : State :=
  let test (g : Gather) : Option Gather :=
    if !s.gathered w q g then some g
    else if g.arrivals.any (·.live) then some { g with formed := true } else none
  s.updSquad w q fun sq => { sq with gathers := sq.gathers.filterMap test }

/-- Every present thread of the squad waits at one `try.w`, and none is in speculation (R132, R133). -/
def State.groupReady (s : State) (w q : Nat) : Bool :=
  (s.squadOf w q).all fun i => match s.threads[i]? with
    | some x => x.spec.isNone && (!x.present || x.park = .tryGroup false)
    | none => true

/-- The group is fixed once they do (R132). -/
def State.fixGroup (s : State) (w q : Nat) : State :=
  if s.groupReady w q then (s.squadOf w q).foldl (fun s i => s.updThread i fun th =>
    if th.park = .tryGroup false then { th with park := .tryGroup true } else th) s
  else s

/-- A thread has left the present set of its squad: the tests that waited for it are made again (R132, R153). -/
def State.absentNow (s : State) (w q pos : Nat) : State :=
  ((s.withdrawArrival w q pos).formGathers w q).fixGroup w q

/-! ## Loads completing -/

/-- A load issued before a `try` completes in the checkpoint too, so that a rollback keeps it (R121, R131). -/
def Checkpoint.complete (c : Checkpoint) (l : Pending) : Checkpoint :=
  { c with
    g := l.writes.foldl (fun g x => g.set x.1.toNat x.2 x.1.isLt) c.g
    flags := c.flags ||| l.flags }

/-- A load of a thread completes: its registers are written, its counter falls (R139, R185). -/
def Thread.complete (th : Thread) (l : Pending) : Thread :=
  let th : Thread := { th.setRegs l.writes with loads := th.loads.filter fun x => x.id ≠ l.id }
  let th := th.raise l.flags
  { th with spec := th.spec.map fun sp => if l.id < sp.since then { sp with check := sp.check.complete l } else sp }

/-! ## Leaving the core -/

/-- Other workgroups' entries and `wadd`s that address a member's slot of its commons go nowhere once it is revoked
(R322, R325). -/
def State.goneEntries (s : State) (w : Nat) : State :=
  { s with wgs := s.wgs.zipIdx.map fun (x, k) =>
      if k = w then x
      else { x with
        hay := x.hay.map fun e => if e.target = some w then { e with gone := true } else e
        wadds := x.wadds.map fun a => if a.target = some w then { a with gone := true } else a } }

/-- A copy no longer reaches a member's slot of its commons once it is revoked, nor does a portion of a multicast copy
(R325, R328). -/
def Copy.leaveSlot (c : Copy) (w : Nat) : Copy :=
  { c with
    commons := c.commons.map fun m => if m = some w then none else m
    members := c.members.filter (· ≠ w), revoked := c.revoked || c.members.contains w }

/-- A workgroup's commons slot is unmapped (R325 step 4, R326, R331): what others had under way to it goes nowhere. -/
def State.revoke (s : State) (w : Nat) : State :=
  match s.wgs[w]? with
  | none => s
  | some g =>
    match g.commons with
    | none => s
    | some (cid, slot) =>
      let s : State := s.goneEntries w
      let s : State := { s with copies := s.copies.map (·.leaveSlot w), launches := s.launches.modify g.launch fun l =>
        { l with teams := l.teams.modify g.team fun t =>
          { t with commons := t.commons.modify cid.toNat fun c => c.set slot.toNat none } } }
      s.updWg w fun g => { g with commons := none }

/-- The identifiers of a workgroup's copies that are not detached, and of its engine words. -/
def State.engineIds (s : State) (w : Nat) : List Nat :=
  ((s.copies.filter fun c => c.wg = w && c.form ≠ CopyForm.detach).map (·.id)) ++
    (((s.drive? w).map fun d => d.ops.map (·.id)).getD [])

/-- The engine work of a workgroup that may have begun to write (R45). -/
def State.remnants (s : State) (w : Nat) : List Remnant :=
  ((s.copies.filter fun c => c.wg = w && c.form ≠ CopyForm.detach && c.inFlight).map Remnant.copy) ++
    ((s.drive? w).map fun d => (d.ops.filter (·.running)).map fun o => Remnant.op w d o).getD []

/-- The other modules of a reduction, each once. -/
def State.partners (s : State) (r : Reduction) : List Nat :=
  ((r.table.map fun m => m.toNat % 4096).filter (· ≠ s.fabricNo.toNat)).dedup

/-- The other members of a workgroup's reductions are told that they have failed (R401). -/
def State.failReductions (s : State) (w : Nat) : State :=
  (s.reductions.filter (·.wg = w)).foldl
    (fun s r => (s.partners r).foldl (fun s m => s.sendFlit m 2#8 (.fredFailed (s.procOf w) r.group)) s)
    ({ s with reductions := s.reductions.filter (·.wg ≠ w) } : State)

/-- Issue stops: uncommitted entries, outstanding loads and holds are dropped, copies are squashed and their locks
released, queued engine words are dropped, what they had begun to write is left open; detached copies, `wadd`s and
committed entries go on, those that a saved context held back too (R45, R123, R291, R301, R379). -/
def State.dropWork (s : State) (w : Nat) : State :=
  let ids := s.engineIds w
  let s : State := (s.copies.filter fun c => c.wg = w && c.form ≠ CopyForm.detach).foldl State.endFar s
  let s : State := { s with
    remains := s.remains ++ s.remnants w
    copies := s.copies.filter fun c => !(c.wg = w && c.form ≠ CopyForm.detach) }
  let s : State := { s with cores := s.cores.map fun c => { c with locks := c.locks.filter fun k => !ids.contains k.holder } }
  let s : State := { s with hubs := s.hubs.map fun h => { h with slots := h.slots.map fun x =>
    match x with
    | some p => if p.wg = w && p.source ≠ 6 && (match p.waiter with
        | .copy id => ids.contains id
        | .wadd _ _ => false
        | _ => true) then none else some p
    | none => none } }
  let s : State := s.failReductions w
  let s : State := { s with
    threads := s.threads.map fun th =>
      if th.wg = w then { th with loads := [], spec := none, doom := none, hold := none } else th
    requests := s.requests.map fun r => if r.wg = w then { r with thread := none } else r }
  s.updWg w fun g =>
    { g with hay := (g.hay.filter (·.committed)).map fun e => { e with held := false }
             due := [], waiting := [], drive := g.drive.map fun d => { d with ops := [], hold := none }
             squads := g.squads.map fun q => { q with gathers := [] } }

/-- A swap in progress that brings in a squad of a workgroup completes (R182). -/
def State.endSwap (s : State) (w : Nat) : State :=
  match (s.cores[s.coreOf w]?).bind (·.swap) with
  | some x =>
    if x.wg = w then (s.updSquad w x.squad fun sq => { sq with slot := some x.slot, since := none }).updCore (s.coreOf w)
      fun c => { c with swap := none }
    else s
  | none => s

/-- The physical address of a workgroup's pool on its core (R337). -/
def Wg.poolAt (g : Wg) : Nat := 2 ^ 50 + g.core * 2 ^ 24 + g.poolFirst * 65536

/-- The reservations return to the core: the pool's arrays darken, their contents gone, the active slots are free (R178,
R193, R301). -/
def State.freeRoom (s : State) (w : Nat) : State :=
  match s.wgs[w]? with
  | none => s
  | some g =>
    let s : State := s.updCore g.core fun c => { c with
      arrays := c.arrays.map fun a => match a with
        | .lit b => if g.poolFirst ≤ b && b < g.poolFirst + g.poolBanks then .free else a
        | .testing b => if g.poolFirst ≤ b && b < g.poolFirst + g.poolBanks then .free else a
        | a => a }
    ({ s with mem := memClear s.mem g.poolAt (g.poolAt + 65536 * g.poolBanks) } : State).updWg w fun g =>
      { g with squads := g.squads.map fun q => { q with slot := none, since := none } }

/-- The last workgroup of a `.test budget` launch on the core gone, the offset of `bdgt` returns to zero (R206; log 62);
the banks then fit the budget again (R194). -/
def State.endOffset (s : State) (core : Nat) : State :=
  if s.wgs.any fun g => g.core = core && (g.state = .resident || g.state = .saving || g.state = .lighting || g.state = .restored) &&
      (((s.launches[g.launch]?).map (·.desc.tb)).getD false)
  then s else s.updCore core fun c => { c with offset := 0, refit := c.refit || c.offset ≠ 0 }

/-- A workgroup leaves its core in the state given: its work dropped, its slot revoked, its room free. -/
def State.leaveCore (s : State) (w : Nat) (st : WgState) : State :=
  let core := s.coreOf w
  let s : State := (((s.endSwap w).dropWork w).revoke w).freeRoom w
  (s.updWg w fun g => { g with state := st }).endOffset core

/-- A workgroup fails for good and is not relaunched: source, action 2 (R123, R210, R45). -/
def State.failWg (s : State) (w : Nat) (addr : BitVec 64) (tval : Word) (cause : BitVec 8) (source : BitVec 4)
    (tid : BitVec 10) : State :=
  (s.reportFailure w addr tval cause source 2#2 tid).leaveCore w .failed

/-! ## Rolling back (R131, R132) -/

/-- One thread rolls back: its outstanding loads are over, the results of those issued since the `try` discarded (log 7),
speculative entries dropped, the checkpoint restored, with the stack entries that speculation has refilled (R62), the
abort code delivered (R131). -/
def State.rollback (s : State) (i : Nat) (code : BitVec 8) (cause : BitVec 8) (val : Word) : State :=
  match s.threads[i]? with
  | none => s
  | some th =>
    match th.spec with
    | none => s
    | some sp =>
      let c := (th.loads.filter fun l => l.id < sp.since).foldl Checkpoint.complete sp.check
      let s : State := (s.clearArrived th.wg th.squad th.pos).withdrawArrival th.wg th.squad th.pos
      let s : State := s.updWg th.wg fun g => { g with hay := g.hay.filter fun e => !(e.thread = i && e.spec) }
      s.updThread i fun th =>
        { th with
          loads := []
          spec := none, conflict := false, doom := none, park := .none, unmatched := false, recheck := false
          stack := c.stack ++ c.refilled, depth := c.depth, g := c.g, p := c.p, m := c.m, rm := c.rm, flags := c.flags
          tvec := c.tvec, csb := c.csb, pc := ⟨sp.target, 0⟩
          tac := code.setWidth 32
          tcause := if code = 4#8 then 0x100#32 ||| cause.setWidth 32 else th.tcause
          tval := if code = 4#8 then val else th.tval }

/-- The members of a `try.w` group in speculation. -/
def State.group (s : State) (w q : Nat) : List Nat :=
  (s.squadOf w q).filter fun k => match s.threads[k]? with
    | some th => (th.spec.map (·.kind)) = some .squad
    | none => false

/-- What a member's own condition gives it: the condition it raised, else code 1 for a conflict observed (R131, R132). -/
def Thread.ownAbort (th : Thread) : Option Doom := th.doom.or (if th.conflict then some ⟨1#8, 0, 0⟩ else none)

/-- A `try.w` group's abort is taken: every member rolls back, one with a condition of its own with that one's code, every
other with that of the lowest-positioned member that has one (R132). -/
def State.abortGroup (s : State) (w q : Nat) : State :=
  let grp := s.group w q
  let own : Nat → Option Doom := fun k => (s.threads[k]?).bind Thread.ownAbort
  match grp.findSome? own with
  | none => s
  | some lead => grp.foldl (fun s k =>
      let d := (own k).getD lead
      s.rollback k d.code d.cause d.val) s

/-- A condition that ends a thread's speculation. Under `try.l` the thread rolls back. Under `try.w` the condition stands
until the group's abort is taken, so that other members that issue the same word in that ac raise theirs too (R131,
R132). -/
def State.abort (s : State) (i : Nat) (code : BitVec 8) (cause : BitVec 8) (val : Word) : State :=
  match (s.threads[i]?).bind (·.spec) with
  | none => s
  | some sp =>
    match sp.kind with
    | .lone => s.rollback i code cause val
    | .squad => s.updThread i fun th =>
      { th with doom := th.doom.or (some ⟨code, cause, val⟩), park := .none, unmatched := false }

/-- A condition that ends a thread's speculation, and its group's, at once (R129, R137, R325). -/
def State.abortNow (s : State) (i : Nat) (code : BitVec 8) : State :=
  match s.threads[i]? with
  | none => s
  | some th => (s.abort i code 0 0).abortGroup th.wg th.squad

/-! ## Taking a trap, and the return from one -/

/-- TakeTrap (R122): abort with code 4 in speculation, failure of the workgroup in handler mode (R123), else the saved
registers are written, the enrolments left, and the thread goes to s.tvec. `after` says that the resume point is the
next header (TRAP, BRK). -/
def State.takeTrap (s : State) (i : Nat) (cause : BitVec 8) (val : Word) (after : Bool := false) : State :=
  match s.threads[i]? with
  | none => s
  | some th =>
    if th.spec.isSome then s.abort i 4#8 cause val
    else if th.handler.isSome then s.failWg th.wg ((wordAddr th.pc).setWidth 64) val cause 0#4 th.tid
    else
      let tpc := if after then nextHeader th.pc th.clause else wordAddr th.pc
      let resume : Pc := if after then ⟨tpc, 0⟩ else th.pc
      ((s.updThread i fun th =>
        { th with tcause := cause.setWidth 32, tval := val, tpc := tpc, handler := some resume, park := .none,
                  unmatched := false, recheck := false, pc := ⟨th.tvec, 0⟩ }).leaveJoins th.wg th.squad th.pos
        ).absentNow th.wg th.squad th.pos

/-- The return from a trap (R125): to the resume point if s.tpc still names it, its header checked again, else to the
header at s.tpc. -/
def Thread.trapReturn (th : Thread) (resume : Pc) : Thread :=
  if th.tpc = wordAddr resume then
    { th with handler := none, pc := resume, recheck := resume.idx ≠ 0, park := .none, unmatched := false }
  else { th with handler := none, pc := ⟨th.tpc, 0⟩, park := .none, unmatched := false }

/-- The causes of R121. -/
def causeIllegal : BitVec 8 := 0x01
def causeIllegalClause : BitVec 8 := 0x02
def causeStack : BitVec 8 := 0x03
def causeTrap : BitVec 8 := 0x04
def causeBrk : BitVec 8 := 0x05
def causeTarget : BitVec 8 := 0x06
def causeFetch : BitVec 8 := 0x07
def causeAccess : BitVec 8 := 0x08
def causeMisalign : BitVec 8 := 0x09
def causeRangeLock : BitVec 8 := 0x0A
def causeRange : BitVec 8 := 0x0B
def causeSpill : BitVec 8 := 0x0C
def causeSdc : BitVec 8 := 0x20
def causeUncorr : BitVec 8 := 0x21
def causeNoHandler : BitVec 8 := 0x22

/-- The first word of an instruction, as s.tval holds it (R48). -/
def wordOf (i : Instr) : Word := (encode i).headD 0

/-- ILLEGAL, with the word in s.tval (R48, R57). -/
def State.illegalWord (s : State) (k : Nat) (w : Word) : State := s.takeTrap k causeIllegal w

/-- ILLEGAL of an instruction. -/
def State.illegal (s : State) (k : Nat) (i : Instr) : State := s.illegalWord k (wordOf i)

/-- What issuing a word asks of it: its encoding checks, the registers it names, its guard, the positions it takes,
whether it is forbidden in speculation, and the word itself. -/
structure Issue where
  wf : Bool
  regs : List (BitVec 7)
  guard : BitVec 3
  slots : Nat
  noSpec : Bool
  word : Word
deriving DecidableEq, Repr

/-- The issue record of an instruction. -/
def issueOf (i : Instr) : Issue := ⟨i.wellFormed, i.regs, i.guard, i.slots, i.noSpec, wordOf i⟩

/-! ## Issuing a word -/

/-- A drive fault (R45): Clockdrive stops before the word, the workgroup is terminated, a record names the word. -/
def State.driveFault (s : State) (w : Nat) (addr : VAddr) (word : Word) (cause : BitVec 8) : State :=
  s.failWg w (addr.setWidth 64) word cause 1#4 0#10

/-- A drive fault of the word at the drive stream's place. -/
def State.driveFaultHere (s : State) (w : Nat) (i : Instr) (cause : BitVec 8) : State :=
  match s.drive? w with
  | some d => s.driveFault w (wordAddr d.pc) (wordOf i) cause
  | none => s

/-- The thread k issues a word: the checks of R41 and R48 whatever the guard, the guard (R38), the interlock (R184), the
words forbidden in speculation (R136); then the word's own effect. -/
def State.issueOn (s : State) (k : Nat) (th : Thread) (i : Issue) (body : Nat → Thread → State → State) : State :=
  if !(i.wf && th.allots i.regs) then s.illegalWord k i.word
  else if !th.pred i.guard then s.updThread k fun th => th.advance i.slots
  else if th.awaits i.regs then s
  else if i.noSpec && th.spec.isSome then s.abort k 5#8 0 0
  else body k th s

/-- A word of the thread streams (R48): in the drive stream it is a drive fault (R45). -/
def onIssue (i : Issue) (s : State) (body : Nat → Thread → State → State) : Out :=
  match s.issuer with
  | some (.thread k) =>
    match s.threads[k]? with
    | some th => .next (s.issueOn k th i body)
    | _ => .fault .noIssuer
  | some (.drive w) =>
    match s.drive? w with
    | some d => .next (s.driveFault w (wordAddr d.pc) i.word causeIllegal)
    | _ => .fault .noIssuer
  | _ => .fault .noIssuer

/-- A word of the thread streams, from its instruction. -/
def onThread (i : Instr) (s : State) (body : Nat → Thread → State → State) : Out := onIssue (issueOf i) s body

/-- A word of both streams (R45, R259). In the drive stream its guard is 7, its register field's bits [20:19] are zero
and a reserved field is a drive fault; there `drive` gives its effect. -/
def onBoth (i : Issue) (reg : BitVec 7) (s : State) (thread : Nat → Thread → State → State)
    (drive : Nat → Drive → State → State) : Out :=
  match s.issuer with
  | some (.drive w) =>
    match s.drive? w with
    | some d => .next (if i.wf && i.guard = 7#3 && reg.toNat < 32 then drive w d s
        else s.driveFault w (wordAddr d.pc) i.word causeIllegal)
    | _ => .fault .noIssuer
  | _ => onIssue i s thread

/-- A word that changes its own thread's registers only: it advances past its positions. -/
def onRegs (i : Instr) (s : State) (f : Thread → Thread) : Out :=
  onThread i s fun k _ s => s.updThread k fun th => (f th).advance i.slots

/-- The drive stream issues a word of its own (R244, R248): an ill-formed word is a drive fault. -/
def onDrive (i : Instr) (s : State) (body : Nat → Drive → State → State) : Out :=
  match s.issuer with
  | some (.drive w) =>
    match s.drive? w with
    | some d => .next (if i.wellFormed then body w d s else s.driveFaultHere w i causeIllegal)
    | _ => .fault .noIssuer
  | some (.thread k) =>
    match s.threads[k]? with
    | some _ => .next (s.illegal k i)
    | _ => .fault .noIssuer
  | _ => .fault .noIssuer

/-- The drive stream goes on after n word positions. -/
def Drive.advance (d : Drive) (n : Nat) : Drive :=
  { d with pc := pcAfter d.pc d.clause n, park := .none, unmatched := false }

/-- A taken branch of the drive stream (R254). -/
def Drive.goto (d : Drive) (t : VAddr) : Drive := { d with pc := ⟨t, 0⟩, park := .none, unmatched := false }

/-- A drive register (R216). -/
def Drive.reg (d : Drive) (r : BitVec 5) : Word := d.d[r.toNat]'(r.isLt)

/-- Writing a drive register. -/
def Drive.setReg (d : Drive) (r : BitVec 5) (v : Word) : Drive := { d with d := d.d.set r.toNat v r.isLt }

/-- A write of `tsettle` to a register is pending (R234). -/
def Drive.pendingWrite (d : Drive) (r : BitVec 5) : Bool :=
  d.ops.any fun o => match o.word with
    | .tsettle _ r' => r' = r
    | _ => false

/-- A drive word that reads and writes drive registers: it waits while a write of `tsettle` to one is pending (R234,
R257), then takes effect and advances. -/
def onDregs (i : Instr) (s : State) (rs : List (BitVec 5)) (f : Drive → Drive) : Out :=
  onDrive i s fun w d s =>
    if rs.any d.pendingWrite then s else s.updDrive w fun d => (f d).advance i.slots

end Sys2Proof.Machine
end

