-- ==== Sys2Proof/Machine/Space.lean ====
section
/-! DEFINITION. Space: where a virtual address lies. Page tables and translations held (R337-R341), pool and commons
regions (R322, R323, R338), allocations (R196, R197), range locks (R269), fault records and parked accesses
(R342-R345). -/

namespace Sys2Proof.Machine

/-! ## Page tables -/

/-- Bytes an entry of a level covers (R339). -/
def levelSize : Nat → Nat
  | 0 => 2 ^ 48
  | 1 => 2 ^ 39
  | 2 => 2 ^ 30
  | 3 => 2 ^ 21
  | _ => 2 ^ 16

/-- An entry of a level is valid (R340). -/
def pteValid (level : Nat) (e : BitVec 64) : Bool :=
  e.getLsbD 0 && e.extractLsb' 52 12 = 0 && !e.getLsbD 2 &&
    (if level < 2 then !e.getLsbD 1 else if level = 4 then e.getLsbD 1 else true) &&
    !(e.getLsbD 1 && level < 4 && e.extractLsb' 6 2 = 1)

/-- The address field of an entry (R340). -/
def pteAddr (e : BitVec 64) : Nat := (e.extractLsb' 8 44).toNat * 256

/-- Residency of a leaf (R340). -/
def pteState (e : BitVec 64) : BitVec 2 := e.extractLsb' 6 2

/-- Where the entry of a level for an address stands. -/
def pteHome (table level va : Nat) : Nat :=
  table + 8 * ((va / levelSize level) % (if level = 4 then 32 else 512))

/-- An entry held in a buffer serves a lookup unless it has been displaced (R341; log 11). -/
def Cached.serves (c : Cached) (draw p va : Nat) : Bool :=
  c.proc = p && c.base ≤ va && va < c.base + c.size && !Config.displaced draw c.base

/-- The local walker treats level-0 entries 256 to 511 as not valid (R396). -/
def walkable (level va : Nat) : Bool := level ≠ 0 || va / levelSize 0 % 512 < 256

/-- The entry of a level for an address: from the die's walk cache or from its home (R336, R339). -/
def State.tableEntry (s : State) (d p table level va : Nat) : BitVec 64 :=
  match (s.hubs[d]?).bind fun h => h.walk.find? fun c => c.serves s.draw p va && c.size = levelSize level with
  | some c => c.pte
  | none => memDouble s.mem (pteHome table level va)

/-- A walk from a table downwards: the valid entries met, the leaf last if there is one (R339). The first number is
the levels left. -/
def State.walkFrom (s : State) (d p va : Nat) : Nat → Nat → Nat → List Cached
  | 0, _, _ => []
  | n + 1, level, table =>
    let e := s.tableEntry d p table level va
    if walkable level va && pteValid level e then
      let c : Cached := ⟨p, va / levelSize level * levelSize level, levelSize level, e⟩
      if e.getLsbD 1 then [c] else c :: s.walkFrom d p va n (level + 1) (pteAddr e)
    else []

/-- A walk of a process's page tables. -/
def State.walk (s : State) (d p va : Nat) : List Cached :=
  match s.processes[p]? with
  | some x => s.walkFrom d p va 5 0 x.root
  | none => []

/-- The translation of an address on a core: from its translation buffer, or by a walk (R341). -/
def State.leaf (s : State) (core p va : Nat) : Option Cached :=
  match (s.cores[core]?).bind fun c => c.tlb.find? fun c => c.serves s.draw p va with
  | some c => some c
  | none => ((s.walk (core / 16) p va).getLast?).bind fun c => if c.pte.getLsbD 1 then some c else none

/-- A cached translation's range holds an address. -/
def Cached.holds (c : Cached) (va : Nat) : Bool := c.base ≤ va && va < c.base + c.size

/-- The leaf entries held for an address of a process in the translation buffers and walk caches. -/
def State.heldLeaves (s : State) (p va : Nat) : List Cached :=
  let keep : List Cached → List Cached := fun l => l.filter fun c => c.proc = p && c.pte.getLsbD 1 && c.holds va
  (s.cores.flatMap fun c => keep c.tlb) ++ s.hubs.flatMap fun h => keep h.walk

/-- The physical address a leaf gives (R340). -/
def Cached.phys (c : Cached) (va : Nat) : Nat := pteAddr c.pte / c.size * c.size + (va - c.base)

/-- A name of the former contents of a frame, for the write log: no access reaches them any more. -/
def formerKey (key : Nat) : Nat := 2 ^ 91 + key

/-- A frame takes other contents: what was written there before is no older value of what stands there now, and no thread
has seen a word of it (R164, R343). -/
def State.renewFrame (s : State) (frame size : Nat) : State :=
  let inside : Nat → Bool := fun w => frame ≤ w && w < frame + size
  { s with
    writes := s.writes.map fun x => if inside x.word then { x with word := formerKey x.word } else x
    threads := s.threads.map fun th => { th with floors := th.floors.filter fun f => !inside f.word } }

/-- A leaf met resident that none of the leaves held before shows at its frame: Worxus has brought the page's contents
there (R342, R346). -/
def State.arrived (s : State) (old : List Cached) (c : Cached) : State :=
  if pteState c.pte = 0 && !(old.any fun x => pteState x.pte = 0 && x.phys x.base = c.phys c.base) then
    s.renewFrame (c.phys c.base) c.size
  else s

/-- A walk's entries stand in the die's walk cache afterwards (R336); a page that was touched while it was away may have
come. -/
def State.fillWalk (s : State) (d p va : Nat) : State :=
  let found := s.walk d p va
  let old := s.heldLeaves p va
  let s : State := match found.getLast? with
    | some c => if c.pte.getLsbD 1 && !old.isEmpty then s.arrived old c else s
    | none => s
  s.updHub d fun h =>
    { h with walk := ((found ++ h.walk.filter fun c => !(found.any fun x => x.proc = c.proc && x.base = c.base && x.size = c.size))).take 256 }

/-- A lookup's entries stand in the buffers afterwards (R336, R341). -/
def State.fill (s : State) (core p va : Nat) : State :=
  match (s.cores[core]?).bind fun c => c.tlb.find? fun c => c.serves s.draw p va with
  | some _ => s
  | none =>
    let s : State := s.fillWalk (core / 16) p va
    match s.leaf core p va with
    | some c => s.updCore core fun k =>
        { k with tlb := (c :: k.tlb.filter fun x => !(x.proc = p && x.base ≤ va && va < x.base + x.size)).take 2048 }
    | none => s

/-! ## Places -/

/-- Where an access lies: nowhere; in a resident page whose frame names no memory (R337); at a byte of a resident
workgroup's pool; in the pool of a workgroup that is not
resident (R338); in an allocation lost to a thread in a loss entry (R211); in memory, with the permissions R, W, X of
its page; in a page that is not resident (R139). -/
inductive Place where
  | bad
  | homeless
  | pool (w off : Nat)
  | away
  | lost
  | page (phys : Nat) (perm : BitVec 3)
  | absent (state : BitVec 2) (perm : BitVec 3)
deriving DecidableEq, Repr

/-- P of R195, from the launch descriptor. -/
def Descriptor.banks (d : Descriptor) : Nat := (d.scratch + 65535) / 65536

/-- G of R338. -/
def Descriptor.poolSlots (d : Descriptor) : Nat := if d.grid ≤ 1 then 1 else 2 ^ (Nat.log2 (d.grid - 1) + 1)

/-- Its reservations are held (R296). -/
def Wg.resident (g : Wg) : Bool :=
  g.state = .resident || g.state = .saving || g.state = .lighting || g.state = .restored

/-- The workgroups that hold reservations on a core. -/
def State.residents (s : State) (core : Nat) : List Nat :=
  (List.range s.wgs.length).filter fun w => match s.wgs[w]? with
    | some g => g.core = core && g.resident
    | none => false

/-- The workgroup of a launch and number, if resident. -/
def State.residentWg (s : State) (l idx : Nat) : Option Nat :=
  s.wgs.findIdx? fun g => g.launch = l && g.wgid.toNat = idx && g.resident

/-- Virtual address of byte 0 of a workgroup's pool (R338). -/
def State.poolBase (s : State) (w : Nat) : VAddr :=
  match s.wgs[w]?, s.launchOf? w with
  | some g, some l => l.pool + BitVec.ofNat 57 (2 ^ 24 * g.wgid.toNat)
  | _, _ => 0

/-- Where a translated address lies (R337, R340). -/
def Cached.place (c : Cached) (va : Nat) : Place :=
  let perm := c.pte.extractLsb' 3 3
  if pteState c.pte ≠ 0 then .absent (pteState c.pte) perm
  else if c.phys va / 2 ^ 50 = 3 then .homeless else .page (c.phys va) perm

/-- Base of the region of a team's commons (R322): eight of 512 MiB for each team, in the order of the teams (log 15). -/
def Launch.commonsBase (l : Launch) (team cid : Nat) : Nat := l.commons.toNat + (8 * team + cid) * 2 ^ 29

/-- Teams of a launch (R318). -/
def Descriptor.teams (d : Descriptor) : Nat := d.grid / max 1 d.team

/-- The end of a launch's commons regions. -/
def Launch.commonsEnd (l : Launch) : Nat := l.commons.toNat + 2 ^ 32 * l.desc.teams

/-- The member whose slot an address of the commons regions names, for a workgroup that is a member there (R322). -/
def State.commonsTarget (s : State) (w va : Nat) : Option Nat :=
  match s.wgs[w]?, s.launchOf? w with
  | some g, some l =>
    match g.commons with
    | none => none
    | some (cid, _) =>
      let b := l.commonsBase g.team cid.toNat
      if va < b || b + 2 ^ 28 ≤ va then none
      else (((l.teams[g.team]?).bind (·.commons[cid.toNat]?)).bind (·[(va - b) / 2 ^ 24]?)).join
  | _, _ => none

/-- A byte of the pool of a member that is addressed by its slot (R322). -/
def State.slotPlace (s : State) (m o : Nat) : Place :=
  match s.wgs[m]?, s.launchOf? m with
  | some x, some l => if 65536 * l.desc.banks ≤ o then .bad else if x.resident then .pool m o else .away
  | _, _ => .bad

/-- Where an address of the commons regions leads a workgroup (R322): only its own commons, only filled slots. -/
def State.commonsPlace (s : State) (w va : Nat) : Place :=
  match s.commonsTarget w va with
  | some m => s.slotPlace m (va % 2 ^ 24)
  | none => .bad

/-- An address of a launch's pool region (R338). -/
def Launch.inPool (l : Launch) (va : Nat) : Bool := l.pool.toNat ≤ va && va < l.pool.toNat + 2 ^ 24 * l.desc.poolSlots

/-- An address of a launch's commons regions (R322). -/
def Launch.inCommons (l : Launch) (va : Nat) : Bool := l.commons.toNat ≤ va && va < l.commonsEnd

/-- A byte of a launch's pool region (R338). -/
def State.regionPlace (s : State) (k : Nat) (l : Launch) (va : Nat) : Place :=
  let idx := (va - l.pool.toNat) / 2 ^ 24
  let o := (va - l.pool.toNat) % 2 ^ 24
  if l.desc.grid ≤ idx || 65536 * l.desc.banks ≤ o then .bad
  else match s.residentWg k idx with
    | some x => .pool x o
    | none => .away

/-- Where a workgroup's address lies (R138 step 3, R322, R338, R396). -/
def State.place (s : State) (w : Nat) (va : Nat) : Place :=
  if 2 ^ 56 ≤ va then .bad
  else match s.wgs[w]?, s.launchOf? w with
    | some g, some l =>
      if l.inPool va then s.regionPlace g.launch l va
      else if l.inCommons va then s.commonsPlace w va
      else match s.leaf g.core l.proc va with
        | some c => c.place va
        | none => .bad
    | _, _ => .bad

/-- An address of the launch's commons regions. -/
def State.inCommons (s : State) (w va : Nat) : Bool := ((s.launchOf? w).map fun l => l.inCommons va).getD false

/-- The leaf of a peer process's address, by a walk of a die (R395). -/
def State.peerLeaf (s : State) (die p va : Nat) : Option Cached :=
  ((s.walk die p va).getLast?).bind fun c => if c.pte.getLsbD 1 then some c else none

/-- Where an address of a peer process lies (R395): a byte of the DRAM layer or of a scratchpad window. -/
def State.peerPlace (s : State) (die p va : Nat) : Place :=
  match s.launches.zipIdx.reverse.find? fun x => x.1.proc = p && (x.1.inPool va || x.1.inCommons va) with
  | some (l, k) => if l.inPool va then s.regionPlace k l va else .bad
  | none => match s.peerLeaf die p va with
    | some c => c.place va
    | none => .bad

/-- A core's translation of an address, and the walk-cache entries of its die on the path, are read afresh next (R297). -/
def State.refresh (s : State) (core p va : Nat) : State :=
  let keep : List Cached → List Cached := fun l => l.filter fun c => !(c.proc = p && c.holds va)
  (s.updCore core fun c => { c with tlb := keep c.tlb }).updHub (core / 16) fun h => { h with walk := keep h.walk }

/-- The lookup of an address leaves its translation in the buffers. -/
def State.look (s : State) (w va : Nat) : State :=
  match s.wgs[w]?, s.launchOf? w with
  | some g, some l =>
    if 2 ^ 56 ≤ va || l.inPool va || s.inCommons w va then s
    else s.fill g.core l.proc va
  | _, _ => s

/-- The physical address of a byte of a pool (R337). -/
def State.poolPhys (s : State) (w off : Nat) : Nat :=
  match s.wgs[w]? with
  | some g => g.poolAt + off
  | none => 2 ^ 50 + off

/-- The physical address of a place, if it has one. -/
def State.physOf (s : State) : Place → Option Nat
  | .pool w off => some (s.poolPhys w off)
  | .page p _ => some p
  | _ => none

/-- The bank of a scratchpad byte is lit (R193); bytes of the other layers always are. -/
def State.litByte (s : State) (phys : Nat) : Bool :=
  if phys / 2 ^ 50 = 1 then
    match s.cores[phys / 2 ^ 24 % 64]? with
    | some c => c.arrays.contains (.lit (phys % 2 ^ 24 / 65536))
    | none => false
  else true

/-- The allocation that holds a byte of a workgroup's pool (R196). -/
def State.allocAt (s : State) (w off : Nat) : Option Alloc :=
  (s.wgs[w]?).bind fun g => g.allocs.find? fun a => a.base ≤ off && off < a.base + a.size

/-- A byte of a pool lies in a lost allocation. -/
def State.lostAt (s : State) (w off : Nat) : Bool := ((s.allocAt w off).map (·.lost)).getD false

/-- A peer's access there finds nothing (R213, R338). -/
def State.dead (s : State) : Place → Bool
  | .away => true
  | .lost => true
  | .pool w off => s.lostAt w off
  | _ => false

/-- The access is served by the issuing core (R180, long memory); one lost is one of the own scratchpad (R211). -/
def State.near (s : State) (w : Nat) : Place → Bool
  | .pool x _ => s.coreOf x = s.coreOf w
  | .lost => true
  | _ => false

/-! ## Names of bytes (R323) -/

/-- The byte of a workgroup's pool that an address names, whether or not that workgroup is resident. -/
def State.poolByte (s : State) (w va : Nat) : Option (Nat × Nat) :=
  match s.place w va with
  | .pool x off => some (x, off)
  | .away =>
    match s.wgs[w]?, s.launchOf? w with
    | some g, some l =>
      if l.inPool va then
        (s.wgs.findIdx? fun x => x.launch = g.launch && x.wgid.toNat = (va - l.pool.toNat) / 2 ^ 24).map
          (·, (va - l.pool.toNat) % 2 ^ 24)
      else (s.commonsTarget w va).map (·, va % 2 ^ 24)
    | _, _ => none
  | _ => none

/-- The name of a byte of a pool: it stays when the pool moves (R215, R298). -/
def poolKey (w off : Nat) : Nat := 2 ^ 60 + w * 2 ^ 24 + off

/-- The name of a byte by its physical address: a byte of a pool by its workgroup. -/
def State.keyOf (s : State) (phys : Nat) : Nat :=
  if phys / 2 ^ 50 ≠ 1 then phys
  else
    let core := phys / 2 ^ 24 % 64
    let b := phys % 2 ^ 24 / 65536
    match s.wgs.zipIdx.find? fun x => x.1.core = core && x.1.resident && x.1.poolFirst ≤ b && b < x.1.poolFirst + x.1.poolBanks with
    | some (g, w) => poolKey w (phys % 2 ^ 24 - g.poolFirst * 65536)
    | none => phys

/-- The name of a byte of a place in no pool's region: by its home, or in an absent page by its process and address. -/
def State.pageKey (s : State) (proc : Nat) (p : Place) (va : Nat) : Nat :=
  ((s.physOf p).map s.keyOf).getD (2 ^ 90 + proc * 2 ^ 64 + va)

/-- One name for a byte, whatever address reached it (R323). -/
def State.byteKey (s : State) (w va : Nat) : Nat :=
  match s.poolByte w va with
  | some (x, off) => poolKey x off
  | none => s.pageKey (s.procOf w) (s.place w va) va

/-- A byte range cut at 64 KiB boundaries: no page and no bank is smaller. -/
def chunks (lo hi : Nat) : List (Nat × Nat) :=
  if hi ≤ lo then []
  else (List.range ((hi - 1) / 65536 - lo / 65536 + 1)).map fun k =>
    (max lo ((lo / 65536 + k) * 65536), min hi ((lo / 65536 + k + 1) * 65536))

/-- A range as runs of names, each chunk by its first byte's. -/
def namedRuns (name : Nat → Nat) (lo hi : Nat) : List (Nat × Nat) :=
  (chunks lo hi).map fun c =>
    let k := name c.1
    (k, k + (c.2 - c.1))

/-- The bytes of a workgroup's range as runs of names (R263, R323). -/
def State.keyRange (s : State) (w lo hi : Nat) : List (Nat × Nat) := namedRuns (s.byteKey w) lo hi

/-- Two sets of runs share a byte. -/
def runsMeet (a b : List (Nat × Nat)) : Bool := a.any fun x => b.any fun y => x.1 < y.2 && y.1 < x.2

/-! ## Range locks -/

/-- The bytes of a part of a lock, by their names now (R269): a page and a pool may have moved since it was taken. -/
def State.partRuns (s : State) (core : Nat) : LockPart → List (Nat × Nat)
  | .pool w lo hi => [(poolKey w lo, poolKey w hi)]
  | .mapped w lo hi => s.keyRange w lo hi
  | .peer p lo hi => namedRuns (fun va => s.pageKey p (s.peerPlace (core / 16) p va) va) lo hi

/-- The bytes of a lock entry of a core. -/
def State.lockRuns (s : State) (core : Nat) (k : Lock) : List (Nat × Nat) := k.parts.flatMap (s.partRuns core)

/-- Named bytes [lo, hi) meet a lock entry (R138 step 4): a read meets destinations, a write both kinds. -/
def State.lockMeets (s : State) (core lo hi : Nat) (write : Bool) (k : Lock) : Bool :=
  (write || k.dst) && runsMeet (s.lockRuns core k) [(lo, hi)]

/-- Named bytes [lo, hi) are locked on a core. -/
def State.locked (s : State) (core lo hi : Nat) (write : Bool) : Bool :=
  ((s.cores[core]?).map fun c => c.locks.any (s.lockMeets core lo hi write)).getD false

/-- What a workgroup's range locks (R269): chunk by chunk, a pool's bytes stay those of that pool wherever it goes. -/
def State.lockParts (s : State) (w lo hi : Nat) : List LockPart :=
  (chunks lo hi).map fun c => match s.poolByte w c.1 with
    | some (x, off) => .pool x off (off + (c.2 - c.1))
    | none => .mapped w c.1 c.2

/-- A holder's lock entries are released. -/
def State.unlock (s : State) (holder : Nat) : State :=
  { s with cores := s.cores.map fun c => { c with locks := c.locks.filter fun k => k.holder ≠ holder } }

/-! ## Objects and bindings -/

/-- The object of a flag word, by the byte it names (R323); its scope is no part of it (log 61). -/
def State.flagObj (s : State) (w va : Nat) : Obj :=
  match s.poolByte w va with
  | some (x, off) => .flag x off
  | none => .mapped (s.procOf w) va

/-- The byte a flag word's object names, where it stands. -/
def State.flagKey (s : State) : Obj → Option Nat
  | .flag x off => some (poolKey x off)
  | .mapped p va => ((s.walk s.hubs.length p va).getLast?).bind fun c =>
      if c.pte.getLsbD 1 then s.physOf (c.place va) else none
  | _ => none

/-- Two names of one object: flag words that are one byte are one object (R323). -/
def State.sameObj (s : State) (a b : Obj) : Bool :=
  a = b || (match s.flagKey a, s.flagKey b with
    | some x, some y => x = y
    | _, _ => false)

/-- The object a binding names (R151). -/
def State.objOf (s : State) (w : Nat) (desc : Word) (flag : BitVec 64) : Obj :=
  if desc.extractLsb' 0 3 = 1#3 then .barrier w (desc.extractLsb' 8 4)
  else if desc.extractLsb' 0 3 = 2#3 then
    match s.wgs[w]? with
    | some g => .team g.launch g.team
    | none => .default
  else s.flagObj w flag.toNat

/-- The runs of a binding's region. -/
def State.regionRuns (s : State) (w : Nat) (b : Binding) : List (Nat × Nat) :=
  s.keyRange w b.base.toNat (b.base.toNat + b.len.toNat)

/-- The object a byte of a workgroup's writes belongs to under bindings (R288). -/
def State.boundTo (s : State) (w : Nat) (bs : List Binding) (va : Nat) : Obj :=
  match bs.find? fun b =>
      (b.base.toNat ≤ va && va < b.base.toNat + b.len.toNat) ||
      (let k := s.byteKey w va; (s.regionRuns w b).any fun r => r.1 ≤ k && k < r.2) with
  | some b => s.objOf w b.desc b.flag
  | none => .default

/-- The bindings of a workgroup. -/
def State.bindings (s : State) (w : Nat) : List Binding := ((s.wgs[w]?).map (·.bindings)).getD []

/-- The objects of the aligned words of an access of n bytes under bindings: regions are 4-aligned (R151, R288). -/
def State.wordsBound (s : State) (w : Nat) (bs : List Binding) (va n : Nat) : List Obj :=
  (List.range ((va % 4 + n + 3) / 4)).map fun j => s.boundTo w bs (va / 4 * 4 + 4 * j)

/-- The objects of the aligned words of an access of n bytes that issues now. -/
def State.boundWords (s : State) (w va n : Nat) : List Obj := s.wordsBound w (s.bindings w) va n

/-! ## Fault records and parked accesses -/

/-- The layout of a fault record (R344). -/
def faultRecord (va : BitVec 64) (slot : BitVec 16) (cause : BitVec 8) (source count : BitVec 4) (launch : Word)
    (wgid : BitVec 24) (kind : BitVec 2) (place : BitVec 6) (tid : BitVec 10) : BitVec 256 :=
  va ++ slot ++ cause ++ source ++ count ++ launch ++ 0#8 ++ wgid ++ 0#6 ++ kind ++ 0#2 ++ place ++ tid ++ 0#70

/-- A fault record about an access on a core goes to Worxus, with its owner's launch and number (R344, R358). -/
def State.postRecord (s : State) (core : Nat) (launch : Word) (wgid : BitVec 24) (va : Nat) (slot : BitVec 16)
    (cause : BitVec 8) (source count : BitVec 4) (kind : BitVec 2) (tid : BitVec 10) : State :=
  s.sendUp (core / 4) (.fault (faultRecord (BitVec.ofNat 64 va) slot cause source count launch wgid kind (BitVec.ofNat 6 core) tid))

/-- A fault record about a workgroup's access on a core. -/
def State.postFaultOn (s : State) (core w va : Nat) (slot : BitVec 16) (cause : BitVec 8) (source count : BitVec 4)
    (kind : BitVec 2) (tid : BitVec 10) : State :=
  s.postRecord core (s.launchId w) (((s.wgs[w]?).map (·.wgid)).getD 0) va slot cause source count kind tid

/-- A fault record about a workgroup's access on the core where it stands. -/
def State.postFault (s : State) (w va : Nat) (slot : BitVec 16) (cause : BitVec 8) (source count : BitVec 4)
    (kind : BitVec 2) (tid : BitVec 10) : State := s.postFaultOn (s.coreOf w) w va slot cause source count kind tid

/-- Expansion of a cold page starts at a die's hub, once (R342, R343). -/
def State.expandAt (s : State) (die : Nat) (leaf : Option Cached) (core w va : Nat) (slot : BitVec 16) (kind : BitVec 2)
    (source : BitVec 4) (tid : BitVec 10) (peer : Option FabricPeer) : State :=
  match leaf with
  | some c =>
    if pteState c.pte ≠ 1 || s.hubs.any (fun h => h.expands.any fun e => e.proc = c.proc && e.va.toNat = c.base) then s
    else s.updHub die fun h => { h with
      expands := h.expands ++ [⟨c.proc, BitVec.ofNat 57 c.base, pteAddr c.pte, none, core, w, va, slot, kind, source, tid, false, peer⟩] }
  | none => s

/-- Expansion of a cold page that an access on a core touches for a workgroup. -/
def State.startExpand (s : State) (core w va : Nat) (slot : BitVec 16) (kind : BitVec 2) (source : BitVec 4)
    (tid : BitVec 10) : State :=
  s.expandAt (core / 16) (s.leaf core (s.procOf w) va) core w va slot kind source tid none

/-- s.tid as a fault record carries it: for source 0 alone (R344). -/
def recordTid (source : BitVec 4) (tid : BitVec 10) : BitVec 10 := if source = 0#4 then tid else 0

/-- What a touch, by an access on a core for a workgroup, of a page in a state that is not resident starts (R342): a cold
page expands, a host-held one is reported. -/
def State.summon (s : State) (core w va : Nat) (state : BitVec 2) (slot : BitVec 16) (kind : BitVec 2) (source : BitVec 4)
    (tid : BitVec 10) : State :=
  if state = 1#2 then s.startExpand core w va slot kind source tid
  else if state = 2#2 then s.postFaultOn core w va slot 0#8 source 0#4 kind (recordTid source tid)
  else s

/-- An access that parks nothing asks for a page (R342). -/
def State.ask (s : State) (w va : Nat) (state : BitVec 2) (kind : BitVec 2) (source : BitVec 4) (tid : BitVec 10) :
    State :=
  s.summon (s.coreOf w) w va state 0xFFFF#16 kind source tid

/-- An access on a core takes a free slot of the table of the core's die (R342, R344), with a replay count; the slot's
number. -/
def State.takeSlot (s : State) (core w va : Nat) (waiter : Waiter) (kind : BitVec 2) (source : BitVec 4) (tid : BitVec 10)
    (count : Nat) : Option (State × Nat) :=
  let a : ParkedAccess := ⟨waiter, s.procOf w, BitVec.ofNat 57 va, kind, count, w, tid, source, core⟩
  ((s.hubs[core / 16]?).bind fun h => h.slots.findIdx? Option.isNone).map fun k =>
    (s.updHub (core / 16) fun h => { h with slots := h.slots.set k (some a) }, k)

/-- An access on a core parks in a free slot of its die's table (R342); with none free it waits. -/
def State.parkOn (s : State) (core w va : Nat) (state : BitVec 2) (waiter : Waiter) (kind : BitVec 2)
    (source : BitVec 4) (tid : BitVec 10) : Option State :=
  (s.takeSlot core w va waiter kind source tid 0).map fun x =>
    x.1.summon core w va state (BitVec.ofNat 16 x.2) kind source tid

/-- An access on the core where its workgroup stands parks. -/
def State.parkAccess (s : State) (w va : Nat) (state : BitVec 2) (waiter : Waiter) (kind : BitVec 2)
    (source : BitVec 4) (tid : BitVec 10) : Option State := s.parkOn (s.coreOf w) w va state waiter kind source tid

end Sys2Proof.Machine
end

