-- ==== Sys2Proof/Machine/Flags.lean ====
section
/-! DEFINITION. Flags: the bits of s.flags (R60), saturation (R63, R76), the floating-point formats and their one
rounding (R64-R68), comparisons and exact arithmetic (R95-R101). -/

namespace Sys2Proof.Machine

/-! ## The sticky flags (R60) -/

def flagNX : Word := 0x001
def flagUF : Word := 0x002
def flagOF : Word := 0x004
def flagDZ : Word := 0x008
def flagNV : Word := 0x010
def flagSAT : Word := 0x020
def flagIDZ : Word := 0x040
def flagFMT : Word := 0x080
def flagWOV : Word := 0x100

/-- A flag where a condition holds. -/
def flagIf (c : Bool) (f : Word) : Word := if c then f else 0

/-- `Saturate(x, lo, hi)` of R76, with SAT where it changes x. -/
def saturate (x lo hi : Int) : Word × Word :=
  (wordOfInt (clampInt x lo hi), flagIf (x < lo || hi < x) flagSAT)

/-- Saturation to the signed range (R63). -/
def satS32 (x : Int) : Word × Word := saturate x (-2147483648) 2147483647

/-- Saturation to the unsigned range (R63). -/
def satN32 (x : Int) : Word × Word := saturate x 0 4294967295

/-! ## Formats and values -/

/-- A floating-point format (R64): exponent and fraction widths, bias, and E4M3's departure. -/
structure Fmt where
  ebits : Nat
  fbits : Nat
  bias : Nat
  e4m3 : Bool
deriving DecidableEq, Repr

def fp32 : Fmt := ⟨8, 23, 127, false⟩
def bf16 : Fmt := ⟨8, 7, 127, false⟩
def fp16 : Fmt := ⟨5, 10, 15, false⟩
def e4m3 : Fmt := ⟨4, 3, 7, true⟩
def e5m2 : Fmt := ⟨5, 2, 15, false⟩

/-- What an encoding stands for (R76): a NaN, an infinity, or the exact real (-1)^neg · m · 2^e. -/
inductive FVal where
  | nan (signalling : Bool)
  | inf (neg : Bool)
  | fin (neg : Bool) (m : Nat) (e : Int)
deriving DecidableEq, Repr

/-- `Decode(bits, fmt)` (R64, R76). -/
def Fmt.decode (f : Fmt) (x : Nat) : FVal :=
  let fr := x % 2 ^ f.fbits
  let ex := x / 2 ^ f.fbits % 2 ^ f.ebits
  let neg : Bool := x / 2 ^ (f.fbits + f.ebits) % 2 = 1
  if f.e4m3 then
    if ex = 15 ∧ fr = 7 then .nan false
    else if ex = 0 then .fin neg fr (1 - (f.bias : Int) - f.fbits)
    else .fin neg (2 ^ f.fbits + fr) ((ex : Int) - f.bias - f.fbits)
  else if ex = 2 ^ f.ebits - 1 then
    if fr = 0 then .inf neg else .nan (fr / 2 ^ (f.fbits - 1) = 0)
  else if ex = 0 then .fin neg fr (1 - (f.bias : Int) - f.fbits)
  else .fin neg (2 ^ f.fbits + fr) ((ex : Int) - f.bias - f.fbits)

/-- The default NaN (R65, R66). -/
def Fmt.nan (f : Fmt) : Nat :=
  if f.e4m3 then 0x7F else (2 ^ f.ebits - 1) * 2 ^ f.fbits + 2 ^ (f.fbits - 1)

/-- The encoding of an infinity. -/
def Fmt.inf (f : Fmt) : Nat := (2 ^ f.ebits - 1) * 2 ^ f.fbits

/-- The encoding of the largest finite value (R64, R65). -/
def Fmt.max (f : Fmt) : Nat := if f.e4m3 then 0x7E else f.inf - 1

/-- The sign bit set where asked. -/
def Fmt.signed (f : Fmt) (neg : Bool) (x : Nat) : Nat := if neg then x + 2 ^ (f.fbits + f.ebits) else x

/-! ## Rounding (R59, R67, R68) -/

/-- Rounding up of a magnitude q with remainder r over d, in a mode of R59. -/
def roundsUp (mode : BitVec 3) (neg : Bool) (q r d : Nat) : Bool :=
  if mode = 0#3 then d < 2 * r || (2 * r = d && q % 2 = 1)
  else if mode = 1#3 then d ≤ 2 * r
  else if mode = 3#3 then !neg && r ≠ 0
  else if mode = 4#3 then neg && r ≠ 0
  else false

/-- The quotient and remainder of num/den · 2^sh. -/
def scaledDiv (num den : Nat) (sh : Int) : Nat × Nat × Nat :=
  match sh with
  | .ofNat k => (num * 2 ^ k / den, num * 2 ^ k % den, den)
  | .negSucc k => (num / (den * 2 ^ (k + 1)), num % (den * 2 ^ (k + 1)), den * 2 ^ (k + 1))

/-- num/den · 2^sh rounded to an integer, and whether it changed. -/
def roundScaled (mode : BitVec 3) (neg : Bool) (num den : Nat) (sh : Int) : Nat × Bool :=
  let (q, r, d) := scaledDiv num den sh
  (if roundsUp mode neg q r d then q + 1 else q, r ≠ 0)

/-- ⌊log2(num/den)⌋ for positive num and den. -/
def floorLog (num den : Nat) : Int :=
  let k : Int := (num.log2 : Int) - den.log2
  let (q, _, _) := scaledDiv num den (-k)
  if q = 0 then k - 1 else k

/-- An encoding and the flags raised. -/
structure Rounded where
  bits : Nat
  flags : Word
deriving DecidableEq, Repr

/-- `RoundToFormat` of the exact real (-1)^neg · num/den · 2^e (R67). -/
def Fmt.round (f : Fmt) (mode : BitVec 3) (nan : Bool) (neg : Bool) (num den : Nat) (e : Int) : Rounded :=
  if num = 0 then ⟨f.signed neg 0, 0⟩
  else
    let lg := floorLog num den + e
    let emin : Int := 1 - (f.bias : Int)
    let ulp := (if lg < emin then emin else lg) - f.fbits
    let (q, inexact) := roundScaled mode neg num den (e - ulp)
    -- tininess: the magnitude rounded as though the exponent range were unbounded
    let (q', _) := roundScaled mode neg num den (e - (lg - f.fbits))
    let tiny : Bool := lg < emin && !(lg = emin - 1 && q' = 2 ^ (f.fbits + 1))
    let enc := q + (ulp - (emin - f.fbits)).toNat * 2 ^ f.fbits
    if f.max < enc then
      let toInf : Bool := mode = 0#3 || mode = 1#3 || (mode = 3#3 && !neg) || (mode = 4#3 && neg)
      let out := if !toInf then f.signed neg f.max
        else if f.e4m3 then (if nan then f.nan else f.signed neg f.max)
        else f.signed neg f.inf
      ⟨out, flagOF ||| flagNX⟩
    else ⟨f.signed neg enc, flagIf inexact flagNX ||| flagIf (inexact && tiny) flagUF⟩

/-- `RoundToFormat` of a decoded value: NaN and infinite sources as R66 and R67 give. -/
def Fmt.roundVal (f : Fmt) (mode : BitVec 3) (nan : Bool) : FVal → Rounded
  | .nan s => ⟨f.nan, flagIf s flagNV⟩
  | .inf neg =>
    if f.e4m3 then ⟨if nan then f.nan else f.signed neg f.max, flagNX⟩ else ⟨f.signed neg f.inf, 0⟩
  | .fin neg m e => f.round mode nan neg m 1 e

/-- `RoundToInt(x, mode)` of a finite value (R76), and whether it changed. -/
def roundToInt (mode : BitVec 3) (neg : Bool) (m : Nat) (e : Int) : Int × Bool :=
  let (q, ch) := roundScaled mode neg m 1 e
  (if neg then -(q : Int) else q, ch)

/-! ## Exact arithmetic -/

/-- A signed magnitude at a common exponent. -/
def alignTo (neg : Bool) (m : Nat) (e lo : Int) : Int :=
  let v : Int := (m : Int) * 2 ^ (e - lo).toNat
  if neg then -v else v

/-- The exact sum; an exact zero sum of opposite signs is -0 toward -∞, else +0 (R95). -/
def FVal.add (mode : BitVec 3) : FVal → FVal → FVal × Word
  | .nan s, .nan t => (.nan false, flagIf (s || t) flagNV)
  | .nan s, _ => (.nan false, flagIf s flagNV)
  | _, .nan t => (.nan false, flagIf t flagNV)
  | .inf a, .inf b => if a = b then (.inf a, 0) else (.nan false, flagNV)
  | .inf a, _ => (.inf a, 0)
  | _, .inf b => (.inf b, 0)
  | .fin na ma ea, .fin nb mb eb =>
    let lo := if ea ≤ eb then ea else eb
    let s := alignTo na ma ea lo + alignTo nb mb eb lo
    let neg : Bool := if s = 0 then (if na = nb then na else mode = 4#3) else s < 0
    (.fin neg s.natAbs lo, 0)

/-- The negation of a value. -/
def FVal.neg : FVal → FVal
  | .nan s => .nan s
  | .inf a => .inf (!a)
  | .fin n m e => .fin (!n) m e

/-- The exact product; 0 · ∞ is invalid (R95). -/
def FVal.mul : FVal → FVal → FVal × Word
  | .nan s, .nan t => (.nan false, flagIf (s || t) flagNV)
  | .nan s, _ => (.nan false, flagIf s flagNV)
  | _, .nan t => (.nan false, flagIf t flagNV)
  | .inf a, .inf b => (.inf (a != b), 0)
  | .inf a, .fin n m _ => if m = 0 then (.nan false, flagNV) else (.inf (a != n), 0)
  | .fin n m _, .inf b => if m = 0 then (.nan false, flagNV) else (.inf (n != b), 0)
  | .fin na ma ea, .fin nb mb eb => (.fin (na != nb) (ma * mb) (ea + eb), 0)

/-- A signalling NaN. -/
def FVal.snan : FVal → Bool
  | .nan s => s
  | _ => false

/-- A NaN. -/
def FVal.isNan : FVal → Bool
  | .nan _ => true
  | _ => false

/-- The order of two values that are not NaNs; the zeros compare equal (R99). -/
def FVal.lt : FVal → FVal → Bool
  | .fin na ma ea, .fin nb mb eb =>
    let lo := if ea ≤ eb then ea else eb
    alignTo na ma ea lo < alignTo nb mb eb lo
  | .inf a, .inf b => a && !b
  | .inf a, .fin _ _ _ => a
  | .fin _ _ _, .inf b => !b
  | _, _ => false

/-- A value's sign bit. -/
def FVal.sign : FVal → Bool
  | .nan _ => false
  | .inf a => a
  | .fin n _ _ => n

/-- `fadd`, `fsub`, `fmul`, `ffma` and their packed forms, in any format (R95, R103). -/
def Fmt.add (f : Fmt) (mode : BitVec 3) (a b : Nat) : Rounded :=
  let (v, fl) := (f.decode a).add mode (f.decode b)
  let r := f.roundVal mode false v
  ⟨r.bits, r.flags ||| fl⟩

def Fmt.sub (f : Fmt) (mode : BitVec 3) (a b : Nat) : Rounded :=
  let (v, fl) := (f.decode a).add mode (f.decode b).neg
  let r := f.roundVal mode false v
  ⟨r.bits, r.flags ||| fl⟩

def Fmt.mul (f : Fmt) (mode : BitVec 3) (a b : Nat) : Rounded :=
  let (v, fl) := (f.decode a).mul (f.decode b)
  let r := f.roundVal mode false v
  ⟨r.bits, r.flags ||| fl⟩

/-- a × b + d with one rounding. -/
def Fmt.fma (f : Fmt) (mode : BitVec 3) (a b d : Nat) : Rounded :=
  let (p, fl) := (f.decode a).mul (f.decode b)
  let (v, fl') := p.add mode (f.decode d)
  let r := f.roundVal mode false v
  ⟨r.bits, r.flags ||| fl ||| fl'⟩

/-- `fmin` and `fmax` (R96): unrounded, -0 below +0, NV for a signalling operand. -/
def Fmt.minMax (f : Fmt) (max : Bool) (a b : Nat) : Rounded :=
  let x := f.decode a
  let y := f.decode b
  let fl := flagIf (x.snan || y.snan) flagNV
  if x.isNan && y.isNan then ⟨f.nan, fl⟩
  else if x.isNan then ⟨b, fl⟩
  else if y.isNan then ⟨a, fl⟩
  else
    let less : Bool := x.lt y || (!y.lt x && x.sign && !y.sign)
    ⟨if less != max then a else b, fl⟩

/-- `fdiv` (R97). -/
def Fmt.div (f : Fmt) (mode : BitVec 3) (a b : Nat) : Rounded :=
  match f.decode a, f.decode b with
  | .nan s, .nan t => ⟨f.nan, flagIf (s || t) flagNV⟩
  | .nan s, _ => ⟨f.nan, flagIf s flagNV⟩
  | _, .nan t => ⟨f.nan, flagIf t flagNV⟩
  | .inf _, .inf _ => ⟨f.nan, flagNV⟩
  | .inf x, y => ⟨f.signed (x != y.sign) f.inf, 0⟩
  | x, .inf y => ⟨f.signed (x.sign != y) 0, 0⟩
  | .fin na ma ea, .fin nb mb eb =>
    if mb = 0 then
      if ma = 0 then ⟨f.nan, flagNV⟩ else ⟨f.signed (na != nb) f.inf, flagDZ⟩
    else f.round mode false (na != nb) ma mb (ea - eb)

/-- `fscale` (R98): a × 2^b. -/
def Fmt.scale (f : Fmt) (mode : BitVec 3) (a : Nat) (b : Int) : Rounded :=
  match f.decode a with
  | .fin neg m e =>
    -- beyond ±1024 the rounding is the same as at ±1024
    f.round mode false neg m 1 (e + clampInt b (-1024) 1024)
  | v => f.roundVal mode false v

/-- `fcmp` (R99): the condition's truth, and NV. -/
def Fmt.compare (f : Fmt) (c : BitVec 4) (a b : Nat) : Bool × Word :=
  let x := f.decode a
  let y := f.decode b
  let un := x.isNan || y.isNan
  let ordered : Bool := c = 2#4 || c = 3#4 || c = 4#4 || c = 5#4
  let nv := flagIf (if ordered then un else x.snan || y.snan) flagNV
  let eq := !un && !x.lt y && !y.lt x
  let r : Bool :=
    if c = 0#4 then eq
    else if c = 1#4 then !eq
    else if c = 2#4 then !un && x.lt y
    else if c = 3#4 then !un && !y.lt x
    else if c = 4#4 then !un && y.lt x
    else if c = 5#4 then !un && !x.lt y
    else if c = 6#4 then un
    else !un
  (r, nv)

/-- `fclass` of an FP32 value (R100). -/
def fclass (a : Word) : Word :=
  let neg := a.getLsbD 31
  match fp32.decode a.toNat with
  | .nan s => if s then 0x100 else 0x200
  | .inf n => if n then 0x001 else 0x080
  | .fin _ m e =>
    if m = 0 then (if neg then 0x008 else 0x010)
    else if m < 2 ^ 23 ∧ e = -149 then (if neg then 0x004 else 0x020)
    else (if neg then 0x002 else 0x040)

/-- `fabs` and `fneg` (R100): the sign bit of a non-NaN changed exactly. -/
def signOp (neg : Bool) (a : Word) : Word × Word :=
  match fp32.decode a.toNat with
  | .nan s => (0x7FC00000, flagIf s flagNV)
  | _ => (if neg then a ^^^ 0x80000000 else a &&& 0x7FFFFFFF, 0)

/-- `frnd` (R101): the integral value nearest in the mode. -/
def Fmt.integral (f : Fmt) (mode : BitVec 3) (a : Nat) : Rounded :=
  match f.decode a with
  | .fin neg m e =>
    let (v, ch) := roundToInt mode neg m e
    -- an integral value of the format's precision or smaller is exact
    ⟨(f.round 2#3 false neg v.natAbs 1 0).bits, flagIf ch flagNX⟩
  | v => f.roundVal mode false v

end Sys2Proof.Machine
end

