-- ==== Sys2Proof/Machine/Wide.lean ====
section
/-! DEFINITION. Wide: IO4 words (R70, R71), wide cells, their grid and their sums (R72-R75), the conversions of
`cvt` (R104-R108). -/

namespace Sys2Proof.Machine

/-! ## IO4 -/

/-- Slot k of an IO4 word (R70). -/
def nibble (w : Word) (k : Nat) : BitVec 4 := w.extractLsb' (4 * k) 4

/-- A small signed integer times 2^off. -/
def valOfInt (v : Int) (off : Int) : FVal := .fin (v < 0) v.natAbs off

/-- An E4M3 element scaled by 2^off. -/
def FVal.scaleBy (v : FVal) (off : Int) : FVal :=
  match v with
  | .fin n m e => .fin n m (e + off)
  | v => v

/-- `DecodeIO4` from slot i (R71): eight values and whether FMT is reported. -/
def io4From : Nat → Word → Int → Nat → List FVal × Bool
  | 0, _, _, _ => ([], false)
  | n + 1, w, off, i =>
    if 7 < i then ([], false)
    else if nibble w i ≠ 8#4 then
      let (t, f) := io4From n w off (i + 1)
      (valOfInt (nibble w i).toInt off :: t, f)
    else if 6 ≤ i then
      let (t, _) := io4From n w off (i + 1)
      (.fin false 0 0 :: t, true)
    else
      let e : BitVec 8 := w.extractLsb' (4 * i + 4) 8
      let bad : Bool := e.extractLsb' 0 7 = 0x7F#7
      let v : FVal := if bad then .fin false 0 0 else (e4m3.decode e.toNat).scaleBy off
      let (t, f) := io4From n w off (i + 3)
      (v :: .fin false 0 0 :: .fin false 0 0 :: t, f || bad)

/-- `DecodeIO4(w, off)` (R71). -/
def decodeIO4 (w : Word) (off : Int) : List FVal × Bool := io4From 8 w off 0

/-- The slots that `cvt.io4.f32x8` writes from slot i, and its flags (R107). -/
def io4Encode (mode : BitVec 3) : Nat → Nat → List Word → Nat × Word
  | 0, _, _ => (0, 0)
  | _, _, [] => (0, 0)
  | n + 1, i, x :: rest =>
    let next (slot : Nat) (fl : Word) : Nat × Word :=
      let (r, f) := io4Encode mode n (i + 1) rest
      (slot * 16 ^ i + r, fl ||| f)
    match fp32.decode x.toNat with
    | .nan _ => next 0 flagNV
    | v =>
      let iv : Option (Int × Bool) := match v with
        | .fin neg m e => some (roundToInt mode neg m e)
        | _ => none
      let small : Bool := match iv with
        | some (k, _) => -7 ≤ k && k ≤ 7
        | none => false
      if small then
        match iv with
        | some (k, ch) => next (k % 16).toNat (flagIf ch flagNX)
        | none => next 0 0
      else if i ≤ 5 then
        let r := e4m3.roundVal mode false v
        let lost : Bool := (rest.take 2).any fun y => match fp32.decode y.toNat with
          | .fin _ 0 _ => false
          | _ => true
        let (t, f) := io4Encode mode n (i + 3) (rest.drop 2)
        ((8 + r.bits % 16 * 16 + r.bits / 16 * 256) * 16 ^ i + t, r.flags ||| flagIf lost flagNX ||| f)
      else
        let k : Int := match iv with
          | some (k, _) => clampInt k (-7) 7
          | none => if v.sign then -7 else 7
        next (k % 16).toNat (flagOF ||| flagNX)

/-! ## Wide cells -/

def wideMax : Int := 2 ^ 95 - 1
def wideMin : Int := -2 ^ 95

/-- `RoundToGrid(x, E, mode)` (R73). -/
def roundToGrid (x : FVal) (E : Int) (mode : BitVec 3) : Int × Bool :=
  match x with
  | .nan _ => (0, true)
  | .inf n => (if n then wideMin else wideMax, true)
  | .fin n m e =>
    let (v, _) := roundToInt mode n m (e - E)
    if wideMax < v then (wideMax, true) else if v < wideMin then (wideMin, true) else (v, false)

/-- A cell of an exact integer, with its overflow (R73, R229). -/
def clampCell (s : Int) (sov : Bool) : WCell :=
  ⟨BitVec.ofInt 96 (clampInt s wideMin wideMax), sov || wideMax < s || s < wideMin⟩

/-- `WideAdd(cell, v, o)` (R73). -/
def wideAdd (c : WCell) (v : Int) (o : Bool) : WCell := clampCell (c.v.toInt + v) (c.sov || o)

/-- `WideValue(cell, E)` (R76). -/
def wideValue (c : WCell) (E : Int) : FVal := .fin (c.v.toInt < 0) c.v.toInt.natAbs E

/-- A slot of memory or the register image without E: value and sov (R72). -/
def cellOfNat (x : Nat) : WCell := ⟨BitVec.ofNat 96 x, x / 2 ^ 96 % 2 = 1⟩

/-- The 16-byte slot of a cell, reserved bits zero (R72). -/
def natOfCell (c : WCell) : Nat := c.v.toNat + if c.sov then 2 ^ 96 else 0

/-- The register image of a cell (R108). -/
def imageOf (c : WCell) (E : BitVec 10) : List Word :=
  [c.v.extractLsb' 0 32, c.v.extractLsb' 32 32, c.v.extractLsb' 64 32,
   (E.setWidth 32 <<< 16) ||| (if c.sov then 1 else 0)]

/-- The cell and the exponent of a register image; other bits ignored (R108). -/
def cellOfImage (a b c d : Word) : WCell × BitVec 10 := (⟨c ++ b ++ a, d.getLsbD 0⟩, d.extractLsb' 16 10)

/-- An integer result in the signed or unsigned range, NV outside it, NX where it changed (R105, R108). -/
def intResult (x : FVal) (mode : BitVec 3) (lo hi : Int) : Word × Word :=
  match x with
  | .nan _ => (0, flagNV)
  | .inf n => (wordOfInt (if n then lo else hi), flagNV)
  | .fin n m e =>
    let (v, ch) := roundToInt mode n m e
    if v < lo ∨ hi < v then (wordOfInt (clampInt v lo hi), flagNV) else (wordOfInt v, flagIf ch flagNX)

/-! ## Conversions (R104-R108) -/

/-- The results of a narrowing of several FP32 elements, packed, with the union of the flags (R106). -/
def narrow (f : Fmt) (width : Nat) (mode : BitVec 3) (nan : Bool) : List Word → Nat × Word
  | [] => (0, 0)
  | x :: t =>
    let r := f.roundVal mode nan (fp32.decode x.toNat)
    let (n, fl) := narrow f width mode nan t
    (r.bits + 2 ^ width * n, r.flags ||| fl)

/-- An exact widening to FP32 (R104). -/
def widen (f : Fmt) (x : Nat) : Word × Word :=
  let r := fp32.roundVal 0#3 false (f.decode x)
  (BitVec.ofNat 32 r.bits, r.flags)

/-- `cvt` by its selector: the words of the destination from the words of the source, and the flags. `d3` is the old
g(d+3), whose exponent the conversions into a wide image read (R108). -/
def convert (sel : BitVec 7) (mode : BitVec 3) (src : List Word) (d3 : Word) : List Word × Word :=
  let a := src.headD 0
  let one (x : Word × Word) : List Word × Word := ([x.1], x.2)
  let rnd (r : Rounded) : List Word × Word := ([BitVec.ofNat 32 r.bits], r.flags)
  let pack (x : Nat × Word) : List Word × Word := ([BitVec.ofNat 32 x.1], x.2)
  let E : BitVec 10 := d3.extractLsb' 16 10
  let toWide (x : FVal) : List Word × Word :=
    let (v, o) := roundToGrid x E.toInt mode
    (imageOf ⟨BitVec.ofInt 96 v, o⟩ E, 0)
  let image := cellOfImage a (src.getD 1 0) (src.getD 2 0) (src.getD 3 0)
  match sel.toNat with
  | 0x00 => rnd (fp32.roundVal mode false (valOfInt a.toInt 0))
  | 0x01 => rnd (fp32.roundVal mode false (.fin false a.toNat 0))
  | 0x02 => one (intResult (fp32.decode a.toNat) mode (-2147483648) 2147483647)
  | 0x03 => one (intResult (fp32.decode a.toNat) mode 0 4294967295)
  | 0x04 => one (widen bf16 (a.toNat % 65536))
  | 0x05 => one (widen bf16 (a.toNat / 65536))
  | 0x06 => one (widen fp16 (a.toNat % 65536))
  | 0x07 => one (widen fp16 (a.toNat / 65536))
  | 0x08 => pack (narrow bf16 16 mode false (src.take 2))
  | 0x09 => pack (narrow fp16 16 mode false (src.take 2))
  | 0x18 => pack (narrow e4m3 8 mode false (src.take 4))
  | 0x19 => pack (narrow e4m3 8 mode true (src.take 4))
  | 0x1A => pack (narrow e5m2 8 mode false (src.take 4))
  | 0x20 =>
    let (vs, f) := decodeIO4 a 0
    (vs.map fun v => BitVec.ofNat 32 (fp32.roundVal 0#3 false v).bits, flagIf f flagFMT)
  | 0x21 => pack (io4Encode mode 8 0 (src.take 8))
  | 0x28 =>
    let (c, e) := image
    let r := fp32.roundVal mode false (wideValue c e.toInt)
    ([BitVec.ofNat 32 r.bits], r.flags ||| flagIf c.sov flagWOV)
  | 0x29 =>
    let (c, e) := image
    let r := intResult (wideValue c e.toInt) mode (-2147483648) 2147483647
    ([r.1], r.2 ||| flagIf c.sov flagWOV)
  | 0x2A => toWide (fp32.decode a.toNat)
  | 0x2B => toWide (valOfInt a.toInt 0)
  | n =>
    if 0x10 ≤ n ∧ n ≤ 0x13 then one (widen e4m3 (a.toNat / 2 ^ (8 * (n - 0x10)) % 256))
    else one (widen e5m2 (a.toNat / 2 ^ (8 * (n - 0x14)) % 256))

end Sys2Proof.Machine
end

