-- ==== Sys2Proof/Machine/Order.lean ====
section
/-! DEFINITION. Order: writes performed at their homes and what loads see of them (R283-R290, R330, R405-R412), the
Hayrick, commit points and the drain (R140, R284-R286, R413), arrivals at barriers (R278-R280, R320). -/

namespace Sys2Proof.Machine

/-! ## Scopes -/

/-- Scope a covers scope r (R9). -/
def covers (a r : BitVec 4) : Bool := r ≤ a && !(a = 4#4 && r = 3#4)

/-- The workgroup of an agent; the host and other modules have none. -/
def State.wgOf? (s : State) : Agent → Option Nat
  | .thread i => (s.threads[i]?).map (·.wg)
  | .drive w => some w
  | .host | .peer _ => none

/-- The workgroup of an agent. -/
def State.wgOfAgent (s : State) (a : Agent) : Nat := (s.wgOf? a).getD 0

/-- The squad of an agent, if it is a thread. -/
def State.squadOfAgent (s : State) : Agent → Option Nat
  | .thread i => (s.threads[i]?).map (·.squad)
  | _ => none

/-- The workgroups that share a commons with one, itself included; none outside any commons (R9, R330). -/
def State.commonsOf (s : State) (w : Nat) : List Nat :=
  match s.wgs[w]? with
  | some g =>
    if g.commons.isNone then []
    else (List.range s.wgs.length).filter fun x => match s.wgs[x]? with
      | some h => h.launch = g.launch && h.team = g.team && h.commons.map (·.1) = g.commons.map (·.1)
      | none => false
  | none => []

/-- The narrowest scope that takes an agent in beside others: the host is an agent of system scope, another module of
fabric scope (R8, R405). -/
def Agent.outer : Agent → BitVec 4
  | .host => 8#4
  | .peer _ => 9#4
  | _ => 0

/-- Two agents lie in one scope (R8, R9, R330, R405). -/
def State.within (s : State) (sc : BitVec 4) (a b : Agent) : Bool :=
  let w := s.wgOfAgent a
  let x := s.wgOfAgent b
  let out := if a.outer < b.outer then b.outer else a.outer
  if out ≠ 0#4 then a = b || out ≤ sc
  else match sc.toNat with
  | 0 => a = b
  | 1 => a = b || (w = x && (s.squadOfAgent a).isSome && s.squadOfAgent a = s.squadOfAgent b)
  | 2 => w = x
  | 3 => s.coreOf w = s.coreOf x
  | 4 => w = x || (s.commonsOf w).contains x
  | 5 => s.coreOf w / 4 = s.coreOf x / 4
  | 6 => s.coreOf w / 16 = s.coreOf x / 16
  | _ => true

/-! ## What a thread has seen -/

/-- The three ways in which a floor rises to a position of the write log: a thread loads the word, obtains it by an acquire,
or loses the copies it might be served from. -/
def Floor.see (pos : Nat) (f : Floor) : Floor := { f with seen := max f.seen pos }
def Floor.obtain (pos : Nat) (f : Floor) : Floor := { f with got := max f.got pos }
def Floor.renew (pos : Nat) (f : Floor) : Floor := { f with fresh := max f.fresh pos }

/-- A thread's floor of an aligned word. -/
def floorIn (fs : List Floor) (word : Nat) : Floor := (fs.find? fun f => f.word = word).getD ⟨word, 0, 0, 0⟩

/-- The floor of an aligned word changed. Floors are kept for words though R289 speaks of bytes: a thread that has seen or
obtained a write to one byte of a word loads no older value of the word's other bytes (DESIGN CHOICE, log 6). -/
def raiseFloor (fs : List Floor) (word : Nat) (f : Floor → Floor) : List Floor :=
  f (floorIn fs word) :: fs.filter fun f => f.word ≠ word

/-- The floors of several words raised, each to its position. -/
def raiseFloors (fs : List Floor) (l : List (Nat × Nat)) (f : Nat → Floor → Floor) : List Floor :=
  l.foldl (fun fs x => raiseFloor fs x.1 (f x.2)) fs

/-- The position up to which a thread has loaded a word. -/
def Thread.seenAt (th : Thread) (word : Nat) : Nat := (floorIn th.floors word).seen

/-- The position up to which a thread has obtained a word. -/
def Thread.gotAt (th : Thread) (word : Nat) : Nat := (floorIn th.floors word).got

/-- The position below which no load of a thread reaches. -/
def Thread.floorAt (th : Thread) (word : Nat) : Nat :=
  let f := floorIn th.floors word
  max (max f.seen f.got) f.fresh

/-- The write log, oldest first, each with its position. -/
def State.log (s : State) : List (Write × Nat) := s.writes.reverse.zipIdx

/-- The writes to a word from a position on, newest first. -/
def State.newer (s : State) (pos word : Nat) : List (Write × Nat) :=
  ((s.log.drop pos).filter fun x => x.1.word = word).reverse

/-- The position of the write log from which on a thread may miss writes to a word: its floor, and in its own pool whatever
its own workgroup has written there (R140, R289, R335; log 6). -/
def State.floorOf (s : State) (th : Thread) (word : Nat) (own : Bool) : Nat :=
  let f := th.floorAt word
  if own then
    match (s.newer f word).find? fun x => s.wgOf? x.1.agent = some th.wg with
    | some x => x.2 + 1
    | none => f
  else f

/-- The value a thread loads of an aligned word, and the position it has then seen: it misses some of the newest writes
(R289, R330 rule 3; log 6). -/
def State.agedWord (s : State) (th : Thread) (word : Nat) (own : Bool) : Word × Nat :=
  let key := s.keyOf word
  let new := s.newer (s.floorOf th key own) key
  match Config.copyAge s.draw word % (new.length + 1) with
  | 0 => (memWord s.mem word, s.writes.length)
  | n + 1 =>
    match new[n]? with
    | some x => (x.1.old, x.2)
    | none => (memWord s.mem word, s.writes.length)

/-- One byte of an aligned word. -/
def byteOf (w : Word) (k : Nat) : Byte := BitVec.ofNat 8 (w.toNat / 256 ^ k)

/-- The bytes a thread loads from a home; `own`: its own scratchpad. -/
def State.agedBytes (s : State) (th : Thread) (a n : Nat) (own : Bool) : List Byte :=
  (List.range n).map fun k => byteOf (s.agedWord th ((a + k) / 4 * 4) own).1 ((a + k) % 4)

/-- The words of a run of bytes. -/
def wordsOf (a n : Nat) : List Nat := (List.range ((a + n + 3) / 4 - a / 4)).map fun k => (a / 4 + k) * 4

/-- A thread has loaded a run of bytes: its floors rise. -/
def State.see (s : State) (i a n : Nat) (own : Bool) : State :=
  match s.threads[i]? with
  | none => s
  | some th =>
    let seen := (wordsOf a n).map fun w => (s.keyOf w, (s.agedWord th w own).2)
    s.updThread i fun th => { th with floors := raiseFloors th.floors seen Floor.see }

/-- A thread acts on a run of bytes at their home: it has seen every write to them. -/
def State.seeAll (s : State) (i a n : Nat) : State :=
  s.updThread i fun th =>
    { th with floors := raiseFloors th.floors ((wordsOf a n).map fun w => (s.keyOf w, s.writes.length)) Floor.see }

/-! ## Performing writes -/

/-- Threads in speculation that have read a byte written by another agent observe a conflict (R129); `none` is an
engine, whose writes meet every thread. -/
def State.conflicts (s : State) (a : Option Agent) (bytes : List (Nat × Byte)) : State :=
  { s with threads := s.threads.zipIdx.map fun (th, i) =>
      match th.spec with
      | some sp =>
        if a ≠ some (.thread i) && sp.reads.any (fun va => bytes.any fun b => s.keyOf b.1 = s.byteKey th.wg va) then
          { th with conflict := true }
        else th
      | none => th }

/-- Bytes land at their homes, in one step per byte; a byte of a dark bank is lost (R208, R213). The write log says
whose they are, through which object each word is released, after which releases it was issued, and when. -/
def State.land (s : State) (a : Agent) (obj : Nat → Obj) (rel : List Related) (made op : Nat) (bytes : List (Nat × Byte)) :
    State :=
  let bytes := bytes.filter fun b => s.litByte b.1
  let words := (bytes.map fun b => b.1 / 4 * 4).dedup
  let new : List Write := words.map fun w => ⟨s.keyOf w, memWord s.mem w, a, obj w, op, [], rel, made⟩
  { s with
    mem := bytes.foldl (fun m b => memSet m b.1 b.2) s.mem, writes := new.reverse ++ s.writes
    poison := s.poison.filter fun x => !(bytes.any fun b => b.1 = x) }

/-- An agent's own write is performed: it has then seen its words. -/
def State.perform (s : State) (a : Agent) (obj : Nat → Obj) (rel : List Related) (made op : Nat)
    (bytes : List (Nat × Byte)) : State :=
  let s : State := (s.conflicts (some a) bytes).land a obj rel made op bytes
  match a with
  | .thread i => ((bytes.map fun b => b.1 / 4 * 4).dedup).foldl (fun s w => s.seeAll i w 4) s
  | _ => s

/-- An engine's write for an agent is performed, as made by the agent when the instruction issued (R264, R332, R410): the
agent sees it once it observes the completion. -/
def State.performEngine (s : State) (a : Agent) (obj : Nat → Obj) (o : Origin) (op : Nat) (bytes : List (Nat × Byte)) :
    State :=
  (s.conflicts none bytes).land a obj o.related o.time op bytes

/-- The origin of an engine's writes that an agent issues now (R306, R332, R410). -/
def State.originOf (s : State) (a : Agent) : Origin where
  time := s.draw
  binds := s.bindings (s.wgOfAgent a)
  related := match a with
    | .thread i => ((s.threads[i]?).map (·.related)).getD []
    | .drive w => ((s.drive? w).map (·.related)).getD []
    | .host | .peer _ => []

/-- Bytes [lo, hi) of one pool are cleared for an agent (R199, R202): what they held, and what has been written there, is an
earlier value from now on. It is no write of the agent's program: none of its writes precedes it. -/
def State.zero (s : State) (a : Agent) (lo hi : Nat) : State :=
  let k := s.keyOf lo
  let held := (s.mem.filter fun c => lo ≤ c.1 && c.1 < hi).map fun c => c.1 / 4 * 4
  let written := (s.writes.filter fun w => k ≤ w.word && w.word < k + (hi - lo)).map fun w => lo + (w.word - k)
  let new : List Write := (held ++ written).dedup.map fun p => ⟨s.keyOf p, memWord s.mem p, a, .default, 0, [], [], 0⟩
  { s with mem := memClear s.mem lo hi, writes := new ++ s.writes, poison := s.poison.filter fun x => x < lo || hi ≤ x }

/-- The objects of the words of a run that begins at a byte, from those of its aligned words in turn. -/
def objsFrom (a : Nat) (objs : List Obj) (word : Nat) : Obj := objs.getD ((word - a / 4 * 4) / 4) .default

/-- Consecutive bytes as performed. -/
def at_ (a : Nat) (bs : List Byte) : List (Nat × Byte) := bs.zipIdx.map fun (b, k) => (a + k, b)

/-! ## Drain records -/

/-- Where the bytes of an entry lie: a slot of a commons by the member it was mapped to when the store issued (R322,
R325). -/
def State.entryPlace (s : State) (w : Nat) (e : Entry) : Place :=
  match e.target with
  | some x => s.slotPlace x (e.va.toNat % 2 ^ 24)
  | none => s.place w e.va.toNat

/-- The name of an entry's first byte (R323). -/
def State.entryKey (s : State) (w : Nat) (e : Entry) : Nat :=
  match e.target with
  | some x => poolKey x (e.va.toNat % 2 ^ 24)
  | none => s.byteKey w e.va.toNat

/-- The 32-byte fragments for which a workgroup holds or will need a drain record: its records' and its committed
entries' (R285). -/
def State.fragments (s : State) (w : Nat) (g : Wg) : List Nat :=
  let held : List Nat := g.records.map fun r => r.byte / 32
  let due : List Nat := (g.hay.filter (·.committed)).map fun e => s.entryKey w e / 32
  (held ++ due).dedup

/-- Bytes of spill area that one entry or record takes: from 32 to 64 (R140, R285; log 16). -/
def spillBytes : Nat := 32 + Config.spillExtra % 33

/-- Room left in the workgroup's spill area, in bytes. -/
def State.spillRoom (s : State) (w : Nat) : Nat :=
  match s.wgs[w]?, s.launchOf? w with
  | some g, some l => l.desc.spillsz * 65536 - ((g.hay.filter (·.spilled)).length + g.spilledRecords) * spillBytes
  | _, _ => 0

/-- Drain records the core holds or will need. -/
def State.recordsHeld (s : State) (core : Nat) : Nat :=
  (s.wgs.zipIdx.map fun x =>
    if x.1.core = core && x.1.resident then (s.fragments x.2 x.1).length - x.1.spilledRecords else 0).sum

/-- An entry holds a byte of a drain record: the same home, or the same address of the workgroup (R285). -/
def State.entryMeets (s : State) (w : Nat) (e : Entry) (r : DrainRecord) : Bool :=
  let k := s.entryKey w e
  (k ≤ r.byte && r.byte < k + e.bytes.length) ||
    (e.target.isNone && r.va.any fun va => e.va.toNat ≤ va && va < e.va.toNat + e.bytes.length)

/-- A record may retire: no thread of lower index can still meet it (R285). -/
def State.retired (s : State) (w : Nat) (r : DrainRecord) : Bool :=
  (s.threadsOf w).all fun i => match s.threads[i]? with
    | some th => r.tid ≤ th.tid || th.exited || (r.at_ ≤ th.lastAcq &&
        !(((s.wgs[w]?).map fun g => g.hay.any fun e => e.thread = i && e.acq < th.lastAcq && s.entryMeets w e r).getD false))
    | none => true

/-- Records that may retire do. -/
def State.retireRecords (s : State) (w : Nat) : State :=
  s.updWg w fun g =>
    let rs := g.records.filter fun r => !s.retired w r
    { g with records := rs, spilledRecords := min g.spilledRecords ((rs.map fun r => r.byte / 32).dedup).length }

/-! ## Releases and acquires -/

/-- The state of a named or team barrier. -/
def State.barrier? (s : State) (w : Nat) : Option (BitVec 4) → Option Barrier
  | some n => (s.wgs[w]?).bind (·.barriers[n.toNat]?)
  | none => match s.wgs[w]? with
    | some g => (s.launches[g.launch]?).bind fun l => (l.teams[g.team]?).map (·.barrier)
    | none => none

/-- Whose releases an agent's acquire at a scope covers, as the workgroups stand now (R9, R330 rule 1, R332). -/
def State.reach (s : State) (a : Agent) (sc : BitVec 4) : Reach :=
  match sc.toNat, s.squadOfAgent a with
  | 0, _ => .agent a
  | 1, none => .agent a
  | 1, some q => .within 1 [s.wgOfAgent a] (some q)
  | _, _ => .within sc ((List.range s.wgs.length).filter fun w => s.within sc a (.drive w)) none

/-- An agent is one of those an acquire covered. -/
def State.covered (s : State) (r : Reach) (b : Agent) : Bool :=
  match r with
  | .agent a => a = b
  | .within sc wgs q =>
    if b.outer ≠ 0#4 then b.outer ≤ sc else wgs.contains (s.wgOfAgent b) && (q.isNone || s.squadOfAgent b = q)

/-- Writes of an object are released (R288, R330 rule 2, R411): the agent's own that it made before a time or that belong
to the operations named, and those it has obtained. -/
def State.release (s : State) (a : Agent) (objs : List Obj) (via : Obj) (sc : BitVec 4) (time : Nat) (ids : List Nat)
    (done : Bool) : State :=
  let got : Nat → Nat := fun w => match a with
    | .thread i => ((s.threads[i]?).map fun th => th.gotAt w).getD 0
    | _ => 0
  let r : Release := ⟨a, via, sc, s.commonsOf (s.wgOfAgent a), s.draw, done, false⟩
  { s with writes := (s.log.map fun (w, k) =>
      if objs.any (s.sameObj w.obj) && ((w.agent = a && (w.made < time || ids.contains w.op)) || k < got w.word) then
        { w with rels := w.rels ++ [r] }
      else w).reverse }

/-- A write was issued after a release: a buffered store's and an engine's too (R410). -/
def Release.before (r : Release) (v : Write) : Bool := r.time < v.made

/-- A thread has loaded a write that an agent made after a time in its program order, however it travelled (R407). -/
def State.saw (s : State) (th : Thread) (a : Agent) (made : Nat) (f : Write → Bool) : Bool :=
  s.log.any fun (v, k) => v.agent = a && made < v.made && f v && k < th.seenAt v.word

/-- A thread has loaded a write that the releasing agent made after the release (R289, R409). -/
def State.sawAfter (s : State) (th : Thread) (r : Release) : Bool :=
  s.log.any fun (v, k) => v.agent = r.agent && r.before v && k < th.seenAt v.word

/-- A write follows a release in the sense of R332: the releasing agent's own, or one of a writer that had acquired after
it. -/
def State.follows (s : State) (r : Release) (v : Write) : Bool :=
  (v.agent = r.agent && r.before v) || v.related.any fun x => r.time ≤ x.time && s.covered x.reach r.agent

/-- A thread has loaded a value written to the flag word after the release (R289, R332). -/
def State.sawFlag (s : State) (th : Thread) (obj : Obj) (r : Release) : Bool :=
  match s.flagKey obj with
  | some key => s.log.any fun (v, k) => v.word = key / 4 * 4 && k < th.seenAt v.word && s.follows r v
  | none => false

/-- A release is of a thread's own workgroup. -/
def State.ofOwn (s : State) (r : Release) (th : Thread) : Bool := s.wgOf? r.agent = some th.wg

/-- A release's scope covers a thread: commons scope as the commons stood at the release (R9, R330 rule 1). -/
def State.reaches (s : State) (r : Release) (i : Nat) (th : Thread) : Bool :=
  s.ofOwn r th && 2#4 ≤ r.scope || (if r.scope = 4#4 then r.members.contains th.wg
    else s.within r.scope r.agent (.thread i))

/-- A release through the default object and an acquire at a scope act on each other (R9, R288, R329, R330 rule 1): one at
commons scope among the members that the issuing workgroup's commons had then. -/
def State.meets (s : State) (r : Release) (sc : BitVec 4) (i : Nat) (th : Thread) : Bool :=
  covers sc r.scope && s.within sc r.agent (.thread i) &&
    (s.ofOwn r th || (!r.inner && (r.scope ≠ 4#4 || r.members.contains th.wg)))

/-- A write precedes a thread's acquire through an object at a scope (R288, R289, R330 rules 1 and 4, R332, R407, R409). -/
def State.precedes (s : State) (i : Nat) (th : Thread) (obj : Obj) (sc : BitVec 4) (w : Write) : Bool :=
  match obj with
  | .default => w.obj = .default &&
      ((w.rels.any fun r => s.meets r sc i th && (3#4 ≤ sc || s.sawAfter th r))
        || (s.within sc w.agent (.thread i) && s.saw th w.agent w.made fun v => v.obj = .default))
  | .event _ _ => w.rels.any fun r => r.via = obj
  | .barrier _ _ | .team _ _ => w.obj = obj &&
      (w.rels.any (fun r => r.via = obj && r.done) || s.saw th w.agent w.made fun v => v.obj = obj)
  | .flag _ _ | .mapped _ _ => s.sameObj w.obj obj &&
      ((w.rels.any fun r => s.sameObj r.via obj && s.reaches r i th &&
          (s.ofOwn r th || (4#4 ≤ sc && s.within sc r.agent (.thread i))) && s.sawFlag th obj r)
        || s.saw th w.agent w.made fun v => s.sameObj v.obj obj)

/-- What a thread's acquires relate, one more: of two that covered the same agents the later (R332). -/
def addRelated (l : List Related) (x : Related) : List Related :=
  ⟨x.reach, (l.filter fun y => y.reach = x.reach).foldl (fun t y => max t y.time) x.time⟩ :: l.filter fun y => y.reach ≠ x.reach

/-- The arrivals at a barrier in the phases it has completed, as an acquire through it relates them (R332). -/
def relatedBy (past : List (Agent × Nat)) : List Related := past.map fun x => ⟨.agent x.1, x.2⟩

/-- The copies held for a workgroup of words obtained at commons scope or wider are discarded: no thread of it is served from
them (R330 rule 3, R405; log 6). -/
def State.discard (s : State) (w : Nat) (got : List (Nat × Nat)) : State :=
  { s with threads := s.threads.map fun th =>
      if th.wg = w then { th with floors := raiseFloors th.floors got Floor.renew } else th }

/-- A thread's acquire at a scope obtains the writes a test selects: its floors rise, and at commons scope or wider those
of its workgroup; at workgroup scope or wider it counts for drain records, of which some may then retire (R285); it relates
the releases given to what the thread writes later (R332). -/
def State.obtain (s : State) (i : Nat) (sc : BitVec 4) (rel : List Related) (f : Thread → Write → Bool) : State :=
  match s.threads[i]? with
  | none => s
  | some th =>
    let got := (s.log.filter fun x => f th x.1).map fun x => (x.1.word, x.2 + 1)
    let s := s.updThread i fun th => { th with
      floors := raiseFloors th.floors got Floor.obtain, lastAcq := if 2#4 ≤ sc then s.draw else th.lastAcq
      related := rel.foldl addRelated th.related }
    let s := if 4#4 ≤ sc then s.discard th.wg got else s
    if 2#4 ≤ sc then s.retireRecords th.wg else s

/-- What an acquire through an object at a scope relates (R332). -/
def State.relates (s : State) (i : Nat) (obj : Obj) (sc : BitVec 4) : List Related :=
  let past (bar : Option (BitVec 4)) := relatedBy (((s.barrier? (s.wgOfAgent (.thread i)) bar).map (·.past)).getD [])
  match obj with
  | .default => [⟨s.reach (.thread i) sc, s.draw⟩]
  | .barrier _ n => past (some n)
  | .team _ _ => past none
  | _ => []

/-- An acquire through an object at a scope (R150, R288). -/
def State.acquire (s : State) (i : Nat) (obj : Obj) (sc : BitVec 4) : State :=
  s.obtain i sc (s.relates i obj sc) fun th w => s.precedes i th obj sc w

/-- The acquire of a barrier's completion through the barrier, and through the default object for what was released through
the barrier (R278, R280, R320). -/
def State.acquireBarrier (s : State) (i : Nat) (obj : Obj) (sc : BitVec 4) : State :=
  s.obtain i sc (s.relates i obj sc) fun th w =>
    s.precedes i th obj sc w || (w.obj = .default && w.rels.any fun r => r.via = obj && r.done) ||
      (w.obj = .default && s.within sc w.agent (.thread i) && s.saw th w.agent w.made fun v => v.obj = .default)

/-- A thread observes a tag done: it obtains that copy's writes (R272, R411). -/
def State.observeTag (s : State) (i : Nat) (t : Nat) : State :=
  match s.threads[i]? with
  | none => s
  | some th =>
    match (s.wgs[th.wg]?).bind (·.tags[t]?) with
    | some tag => s.obtain i 2#4 [] fun _ w => w.op = tag.copy && tag.copy ≠ 0
    | none => s

/-- An entry, wadd, engine word or copy is still outstanding; an entry that a saved context holds back is in no drain
(R291, R296). -/
def State.outstanding (s : State) (id : Nat) : Bool :=
  s.wgs.any (fun g => g.hay.any (fun e => e.id = id && !e.held) || g.wadds.any (·.id = id) ||
    (g.drive.map fun d => d.ops.any (·.id = id)).getD false) || s.copies.any (·.id = id)

/-- Drains in progress of the workgroups within a scope of a thread (R406). -/
def State.draining (s : State) (k : Nat) (sc : BitVec 4) : List Nat :=
  (List.range s.wgs.length).flatMap fun w => if s.within sc (.thread k) (.drive w) then
      match s.wgs[w]? with
      | some g => (g.hay.filter fun e => e.committed && !e.held).map (·.id)
      | none => []
    else []

/-- A word whose wait is over ends with an acquire of the default object at a scope, once the drains in progress within it
have been performed (R406). -/
def State.acquireAfter (s : State) (i : Nat) (sc : BitVec 4) (ids : List Nat) : State :=
  let ids := ids.filter s.outstanding
  if ids.isEmpty then (s.acquire i .default sc).updThread i fun th => th.advance 1
  else s.updThread i fun th => { th with park := .acquire sc ids }

/-- A thread waits before its word's acquire. -/
def Park.acquires (p : Park) : Bool :=
  match p with
  | .acquire _ _ => true
  | _ => false

/-- A thread that waits before its word's acquire tries again. -/
def State.acquireAgain (s : State) (i : Nat) (th : Thread) : State :=
  match th.park with
  | .acquire sc ids => s.acquireAfter i sc ids
  | _ => s

/-- A detached copy whose workgroup has left the core since it issued: it counts against the core alone (R178, R267,
R296). -/
def State.stray (s : State) (c : Copy) : Bool :=
  c.form = .detach &&
    !(((s.wgs[c.wg]?).map fun g => g.resident && g.core = c.core && g.placedAt ≤ c.origin.time).getD false)

/-! ## Barriers -/

/-- Writing a barrier. -/
def State.setBarrier (s : State) (w : Nat) (bar : Option (BitVec 4)) (b : Barrier) : State :=
  match bar with
  | some n => s.updWg w fun g => { g with barriers := g.barriers.set n.toNat b }
  | none =>
    match s.wgs[w]? with
    | some g => { s with launches := s.launches.modify g.launch fun l =>
        { l with teams := l.teams.modify g.team fun t => { t with barrier := b } } }
    | none => s

/-- The object a barrier is, and the scope its arrivals release at (R280, R320). -/
def State.barObj (s : State) (w : Nat) : Option (BitVec 4) → Obj × BitVec 4
  | some n => (.barrier w n, 2#4)
  | none => match s.wgs[w]? with
    | some g => (.team g.launch g.team, 5#4)
    | none => (.default, 5#4)

/-- The workgroups whose members wait at a barrier. -/
def State.barWgs (s : State) (w : Nat) : Option (BitVec 4) → List Nat
  | some _ => [w]
  | none => match s.wgs[w]? with
    | some g => (List.range s.wgs.length).filter fun x => match s.wgs[x]? with
      | some h => h.launch = g.launch && h.team = g.team
      | none => false
    | none => []

/-- A parked member waits at a barrier. -/
def Park.atBar (p : Park) (bar : Option (BitVec 4)) : Bool :=
  match p with
  | .phase n => n = bar
  | .parity n _ => n = bar
  | _ => false

/-- A thread's wait at a barrier is over: its acquire (R278), which at the team barrier is also one of the default object at
cluster scope (R320). -/
def State.passBar (s : State) (w i : Nat) (bar : Option (BitVec 4)) : State :=
  let (obj, sc) := s.barObj w bar
  let s := s.acquireBarrier i obj sc
  if bar.isNone then s.acquireAfter i sc (s.draining i sc) else s.updThread i fun th => th.advance 1

/-- A drive stream's wait at a barrier is over (R279, R290): what it issues from now on is related to the arrivals (R332). -/
def State.passBarDrive (s : State) (w : Nat) (bar : Option (BitVec 4)) : State :=
  let past := relatedBy (((s.barrier? w bar).map (·.past)).getD [])
  s.updDrive w fun d => { d.advance 1 with related := past.foldl addRelated d.related }

/-- Every waiter of a completed phase goes on, with its acquire (R278); the releases of its arrivals stand. -/
def State.releaseBar (s : State) (w : Nat) (bar : Option (BitVec 4)) : State :=
  let (obj, _) := s.barObj w bar
  let s : State := { s with writes := s.writes.map fun x =>
    { x with rels := x.rels.map fun r => if r.via = obj then { r with done := true } else r } }
  (s.barWgs w bar).foldl (fun s x =>
    let s : State := (s.threadsOf x).foldl (fun s i =>
      if ((s.threads[i]?).map fun th => th.park.atBar bar).getD false then s.passBar x i bar else s) s
    if ((s.drive? x).map fun d => d.park.atBar bar).getD false then s.passBarDrive x bar else s) s

/-- Arrive(n, w) of R278: weight is added, phases complete, waiters go on. -/
def State.arrive (s : State) (w : Nat) (bar : Option (BitVec 4)) (weight : Nat) : State :=
  match s.barrier? w bar with
  | none => s
  | some b =>
    let c := b.count.toNat + weight
    let e := b.expected.toNat
    if e = 0 || c < e then s.setBarrier w bar { b with count := BitVec.ofNat 16 c }
    else (s.setBarrier w bar { b with
        count := BitVec.ofNat 16 (c % e), phase := b.phase + BitVec.ofNat 16 (c / e)
        came := [], past := b.came.foldl (fun l x => x :: l.filter fun y => y.1 ≠ x.1) b.past }).releaseBar w bar

/-! ## Operations outstanding -/

/-- One arrival counts: its releases are made, a `sync` then waits for a phase, the weight is added (R278-R280). -/
def State.fireDue (s : State) (w : Nat) (d : Due) : State :=
  let (obj, sc) := s.barObj w d.bar
  let s : State := s.release d.agent [obj, .default] obj sc d.time d.ids false
  let s : State := if d.sync then match d.agent with
      | .thread i => s.updThread i fun th => { th with park := .phase d.bar }
      | .drive x => s.updDrive x fun v => { v with park := .phase d.bar }
      | .host | .peer _ => s
    else s
  let s : State := match s.barrier? w d.bar with
    | some b => s.setBarrier w d.bar { b with came := b.came ++ [(d.agent, d.time)] }
    | none => s
  s.arrive w d.bar d.weight

/-- The arrivals whose operations have all been performed count, in their order (R278, R279, R284). -/
def State.settleDue (s : State) (w : Nat) : State :=
  match s.wgs[w]? with
  | none => s
  | some g =>
    let ready := g.due.filter fun d => !(d.ids.any s.outstanding)
    let s : State := s.updWg w fun g => { g with due := g.due.filter fun d => !ready.contains d }
    ready.foldl (fun s d => s.fireDue w d) s

/-! ## The Hayrick -/

/-- Entries a workgroup's share holds (R177). -/
def Wg.share (g : Wg) : Nat := 64 * g.squads.length

/-- The share is full. -/
def Wg.full (g : Wg) : Bool := g.share ≤ (g.hay.filter fun e => !e.spilled).length

/-- The latest byte a thread has in the Hayrick for the byte that an address names, and whether its store is speculative
(R140, R165, R323). -/
def State.forward (s : State) (w i : Nat) (va : Nat) : Option (Byte × Bool) :=
  match s.wgs[w]? with
  | none => none
  | some g =>
    let k := s.byteKey w va
    g.hay.foldl (fun r e =>
      if e.thread = i then
        let b := s.entryKey w e
        match (List.range e.bytes.length).find? fun j => b + j = k with
        | some j => ((e.bytes[j]?).map fun b => (b, e.spec)).or r
        | none => r
      else r) none

/-- An entry enters the share; with the share full it spills (R140, R177); a speculative entry instead makes an
ordinary one spill (R128). None: neither entry nor spill space. -/
def State.enterHay (s : State) (w : Nat) (e : Entry) : Option State :=
  match s.wgs[w]? with
  | none => none
  | some g =>
    if !g.full then some (s.updWg w fun g => { g with hay := g.hay ++ [e] })
    else if s.spillRoom w < spillBytes then none
    else if !e.spec then some (s.updWg w fun g => { g with hay := g.hay ++ [{ e with spilled := true }] })
    else match g.hay.findIdx? fun x => !x.spec && !x.spilled with
      | none => none
      | some k => some (s.updWg w fun g =>
          { g with hay := (g.hay.modify k fun x => { x with spilled := true }) ++ [e] })

/-- Entries in ascending thread index, each thread's in program order. -/
def insertEntry (e : Entry) : List Entry → List Entry
  | [] => [e]
  | x :: t => if e.tid < x.tid then e :: x :: t else x :: insertEntry e t

/-- Drain order of a whole share (R284). -/
def drainOrder (l : List Entry) : List Entry := l.foldl (fun acc e => insertEntry e acc) []

/-- A commit point takes the entries selected: they drain behind those already committed, in drain order (R284). None:
neither a drain record nor spill space for one (R285). -/
def State.commit (s : State) (w : Nat) (sel : Entry → Bool) : Option State :=
  match s.wgs[w]? with
  | none => none
  | some g =>
    let pick : Entry → Bool := fun e => !e.committed && !e.spec && sel e
    let have_ := s.fragments w g
    let new := ((g.hay.filter pick).map fun e => s.entryKey w e / 32).dedup.filter fun f => !have_.contains f
    let extra := s.recordsHeld g.core + new.length - 1024
    if extra ≠ 0 && s.spillRoom w < extra * spillBytes then none
    else some (s.updWg w fun g =>
      { g with
        hay := ((g.hay.filter (·.committed)).map fun e => { e with held := false }) ++
          ((drainOrder (g.hay.filter pick)).map fun e => { e with committed := true }) ++
          (g.hay.filter fun e => !e.committed && !pick e)
        committed := true
        spilledRecords := g.spilledRecords + extra })

/-- What a thread's commit point waits for: its ordinary entries and its `wadd`s (R148, R284). -/
def State.commitIds (s : State) (w i : Nat) : List Nat :=
  match s.wgs[w]? with
  | none => []
  | some g => ((g.hay.filter fun e => e.thread = i && !e.spec).map (·.id)) ++ ((g.wadds.filter (·.thread = i)).map (·.id))

/-- The first committed entry of a share. -/
def Wg.nextDrain (g : Wg) : Option Entry := g.hay.find? (·.committed)

/-- An earlier `wadd` of the same thread to these bytes has still to be performed (R166). -/
def State.waddBefore (s : State) (w thread id : Nat) (keys : List Nat) : Bool :=
  ((s.wgs[w]?).map fun g => g.wadds.any fun a => a.thread = thread && a.id < id &&
    (let k := match a.target with
        | some x => poolKey x (a.va.toNat % 2 ^ 24)
        | none => s.byteKey w a.va.toNat
     keys.any fun b => k ≤ b && b < k + 16)).getD false

/-- The entry leaves the share. -/
def State.dropEntry (s : State) (w id : Nat) : State :=
  s.updWg w fun g => { g with hay := g.hay.filter fun e => e.id ≠ id }

/-- The workgroup stands in a saved context, or is being saved or restored: nothing drains (R296). -/
def Wg.saved (g : Wg) : Bool :=
  g.state = .saving || g.state = .saved || g.state = .resuming || g.state = .lighting || g.state = .restored

/-- An entry's drain is over: arrivals that waited for it count, records that may retire do, and a workgroup that has
left its core loses its records with its last entry (R301). -/
def State.drained (s : State) (w id : Nat) : State :=
  let s : State := ((s.dropEntry w id).settleDue w).retireRecords w
  s.updWg w fun g => if !g.resident && g.hay.isEmpty && !g.saved then
    { g with records := [], spilledRecords := 0 } else g

/-- An entry is performed, byte by byte against the drain records (R285): a byte that a thread of higher index has
drained since the store's last acquire is dropped, and the entry's thread then loads that one's value or a later one
(R165). -/
def State.performEntry (s : State) (w : Nat) (e : Entry) (phys : Nat) : State :=
  let rs := ((s.wgs[w]?).map (·.records)).getD []
  let vaOf : Nat → Option Nat := fun a => if e.target.isNone then some (e.va.toNat + (a - phys)) else none
  let meets : Nat → DrainRecord → Bool := fun a r => r.byte = s.keyOf a || (r.va.isSome && r.va = vaOf a)
  let late : Nat → List DrainRecord := fun a => rs.filter fun r => meets a r && e.tid < r.tid && e.acq < r.at_
  let kept := (at_ phys e.bytes).filter fun b => (late b.1).isEmpty
  let lost := (at_ phys e.bytes).flatMap fun b => (late b.1).map fun r => (s.keyOf (b.1 / 4 * 4), r.pos)
  let s : State := s.updThread e.thread fun th => { th with floors := raiseFloors th.floors lost Floor.renew }
  let s : State := s.perform (.thread e.thread) (objsFrom phys e.objs) e.related e.made e.id kept
  s.updWg w fun g => { g with records :=
    (g.records.filter fun r => !(r.tid = e.tid && kept.any fun b => meets b.1 r)) ++
      (kept.map fun b => ⟨e.tid, s.keyOf b.1, vaOf b.1, s.draw, s.writes.length⟩) }

/-- A drain to a slot that was revoked is counted and dropped (R325). -/
def State.countDropped (s : State) (w : Nat) : State :=
  s.updWg w fun g => { g with dropped := if g.dropped = 0xFFFF#16 then g.dropped else g.dropped + 1 }

/-- What the drain of a share's next entry does (R284, R285, R325, R338, R342, R413); none where it is held back. -/
def State.drainNext (s : State) (w : Nat) : Option State :=
  match s.wgs[w]? with
  | none => none
  | some g =>
    match g.nextDrain with
    | none => none
    | some e =>
      let va := e.va.toNat
      let discard : State → State := fun s => (s.postFault w va 0xFFFF#16 3#8 6#4 0#4 1#2 e.tid).drained w e.id
      let k := s.entryKey w e
      let locked := s.locked g.core k (k + e.bytes.length) true
      if e.parked || e.held || g.saved || s.waddBefore w e.thread e.id ((List.range e.bytes.length).map (k + ·)) then none
      else if e.gone then some ((s.countDropped w).drained w e.id)
      else match s.entryPlace w e with
        | .bad | .homeless => some (discard s)
        | .away => some (s.drained w e.id)
        | .lost => some (s.drained w e.id)
        | .pool x off =>
          if locked then none
          else if s.lostAt x off then some (s.drained w e.id)
          else some ((s.performEntry w e (s.poolPhys x off)).drained w e.id)
        | .page p perm =>
          if !perm.getLsbD 1 then some (discard (s.look w va))
          else if locked then none
          else some (((s.look w va).performEntry w e p).drained w e.id)
        | .absent st perm =>
          if !perm.getLsbD 1 then some (discard (s.look w va))
          else if locked then none
          else ((s.look w va).parkAccess w va st (.entry w e.id) 1#2 6#4 e.tid).map fun s =>
            s.updWg w fun g => { g with hay := g.hay.map fun x => if x.id = e.id then { x with parked := true } else x }

/-! ## Wide cells -/

/-- E of the region that holds a wide cell (R147). -/
def State.regionExp (s : State) (phys : Nat) : Int :=
  ((memWord s.mem (phys / 65536 * 65536)).extractLsb' 0 10).toInt

/-- The wide cell in a slot (R72): bits [127:97] aside. -/
def State.cellAt (s : State) (phys : Nat) : Nat := ofBytes (memRead s.mem phys 16)

/-- The value a `wadd` leaves in a slot (R73, R148): reserved bits stand. -/
def State.waddSlot (s : State) (phys : Nat) (v : Word) (mode : BitVec 3) : List Byte :=
  let (x, o) := roundToGrid (fp32.decode v.toNat) (s.regionExp phys) mode
  let old := s.cellAt phys
  let c := wideAdd (cellOfNat old) x o
  toBytes 16 (old / 2 ^ 97 * 2 ^ 97 + natOfCell c)

end Sys2Proof.Machine
end

