-- ==== Sys2Proof/Machine/Debug.lean ====
section
/-! DEFINITION. Debug: the debug context block as a core holds it (R376), comparators and holds (R377-R379), watch
ranges and debug records (R381, R382). -/

namespace Sys2Proof.Machine

/-- The block a core holds for a workgroup's process (R376). -/
def State.debugOf (s : State) (w : Nat) : Option Debug :=
  ((s.cores[s.coreOf w]?).bind (·.debug)).bind fun d => if d.proc = s.procOf w then some d else none

/-- A word of the block. -/
def Debug.word (d : Debug) (k : Nat) : Word := d.words.getD k 0

/-- Comparators, watches and `brk` go to the handler: ctl[0]. -/
def State.handled (s : State) (w : Nat) : Bool := ((s.debugOf w).map fun d => (d.word 0).getLsbD 0).getD false

/-- An entry's launch matches (R377). -/
def State.matchesLaunch (s : State) (w : Nat) (x : Word) : Bool := x = 0 || x = s.launchId w

/-- The comparator that matches a stream's next word (R377, R378). -/
def State.comparator (s : State) (w : Nat) (drive : Bool) (squad : Nat) (addr : VAddr) : Option Nat :=
  if !s.handled w then none
  else (s.debugOf w).bind fun d => (List.range 8).find? fun k =>
    let f := fun j => d.word (16 + 8 * k + j)
    (f 4).getLsbD 0 && (f 4).getLsbD 1 = drive && s.matchesLaunch w (f 3) && (drive || (f 2).getLsbD squad) &&
      (f 1 ++ f 0).setWidth 57 = addr

/-- A watch range of a block's words: its base, its length, its kinds, its launch (R381). -/
def watchWord (ws : List Word) (k j : Nat) : Word := ws.getD (80 + 8 * k + j) 0

/-- The watch range that bytes [va, va + n) of a kind meet: bit 0 reads, bit 1 writes, bit 2 engine writes (R381). -/
def State.watch (s : State) (w va n : Nat) (bit : Nat) : Option Nat :=
  if !s.handled w then none
  else (s.debugOf w).bind fun d => (List.range 4).find? fun k =>
    let f := watchWord d.words k
    let base := (f 1 ++ f 0).toNat
    (f 4).getLsbD bit && s.matchesLaunch w (f 3) && base < va + n && va < base + (f 2).toNat

/-- The layout of a debug record (R382). -/
def debugRecord (time addr : BitVec 64) (launch : Word) (kind : BitVec 8) (wgid : BitVec 24) (tid : BitVec 10)
    (drive : Bool) (index code : BitVec 8) (dropped : BitVec 16) : BitVec 256 :=
  time ++ addr ++ launch ++ kind ++ wgid ++ tid ++ (if drive then 1#1 else 0#1) ++ 0#5 ++ index ++ code ++ dropped ++ 0#16

/-- A record about a workgroup, before it is written. -/
def State.debugRecordOf (s : State) (w : Nat) (addr : BitVec 64) (kind : BitVec 8) (tid : BitVec 10) (drive : Bool)
    (index : Nat) (code : BitVec 8) : BitVec 256 :=
  debugRecord (BitVec.ofNat 64 s.clk) addr (s.launchId w) kind (((s.wgs[w]?).map (·.wgid)).getD 0)
    (if drive then 0 else tid) drive (BitVec.ofNat 8 index) code 0

/-- The dropped field of a record, saturating (R382, R386): filled as it is written. -/
def withDropped (r : BitVec 256) (n : Nat) : BitVec 256 := r ||| ((BitVec.ofNat 16 (min n 65535)).setWidth 256 <<< 16)

/-- The device writes memory of its own rings and blocks at their home. -/
def State.poke (s : State) (a : Nat) (bs : List Byte) : State := { s with mem := memPut s.mem a bs }

/-- The ring rule of R366 for the debug queue of a process's block: none where the queue is full. The record carries how
many records of kinds 4 and 5 have been dropped since the last one (R382). -/
def State.pushDebug (s : State) (p block : Nat) (r : BitVec 256) : Option State :=
  let size := 2 ^ ((memWord s.mem (block + 16)).toNat % 32)
  let head := (memWord s.mem (block + 20)).toNat % size
  let tail := (memWord s.mem (block + 24)).toNat % size
  let lost := ((s.processes[p]?).map (·.dropped)).getD 0
  if (head + 1) % size = tail then none
  else
    let s : State := (s.poke ((memDouble s.mem (block + 8)).toNat + 32 * head) (toBytes 32 (withDropped r lost).toNat)).poke
      (block + 20) (toBytes 4 ((head + 1) % size))
    some { s with processes := s.processes.modify p fun x => { x with dropped := 0 } }

/-- A hold with its record: the record waits on the core while the queue is full (R382). -/
def State.holdRecord (s : State) (w : Nat) (r : BitVec 256) : State × Option (BitVec 256) :=
  match s.debugOf w with
  | none => (s, none)
  | some d => match s.pushDebug d.proc d.block r with
    | some s => (s, none)
    | none => (s, some r)

/-- A thread is held before its word (R378, R381). -/
def State.holdThread (s : State) (i : Nat) (brk : Bool) (r : BitVec 256) : State :=
  match s.threads[i]? with
  | none => s
  | some th =>
    let (s, left) := s.holdRecord th.wg r
    s.updThread i fun th => { th with hold := some ⟨brk, left⟩ }

/-- A drive stream is held before its word (R378). -/
def State.holdDrive (s : State) (w : Nat) (r : BitVec 256) : State :=
  let (s, left) := s.holdRecord w r
  s.updDrive w fun d => { d with hold := some ⟨false, left⟩ }

/-- A thread access that meets a watch range holds the thread, with EA in a kind-3 record (R381). -/
def State.watchThread (s : State) (i : Nat) (th : Thread) (ea : BitVec 64) (n bit : Nat) : Option State :=
  if th.unmatched then none
  else (s.watch th.wg ea.toNat n bit).map fun k =>
    s.holdThread i false (s.debugRecordOf th.wg ea 3#8 th.tid false k 0)

/-- The words of a block in memory. -/
def State.blockWords (s : State) (block : Nat) : List Word := (List.range 128).map fun k => memWord s.mem (block + 4 * k)

/-- The block that an engine's writes on a core are matched with: the core's copy, or where the core holds none of the
process any more, the attached block itself (R267, R381). -/
def State.engineBlock (s : State) (core p : Nat) : Option (Nat × List Word) :=
  match (s.cores[core]?).bind (·.debug) with
  | some d => if d.proc = p then some (d.block, d.words) else ((s.processes[p]?).bind (·.debug)).map fun b => (b, s.blockWords b)
  | none => ((s.processes[p]?).bind (·.debug)).map fun b => (b, s.blockWords b)

/-- A record of kind 4 or 5 is written, or where the queue is full dropped and counted (R382). -/
def State.postWatch (s : State) (p block : Nat) (r : BitVec 256) : State :=
  match s.pushDebug p block r with
  | some s => s
  | none => { s with processes := s.processes.modify p fun x => { x with dropped := x.dropped + 1 } }

/-- An engine's writes on a core, as runs of addresses and lengths, that overlap a watch range make a record per range
(R381). `ended`: the issuing workgroup has ended. -/
def State.watchEngine (s : State) (core w : Nat) (runs : List (Nat × Nat)) (tid : BitVec 10) (drive ended : Bool) : State :=
  match s.engineBlock core (s.procOf w) with
  | none => s
  | some (block, ws) =>
    if !(ws.getD 0 0).getLsbD 0 then s
    else (List.range 4).foldl (fun s k =>
      let f := watchWord ws k
      let base := (f 1 ++ f 0).toNat
      match (runs.filter fun r => base < r.1 + r.2 && r.1 < base + (f 2).toNat).map (fun r => max r.1 base) with
      | [] => s
      | a :: t =>
        if (f 4).getLsbD 2 && s.matchesLaunch w (f 3) then
          s.postWatch (s.procOf w) block
            (s.debugRecordOf w (BitVec.ofNat 64 (t.foldl min a)) (if ended then 5#8 else 4#8) tid drive k 0)
        else s) s

/-! ## Loading a block (R376, R384) -/

/-- 64-bit counts added to those in memory. -/
def addCounts (m : List Host.Cell) (a : Nat) : List Nat → List Host.Cell
  | [] => m
  | n :: t => addCounts (memPut m a (toBytes 8 ((memDouble m a).toNat + n))) (a + 8) t

/-- Blink adds a core's counts to its 256 bytes of the histogram area (R384). -/
def State.flushHistogram (s : State) (core : Nat) : State :=
  match (s.cores[core]?).bind (·.debug) with
  | none => s
  | some d =>
    let base := (d.word 15 ++ d.word 14).toNat + 256 * core
    let s : State := { s with mem := addCounts (addCounts s.mem base d.bins) (base + 128) d.reasons }
    s.updCore core fun c => { c with debug := some { d with bins := List.replicate 9 0, reasons := List.replicate 16 0 } }

/-- The layout of a sample record, before it is written (R386). -/
def sampleRecord (time pc : BitVec 64) (launch : Word) (wgid : BitVec 24) (tid : BitVec 10) (reason eligible active : BitVec 4)
    (issued : BitVec 8) : BitVec 256 :=
  time ++ pc ++ launch ++ 0#8 ++ wgid ++ tid ++ 0#6 ++ reason ++ eligible ++ active ++ 0#20 ++ issued ++ 0#8

/-- A sample goes to the ring of a block, with the samples dropped before it, or is dropped and counted (R386). -/
def State.pushSample (s : State) (block : Nat) (r : BitVec 256) : State :=
  let size := 2 ^ ((memWord s.mem (block + 40)).toNat % 32)
  let head := (memWord s.mem (block + 44)).toNat % size
  let tail := (memWord s.mem (block + 48)).toNat % size
  let drop := memWord s.mem (block + 52)
  if (head + 1) % size = tail then
    s.poke (block + 52) (toBytes 4 (if drop = BitVec.allOnes 32 then drop else drop + 1).toNat)
  else
    let s : State := s.poke ((memDouble s.mem (block + 32)).toNat + 32 * head) (toBytes 32 (withDropped r drop.toNat).toNat)
    (s.poke (block + 44) (toBytes 4 ((head + 1) % size))).poke (block + 52) (toBytes 4 0)

/-- A core's samples that are not in the ring yet go there before its copy of the block is replaced or cleared. -/
def State.pushSamples (s : State) (core : Nat) : State :=
  match (s.cores[core]?).bind (·.debug) with
  | some d => (d.samples.foldl (fun s r => s.pushSample d.block r) s).updCore core fun c =>
      { c with debug := (c.debug).map fun d => { d with samples := [] } }
  | none => s

/-- A core's copy after a load: counts and sampling go on where the same process's block was loaded before (R376, R384,
R385). Sampling switched on by a reload begins at once where a workgroup of the process is past its ac 0, `running`; it
begins otherwise with the next (R387; log 49). -/
def Debug.reload (old : Option Debug) (p block : Nat) (words : List Word) (clk : Nat) (running : Bool) : Debug :=
  let sampling := (words.getD 0 0).getLsbD 2
  let start : Option Nat := if sampling && running then some clk else none
  let fresh : Debug := ⟨p, block, words, List.replicate 9 0, List.replicate 16 0, start, none, [], clk⟩
  match old with
  | some d =>
    if d.proc = p && d.block = block then
      { d with words := words, t0 := if sampling then d.t0.or start else none, lastSlot := if sampling then d.lastSlot else none }
    else fresh
  | none => fresh

/-- A core's copy is about to be replaced by the words of a block, or cleared: the counts of a histogram that ends are
written (R384), and the samples taken. -/
def State.leaveBlock (s : State) (core : Nat) (stays : Debug → Bool) : State :=
  match (s.cores[core]?).bind (·.debug) with
  | some d =>
    let s : State := if (d.word 0).getLsbD 1 && !stays d then s.flushHistogram core else s
    s.pushSamples core
  | none => s

/-- A core loads the block of a process, if one is attached (R376). -/
def State.loadBlock (s : State) (core p : Nat) : State :=
  match (s.processes[p]?).bind (·.debug) with
  | some block =>
    let words := s.blockWords block
    let running := (s.residents core).any fun w => s.procOf w = p && ((s.wgs[w]?).bind (·.ac0)).isSome
    (s.leaveBlock core fun d => d.proc = p && d.block = block && (words.getD 0 0).getLsbD 1).updCore core fun c =>
      { c with debug := some (Debug.reload c.debug p block words s.clk running) }
  | none => s

/-- The ac 0 of a workgroup (R179): the first in which a squad of it takes a header. Sampling begins on its core where it
was placed while no workgroup of its process stood there (R387). -/
def State.begun (s : State) (w : Nat) : State :=
  match s.wgs[w]? with
  | none => s
  | some g =>
    let p := s.procOf w
    let start : Debug → Debug := fun d =>
      if g.alone && d.proc = p && (d.word 0).getLsbD 2 then { d with t0 := some s.clk, lastSlot := none } else d
    if g.ac0.isSome then s
    else (s.updWg w fun g => { g with ac0 := some s.clk }).updCore g.core fun c => { c with debug := (c.debug).map start }

end Sys2Proof.Machine
end

