-- ==== Sys2Proof/Machine/Access.lean ====
section
/-! DEFINITION. Access: the checks of a thread access (R138), losses (R210, R211), loads, stores and atomics as the
memory words use them (R139-R143, R146, R165-R168). -/

namespace Sys2Proof.Machine

/-- What an access does. -/
inductive Kind where
  | read
  | write
  | atomic
deriving DecidableEq, Repr

/-- EA[31:0] as s.tval carries it (R138). -/
def low (ea : BitVec 64) : Word := ea.setWidth 32

/-- Step 3 of R138: a mapping and its permissions; in the own window, an allocation (R197). -/
def State.permits (s : State) (w : Nat) (p : Place) (k : Kind) : Bool :=
  let ok : BitVec 3 → Bool := fun perm => (k = .write || perm.getLsbD 0) && (k = .read || perm.getLsbD 1)
  match p with
  | .bad | .homeless => false
  | .pool x off => x ≠ w || (s.allocAt w off).isSome
  | .page _ perm => ok perm
  | .absent _ perm => ok perm
  | _ => true

/-- Another thread of the workgroup is in a loss entry for an allocation. -/
def State.handling (s : State) (w k base : Nat) : Bool :=
  (s.threadsOf w).any fun i => i ≠ k && (((s.threads[i]?).bind (·.loss)).map (·.alloc)) = some base

/-- LossEntry (R210): abort in speculation, the nested path in a loss entry (R211), parking behind another thread's
handler, failure where the handler is zero, else entry into the handler. -/
def State.lossEntry (s : State) (k : Nat) (th : Thread) (a : Alloc) (ea : BitVec 64) : Except State (State × Place) :=
  if th.spec.isSome then .error (s.abort k 8#8 0 0)
  else match th.loss with
    | some e => .ok (s.updThread k fun th => { th with loss := some { e with nested := true } }, .lost)
    | none =>
      if s.handling th.wg k a.base then .error (s.updThread k fun th => { th with park := .handler a.base })
      else if a.handler = 0 then .error (s.failWg th.wg ea (low ea) causeNoHandler 0#4 th.tid)
      else .error (s.updThread k fun th =>
        { th with loss := some ⟨a.base, ea, false, th.pc⟩, park := .none, unmatched := false, recheck := false,
                  pc := ⟨a.handler.setWidth 57, 0⟩ })

/-- The range-lock test of an access (R138 step 4), by the names of its bytes: the page or pool may have moved since the
lock was taken. -/
def State.lockMet (s : State) (w : Nat) (va n : Nat) (k : Kind) : Bool :=
  s.locked (s.coreOf w) (s.byteKey w va) (s.byteKey w va + n) (k ≠ .read)

/-- A speculative store's address lies in the thread's own scratchpad (R128). -/
def State.storesOwn (s : State) (th : Thread) (ea : BitVec 64) (kind : Kind) : Bool :=
  kind ≠ .read && th.spec.isSome && ea.extractLsb' 57 7 = 0 && (match s.place th.wg ea.toNat with
    | .pool w _ => w = th.wg
    | _ => false)

/-- The checks of R138 in their order, with the watch test of R381 at step 4, code 5 for a speculative store to the own
scratchpad before them all (R128, R136, R137), and `shld`'s exception (R143). Either the step is over, or the access goes
on at its place. -/
def State.checkAccess (s : State) (k : Nat) (th : Thread) (ea : BitVec 64) (n : Nat) (kind : Kind) (spared : Bool) :
    Except State (State × Place) :=
  if s.storesOwn th ea kind then .error (s.abort k 5#8 0 0)
  else if ea.extractLsb' 57 7 ≠ 0 then .error (s.takeTrap k causeAccess (low ea))
  else if ea.toNat % n ≠ 0 then .error (s.takeTrap k causeMisalign (low ea))
  else
    let p := s.place th.wg ea.toNat
    let s := s.look th.wg ea.toNat
    if !s.permits th.wg p kind then .error (s.takeTrap k causeAccess (low ea))
    else if s.lockMet th.wg ea.toNat n kind then .error (s.takeTrap k causeRangeLock (low ea))
    else match s.watchThread k th ea n (if kind = .read then 0 else 1) with
      | some s => .error s
      | none =>
        match p with
        | .pool w off =>
          if w ≠ th.wg then .ok (s, p)
          else match s.allocAt w off with
            | some a => if !a.lost then .ok (s, p) else if spared then .ok (s, .lost) else s.lossEntry k th a ea
            | none => .ok (s, p)
        | _ => .ok (s, p)

/-- The place is the thread's own scratchpad (R140). -/
def Place.own (p : Place) (w : Nat) : Bool :=
  match p with
  | .pool x _ => x = w
  | _ => false

/-- A load's home has data for it (R139, R167, R213, R338). -/
def State.served (s : State) (p : Place) : Bool := !s.dead p && (s.physOf p).isSome

/-- The bytes a load delivers, none where it writes zero and sets the residency bit (R140, R165, R167). `fresh`: read at
the home as it stands (R149). -/
def State.loadBytes (s : State) (k : Nat) (th : Thread) (p : Place) (va n : Nat) (fresh : Bool) : Option (List Byte) :=
  if p.own th.wg then (s.physOf p).map fun a => if fresh then memRead s.mem a n else s.agedBytes th a n true
  else
    let fw := (List.range n).map fun j => s.forward th.wg k (va + j)
    if fw.all Option.isSome then some (fw.map fun b => (b.map (·.1)).getD 0)
    else if !s.served p then none
    else (s.physOf p).map fun a =>
      let home := if fresh then memRead s.mem a n else s.agedBytes th a n false
      fw.zipWith (fun b h => (b.map (·.1)).getD h) home

/-- A `wadd` of the thread to one of these bytes has not been performed (R166). -/
def State.waddWaits (s : State) (w k va n : Nat) : Bool :=
  s.waddBefore w k s.nextId ((List.range n).map fun j => s.byteKey w (va + j))

/-- 32-byte fragments of byte addresses (R127, R128). -/
def fragmentsOf (l : List Nat) : List Nat := (l.map (· / 32)).dedup

/-- Bytes entered in the read set (R127); none past 32 fragments. -/
def Spec.enterReads (sp : Spec) (bytes : List Nat) : Option Spec :=
  let r := (bytes ++ sp.reads).dedup
  if 32 < (fragmentsOf r).length then none else some { sp with reads := r }

/-- The bytes an advanced load enters: all but those forwarded from the thread's own speculative stores (R127). -/
def State.advanced (s : State) (k : Nat) (th : Thread) (p : Place) (va n : Nat) : List Nat :=
  ((List.range n).map (va + ·)).filter fun a =>
    p.own th.wg || !(((s.forward th.wg k a).map (·.2)).getD false)

/-- A load goes out: its registers are written when it completes (R185; log 7); the residency bit is set at once, so that
no later word reads m3 without it (R139, R184). -/
def State.sendLoad (s : State) (k : Nat) (ws : List (BitVec 7 × Word)) (absent : Bool) (flags : Word) (far : Bool)
    (slots : Nat) : State :=
  (s.fresh).updThread k fun th =>
    let th := if absent then th.setAbsent else th
    { th.advance slots with loads := th.loads ++ [⟨s.nextId, ws, flags, far⟩] }

/-- What an absent page's touch starts (R139, R342). -/
def State.touch (s : State) (th : Thread) (p : Place) (va : Nat) (kind : BitVec 2) : State :=
  match p with
  | .absent st _ => s.ask th.wg va st kind 0#4 th.tid
  | _ => s

/-- A load that found no data (R139, R167): zeros, and the residency bit. -/
def State.sendZeros (s : State) (k : Nat) (th : Thread) (p : Place) (va : Nat) (ws : List (BitVec 7 × Word)) (far : Bool)
    (slots : Nat) : State :=
  (s.touch th p va 0#2).sendLoad k (ws.map fun x => (x.1, 0)) true 0 far slots

/-- A thread has read bytes of a place at their home as it stands. -/
def State.seeHome (s : State) (k : Nat) (p : Place) (n : Nat) : State :=
  match s.physOf p with
  | some a => s.seeAll k a n
  | none => s

/-- Past the checks: the load's read-set entry, its bytes, and its going out. `write` gives the registers and flags of
the bytes. -/
def State.finishLoad (s : State) (k : Nat) (th : Thread) (p : Place) (va n : Nat) (adv : Bool) (slots : Nat)
    (write : List Byte → List (BitVec 7 × Word) × Word) : State :=
  let rest : State → State := fun s =>
    let far := !(p.own th.wg) && !s.near th.wg p
    match s.loadBytes k th p va n false with
    | some bs =>
      let s : State := match s.physOf p with
        | some a => s.see k a n (p.own th.wg)
        | none => s
      s.sendLoad k (write bs).1 false (write bs).2 far slots
    | none => s.sendZeros k th p va (write (List.replicate n 0)).1 far slots
  match th.spec with
  | some sp =>
    if adv then match sp.enterReads (s.advanced k th p va n) with
      | none => s.abort k 2#8 0 0
      | some sp => rest (s.updThread k fun th => { th with spec := some sp })
    else rest s
  | none => rest s

/-- A load of n bytes at EA up to its checks (R138, R166, R186); then it goes on at its place. -/
def State.loadAt (s : State) (k : Nat) (th : Thread) (ea : BitVec 64) (n : Nat) (spared : Bool) (go : State → Place → State) :
    State :=
  if 63 ≤ th.loads.length then s
  else match s.checkAccess k th ea n .read spared with
    | .error s => s
    | .ok (s, p) => if s.waddWaits th.wg k ea.toNat n then s else go s p

/-- A load of n bytes at EA (R138-R141). -/
def State.load (s : State) (k : Nat) (th : Thread) (ea : BitVec 64) (n : Nat) (adv spared : Bool) (slots : Nat)
    (write : List Byte → List (BitVec 7 × Word) × Word) : State :=
  s.loadAt k th ea n spared fun s p => s.finishLoad k th p ea.toNat n adv slots write

/-- Stores outstanding of a thread (R185). -/
def State.storesOf (s : State) (w k : Nat) : Nat :=
  ((s.wgs[w]?).map fun g => (g.hay.filter (·.thread = k)).length + (g.wadds.filter (·.thread = k)).length).getD 0

/-- A speculative store meets the read set (R129, R168). -/
def State.selfAlias (s : State) (w : Nat) (sp : Spec) (va n : Nat) : Bool :=
  let keys := (List.range n).map fun j => s.byteKey w (va + j)
  sp.reads.any fun r => keys.contains (s.byteKey w r) || (va ≤ r && r < va + n)

/-- Another store would take the thread's count past 20 bits (R186). -/
def State.storesFull (s : State) (w k : Nat) : Bool := 2 ^ 20 - 1 ≤ s.storesOf w k

/-- A store past its checks, to a place outside the own scratchpad: it enters the Hayrick (R128, R139, R140). -/
def State.buffer (s : State) (k : Nat) (th : Thread) (p : Place) (ea : BitVec 64) (bs : List Byte) (slots : Nat) : State :=
  let va := ea.toNat
  let spec := th.spec.isSome
  let e : Entry := ⟨s.nextId, k, th.tid, ea, bs, spec, false, s.boundWords th.wg va bs.length, false, false, false,
    s.commonsTarget th.wg va, false, th.lastAcq, th.related, s.draw⟩
  let go : State → State := fun s =>
    match s.fresh.enterHay th.wg e with
    | none => if spec then s.abort k 3#8 0 0 else s.takeTrap k causeSpill 0
    | some s => (s.touch th p va 1#2).updThread k fun th => th.advance slots
  match th.spec with
  | some sp =>
    let ws := (fragmentsOf ((List.range bs.length).map (va + ·)) ++ sp.writes).dedup
    if s.selfAlias th.wg sp va bs.length then s.abort k 1#8 0 0
    else if 32 < ws.length then s.abort k 3#8 0 0
    else go (s.updThread k fun th => { th with spec := some { sp with writes := ws } })
  | none => go s

/-- A store of bytes at EA (R138-R141). -/
def State.store (s : State) (k : Nat) (th : Thread) (ea : BitVec 64) (bs : List Byte) (slots : Nat) : State :=
  match s.checkAccess k th ea bs.length .write false with
  | .error s => s
  | .ok (s, p) =>
    if s.storesFull th.wg k then s.takeTrap k causeSpill 0
    else match p with
    | .lost => s.updThread k fun th => th.advance slots
    | _ =>
      if p.own th.wg then
        match s.physOf p with
        | some a => (s.perform (.thread k) (objsFrom a (s.boundWords th.wg ea.toNat bs.length)) th.related s.draw 0 (at_ a bs)).updThread k
            fun th => th.advance slots
        | none => s
      else s.buffer k th p ea bs slots

/-- The word an atomic leaves (R146). -/
inductive AtomOp where
  | add | min | max | and | or | xor | exch | cas
deriving DecidableEq, Repr

/-- new of R146; `c` is g(b+1), used by `cas` alone. -/
def AtomOp.new (op : AtomOp) (old b c : Word) : Word :=
  match op with
  | .add => old + b
  | .min => if old.toInt ≤ b.toInt then old else b
  | .max => if b.toInt ≤ old.toInt then old else b
  | .and => old &&& b
  | .or => old ||| b
  | .xor => old ^^^ b
  | .exch => b
  | .cas => if old = b then c else old

/-- An atomic at its home (R146): zero and not performed where nothing stands (R139, R211, R213, R338). -/
def State.atom (s : State) (k : Nat) (th : Thread) (op : AtomOp) (d : BitVec 7) (ea : BitVec 64) (b c : Word)
    (slots : Nat) : State :=
  if 63 ≤ th.loads.length then s
  else match s.checkAccess k th ea 4 .atomic false with
    | .error s => s
    | .ok (s, p) =>
      if s.waddWaits th.wg k ea.toNat 4 then s
      else
        let far := !(p.own th.wg) && !s.near th.wg p
        match s.physOf p with
        | some a =>
          if s.dead p then s.sendLoad k [(d, 0)] false 0 far slots
          else
            let old := memWord s.mem a
            ((s.perform (.thread k) (objsFrom a (s.boundWords th.wg ea.toNat 4)) th.related s.draw 0 (at_ a (toBytes 4 (op.new old b c).toNat))).seeAll k a 4
              ).sendLoad k [(d, old)] false 0 far slots
        | none =>
          let absent := match p with
            | .absent _ _ => true
            | _ => false
          (s.touch th p ea.toNat 1#2).sendLoad k [(d, 0)] absent 0 far slots

end Sys2Proof.Machine
end

