-- ==== Sys2Proof/Machine/Memory.lean ====
section
/-! DEFINITION. Memory: the memory words (R138-R152, R163-R168), acquire, release and binding (R150, R151, R288,
R406, R408), residency requests (R152), and the device steps that complete loads, drain entries and perform `wadd`
(R148, R185, R284). -/

namespace Sys2Proof.Machine

/-! ## Loads and stores -/

/-- EA of the MM and RL forms (R138, R42). -/
def Thread.ea (th : Thread) (a : BitVec 7) (off : Int) : BitVec 64 := th.pair a + BitVec.ofInt 64 off

/-- The low n bytes of a value sign-extended to a register (R141). -/
def signReg (d : BitVec 7) (n : Nat) (bs : List Byte) : List (BitVec 7 × Word) :=
  [(d, if n = 1 then (BitVec.ofNat 8 (ofBytes bs)).signExtend 32 else (BitVec.ofNat 16 (ofBytes bs)).signExtend 32)]

/-- The bytes zero-extended to a register. -/
def zeroReg (d : BitVec 7) (bs : List Byte) : List (BitVec 7 × Word) := [(d, BitVec.ofNat 32 (ofBytes bs))]

/-- Bytes 4i to 4i+3 to g(d+i) (R141). -/
def wordRegs (d : BitVec 7) : Nat → List Byte → List (BitVec 7 × Word)
  | 0, _ => []
  | n + 1, bs => (d, BitVec.ofNat 32 (ofBytes (bs.take 4))) :: wordRegs (d + 1) n (bs.drop 4)

/-- The bytes of n registers from g(d) (R141). -/
def Thread.bytes (th : Thread) (d : BitVec 7) : Nat → List Byte
  | 0 => []
  | n + 1 => toBytes 4 (th.reg d).toNat ++ th.bytes (d + 1) n

/-- A load word. -/
def onLoad (i : Instr) (s : State) (a : BitVec 7) (off : Int) (n : Nat) (adv : Bool)
    (w : List Byte → List (BitVec 7 × Word)) : Out :=
  onThread i s fun k th s => s.load k th (th.ea a off) n adv false i.slots fun b => (w b, 0)

/-- A store word; the bytes come from the thread. -/
def onStore (i : Instr) (s : State) (a : BitVec 7) (off : Int) (b : Thread → List Byte) : Out :=
  onThread i s fun k th s => s.store k th (th.ea a off) (b th) i.slots

/-- R141. -/
def execLdS8 (g : BitVec 3) (d a o : BitVec 7) (s : State) : Out := onLoad (.ldS8 g d a o) s a o.toInt 1 false (signReg d 1)
/-- R141. -/
def execLdZ8 (g : BitVec 3) (d a o : BitVec 7) (s : State) : Out := onLoad (.ldZ8 g d a o) s a o.toInt 1 false (zeroReg d)
/-- R141. -/
def execLdS16 (g : BitVec 3) (d a o : BitVec 7) (s : State) : Out :=
  onLoad (.ldS16 g d a o) s a (2 * o.toInt) 2 false (signReg d 2)
/-- R141. -/
def execLdZ16 (g : BitVec 3) (d a o : BitVec 7) (s : State) : Out :=
  onLoad (.ldZ16 g d a o) s a (2 * o.toInt) 2 false (zeroReg d)
/-- R141. -/
def execLdW (g : BitVec 3) (d a o : BitVec 7) (s : State) : Out := onLoad (.ldW g d a o) s a (4 * o.toInt) 4 false (zeroReg d)
/-- R141. -/
def execLdD (g : BitVec 3) (d a o : BitVec 7) (s : State) : Out := onLoad (.ldD g d a o) s a (8 * o.toInt) 8 false (wordRegs d 2)
/-- R141. -/
def execLdQ (g : BitVec 3) (d a o : BitVec 7) (s : State) : Out :=
  onLoad (.ldQ g d a o) s a (16 * o.toInt) 16 false (wordRegs d 4)
/-- R127, R141. -/
def execLdAdvW (g : BitVec 3) (d a o : BitVec 7) (s : State) : Out :=
  onLoad (.ldAdvW g d a o) s a (4 * o.toInt) 4 true (zeroReg d)
/-- R127, R141. -/
def execLdAdvD (g : BitVec 3) (d a o : BitVec 7) (s : State) : Out :=
  onLoad (.ldAdvD g d a o) s a (8 * o.toInt) 8 true (wordRegs d 2)
/-- R127, R141. -/
def execLdAdvQ (g : BitVec 3) (d a o : BitVec 7) (s : State) : Out :=
  onLoad (.ldAdvQ g d a o) s a (16 * o.toInt) 16 true (wordRegs d 4)

/-- Bytes of a literal form's size (R42). -/
def sizeBytes (sz : BitVec 3) : Nat :=
  if sz = 0#3 || sz = 1#3 then 1 else if sz = 2#3 || sz = 3#3 then 2 else if sz = 4#3 then 4 else if sz = 5#3 then 8 else 16

/-- The registers a literal load writes (R42, R141). -/
def sizeRegs (sz : BitVec 3) (d : BitVec 7) (bs : List Byte) : List (BitVec 7 × Word) :=
  if sz = 0#3 then signReg d 1 bs else if sz = 2#3 then signReg d 2 bs
  else if sz = 5#3 then wordRegs d 2 bs else if sz = 6#3 then wordRegs d 4 bs else zeroReg d bs

/-- The bytes a literal store writes. -/
def Thread.sizeData (th : Thread) (sz : BitVec 3) (d : BitVec 7) : List Byte := (th.bytes d 4).take (sizeBytes sz)

/-- R142. -/
def execLdl (g : BitVec 3) (d a : BitVec 7) (sz : BitVec 3) (adv : BitVec 1) (lit : Word) (s : State) : Out :=
  onLoad (.ldl g d a sz adv lit) s a lit.toInt (sizeBytes sz) (adv = 1#1) (sizeRegs sz d)
/-- R142. -/
def execStl (g : BitVec 3) (d a : BitVec 7) (sz : BitVec 3) (lit : Word) (s : State) : Out :=
  onStore (.stl g d a sz lit) s a lit.toInt fun th => th.sizeData sz d
/-- R141. -/
def execStB8 (g : BitVec 3) (d a o : BitVec 7) (s : State) : Out :=
  onStore (.stB8 g d a o) s a o.toInt fun th => (th.bytes d 1).take 1
/-- R141. -/
def execStB16 (g : BitVec 3) (d a o : BitVec 7) (s : State) : Out :=
  onStore (.stB16 g d a o) s a (2 * o.toInt) fun th => (th.bytes d 1).take 2
/-- R141. -/
def execStW (g : BitVec 3) (d a o : BitVec 7) (s : State) : Out :=
  onStore (.stW g d a o) s a (4 * o.toInt) fun th => th.bytes d 1
/-- R141. -/
def execStD (g : BitVec 3) (d a o : BitVec 7) (s : State) : Out :=
  onStore (.stD g d a o) s a (8 * o.toInt) fun th => th.bytes d 2
/-- R141. -/
def execStQ (g : BitVec 3) (d a o : BitVec 7) (s : State) : Out :=
  onStore (.stQ g d a o) s a (16 * o.toInt) fun th => th.bytes d 4

/-- EA lies in the own scratchpad, as far as the earlier checks of R138 let it be asked. -/
def State.ownWindow (s : State) (th : Thread) (ea : BitVec 64) : Bool :=
  ea.extractLsb' 57 7 ≠ 0 || ea.toNat % 4 ≠ 0 || (s.place th.wg ea.toNat).own th.wg

/-- R143: no handler; in a lost allocation zero and the residency bit; outside the own scratchpad ACCESS. -/
def execShld (g : BitVec 3) (d a o : BitVec 7) (s : State) : Out :=
  onThread (.shld g d a o) s fun k th s =>
    let ea := th.ea a (4 * o.toInt)
    if 63 ≤ th.loads.length then s
    else if !s.ownWindow th ea then s.takeTrap k causeAccess (low ea)
    else s.load k th ea 4 false true 1 fun b => (zeroReg d b, 0)

/-! ## Tensor elements -/

/-- A word of a shape register (R28). -/
def State.shape (s : State) (w : Nat) (h : BitVec 3) (k : Nat) : Word :=
  (((s.wgs[w]?).bind (·.shapes[h.toNat]?)).getD []).getD k 0

/-- rank and esize of a shape record (R28). -/
def shapeRank (w0 : Word) : Nat := (w0.extractLsb' 0 3).toNat
def shapeSize (w0 : Word) : Nat := 2 ^ (w0.extractLsb' 4 2).toNat

/-- The coordinate registers of an element (R144). -/
def coordRegs (c : BitVec 7) (n : Nat) : List (BitVec 7) := (List.range n).map fun j => c + BitVec.ofNat 7 j

/-- The data registers of an element. -/
def elemRegs (d : BitVec 7) (esize : Nat) : List (BitVec 7) := if esize = 8 then pair d else [d]

/-- The conditions of R144 that raise ILLEGAL. -/
def State.tensorBad (s : State) (th : Thread) (d c : BitVec 7) (h : BitVec 3) : Bool :=
  let w0 := s.shape th.wg h 0
  let n := shapeRank w0
  n = 0 || 127 < c.toNat + n - 1 || !(th.allots (coordRegs c n ++ elemRegs d (shapeSize w0))) ||
    (shapeSize w0 = 8 && !even d)

/-- A element's coordinates lie in bounds (R145). -/
def State.inBounds (s : State) (th : Thread) (c : BitVec 7) (h : BitVec 3) : Bool :=
  (List.range (shapeRank (s.shape th.wg h 0))).all fun j =>
    let x := (th.reg (c + BitVec.ofNat 7 j)).toInt
    0 ≤ x && x < ((s.shape th.wg h (4 + j)).toNat : Int)

/-- A element's address (R145). -/
def State.elemAddr (s : State) (th : Thread) (c : BitVec 7) (h : BitVec 3) : BitVec 64 :=
  let base : Int := ((s.shape th.wg h 3 ++ s.shape th.wg h 2).toNat : Int)
  BitVec.ofInt 64 ((List.range (shapeRank (s.shape th.wg h 0))).foldl (fun acc j =>
    acc + (th.reg (c + BitVec.ofNat 7 j)).toInt * (s.shape th.wg h (11 + j)).toInt) base)

/-- The fill of an out-of-bounds element (R145). -/
def fillRegs (d : BitVec 7) (esize : Nat) (fill : Word) : List (BitVec 7 × Word) :=
  if esize = 8 then [(d, fill), (d + 1, 0)] else [(d, BitVec.ofNat 32 (fill.toNat % 2 ^ (8 * esize)))]

/-- R144, R145. -/
def execLdt (g : BitVec 3) (d c : BitVec 7) (h : BitVec 3) (s : State) : Out :=
  onThread (.ldt g d c h) s fun k th s =>
    if s.tensorBad th d c h then s.illegal k (.ldt g d c h)
    else
      let w0 := s.shape th.wg h 0
      let n := shapeSize w0
      if th.awaits (coordRegs c (shapeRank w0) ++ elemRegs d n) then s
      else if s.inBounds th c h then
        s.load k th (s.elemAddr th c h) n false false 1 fun b =>
          (if n = 8 then wordRegs d 2 b else zeroReg d b, 0)
      else s.updThread k fun th => (th.setRegs (fillRegs d n (s.shape th.wg h 1))).advance 1

/-- R144, R145. -/
def execStt (g : BitVec 3) (d c : BitVec 7) (h : BitVec 3) (s : State) : Out :=
  onThread (.stt g d c h) s fun k th s =>
    if s.tensorBad th d c h then s.illegal k (.stt g d c h)
    else
      let w0 := s.shape th.wg h 0
      let n := shapeSize w0
      if th.awaits (coordRegs c (shapeRank w0) ++ elemRegs d n) then s
      else if s.inBounds th c h then s.store k th (s.elemAddr th c h) ((th.bytes d 2).take n) 1
      else s.updThread k fun th => th.advance 1

/-! ## Atomics and wide cells -/

/-- A word of R146. -/
def onAtom (i : Instr) (s : State) (op : AtomOp) (d a b c : BitVec 7) : Out :=
  onThread i s fun k th s => s.atom k th op d (th.pair a) (th.reg b) (th.reg c) i.slots

/-- R146. -/
def execAtomAdd (g : BitVec 3) (d a b : BitVec 7) (s : State) : Out := onAtom (.atomAdd g d a b) s .add d a b b
/-- R146. -/
def execAtomMin (g : BitVec 3) (d a b : BitVec 7) (s : State) : Out := onAtom (.atomMin g d a b) s .min d a b b
/-- R146. -/
def execAtomMax (g : BitVec 3) (d a b : BitVec 7) (s : State) : Out := onAtom (.atomMax g d a b) s .max d a b b
/-- R146. -/
def execAtomAnd (g : BitVec 3) (d a b : BitVec 7) (s : State) : Out := onAtom (.atomAnd g d a b) s .and d a b b
/-- R146. -/
def execAtomOr (g : BitVec 3) (d a b : BitVec 7) (s : State) : Out := onAtom (.atomOr g d a b) s .or d a b b
/-- R146. -/
def execAtomXor (g : BitVec 3) (d a b : BitVec 7) (s : State) : Out := onAtom (.atomXor g d a b) s .xor d a b b
/-- R146. -/
def execAtomExch (g : BitVec 3) (d a b : BitVec 7) (s : State) : Out := onAtom (.atomExch g d a b) s .exch d a b b
/-- R146. -/
def execAtomCas (g : BitVec 3) (d a b : BitVec 7) (s : State) : Out := onAtom (.atomCas g d a b) s .cas d a b (b + 1)

/-- EA is aligned and names a region header (R147). -/
def headerSlot (ea : BitVec 64) : Bool := ea.extractLsb' 57 7 = 0 && ea.toNat % 65536 = 0

/-- A `wadd` is performed at its home (R148). -/
def State.performWadd (s : State) (a : Wadd) (phys : Nat) : State :=
  s.perform (.thread a.thread) (objsFrom phys a.objs) a.related a.made a.id (at_ phys (s.waddSlot phys a.value a.mode))

/-- R148. -/
def execWadd (g : BitVec 3) (a b : BitVec 7) (s : State) : Out :=
  onThread (.wadd g a b) s fun k th s =>
    let ea := th.pair a
    if headerSlot ea then s.takeTrap k causeAccess (low ea)
    else match s.checkAccess k th ea 16 .write false with
      | .error s => s
      | .ok (s, p) =>
        let x : Wadd := ⟨s.nextId, k, ea, th.reg b, th.rm.extractLsb' 0 3, s.boundWords th.wg ea.toNat 16, false,
          s.commonsTarget th.wg ea.toNat, false, th.related, s.draw⟩
        let go : State → State := fun s => s.updThread k fun th => th.advance 1
        if s.storesFull th.wg k then s.takeTrap k causeSpill 0
        else match p with
        | .lost => go s
        | _ =>
          if p.own th.wg then
            match s.physOf p with
            | some phys => go (s.fresh.performWadd x phys)
            | none => s
          else go (s.fresh.updWg th.wg fun g => { g with wadds := g.wadds ++ [x] })

/-- The register image a `wld` writes of a slot's bytes and its header's, and WOV (R108, R149). -/
def wldImage (d : BitVec 7) (slot header : List Byte) : List (BitVec 7 × Word) × Word :=
  let c := cellOfNat (ofBytes slot)
  (quadOf d |>.zip (imageOf c ((BitVec.ofNat 32 (ofBytes header)).extractLsb' 0 10)), flagIf c.sov flagWOV)

/-- A `wld` past its checks (R149): the slot and its region's header are read at their homes as they stand (log 7), the
thread's own buffered stores to either forwarded (R165). Where one of them is not there, zeros and the residency bit
(R167). -/
def State.finishWld (s : State) (k : Nat) (th : Thread) (p : Place) (va : Nat) (d : BitVec 7) : State :=
  let h := va / 65536 * 65536
  let q := s.place th.wg h
  let far := !(p.own th.wg) && !s.near th.wg p
  match s.loadBytes k th p va 16 true, s.loadBytes k th q h 4 true with
  | some bs, some hs =>
    ((s.seeHome k p 16).seeHome k q 4).sendLoad k (wldImage d bs hs).1 false (wldImage d bs hs).2 far 1
  | _, _ => s.sendZeros k th p va ((quadOf d).map (·, 0)) far 1

/-- R149. -/
def execWld (g : BitVec 3) (d a : BitVec 7) (s : State) : Out :=
  onThread (.wld g d a) s fun k th s =>
    let ea := th.pair a
    if headerSlot ea then s.takeTrap k causeAccess (low ea)
    else s.loadAt k th ea 16 false fun s p => s.finishWld k th p ea.toNat d

/-! ## Acquire, release and binding -/

/-- The object of an `acq` or `rel` (R150). -/
def State.ordObj (s : State) (th : Thread) (a : BitVec 7) (kind : BitVec 3) : Obj :=
  if kind = 0#3 then .default
  else if kind = 1#3 then .barrier th.wg (a.extractLsb' 0 4)
  else if kind = 2#3 then
    match s.wgs[th.wg]? with
    | some g => .team g.launch g.team
    | none => .default
  else s.flagObj th.wg (th.pair a).toNat

/-- The checks of a flag word's address: R138 steps 1 to 3, 4-aligned (R150). -/
def State.flagTrap (s : State) (k : Nat) (th : Thread) (a : BitVec 7) (kind : BitVec 3) : Option State :=
  if kind ≠ 3#3 then none
  else
    let ea := th.pair a
    if ea.extractLsb' 57 7 ≠ 0 then some (s.takeTrap k causeAccess (low ea))
    else if ea.toNat % 4 ≠ 0 then some (s.takeTrap k causeMisalign (low ea))
    else if !s.permits th.wg (s.place th.wg ea.toNat) .read then some (s.takeTrap k causeAccess (low ea))
    else none

/-- Fabric copies of a thread not yet complete (R408). -/
def State.fabricCopies (s : State) (k : Nat) : List Nat :=
  (s.copies.filter fun c => c.agent = .thread k && c.form = .fabric).map (·.id)

/-- A word that begins by committing what `sel` picks and waiting for `ids`, and ends with `finish` once they are
performed (R284). The first issue parks the thread; each later one tests again. -/
def State.drainThen (s : State) (k : Nat) (th : Thread) (sel : Entry → Bool) (ids : State → List Nat)
    (finish : State → State) : State :=
  match th.park with
  | .drain l => if l.any s.outstanding then s else finish s
  | _ =>
    match s.commit th.wg sel with
    | none => s.takeTrap k causeSpill 0
    | some s =>
      let l := ids s
      if l.isEmpty then finish s else s.updThread k fun th => { th with park := .drain l }

/-- The scope of a system release. -/
def scopeFabric : BitVec 4 := 9

/-- A thread's release through an object takes effect (R288). -/
def State.releaseBy (s : State) (k : Nat) (obj : Obj) (sc : BitVec 4) : State :=
  s.release (.thread k) [obj] obj sc s.draw [] true

/-- What a release at a scope waits for (R284, R408). -/
def State.releaseIds (s : State) (w k : Nat) (sc : BitVec 4) : List Nat :=
  s.commitIds w k ++ if sc = scopeFabric then s.fabricCopies k else []

/-- `rel` of R150 as a shared operation: also the release that `wgdone`, `evsig` and `fsig` contain (R283). -/
def State.relThen (s : State) (k : Nat) (th : Thread) (obj : Obj) (sc : BitVec 4) (more : State → State) : State :=
  s.drainThen k th (fun e => e.thread = k) (fun s => s.releaseIds th.wg k sc) fun s => more (s.releaseBy k obj sc)

/-- R150, R283, R284, R288. -/
def execRel (g : BitVec 3) (a : BitVec 7) (sc : BitVec 4) (k : BitVec 3) (s : State) : Out :=
  onThread (.rel g a sc k) s fun i th s =>
    match s.flagTrap i th a k with
    | some s => s
    | none => s.relThen i th (s.ordObj th a k) sc fun s => s.updThread i fun th => th.advance 1

/-- R150, R285, R288, R289, R406. -/
def execAcq (g : BitVec 3) (a : BitVec 7) (sc : BitVec 4) (k : BitVec 3) (s : State) : Out :=
  onThread (.acq g a sc k) s fun i th s =>
    match s.flagTrap i th a k with
    | some s => s
    | none =>
      let done : State → State := fun s =>
        (s.acquire i (s.ordObj th a k) sc).updThread i fun th => th.advance 1
      match th.park with
      | .drain l => if l.any s.outstanding then s else done s
      | _ =>
        let l := if k = 0#3 then s.draining i sc else []
        if l.isEmpty then done s else s.updThread i fun th => { th with park := .drain l }

/-- R150: `rel` followed by `acq` of the default object at the scope. -/
def execFence (g : BitVec 3) (sc : BitVec 4) (s : State) : Out :=
  onThread (.fence g sc) s fun i th s =>
    s.drainThen i th (fun e => e.thread = i) (fun s => s.releaseIds th.wg i sc ++ s.draining i sc) fun s =>
      ((s.releaseBy i .default sc).acquire i .default sc).updThread i fun th => th.advance 1

/-- A binding's descriptor breaks the table of R151 or the scope rule of R150. -/
def descBad (d0 d1 : Word) (flag : BitVec 64) : Bool :=
  let kind := d0.extractLsb' 0 3
  let sc := d0.extractLsb' 4 4
  d0.extractLsb' 12 20 ≠ 0 || d0.getLsbD 3 || d1 ≠ 0 || !(kind = 1#3 || kind = 2#3 || kind = 3#3) || 9#4 < sc ||
    (kind = 1#3 && sc ≠ 2#4) || (kind = 2#3 && sc ≠ 5#4) || (kind ≠ 3#3 && flag ≠ 0)

/-- Two bindings' regions share a byte (R151, R323). -/
def State.bindOverlap (s : State) (w : Nat) (x y : Binding) : Bool :=
  (x.base.toNat < y.base.toNat + y.len.toNat && y.base.toNat < x.base.toNat + x.len.toNat) ||
    runsMeet (s.regionRuns w x) (s.regionRuns w y)

/-- R151. -/
def execBind (g : BitVec 3) (d a b : BitVec 7) (s : State) : Out :=
  onThread (.bind g d a b) s fun k th s =>
    let flag := th.pair (d + 2)
    let x : Binding := ⟨th.reg d, flag, th.pair a, th.reg b⟩
    let bs := ((s.wgs[th.wg]?).map (·.bindings)).getD []
    if descBad (th.reg d) (th.reg (d + 1)) flag || x.base.toNat % 4 ≠ 0 || x.len = 0 || x.len.toNat % 4 ≠ 0 then
      s.illegal k (.bind g d a b)
    else if bs.contains x then s.updThread k fun th => th.advance 1
    else if bs.any fun y => !s.sameObj (s.objOf th.wg y.desc y.flag) (s.objOf th.wg x.desc flag) && s.bindOverlap th.wg x y then
      s.illegal k (.bind g d a b)
    else if 16 ≤ bs.length then s.illegal k (.bind g d a b)
    else (s.updWg th.wg fun g => { g with bindings := bs ++ [x] }).updThread k fun th => th.advance 1

/-- R151. -/
def execUnbind (g : BitVec 3) (d : BitVec 7) (s : State) : Out :=
  onThread (.unbind g d) s fun k th s =>
    let flag := th.pair (d + 2)
    if descBad (th.reg d) (th.reg (d + 1)) flag then s.illegal k (.unbind g d)
    else
      let o := s.objOf th.wg (th.reg d) flag
      (s.updWg th.wg fun g => { g with bindings := g.bindings.filter fun y => !s.sameObj (s.objOf th.wg y.desc y.flag) o }
        ).updThread k fun th => th.advance 1

/-! ## Residency requests -/

/-- R152: ACCESS where steps 1 and 3 of R138 would raise it for a read (log 63); in a window it has no effect. -/
def execPgreq (g : BitVec 3) (a o : BitVec 7) (s : State) : Out :=
  onThread (.pgreq g a o) s fun k th s =>
    let ea := th.ea a (65536 * o.toInt)
    let p := s.place th.wg ea.toNat
    if ea.extractLsb' 57 7 ≠ 0 || !s.permits th.wg p .read then s.takeTrap k causeAccess (low ea)
    else ((s.look th.wg ea.toNat).touch th p ea.toNat 0#2).updThread k fun th => th.advance 1

/-- What `pgprobe` writes (R152). -/
def Place.probe (p : Place) : Word :=
  match p with
  | .bad => 8
  | .homeless => 1
  | .away => 16
  | .absent st _ => if st = 1#2 then 4 else if st = 3#2 then 2 else 0
  | _ => 1

/-- R152. -/
def execPgprobe (g : BitVec 3) (d a o : BitVec 7) (s : State) : Out :=
  onThread (.pgprobe g d a o) s fun k th s =>
    let ea := th.ea a (65536 * o.toInt)
    if 63 ≤ th.loads.length then s
    else
      let v : Word := if ea.extractLsb' 57 7 ≠ 0 then 8 else (s.place th.wg ea.toNat).probe
      (s.look th.wg ea.toNat).sendLoad k [(d, v)] false 0 false 1

/-! ## Device steps -/

/-- LOAD_COMPLETE (R182, R185): the k-th load outstanding of a thread. -/
def execLoadComplete (t k : Nat) (s : State) : Out :=
  match s.threads[t]? with
  | none => .fault .stepNotEnabled
  | some th =>
    match th.loads[k]? with
    | none => .fault .stepNotEnabled
    | some l => .next (s.updThread t fun th => th.complete l)

/-- HAYRICK_ENTRY_DRAIN (R284-R286, R413): the next committed entry of a workgroup's share. -/
def execHayrickEntryDrain (w : Nat) (s : State) : Out :=
  match s.drainNext w with
  | some s => .next s
  | none => .fault .stepNotEnabled

/-- The wadd leaves the list; a commit point that waited for it may complete. -/
def State.waddDone (s : State) (w id : Nat) : State :=
  (s.updWg w fun g => { g with wadds := g.wadds.filter fun a => a.id ≠ id }).settleDue w

/-- Where the slot of a `wadd` lies: a slot of a commons by the member it was mapped to at issue (R322, R325). -/
def State.waddPlace (s : State) (w : Nat) (a : Wadd) : Place :=
  match a.target with
  | some x => s.slotPlace x (a.va.toNat % 2 ^ 24)
  | none => s.place w a.va.toNat

/-- The name of the slot of a `wadd`. -/
def State.waddKey (s : State) (w : Nat) (a : Wadd) : Nat :=
  match a.target with
  | some x => poolKey x (a.va.toNat % 2 ^ 24)
  | none => s.byteKey w a.va.toNat

/-- What the k-th `wadd` of a workgroup does at its home (R148, R166, R325, R338, R342); none where an earlier one of its
thread to the cell stands before it, where it waits, or where its workgroup stands in a saved context (R296). -/
def State.waddNext (s : State) (w k : Nat) : Option State :=
  match s.wgs[w]? with
  | none => none
  | some g =>
    match g.wadds[k]? with
    | none => none
    | some a =>
      if a.parked || g.saved || s.waddBefore w a.thread a.id [s.waddKey w a] then none
      else if a.gone then some (s.waddDone w a.id)
      else
        let p := s.waddPlace w a
        match p with
        | .absent st perm =>
          if perm.getLsbD 1 then (s.parkAccess w a.va.toNat st (.wadd w a.id) 1#2 0#4 (((s.threads[a.thread]?).map (·.tid)).getD 0)).map fun s =>
            s.updWg w fun g => { g with wadds := g.wadds.map fun x => if x.id = a.id then { x with parked := true } else x }
          else some (s.waddDone w a.id)
        | .page x perm => some (if perm.getLsbD 1 then (s.performWadd a x).waddDone w a.id else s.waddDone w a.id)
        | _ => match s.physOf p with
          | some x => some (if s.dead p then s.waddDone w a.id else (s.performWadd a x).waddDone w a.id)
          | none => some (s.waddDone w a.id)

/-- WADD_PERFORMED (R148, R185). -/
def execWaddPerformed (w k : Nat) (s : State) : Out :=
  match s.waddNext w k with
  | some s => .next s
  | none => .fault .stepNotEnabled

end Sys2Proof.Machine
end

