-- ==== Sys2Proof/Machine/Fetch.lean ====
section
/-! DEFINITION. Fetch: clauses fetched through the instruction cache (R33, R36, R347), a header's checks and waits
(R34, R35, R186), and why a thread does not issue (R180, R384). -/

namespace Sys2Proof.Machine

/-! ## Fetching -/

/-- A word as a core fetches it: from its instruction cache, if its line stands there (R347; log 11), or from memory. -/
def State.fetchWord (s : State) (core a : Nat) : Word :=
  match (s.cores[core]?).bind fun c => c.icache.find? fun l => l.line = a / 128 && !Config.displaced s.draw (2 ^ 60 + l.line) with
  | some l => l.words.getD (a % 128 / 4) 0
  | none => memWord s.mem a

/-- The line that holds a byte stands in the cache afterwards, as it was fetched. -/
def State.fillLine (s : State) (core a : Nat) : State :=
  let line := a / 128
  let ws := (List.range 32).map fun k => s.fetchWord core (line * 128 + 4 * k)
  s.updCore core fun c => { c with icache := ⟨line, ws⟩ :: c.icache.filter fun l => l.line ≠ line }

/-- What a fetch finds. -/
inductive Fetched where
  | fault
  | absent (state : BitVec 2)
  | clause (c : Clause)
deriving DecidableEq, Repr

/-- The clause at an address (R33, R36): header and words from one executable mapping; a word position outside it is
none. -/
def State.fetchClause (s : State) (w : Nat) (hdr : VAddr) : Fetched :=
  let core := s.coreOf w
  let a := hdr.toNat
  match s.leaf core (s.procOf w) a with
  | none => .fault
  | some c =>
    match c.place a with
    | .page phys perm =>
      if !perm.getLsbD 2 then .fault
      else
        let h := s.fetchWord core phys
        .clause ⟨h, (List.range (h.extractLsb' 28 4).toNat).map fun k =>
          if a + 4 * (k + 1) < c.base + c.size then some (s.fetchWord core (phys + 4 * (k + 1))) else none⟩
    | .absent st perm => if !perm.getLsbD 2 then .fault else .absent st
    | _ => .fault

/-- The lines and translations of a fetched clause stand in the core's buffers. -/
def State.fillClause (s : State) (w : Nat) (hdr : VAddr) (n : Nat) : State :=
  let core := s.coreOf w
  let s : State := s.fill core (s.procOf w) hdr.toNat
  match s.leaf core (s.procOf w) hdr.toNat with
  | some c =>
    let phys := c.phys hdr.toNat
    let s : State := s.fillLine core phys
    if (phys + 4 * n) / 128 = phys / 128 then s else s.fillLine core (phys + 4 * n)
  | none => s

/-- A header passes R34. -/
def headerValid (h : Word) : Bool :=
  h.extractLsb' 0 6 = 0b101101#6 && h.extractLsb' 6 3 = 0 && h.extractLsb' 28 4 ≠ 0 && h.extractLsb' 25 3 < 6#3

/-- The class of a header. -/
def headerClass (h : Word) : BitVec 3 := h.extractLsb' 25 3

/-! ## Counters and limits -/

/-- Copies outstanding of an agent (R185, R247). -/
def State.copiesOf (s : State) (a : Agent) : Nat := (s.copies.filter fun c => c.agent = a && c.inFlight && c.form ≠ .detach).length

/-- A limit field: 15 imposes no wait (R35). -/
def limitMet (v : Nat) (f : BitVec 4) : Bool := f = 15#4 || v ≤ f.toNat

/-- Stores compared with a limit: those accepted into the Hayrick and awaiting a commit point are left out (R186). -/
def State.storesLimited (s : State) (w k : Nat) : Nat :=
  ((s.wgs[w]?).map fun g => (g.hay.filter fun e => e.thread = k && e.committed).length +
    (g.wadds.filter (·.thread = k)).length).getD 0

/-- A thread's four limits are met; tiles always (R186). -/
def State.limitsMet (s : State) (k : Nat) (th : Thread) (l st c : BitVec 4) : Bool :=
  limitMet th.loads.length l && limitMet (s.storesLimited th.wg k) st && limitMet (s.copiesOf (.thread k)) c

/-- The waits of a header are met (R35). -/
def State.headerMet (s : State) (k : Nat) (th : Thread) (h : Word) : Bool :=
  s.limitsMet k th (h.extractLsb' 21 4) (h.extractLsb' 17 4) (h.extractLsb' 13 4)

/-- A drive stream's waits: copies and tiles only (R245, R247). -/
def State.driveMet (s : State) (w : Nat) (d : Drive) (c t : BitVec 4) : Bool :=
  limitMet (s.copiesOf (.drive w)) c && limitMet d.ops.length t

/-! ## Why a thread does not issue -/

/-- The registers of the words from opcode 0xE8 up that a thread stream may issue, by the opcode and the fields d, a and x
of R42 (R184, R259, R274-R278, R281, R320, R353). -/
def systemRegs (op : Nat) (d a x : BitVec 7) : List (BitVec 7) :=
  match op with
  | 0xEA => octetOf d
  | 0xEB | 0xEC | 0xED => pair d
  | 0xEE => if bits (x.setWidth 32 ||| (a.setWidth 32 <<< 7)) 7 3 = 3 then [] else [d]
  | 0xF0 => pair d ++ quadOf a
  | 0xF1 | 0xFD => pair a
  | 0xF2 => d :: pair a
  | 0xF4 => if x = 0 then quadOf d ++ pair a else quadOf d
  | 0xF5 | 0xF8 | 0xF9 | 0xFE => [a]
  | 0xF6 => if x = 0 then pair d ++ [a] else quadOf d
  | 0xF7 => [d]
  | 0xFA => pair d ++ pair a
  | 0xFC => if x = 0 then pair a else []
  | _ => []

/-- The registers that a thread's next word waits for at its issue (R41, R180, R184), its destinations with its sources
(log 17): `ldt` and `stt` name their coordinates by the rank of their shape (R144). -/
def State.nextRegs (s : State) (th : Thread) (w lit : Word) : List (BitVec 7) :=
  let op := (bits w 21 8).toNat
  let element (d c : BitVec 7) (h : BitVec 3) : List (BitVec 7) :=
    let w0 := s.shape th.wg h 0
    coordRegs c (shapeRank w0) ++ elemRegs d (shapeSize w0)
  if op < 0xC0 then
    match decodeLow w (some lit) with
    | .ok (.ldt _ d c h) => element d c h
    | .ok (.stt _ d c h) => element d c h
    | .ok i => i.regs
    | .error _ => []
  else systemRegs op (bits w 14 7) (bits w 7 7) (bits w 0 7)

/-- The reason a limit holds a thread: 3 for far memory, 2 for its own scratchpad, 4 for engines (R180, R384). -/
def State.limitReason (s : State) (k : Nat) (th : Thread) (l st c : BitVec 4) : Nat :=
  if !limitMet th.loads.length l then (if th.loads.any (·.far) then 3 else 2)
  else if !limitMet (s.storesLimited th.wg k) st then 3
  else if !limitMet (s.copiesOf (.thread k)) c then 4
  else 0

/-- An opcode of a word that counts on loads (R185). -/
def loadWord (op : Nat) : Bool :=
  (0x70 ≤ op && op ≤ 0x7A) || (0x81 ≤ op && op ≤ 0x84) || (0x87 ≤ op && op ≤ 0x8F) || op = 0x96

/-- A thread stands before a header. -/
def Thread.atHeader (th : Thread) : Bool := th.pc.idx = 0 || th.recheck

/-- The reason code of a thread (R384): 0 where it is eligible as R180 has it, were its squad active. R180's table does not
name two waits: one in a commit point's drain, or for the drains before an acquire, counts as long memory, one for the
answer to `lnch` as code 2, not blocked long (DESIGN CHOICE, log 81). -/
def State.reason (s : State) (k : Nat) (th : Thread) : Nat :=
  if th.hold.isSome then 8
  else match th.park with
    | .drain _ | .acquire _ _ => 3
    | .copy => 4
    | .array _ => 2
    | .launch => 2
    | .page => if th.atHeader then 9 else 5
    | .join _ | .phase _ | .parity _ _ | .collective | .tryGroup _ | .commitGroup | .tryWait | .event _ _ | .ckpt | .handler _
    | .cleave _ => 5
    | .none | .released =>
      if th.atHeader then
        match s.fetchClause th.wg th.pc.hdr with
        | .clause c => s.limitReason k th (c.header.extractLsb' 21 4) (c.header.extractLsb' 17 4) (c.header.extractLsb' 13 4)
        | _ => 0
      else
        let at_ : Nat → Word := fun n => ((th.clause.words[th.pc.idx.toNat - 1 + n]?).join).getD 0
        let w := at_ 0
        let rs := s.nextRegs th w (at_ 1)
        if !th.pred (bits w 29 3) then 0
        else if th.awaits rs then
          (if th.loads.any fun l => l.far && l.writes.any fun x => rs.contains x.1 then 3 else 2)
        else if bits w 21 8 = 0xA5#8 then s.limitReason k th (bits w 12 4) (bits w 8 4) (bits w 4 4)
        else if 63 ≤ th.loads.length && loadWord (bits w 21 8).toNat then (if th.loads.any (·.far) then 3 else 2)
        else 0

/-- The live threads of a squad with their reasons. -/
def State.reasons (s : State) (w q : Nat) : List Nat :=
  (s.squadOf w q).filterMap fun k => match s.threads[k]? with
    | some th => if th.exited then none else some (s.reason k th)
    | none => none

/-- A squad is ready when a thread of it would be eligible (R180). -/
def State.squadReady (s : State) (w q : Nat) : Bool := (s.reasons w q).contains 0

/-- A squad is blocked long: no live thread eligible, each for one of the reasons of R180; a hold counts as parked. -/
def State.blockedLong (s : State) (w q : Nat) : Bool :=
  let rs := s.reasons w q
  !rs.isEmpty && rs.all fun r => r = 3 || r = 4 || r = 5 || r = 6 || r = 8

end Sys2Proof.Machine
end

