-- ==== Sys2Proof/Machine/Control.lean ====
section
/-! DEFINITION. Control: transfers, the call stack, joins, exit, traps, speculation and special registers (R54-R62,
R109-R137), clause headers taken (R33-R36), holds (R378), and squad swaps (R179-R182). -/

namespace Sys2Proof.Machine

/-! ## Transfers (R112-R114) -/

/-- A branch target from the word's own address (R42). -/
def Thread.branch (th : Thread) (off : Int) : VAddr := wordAddr th.pc + BitVec.ofInt 57 (4 * off)

/-- R113. -/
def execBr (g : BitVec 3) (o : BitVec 21) (s : State) : Out :=
  onThread (.br g o) s fun k _ s => s.updThread k fun th => th.goto (th.branch o.toInt)

/-- R113. -/
def execBrl (g : BitVec 3) (l : BitVec 7) (o : BitVec 14) (s : State) : Out :=
  onThread (.brl g l o) s fun k _ s => s.updThread k fun th =>
    (th.setPair l ((nextHeader th.pc th.clause).setWidth 64)).goto (th.branch o.toInt)

/-- A target pair breaks the check of R114. -/
def targetBad (t : BitVec 64) : Bool := t.extractLsb' 57 7 ≠ 0 || t.extractLsb' 0 2 ≠ 0

/-- R114. -/
def execJmp (g : BitVec 3) (a : BitVec 7) (s : State) : Out :=
  onThread (.jmp g a) s fun k th s =>
    let t := th.pair a
    if targetBad t then s.takeTrap k causeTarget (low t) else s.updThread k fun th => th.goto (t.setWidth 57)

/-- Where a call-stack position is kept in memory (R54). -/
def Thread.stackSlot (th : Thread) (pos : Nat) : BitVec 64 := th.csb.setWidth 64 + BitVec.ofNat 64 (8 * pos)

/-- The memory access of a call stack (R54): it bypasses the Hayrick and is translated like an ordinary access; a page
that is not resident parks the thread at its word (R342). Range locks, lost allocations and watch ranges are not tested
(log 64). -/
def State.stackAccess (s : State) (k : Nat) (th : Thread) (ea : BitVec 64) (kind : Kind) (go : State → Nat → State) : State :=
  let p := s.place th.wg ea.toNat
  let s := s.look th.wg ea.toNat
  if ea.extractLsb' 57 7 ≠ 0 || !s.permits th.wg p kind then s.takeTrap k causeAccess (low ea)
  else match p with
    | .absent st _ =>
      match s.parkAccess th.wg ea.toNat st (.thread k) (if kind = .read then 0#2 else 1#2) 0#4 th.tid with
      | some s => s.updThread k fun th => { th with park := .page }
      | none => s
    | _ => match s.physOf p with
      | some a => go s a
      | none => s.takeTrap k causeAccess (low ea)

/-- Push, then the transfer (R54, R114). -/
def State.push (s : State) (k : Nat) (th : Thread) (t : VAddr) : State :=
  let ret := nextHeader th.pc th.clause
  if 4096 ≤ th.depth.toNat then s.takeTrap k causeStack (th.depth.setWidth 32)
  else if th.stack.length < 16 then
    s.updThread k fun th => { th.goto t with stack := ret :: th.stack, depth := th.depth + 1 }
  else
    let ea := th.stackSlot (th.depth.toNat - 16)
    s.stackAccess k th ea .write fun s a =>
      (s.perform (.thread k) (objsFrom a (s.boundWords th.wg ea.toNat 8)) th.related s.draw 0
        (at_ a (toBytes 8 ((th.stack.getLast?).getD 0).toNat))).updThread k
        fun th => { th.goto t with stack := ret :: th.stack.dropLast, depth := th.depth + 1 }

/-- R114. -/
def execCall (g : BitVec 3) (o : BitVec 21) (s : State) : Out :=
  onThread (.call g o) s fun k th s => s.push k th (th.branch o.toInt)

/-- R114. -/
def execCalli (g : BitVec 3) (a : BitVec 7) (s : State) : Out :=
  onThread (.calli g a) s fun k th s =>
    let t := th.pair a
    if targetBad t then s.takeTrap k causeTarget (low t) else s.push k th (t.setWidth 57)

/-- A refill in speculation of the highest position that stood off core at `try` and has not been refilled since is kept in
the checkpoint (R62). -/
def Spec.refill (sp : Spec) (pos : Nat) (t : VAddr) : Spec :=
  if pos + sp.check.stack.length + sp.check.refilled.length + 1 = sp.check.depth.toNat then
    { sp with check := { sp.check with refilled := sp.check.refilled ++ [t] } }
  else sp

/-- R54, R55, R114; in speculation a refill below the depth at `try` less 16 aborts with code 5 (R62, R136). -/
def execRet (g : BitVec 3) (s : State) : Out :=
  onThread (.ret g) s fun k th s =>
    if th.depth = 0 then s.takeTrap k causeStack 0
    else match th.stack with
      | t :: rest => s.updThread k fun th => { th.goto t with stack := rest, depth := th.depth - 1 }
      | [] =>
        let pos := th.depth.toNat - 1
        if ((th.spec.map fun sp => decide (pos + 16 < sp.check.depth.toNat)).getD false) then s.abort k 5#8 0 0
        else s.stackAccess k th (th.stackSlot pos) .read fun s a =>
          let t : VAddr := (memDouble s.mem a).extractLsb' 2 55 ++ 0#2
          s.updThread k fun th => { th.goto t with depth := th.depth - 1, spec := th.spec.map fun sp => sp.refill pos t }

/-! ## Joins, exit and waits (R115-R119) -/

/-- R116. -/
def execEnrol (g : BitVec 3) (j : BitVec 3) (s : State) : Out :=
  onThread (.enrol g j) s fun k th s =>
    (s.updSquad th.wg th.squad fun sq => { sq with joins := sq.joins.modify j.toNat fun r =>
      { r with enrolled := r.enrolled ||| (1#32 <<< th.pos) } }).updThread k fun th => th.advance 1

/-- R116: a parked thread stays until its register's release. -/
def execJoin (g : BitVec 3) (j : BitVec 3) (s : State) : Out :=
  onThread (.join g j) s fun k th s =>
    if th.park = .join j then s
    else
      let r := (((s.wgs[th.wg]?).bind (·.squads[th.squad]?)).bind (·.joins[j.toNat]?)).getD ⟨0, 0⟩
      if !r.enrolled.getLsbD th.pos then s.updThread k fun th => th.advance 1
      else ((s.updSquad th.wg th.squad fun sq => { sq with joins := sq.joins.modify j.toNat fun r =>
        { r with arrived := r.arrived ||| (1#32 <<< th.pos) } }).updThread k fun th => { th with park := .join j }
          ).testJoin th.wg th.squad j

/-- Threads parked behind a loss handler try their words again (R212). -/
def State.releaseHandler (s : State) (w base : Nat) : State :=
  (s.threadsOf w).foldl (fun s i => s.updThread i fun th =>
    if th.park = .handler base then { th with park := .none } else th) s

/-- A squad whose threads have all exited leaves its active slot (R179). -/
def State.freeSlot (s : State) (w q : Nat) : State :=
  if (s.squadOf w q).all fun i => ((s.threads[i]?).map (·.exited)).getD true then
    s.updSquad w q fun sq => { sq with slot := none }
  else s

/-- The thread ends (R118): it leaves its enrolments and its collectives; a loss entry of its own is over (R212). -/
def State.endThread (s : State) (k : Nat) (th : Thread) : State :=
  let s : State := s.updThread k fun th => { th with exited := true, park := .none, loss := none, handler := none }
  let s := match th.loss with
    | some e => s.releaseHandler th.wg e.alloc
    | none => s
  (((s.leaveJoins th.wg th.squad th.pos).absentNow th.wg th.squad th.pos).freeSlot th.wg th.squad).retireRecords th.wg

/-- R118, R283: a commit point, then the end. -/
def execExit (g : BitVec 3) (s : State) : Out :=
  onThread (.exit g) s fun k th s =>
    s.drainThen k th (fun e => e.thread = k) (fun s => s.commitIds th.wg k) fun s => s.endThread k th

/-- R119. -/
def execWait (g : BitVec 3) (l st c t : BitVec 4) (s : State) : Out :=
  onThread (.wait g l st c t) s fun k th s => if s.limitsMet k th l st c then s.updThread k fun th => th.advance 1 else s

/-- R119. -/
def execNop (g : BitVec 3) (s : State) : Out := onRegs (.nop g) s id

/-! ## Traps (R121-R125) -/

/-- R124. -/
def execTrap (g : BitVec 3) (c : BitVec 8) (s : State) : Out :=
  onThread (.trap g c) s fun k _ s => s.takeTrap k causeTrap (c.setWidth 32) true

/-- R124, R378: with the debug handler attached the thread is held at the next header. -/
def execBrk (g : BitVec 3) (c : BitVec 8) (s : State) : Out :=
  onThread (.brk g c) s fun k th s =>
    if s.handled th.wg then
      (s.updThread k fun th => th.goto (nextHeader th.pc th.clause)).holdThread k true
        (s.debugRecordOf th.wg ((wordAddr th.pc).setWidth 64) 2#8 th.tid false 0 c)
    else s.takeTrap k causeBrk (c.setWidth 32) true

/-- R125. -/
def execTret (g : BitVec 3) (s : State) : Out :=
  onThread (.tret g) s fun k th s =>
    match th.handler with
    | none => s.illegal k (.tret g)
    | some r => s.updThread k fun th => th.trapReturn r

/-! ## Speculation (R126-R137) -/

/-- The checkpoint of R126. Of the call stack it holds the entries on core; those below them stay where they are, and one
at or above position D − 16 joins the checkpoint when a speculative `ret` refills it (R54, R62). -/
def Thread.checkpoint (th : Thread) : Checkpoint :=
  ⟨th.stack, [], th.depth, th.g, th.p, th.m, th.rm, th.flags, th.tvec, th.csb⟩

/-- Speculation begins (R126). -/
def State.begin (s : State) (th : Thread) (kind : SpecKind) (target : VAddr) : Thread :=
  { th.advance 1 with tac := 0, conflict := false, spec := some ⟨kind, s.nextId, th.checkpoint, target, [], []⟩ }

/-- The abort target of a `try` word. -/
def Thread.target (th : Thread) (o : BitVec 21) : VAddr := th.branch o.toInt

/-- A `try.w` group runs in the squad. -/
def State.groupRuns (s : State) (w q : Nat) : Bool := !(s.group w q).isEmpty

/-- A `try.w` group forms in the squad: the word where its members wait. Words are compared by header and index: threads
that reach one word under two headers form no group (DESIGN CHOICE, log 79). -/
def State.groupForms (s : State) (w q : Nat) : Option Pc :=
  (s.squadOf w q).findSome? fun i => match s.threads[i]? with
    | some th => if th.park = .tryGroup false || th.park = .tryGroup true then some th.pc else none
    | none => none

/-- The thread waits at its `try` for a group to end (R132, R133). -/
def State.tryWaits (s : State) (k : Nat) : State := s.updThread k fun th => { th with park := .tryWait }

/-- A group is fixed in the squad and has still to begin. -/
def State.groupFixed (s : State) (w q : Nat) : Bool :=
  (s.squadOf w q).any fun i => ((s.threads[i]?).map fun th => decide (th.park = .tryGroup true)).getD false

/-- Every thread that waits in a fixed group enters speculation (R132). -/
def State.beginGroup (s : State) (w q : Nat) (o : BitVec 21) : State :=
  (s.squadOf w q).foldl (fun s' i => s'.updThread i fun x =>
    if x.park = .tryGroup true then s.begin x .squad (x.target o) else x) s

/-- R132: while a group runs, is fixed, or forms at another word, the thread waits; else it waits until every present
thread of its squad waits at the same word and none is in a `try.l` (R133), and all begin together, a thread in handler
mode that waits there among them (log 66). Nested, code 7. -/
def execTryW (g : BitVec 3) (o : BitVec 21) (s : State) : Out :=
  onThread (.tryW g o) s fun k th s =>
    if th.spec.isSome then s.abort k 7#8 0 0
    else if th.park = .tryGroup true then s.beginGroup th.wg th.squad o
    else if s.groupRuns th.wg th.squad || s.groupFixed th.wg th.squad || (s.groupForms th.wg th.squad).any (· ≠ th.pc) then
      s.tryWaits k
    else
      let s : State := (s.updThread k fun th => { th with park := .tryGroup false }).fixGroup th.wg th.squad
      if s.groupFixed th.wg th.squad then s.beginGroup th.wg th.squad o else s

/-- R133: alone; it waits while a `try.w` group forms or runs in the squad. -/
def execTryL (g : BitVec 3) (o : BitVec 21) (s : State) : Out :=
  onThread (.tryL g o) s fun k th s =>
    if th.spec.isSome then s.abort k 7#8 0 0
    else if s.groupRuns th.wg th.squad || (s.groupForms th.wg th.squad).isSome then s.tryWaits k
    else s.updThread k fun th => s.begin th .lone (th.target o)

/-- A thread's speculation ends without rollback (R134). -/
def State.endSpec (s : State) (k : Nat) : State :=
  match s.threads[k]? with
  | none => s
  | some th =>
    (s.updWg th.wg fun g => { g with hay := g.hay.map fun e => if e.thread = k then { e with spec := false } else e }
      ).updThread k fun th => { th.advance 1 with spec := none, conflict := false }

/-- R132, R134. -/
def execTcommit (g : BitVec 3) (s : State) : Out :=
  onThread (.tcommit g) s fun k th s =>
    match th.spec with
    | none => s.updThread k fun th => th.advance 1
    | some sp =>
      match sp.kind with
      | .lone => s.endSpec k
      | .squad =>
        let s : State := s.updThread k fun th => { th with park := .commitGroup }
        let grp := s.group th.wg th.squad
        if grp.all fun i => match s.threads[i]? with
            | some x => x.park = .commitGroup && !x.conflict
            | none => true
        then grp.foldl (fun s i => s.endSpec i) s else s

/-- R135. -/
def execTabort (g : BitVec 3) (c : BitVec 8) (s : State) : Out :=
  onThread (.tabort g c) s fun k th s =>
    if th.spec.isSome then s.abort k c 0 0 else s.updThread k fun th => th.advance 1

/-- SPECULATION_CONFLICT (R129, R131): the issuing thread's observed conflict is taken before its next word. -/
def execSpeculationConflict (s : State) : Out :=
  match s.issuer with
  | some (.thread k) =>
    match s.threads[k]? with
    | some th => if th.conflict && th.spec.isSome then .next (s.abortNow k 1#8) else .fault .stepNotEnabled
    | none => .fault .stepNotEnabled
  | _ => .fault .stepNotEnabled

/-! ## Special registers (R56-R61) -/

/-- A counter as s.cnt shows it (R61). -/
def shown (n : Nat) : BitVec 8 := BitVec.ofNat 8 (min n 255)

/-- s.cnt (R61, R185). -/
def State.cnt (s : State) (k : Nat) (th : Thread) : Word :=
  shown th.loads.length ++ shown (s.storesOf th.wg k) ++ shown (s.copiesOf (.thread k)) ++ 0#8

/-- What `srd` reads (R56); none for an unassigned number. -/
def State.special (s : State) (k : Nat) (th : Thread) (n : BitVec 12) : Option Word :=
  match n.toNat with
  | 0x000 => some (th.tid.setWidth 32)
  | 0x001 => some (s.wgidOf th.wg)
  | 0x002 => some (s.launchId th.wg)
  | 0x003 => some (if th.role then 1 else 0)
  | 0x004 => some (BitVec.ofNat 32 (s.coreOf th.wg))
  | 0x008 => some th.rm
  | 0x009 => some th.flags
  | 0x010 => some th.tcause
  | 0x011 => some th.tval
  | 0x012 => some (th.tpc.setWidth 32)
  | 0x013 => some ((th.tpc.extractLsb' 32 25).setWidth 32)
  | 0x014 => some (th.tvec.setWidth 32)
  | 0x015 => some ((th.tvec.extractLsb' 32 25).setWidth 32)
  | 0x016 => some th.tac
  | 0x018 => some (th.depth.setWidth 32)
  | 0x019 => some (th.csb.setWidth 32)
  | 0x01A => some ((th.csb.extractLsb' 32 25).setWidth 32)
  | 0x020 => some (s.cnt k th)
  | 0x021 => some (BitVec.ofNat 32 s.clk)
  | 0x022 => some (th.clkLatch.getD (BitVec.ofNat 32 (s.clk / 2 ^ 32)))
  | _ => none

/-- Reading s.clklo latches the upper half, reading s.clkhi uses the latch up (R57). -/
def Thread.latch (th : Thread) (n : BitVec 12) (clk : Nat) : Thread :=
  if n = 0x021#12 then { th with clkLatch := some (BitVec.ofNat 32 (clk / 2 ^ 32)) }
  else if n = 0x022#12 then { th with clkLatch := none } else th

/-- R56, R57, R120: s.flags waits for loads that will set flags. -/
def execSrd (g : BitVec 3) (d : BitVec 7) (n : BitVec 12) (s : State) : Out :=
  onThread (.srd g d n) s fun k th s =>
    match s.special k th n with
    | none => s.illegal k (.srd g d n)
    | some v =>
      if n = 0x009#12 && th.loads.any (·.flags ≠ 0) then s
      else s.updThread k fun th => ((th.latch n s.clk).setReg d v).advance 1

/-- The low and high words of a 57-bit special register written (R56). -/
def setLo (a : VAddr) (v : Word) : VAddr := a.extractLsb' 32 25 ++ v
def setHi (a : VAddr) (v : Word) : VAddr := (v.extractLsb' 0 25) ++ (a.extractLsb' 0 32 : Word)

/-- What `swr` writes (R56, R59, R60); none where R57 raises ILLEGAL. -/
def Thread.setSpecial (th : Thread) (n : BitVec 12) (v : Word) : Option Thread :=
  let lo2 : Bool := v.extractLsb' 0 2 ≠ 0
  let hi : Bool := v.extractLsb' 25 7 ≠ 0
  match n.toNat with
  | 0x008 => if 4 < v.toNat then none else some { th with rm := v }
  | 0x009 => if v.extractLsb' 9 23 ≠ 0 then none else some { th with flags := v }
  | 0x012 => if lo2 then none else some { th with tpc := setLo th.tpc v }
  | 0x013 => if hi then none else some { th with tpc := setHi th.tpc v }
  | 0x014 => if lo2 then none else some { th with tvec := setLo th.tvec v }
  | 0x015 => if hi then none else some { th with tvec := setHi th.tvec v }
  | 0x019 => if v.extractLsb' 0 3 ≠ 0 then none else some { th with csb := setLo th.csb v }
  | 0x01A => if hi then none else some { th with csb := setHi th.csb v }
  | _ => none

/-- R56, R57, R120. A write of s.flags comes after the flags of earlier loads (R57). -/
def execSwr (g : BitVec 3) (src : BitVec 7) (n : BitVec 12) (s : State) : Out :=
  onThread (.swr g src n) s fun k th s =>
    match th.setSpecial n (th.reg src) with
    | none => s.illegal k (.swr g src n)
    | some _ =>
      if n = 0x009#12 && th.loads.any (·.flags ≠ 0) then s
      else s.updThread k fun th => ((th.setSpecial n (th.reg src)).getD th).advance 1

/-! ## Clause headers (R33-R36, R245) -/

/-- A thread takes a header: fetch, the check of R34, the waits of R35. With its waits unmet it takes it again later. A
header taken again in mid-clause that cannot be fetched leaves the thread at its word; one that is not valid moves it to
the header (log 67). -/
def State.takeHeader (s : State) (k : Nat) (th : Thread) : State :=
  match s.fetchClause th.wg th.pc.hdr with
  | .fault => s.takeTrap k causeFetch (th.pc.hdr.setWidth 32)
  | .absent st =>
    match s.parkAccess th.wg th.pc.hdr.toNat st (.thread k) 2#2 0#4 th.tid with
    | some s => s.updThread k fun th => { th with park := .page }
    | none => s
  | .clause c =>
    let s := s.fillClause th.wg th.pc.hdr c.count
    if !headerValid c.header then
      (s.updThread k fun th => { th with pc := ⟨th.pc.hdr, 0⟩ }).takeTrap k causeIllegalClause c.header
    else if !s.headerMet k th c.header then s
    else s.updThread k fun th =>
      { th with clause := c, recheck := false, pc := ⟨th.pc.hdr, if th.pc.idx = 0 then 1 else th.pc.idx⟩ }

/-- A drive stream takes a header (R45, R245). -/
def State.takeDriveHeader (s : State) (w : Nat) (d : Drive) : State :=
  match s.fetchClause w d.pc.hdr with
  | .fault => s.driveFault w d.pc.hdr (BitVec.ofNat 32 (Config.unstated s.draw w)) causeFetch
  | .absent st =>
    match s.parkAccess w d.pc.hdr.toNat st (.drive w) 2#2 1#4 0 with
    | some s => s.updDrive w fun d => { d with park := .page }
    | none => s
  | .clause c =>
    let s := s.fillClause w d.pc.hdr c.count
    if !headerValid c.header || headerClass c.header ≠ 4#3 then s.driveFault w d.pc.hdr c.header causeIllegalClause
    else if !s.driveMet w d (c.header.extractLsb' 13 4) (c.header.extractLsb' 9 4) then s
    else s.updDrive w fun d =>
      { d with clause := c, recheck := false, pc := ⟨d.pc.hdr, if d.pc.idx = 0 then 1 else d.pc.idx⟩ }

/-- CLAUSE_HEADER_TAKE (R33-R36, R49): the issuing stream takes the header it stands before. -/
def execClauseHeaderTake (s : State) : Out :=
  match s.issuer with
  | some (.thread k) =>
    match s.threads[k]? with
    | some th => if th.pc.idx = 0 || th.recheck then .next (s.takeHeader k th) else .fault .stepNotEnabled
    | none => .fault .stepNotEnabled
  | some (.drive w) =>
    match s.drive? w with
    | some d => if d.pc.idx = 0 || d.recheck then .next (s.takeDriveHeader w d) else .fault .stepNotEnabled
    | none => .fault .stepNotEnabled
  | _ => .fault .stepNotEnabled

/-- PC_COMPARATOR_HOLD (R378, R379): the issuing stream's next word matches comparator k. -/
def execPcComparatorHold (k : Nat) (s : State) : Out :=
  match s.issuer with
  | some (.thread i) =>
    match s.threads[i]? with
    | some th =>
      if !th.unmatched && s.comparator th.wg false th.squad (wordAddr th.pc) = some k then
        .next (s.holdThread i false (s.debugRecordOf th.wg ((wordAddr th.pc).setWidth 64) 1#8 th.tid false k 0))
      else .fault .stepNotEnabled
    | none => .fault .stepNotEnabled
  | some (.drive w) =>
    match s.drive? w with
    | some d =>
      if !d.unmatched && s.comparator w true 0 (wordAddr d.pc) = some k then
        .next (s.holdDrive w (s.debugRecordOf w ((wordAddr d.pc).setWidth 64) 1#8 0 true k 0))
      else .fault .stepNotEnabled
    | none => .fault .stepNotEnabled
  | _ => .fault .stepNotEnabled

/-! ## Squad swaps (R179-R182) -/

/-- The squad in an active slot of a core. -/
def State.inSlot (s : State) (core slot : Nat) : Option (Nat × Nat) :=
  (List.range s.wgs.length).findSome? fun w => match s.wgs[w]? with
    | some g => if g.core = core && g.resident then
        (g.squads.findIdx? fun sq => sq.slot = some slot).map fun q => (w, q) else none
    | none => none

/-- The lowest free active slot of a core (R179, R385); a slot a swap is filling is taken. -/
def State.freeSlotOf (s : State) (core : Nat) : Option Nat :=
  (List.range 8).find? fun k => (s.inSlot core k).isNone &&
    (((s.cores[core]?).bind (·.swap)).map (·.slot)) ≠ some k

/-- A squad of a resident workgroup stands in the pending set and has a live thread. -/
def State.pending (s : State) (core w q : Nat) : Bool :=
  match s.wgs[w]? with
  | some g => g.core = core && g.state = .resident &&
      (match g.squads[q]? with
        | some sq => sq.slot.isNone && !(s.reasons w q).isEmpty
        | none => false)
  | none => false

/-- The squads of the workgroups resident on a core. -/
def State.squadsOn (s : State) (core : Nat) : List (Nat × Nat) :=
  (List.range s.wgs.length).flatMap fun w => match s.wgs[w]? with
    | some g => if g.core = core && g.resident then (List.range g.squads.length).map fun q => (w, q) else []
    | none => []

/-- A squad as R181 and R183 rank it: an ac, then the workgroup slot, then its number. -/
def State.rankOf (s : State) (x : Nat × Nat) (ac : Nat) : Nat × Nat × Nat := (ac, ((s.wgs[x.1]?).map (·.slot)).getD 0, x.2)

/-- An order of ranks. -/
def rankLt (a b : Nat × Nat × Nat) : Bool := a.1 < b.1 || (a.1 = b.1 && (a.2.1 < b.2.1 || (a.2.1 = b.2.1 && a.2.2 < b.2.2)))

/-- The first of a list by a rank. -/
def firstBy (rank : α → Nat × Nat × Nat) (l : List α) : Option α :=
  l.foldl (fun r x => match r with
    | some y => if rankLt (rank x) (rank y) then some x else r
    | none => some x) none

/-- Since when a squad is blocked long, or ready. -/
def State.sinceOf (s : State) (x : Nat × Nat) : Option Nat := ((s.wgs[x.1]?).bind fun g => g.squads[x.2]?).bind (·.since)

/-- What a swap brings in (R181): the pending squad ready for the longest time. -/
def State.incoming (s : State) (core : Nat) : Option (Nat × Nat) :=
  firstBy (fun x => s.rankOf x ((s.sinceOf x).getD 0)) ((s.squadsOn core).filter fun x =>
    s.pending core x.1 x.2 && (s.sinceOf x).isSome && s.squadReady x.1 x.2)

/-- The slot a swap fills (R181): the lowest free one, else that of the active squad blocked long since latest. -/
def State.swapSlot (s : State) (core : Nat) : Option Nat :=
  match s.freeSlotOf core with
  | some k => some k
  | none =>
    let victims := (List.range 8).filterMap fun k => match s.inSlot core k with
      | some x => if (s.sinceOf x).isSome && s.blockedLong x.1 x.2 then some (k, x) else none
      | none => none
    let worst := victims.foldl (fun (r : Option (Nat × (Nat × Nat))) v => match r with
      | some u => if rankLt (s.rankOf u.2 ((s.sinceOf u.2).getD 0)) (s.rankOf v.2 ((s.sinceOf v.2).getD 0)) then some v else r
      | none => some v) none
    worst.map (·.1)

/-- A swap of R181 begins: one at a time, the one it names. -/
def State.swapEnabled (s : State) (core slot w q : Nat) : Bool :=
  (match s.cores[core]? with
    | some c => c.swap.isNone
    | none => false) && s.incoming core = some (w, q) && s.swapSlot core = some slot

/-- SQUAD_SWAP_BEGIN (R181): the outgoing squad issues nothing from here on. -/
def execSquadSwapBegin (c slot w q : Nat) (s : State) : Out :=
  if !s.swapEnabled c slot w q then .fault .stepNotEnabled
  else
    let s : State := match s.inSlot c slot with
      | some (x, y) => s.updSquad x y fun sq => { sq with slot := none, since := none }
      | none => s
    .next (s.updCore c fun k => { k with swap := some ⟨slot, w, q, s.clk⟩ })

/-- A swap takes 40 ac (R181). -/
def swapTime : Nat := 40

/-- SQUAD_SWAP_END (R181): the incoming squad takes its slot. -/
def execSquadSwapEnd (c : Nat) (s : State) : Out :=
  match (s.cores[c]?).bind (·.swap) with
  | none => .fault .stepNotEnabled
  | some x =>
    if s.clk < x.at_ + swapTime then .fault .stepNotEnabled
    else .next ((s.updSquad x.wg x.squad fun sq => { sq with slot := some x.slot, since := none }).updCore c fun k =>
      { k with swap := none })

end Sys2Proof.Machine
end

