-- ==== Sys2Proof/Machine/Integer.lean ====
section
/-! DEFINITION. Integer: the integer, bit, predicate and move words of class 000 (R78-R94). -/

namespace Sys2Proof.Machine

/-- A result with the flags it raises, into register d (R60, R78). -/
def Thread.put (th : Thread) (d : BitVec 7) (r : Word × Word) : Thread := (th.setReg d r.1).raise r.2

/-- A 64-bit result modulo 2^64 into pair d (R81). -/
def Thread.put64 (th : Thread) (d : BitVec 7) (x : Int) : Thread := th.setPair d (BitVec.ofInt 64 x)

/-- Signed and unsigned readings of a register, and the unsigned reading of a pair. -/
def Thread.rs (th : Thread) (r : BitVec 7) : Int := (th.reg r).s
def Thread.ru (th : Thread) (r : BitVec 7) : Int := (th.reg r).u
def Thread.pu (th : Thread) (r : BitVec 7) : Int := ((th.pair r).toNat : Int)

/-- `div` (R83): quotient truncated toward zero; IDZ and the fixed values for a zero divisor. -/
def divide (signed : Bool) (a b : Word) : Word × Word :=
  if b = 0 then
    (if signed then (if 0 ≤ a.s then 0x7FFFFFFF else 0x80000000) else 0xFFFFFFFF, flagIDZ)
  else if signed then (wordOfInt (a.s.tdiv b.s), 0) else (wordOfInt (a.u.tdiv b.u), 0)

/-- `rem` (R83): the remainder takes the dividend's sign; the dividend itself, with IDZ, for a zero divisor. -/
def remainder (signed : Bool) (a b : Word) : Word × Word :=
  if b = 0 then (a, flagIDZ)
  else if signed then (wordOfInt (a.s.tmod b.s), 0) else (wordOfInt (a.u.tmod b.u), 0)

/-- The lesser and the greater, signed or unsigned (R84). -/
def minS (a b : Word) : Word := if a.s ≤ b.s then a else b
def maxS (a b : Word) : Word := if a.s ≤ b.s then b else a
def minU (a b : Word) : Word := if a.u ≤ b.u then a else b
def maxU (a b : Word) : Word := if a.u ≤ b.u then b else a

/-- A saturated sum combined with d (R85). -/
def sumThen (sum : Word × Word) (f : Word → Word → Word) (d : Word) : Word × Word := (f sum.1 d, sum.2)

/-- Shifts by an unsigned count, and rotation left by the count modulo 32 (R88). -/
def shiftL (a : Word) (c : Nat) : Word := if 32 ≤ c then 0 else a <<< c
def shiftR (a : Word) (c : Nat) : Word := a >>> c
def shiftA (a : Word) (c : Nat) : Word := a.sshiftRight c
def rotL (a : Word) (c : Nat) : Word := a.rotateLeft (c % 32)

/-- Position and length of a bit field by its control word (R89). -/
def fieldPos (b : Word) : Nat := (b.extractLsb' 0 5).toNat
def fieldLen (b : Word) : Nat :=
  let n := (b.extractLsb' 8 6).toNat
  let n := if 32 < n then 32 else n
  if 32 - fieldPos b < n then 32 - fieldPos b else n

/-- `bfx` (R89). -/
def extractField (a b : Word) : Word :=
  let len := fieldLen b
  let f := a.toNat / 2 ^ fieldPos b % 2 ^ len
  if len = 0 then 0
  else if b.getLsbD 16 && 2 ^ (len - 1) ≤ f then wordOfInt ((f : Int) - 2 ^ len)
  else BitVec.ofNat 32 f

/-- `bfi` (R89): other bits of d unchanged. -/
def insertField (d a b : Word) : Word :=
  let m : Word := BitVec.ofNat 32 (2 ^ fieldLen b - 1) <<< fieldPos b
  (d &&& ~~~m) ||| ((a <<< fieldPos b) &&& m)

/-- Bit counts (R90). -/
def popcount (a : Word) : Word := BitVec.ofNat 32 ((List.range 32).filter fun i => a.getLsbD i).length
def leadingZeros (a : Word) : Word := BitVec.ofNat 32 (((List.range 32).find? fun i => a.getLsbD (31 - i)).getD 32)
def trailingZeros (a : Word) : Word := BitVec.ofNat 32 (((List.range 32).find? fun i => a.getLsbD i).getD 32)

/-- Bit i to bit 31 - i, byte i to byte 3 - i (R90). -/
def bitReverse (a : Word) : Word := a.reverse
def byteSwap (a : Word) : Word :=
  a.extractLsb' 0 8 ++ a.extractLsb' 8 8 ++ a.extractLsb' 16 8 ++ a.extractLsb' 24 8

/-- The conditions of `cmp`, `cmpi` and `dcmp` (R40, R92). -/
def compare (c : BitVec 4) (a b : Word) : Bool :=
  if c = 0#4 then a = b
  else if c = 1#4 then a ≠ b
  else if c = 2#4 then a.s < b.s
  else if c = 3#4 then a.s ≤ b.s
  else if c = 4#4 then b.s < a.s
  else if c = 5#4 then b.s ≤ a.s
  else if c = 6#4 then a.u < b.u
  else if c = 7#4 then a.u ≤ b.u
  else if c = 8#4 then b.u < a.u
  else b.u ≤ a.u

/-- A sign-extended immediate (R94). -/
def imm (i : BitVec 7) : Word := i.signExtend 32

/-- `add.s32` (R81): modulo 2^32. -/
def execAddS32 (g : BitVec 3) (d a b : BitVec 7) (s : State) : Out :=
  onRegs (.addS32 g d a b) s fun th => th.setReg d (wordOfInt (th.rs a + th.rs b))

/-- `add.s32.sat` (R81). -/
def execAddS32Sat (g : BitVec 3) (d a b : BitVec 7) (s : State) : Out :=
  onRegs (.addS32Sat g d a b) s fun th => th.put d (satS32 (th.rs a + th.rs b))

/-- `add.n32.sat` (R81). -/
def execAddN32Sat (g : BitVec 3) (d a b : BitVec 7) (s : State) : Out :=
  onRegs (.addN32Sat g d a b) s fun th => th.put d (satN32 (th.ru a + th.ru b))

/-- `add.n64` (R81): modulo 2^64 on pairs. -/
def execAddN64 (g : BitVec 3) (d a b : BitVec 7) (s : State) : Out :=
  onRegs (.addN64 g d a b) s fun th => th.put64 d (th.pu a + th.pu b)

/-- `sub.s32` (R81): modulo 2^32. -/
def execSubS32 (g : BitVec 3) (d a b : BitVec 7) (s : State) : Out :=
  onRegs (.subS32 g d a b) s fun th => th.setReg d (wordOfInt (th.rs a - th.rs b))

/-- `sub.s32.sat` (R81). -/
def execSubS32Sat (g : BitVec 3) (d a b : BitVec 7) (s : State) : Out :=
  onRegs (.subS32Sat g d a b) s fun th => th.put d (satS32 (th.rs a - th.rs b))

/-- `sub.n32.sat` (R81). -/
def execSubN32Sat (g : BitVec 3) (d a b : BitVec 7) (s : State) : Out :=
  onRegs (.subN32Sat g d a b) s fun th => th.put d (satN32 (th.ru a - th.ru b))

/-- `sub.n64` (R81): modulo 2^64 on pairs. -/
def execSubN64 (g : BitVec 3) (d a b : BitVec 7) (s : State) : Out :=
  onRegs (.subN64 g d a b) s fun th => th.put64 d (th.pu a - th.pu b)

/-- `mul.s32` (R81): modulo 2^32. -/
def execMulS32 (g : BitVec 3) (d a b : BitVec 7) (s : State) : Out :=
  onRegs (.mulS32 g d a b) s fun th => th.setReg d (wordOfInt (th.rs a * th.rs b))

/-- `mul.s32.sat` (R81). -/
def execMulS32Sat (g : BitVec 3) (d a b : BitVec 7) (s : State) : Out :=
  onRegs (.mulS32Sat g d a b) s fun th => th.put d (satS32 (th.rs a * th.rs b))

/-- `mul.n32.sat` (R81). -/
def execMulN32Sat (g : BitVec 3) (d a b : BitVec 7) (s : State) : Out :=
  onRegs (.mulN32Sat g d a b) s fun th => th.put d (satN32 (th.ru a * th.ru b))

/-- `mul.n64` (R81): the exact product into pair d. -/
def execMulN64 (g : BitVec 3) (d a b : BitVec 7) (s : State) : Out :=
  onRegs (.mulN64 g d a b) s fun th => th.put64 d (th.ru a * th.ru b)

/-- `mad.s32` (R81): d is the addend. -/
def execMadS32 (g : BitVec 3) (d a b : BitVec 7) (s : State) : Out :=
  onRegs (.madS32 g d a b) s fun th => th.setReg d (wordOfInt (th.rs d + th.rs a * th.rs b))

/-- `mad.s32.sat` (R81). -/
def execMadS32Sat (g : BitVec 3) (d a b : BitVec 7) (s : State) : Out :=
  onRegs (.madS32Sat g d a b) s fun th => th.put d (satS32 (th.rs d + th.rs a * th.rs b))

/-- `mad.n32.sat` (R81). -/
def execMadN32Sat (g : BitVec 3) (d a b : BitVec 7) (s : State) : Out :=
  onRegs (.madN32Sat g d a b) s fun th => th.put d (satN32 (th.ru d + th.ru a * th.ru b))

/-- `mad.n64` (R81): pair d the addend and the result. -/
def execMadN64 (g : BitVec 3) (d a b : BitVec 7) (s : State) : Out :=
  onRegs (.madN64 g d a b) s fun th => th.put64 d (th.pu d + th.ru a * th.ru b)

/-- `mulh.s32` (R82): bits [63:32] of the signed product. -/
def execMulhS32 (g : BitVec 3) (d a b : BitVec 7) (s : State) : Out :=
  onRegs (.mulhS32 g d a b) s fun th => th.setReg d (wordOfInt (th.rs a * th.rs b / 2 ^ 32))

/-- `mulh.n32` (R82): bits [63:32] of the unsigned product. -/
def execMulhN32 (g : BitVec 3) (d a b : BitVec 7) (s : State) : Out :=
  onRegs (.mulhN32 g d a b) s fun th => th.setReg d (wordOfInt (th.ru a * th.ru b / 2 ^ 32))

/-- `div.s32` (R83). -/
def execDivS32 (g : BitVec 3) (d a b : BitVec 7) (s : State) : Out :=
  onRegs (.divS32 g d a b) s fun th => th.put d (divide true (th.reg a) (th.reg b))

/-- `div.n32` (R83). -/
def execDivN32 (g : BitVec 3) (d a b : BitVec 7) (s : State) : Out :=
  onRegs (.divN32 g d a b) s fun th => th.put d (divide false (th.reg a) (th.reg b))

/-- `rem.s32` (R83). -/
def execRemS32 (g : BitVec 3) (d a b : BitVec 7) (s : State) : Out :=
  onRegs (.remS32 g d a b) s fun th => th.put d (remainder true (th.reg a) (th.reg b))

/-- `rem.n32` (R83). -/
def execRemN32 (g : BitVec 3) (d a b : BitVec 7) (s : State) : Out :=
  onRegs (.remN32 g d a b) s fun th => th.put d (remainder false (th.reg a) (th.reg b))

/-- `min.s32` (R84). -/
def execMinS32 (g : BitVec 3) (d a b : BitVec 7) (s : State) : Out :=
  onRegs (.minS32 g d a b) s fun th => th.setReg d (minS (th.reg a) (th.reg b))

/-- `min.n32` (R84). -/
def execMinN32 (g : BitVec 3) (d a b : BitVec 7) (s : State) : Out :=
  onRegs (.minN32 g d a b) s fun th => th.setReg d (minU (th.reg a) (th.reg b))

/-- `max.s32` (R84). -/
def execMaxS32 (g : BitVec 3) (d a b : BitVec 7) (s : State) : Out :=
  onRegs (.maxS32 g d a b) s fun th => th.setReg d (maxS (th.reg a) (th.reg b))

/-- `max.n32` (R84). -/
def execMaxN32 (g : BitVec 3) (d a b : BitVec 7) (s : State) : Out :=
  onRegs (.maxN32 g d a b) s fun th => th.setReg d (maxU (th.reg a) (th.reg b))

/-- `addmin.s32` (R85): SAT whenever the sum saturates. -/
def execAddminS32 (g : BitVec 3) (d a b : BitVec 7) (s : State) : Out :=
  onRegs (.addminS32 g d a b) s fun th => th.put d (sumThen (satS32 (th.rs a + th.rs b)) minS (th.reg d))

/-- `addmin.n32` (R85): SAT whenever the sum saturates. -/
def execAddminN32 (g : BitVec 3) (d a b : BitVec 7) (s : State) : Out :=
  onRegs (.addminN32 g d a b) s fun th => th.put d (sumThen (satN32 (th.ru a + th.ru b)) minU (th.reg d))

/-- `addmax.s32` (R85): SAT whenever the sum saturates. -/
def execAddmaxS32 (g : BitVec 3) (d a b : BitVec 7) (s : State) : Out :=
  onRegs (.addmaxS32 g d a b) s fun th => th.put d (sumThen (satS32 (th.rs a + th.rs b)) maxS (th.reg d))

/-- `addmax.n32` (R85): SAT whenever the sum saturates. -/
def execAddmaxN32 (g : BitVec 3) (d a b : BitVec 7) (s : State) : Out :=
  onRegs (.addmaxN32 g d a b) s fun th => th.put d (sumThen (satN32 (th.ru a + th.ru b)) maxU (th.reg d))

/-- `clamp.s32` (R84): min(max(d, a), b). -/
def execClampS32 (g : BitVec 3) (d a b : BitVec 7) (s : State) : Out :=
  onRegs (.clampS32 g d a b) s fun th => th.setReg d (minS (maxS (th.reg d) (th.reg a)) (th.reg b))

/-- `clamp.n32` (R84): min(max(d, a), b). -/
def execClampN32 (g : BitVec 3) (d a b : BitVec 7) (s : State) : Out :=
  onRegs (.clampN32 g d a b) s fun th => th.setReg d (minU (maxU (th.reg d) (th.reg a)) (th.reg b))

/-- `addc` (R86): carry in from bit 0 of g(d), the sum to g(d), the carry out to g(d+1). -/
def execAddc (g : BitVec 3) (d a b : BitVec 7) (s : State) : Out :=
  onRegs (.addc g d a b) s fun th => 
    let x := (th.reg a).toNat + (th.reg b).toNat + (th.reg d).toNat % 2
    (th.setReg d (BitVec.ofNat 32 x)).setReg (d + 1) (BitVec.ofNat 32 (x / 2 ^ 32))

/-- `subb` (R86): borrow in from bit 0 of g(d), the borrow out to g(d+1). -/
def execSubb (g : BitVec 3) (d a b : BitVec 7) (s : State) : Out :=
  onRegs (.subb g d a b) s fun th => 
    let x : Int := th.ru a - th.ru b - ((th.reg d).toNat % 2 : Nat)
    (th.setReg d (wordOfInt x)).setReg (d + 1) (if x < 0 then 1 else 0)

/-- `neg` (R87). -/
def execNeg (g : BitVec 3) (d a : BitVec 7) (s : State) : Out :=
  onRegs (.neg g d a) s fun th => th.setReg d (0 - th.reg a)

/-- `abs` (R87): modulo 2^32. -/
def execAbs (g : BitVec 3) (d a : BitVec 7) (s : State) : Out :=
  onRegs (.abs g d a) s fun th => th.setReg d (wordOfInt ((th.rs a).natAbs : Int))

/-- `lea` (R87): pair d := a2 + SignExtend(b, 32). -/
def execLea (g : BitVec 3) (d a b : BitVec 7) (s : State) : Out :=
  onRegs (.lea g d a b) s fun th => th.setPair d (th.pair a + (th.reg b).signExtend 64)

/-- `and` (R88). -/
def execAnd (g : BitVec 3) (d a b : BitVec 7) (s : State) : Out :=
  onRegs (.and g d a b) s fun th => th.setReg d (th.reg a &&& th.reg b)

/-- `or` (R88). -/
def execOr (g : BitVec 3) (d a b : BitVec 7) (s : State) : Out :=
  onRegs (.or g d a b) s fun th => th.setReg d (th.reg a ||| th.reg b)

/-- `xor` (R88). -/
def execXor (g : BitVec 3) (d a b : BitVec 7) (s : State) : Out :=
  onRegs (.xor g d a b) s fun th => th.setReg d (th.reg a ^^^ th.reg b)

/-- `andn` (R88). -/
def execAndn (g : BitVec 3) (d a b : BitVec 7) (s : State) : Out :=
  onRegs (.andn g d a b) s fun th => th.setReg d (th.reg a &&& ~~~th.reg b)

/-- `not` (R88). -/
def execNot (g : BitVec 3) (d a : BitVec 7) (s : State) : Out :=
  onRegs (.not g d a) s fun th => th.setReg d (~~~th.reg a)

/-- `shl` (R88): the count is the whole of b. -/
def execShl (g : BitVec 3) (d a b : BitVec 7) (s : State) : Out :=
  onRegs (.shl g d a b) s fun th => th.setReg d (shiftL (th.reg a) (th.reg b).toNat)

/-- `shr` (R88): the count is the whole of b. -/
def execShr (g : BitVec 3) (d a b : BitVec 7) (s : State) : Out :=
  onRegs (.shr g d a b) s fun th => th.setReg d (shiftR (th.reg a) (th.reg b).toNat)

/-- `sar` (R88): the count is the whole of b. -/
def execSar (g : BitVec 3) (d a b : BitVec 7) (s : State) : Out :=
  onRegs (.sar g d a b) s fun th => th.setReg d (shiftA (th.reg a) (th.reg b).toNat)

/-- `rot` (R88): the count is the whole of b. -/
def execRot (g : BitVec 3) (d a b : BitVec 7) (s : State) : Out :=
  onRegs (.rot g d a b) s fun th => th.setReg d (rotL (th.reg a) (th.reg b).toNat)

/-- `bfx` (R89). -/
def execBfx (g : BitVec 3) (d a b : BitVec 7) (s : State) : Out :=
  onRegs (.bfx g d a b) s fun th => th.setReg d (extractField (th.reg a) (th.reg b))

/-- `bfi` (R89). -/
def execBfi (g : BitVec 3) (d a b : BitVec 7) (s : State) : Out :=
  onRegs (.bfi g d a b) s fun th => th.setReg d (insertField (th.reg d) (th.reg a) (th.reg b))

/-- `popc` (R90). -/
def execPopc (g : BitVec 3) (d a : BitVec 7) (s : State) : Out :=
  onRegs (.popc g d a) s fun th => th.setReg d (popcount (th.reg a))

/-- `clz` (R90). -/
def execClz (g : BitVec 3) (d a : BitVec 7) (s : State) : Out :=
  onRegs (.clz g d a) s fun th => th.setReg d (leadingZeros (th.reg a))

/-- `ctz` (R90). -/
def execCtz (g : BitVec 3) (d a : BitVec 7) (s : State) : Out :=
  onRegs (.ctz g d a) s fun th => th.setReg d (trailingZeros (th.reg a))

/-- `brev` (R90). -/
def execBrev (g : BitVec 3) (d a : BitVec 7) (s : State) : Out :=
  onRegs (.brev g d a) s fun th => th.setReg d (bitReverse (th.reg a))

/-- `bswap` (R90). -/
def execBswap (g : BitVec 3) (d a : BitVec 7) (s : State) : Out :=
  onRegs (.bswap g d a) s fun th => th.setReg d (byteSwap (th.reg a))

/-- `sel` (R91): always executes; its guard chooses a or b (R38). -/
def execSel (g : BitVec 3) (d a b : BitVec 7) (s : State) : Out :=
  onRegs (.sel g d a b) s fun th => th.setReg d (if th.pred g then th.reg a else th.reg b)

/-- `mov` (R91). -/
def execMov (g : BitVec 3) (d a : BitVec 7) (s : State) : Out :=
  onRegs (.mov g d a) s fun th => th.setReg d (th.reg a)

/-- `cmp` (R92). -/
def execCmp (g : BitVec 3) (c : BitVec 4) (p : BitVec 3) (a b : BitVec 7) (s : State) : Out :=
  onRegs (.cmp g c p a b) s fun th => th.setPred p (compare c (th.reg a) (th.reg b))

/-- `plog` (R93): bit 2·pa + pb of the table. -/
def execPlog (g : BitVec 3) (t : BitVec 4) (d a b : BitVec 3) (s : State) : Out :=
  onRegs (.plog g t d a b) s fun th => th.setPred d (t.getLsbD (2 * (th.pred a).toNat + (th.pred b).toNat))

/-- `pmov.rd` (R93): p0-p6, bit 7 set. -/
def execPmovRd (g : BitVec 3) (d : BitVec 7) (s : State) : Out :=
  onRegs (.pmovRd g d) s fun th => th.setReg d ((1#1 ++ th.p).setWidth 32)

/-- `pmov.wr` (R93): p0-p6 from [6:0]. -/
def execPmovWr (g : BitVec 3) (a : BitVec 7) (s : State) : Out :=
  onRegs (.pmovWr g a) s fun th => { th with p := (th.reg a).extractLsb' 0 7 }

/-- `movi` (R91). -/
def execMovi (g : BitVec 3) (d : BitVec 7) (i : BitVec 14) (s : State) : Out :=
  onRegs (.movi g d i) s fun th => th.setReg d (i.signExtend 32)

/-- `movl` (R91): the literal word. -/
def execMovl (g : BitVec 3) (d : BitVec 7) (lit : Word) (s : State) : Out :=
  onRegs (.movl g d lit) s fun th => th.setReg d lit

/-- `cmpi` (R92). -/
def execCmpi (g : BitVec 3) (c : BitVec 4) (p : BitVec 3) (a i : BitVec 7) (s : State) : Out :=
  onRegs (.cmpi g c p a i) s fun th => th.setPred p (compare c (th.reg a) (imm i))

/-- `add` with an immediate (R94): wraps. -/
def execAddImm (g : BitVec 3) (d a i : BitVec 7) (s : State) : Out :=
  onRegs (.addImm g d a i) s fun th => th.setReg d (th.reg a + imm i)

/-- `and` with an immediate (R88, R94). -/
def execAndImm (g : BitVec 3) (d a i : BitVec 7) (s : State) : Out :=
  onRegs (.andImm g d a i) s fun th => th.setReg d (th.reg a &&& imm i)

/-- `or` with an immediate (R88, R94). -/
def execOrImm (g : BitVec 3) (d a i : BitVec 7) (s : State) : Out :=
  onRegs (.orImm g d a i) s fun th => th.setReg d (th.reg a ||| imm i)

/-- `xor` with an immediate (R88, R94). -/
def execXorImm (g : BitVec 3) (d a i : BitVec 7) (s : State) : Out :=
  onRegs (.xorImm g d a i) s fun th => th.setReg d (th.reg a ^^^ imm i)

/-- `shl` with an immediate (R88, R94). -/
def execShlImm (g : BitVec 3) (d a : BitVec 7) (i : BitVec 5) (s : State) : Out :=
  onRegs (.shlImm g d a i) s fun th => th.setReg d (shiftL (th.reg a) i.toNat)

/-- `shr` with an immediate (R88, R94). -/
def execShrImm (g : BitVec 3) (d a : BitVec 7) (i : BitVec 5) (s : State) : Out :=
  onRegs (.shrImm g d a i) s fun th => th.setReg d (shiftR (th.reg a) i.toNat)

/-- `sar` with an immediate (R88, R94). -/
def execSarImm (g : BitVec 3) (d a : BitVec 7) (i : BitVec 5) (s : State) : Out :=
  onRegs (.sarImm g d a i) s fun th => th.setReg d (shiftA (th.reg a) i.toNat)

/-- `rot` with an immediate (R88, R94). -/
def execRotImm (g : BitVec 3) (d a : BitVec 7) (i : BitVec 5) (s : State) : Out :=
  onRegs (.rotImm g d a i) s fun th => th.setReg d (rotL (th.reg a) i.toNat)

end Sys2Proof.Machine
end

