-- ==== Sys2Proof/Machine/Drive.lean ====
section
/-! DEFINITION. Drive: the words of the drive stream that take effect at issue (R244-R258). -/

namespace Sys2Proof.Machine

/-- A drive fault of the word at the stream's place, where a test holds; else the word's effect. -/
def State.driveTest (s : State) (w : Nat) (i : Instr) (bad : Bool) (go : State → State) : State :=
  if bad then s.driveFaultHere w i causeIllegal else go s

/-! ## Moves (R249, R250) -/

/-- R249, x = 0. -/
def execDmov (d a : BitVec 5) (s : State) : Out :=
  onDregs (.dmov d a) s [d, a] fun v => v.setReg d (v.reg a)

/-- R249, x = 1. -/
def execDmovImm (d : BitVec 5) (i : BitVec 10) (s : State) : Out :=
  onDregs (.dmovImm d i) s [d] fun v => v.setReg d (i.signExtend 32)

/-- R249, x = 2. -/
def execDmovRdstat (d : BitVec 5) (s : State) : Out :=
  onDrive (.dmovRdstat d) s fun w v s =>
    if v.pendingWrite d then s
    else s.updDrive w fun v => (v.setReg d (((s.wgs[w]?).map (·.tstat)).getD 0)).advance 1

/-- The reserved bits of the tile status word (R225). -/
def tstatReserved : Word := 0xFFFFF068

/-- R249, x = 3: a nonzero reserved bit is a drive fault. -/
def execDmovWrstat (a : BitVec 5) (s : State) : Out :=
  onDrive (.dmovWrstat a) s fun w v s =>
    if v.pendingWrite a then s
    else s.driveTest w (.dmovWrstat a) (v.reg a &&& tstatReserved ≠ 0) fun s =>
      (s.updWg w fun g => { g with tstat := v.reg a }).updDrive w fun v => v.advance 1

/-- R249, x = 4. -/
def execDmovRdrm (d : BitVec 5) (s : State) : Out :=
  onDregs (.dmovRdrm d) s [d] fun v => v.setReg d (v.mode.setWidth 32)

/-- R249, x = 5: a value above 4 is a drive fault. -/
def execDmovWrrm (a : BitVec 5) (s : State) : Out :=
  onDrive (.dmovWrrm a) s fun w v s =>
    if v.pendingWrite a then s
    else s.driveTest w (.dmovWrrm a) (4 < (v.reg a).toNat) fun s =>
      s.updDrive w fun x => { x.advance 1 with mode := (v.reg a).extractLsb' 0 3 }

/-- R249, x = 6 (R247): the tiles counter is the number of words in the queue. -/
def execDmovRdcnt (d : BitVec 5) (s : State) : Out :=
  onDrive (.dmovRdcnt d) s fun w v s =>
    if v.pendingWrite d then s
    else s.updDrive w fun v =>
      (v.setReg d (0#16 ++ shown (s.copiesOf (.drive w)) ++ shown v.ops.length)).advance 1

/-- R249, x = 7. -/
def execDmovRdwg (d : BitVec 5) (s : State) : Out :=
  onDrive (.dmovRdwg d) s fun w v s =>
    if v.pendingWrite d then s else s.updDrive w fun v => (v.setReg d (s.wgidOf w)).advance 1

/-- R249, x = 8: the upper half is latched. -/
def execDmovRdclk (d : BitVec 5) (s : State) : Out :=
  onDrive (.dmovRdclk d) s fun w v s =>
    if v.pendingWrite d then s
    else s.updDrive w fun v =>
      { (v.setReg d (BitVec.ofNat 32 s.clk)).advance 1 with clkLatch := some (BitVec.ofNat 32 (s.clk / 2 ^ 32)) }

/-- R249, x = 9: the latch, used up by the reading as s.clkhi uses it (R57). -/
def execDmovRdclkh (d : BitVec 5) (s : State) : Out :=
  onDrive (.dmovRdclkh d) s fun w v s =>
    if v.pendingWrite d then s
    else s.updDrive w fun v =>
      { (v.setReg d (v.clkLatch.getD (BitVec.ofNat 32 (s.clk / 2 ^ 32)))).advance 1 with clkLatch := none }

/-- R250. -/
def execDmovl (d : BitVec 5) (lit : Word) (s : State) : Out :=
  onDregs (.dmovl d lit) s [d] fun v => v.setReg d lit

/-! ## Arithmetic (R251-R253) -/

/-- R251. -/
def execDadd (d a b : BitVec 5) (s : State) : Out :=
  onDregs (.dadd d a b) s [d, a, b] fun v => v.setReg d (v.reg a + v.reg b)

/-- R251. -/
def execDaddSub (d a b : BitVec 5) (s : State) : Out :=
  onDregs (.daddSub d a b) s [d, a, b] fun v => v.setReg d (v.reg a - v.reg b)

/-- R251. -/
def execDaddImm (d a i : BitVec 5) (s : State) : Out :=
  onDregs (.daddImm d a i) s [d, a] fun v => v.setReg d (v.reg a + i.signExtend 32)

/-- The 57-bit address in a pair of drive registers (R216). -/
def Drive.addr (v : Drive) (r : BitVec 5) : VAddr := (v.reg (r + 1)).extractLsb' 0 25 ++ v.reg r

/-- R251: the address step. -/
def execDaddD (d a b : BitVec 5) (s : State) : Out :=
  onDregs (.daddD d a b) s [d, d + 1, a, a + 1, b] fun v =>
    let t : VAddr := v.addr a + (v.reg b).signExtend 57
    (v.setReg d (t.extractLsb' 0 32)).setReg (d + 1) ((t.extractLsb' 32 25).setWidth 32)

/-- R252. -/
def execDmul (d a b : BitVec 5) (s : State) : Out :=
  onDregs (.dmul d a b) s [d, a, b] fun v => v.setReg d (v.reg a * v.reg b)

/-- R253. -/
def execDcmp (d a b : BitVec 5) (c : BitVec 4) (s : State) : Out :=
  onDregs (.dcmp d a b c) s [d, a, b] fun v => v.setReg d (if compare c (v.reg a) (v.reg b) then 1 else 0)

/-! ## Branches, iterations, the end (R254-R257) -/

/-- A branch target of the drive stream (R254). -/
def Drive.branch (v : Drive) (o : BitVec 16) : VAddr := wordAddr v.pc + BitVec.ofInt 57 (4 * o.toInt)

/-- R254. -/
def execDbr (a : BitVec 5) (o : BitVec 16) (s : State) : Out :=
  onDrive (.dbr a o) s fun w v s =>
    if v.pendingWrite a then s
    else s.updDrive w fun v => if v.reg a ≠ 0 then v.goto (v.branch o) else v.advance 1

/-- R254. -/
def execDloop (a : BitVec 5) (o : BitVec 16) (s : State) : Out :=
  onDrive (.dloop a o) s fun w v s =>
    if v.pendingWrite a then s
    else s.updDrive w fun v =>
      if v.reg a = 0 then v.advance 1
      else if v.reg a = 1 then (v.setReg a 0).advance 1
      else (v.setReg a (v.reg a - 1)).goto (v.branch o)

/-- The iterations still open once the current one is closed (R255). -/
def State.openIters (s : State) (w : Nat) (v : Drive) : List Word :=
  (v.ops.map (·.iter) ++
    ((s.copies.filter fun c => c.agent = .drive w && c.form ≠ .detach).map (·.iter))).dedup

/-- R255. -/
def execDnext (d : BitVec 5) (s : State) : Out :=
  onDrive (.dnext d) s fun w v s =>
    if v.pendingWrite d || 3 < (s.openIters w v).length then s
    else s.updDrive w fun v => { (v.setReg d (v.iter + 1)).advance 1 with iter := v.iter + 1 }

/-- An engine word is `tfinal` of a tile; one is `tpost` under a tag. -/
def Op.finals (o : Op) (t : BitVec 4) : Bool :=
  match o.word with
  | .tfinal x => x = t
  | _ => false

/-- See `Op.finals`. -/
def Op.posts (o : Op) (l : Nat) : Bool :=
  match o.word with
  | .tpost _ x => x.toNat = l
  | _ => false

/-- A tag has a Provisional root once the words queued have executed (R234, R256): that of the last `tpost` queued, or the
root it has now, unless a later `tfinal` of the stream ends it. -/
def Wg.openRoot (g : Wg) (v : Drive) (l : Nat) : Bool :=
  match v.ops.reverse.find? fun o => o.posts l with
  | some o => match o.word with
    | .tpost t _ => !((v.ops.reverse.takeWhile fun x => !x.posts l).any fun x => x.finals t)
    | _ => false
  | none => match (g.lineage[l]?).join with
    | some u => (((g.tiles[u.root.toNat]?).join.map fun t => decide (t.state = .provisional)).getD false) &&
        !(v.ops.any fun o => o.finals u.root)
    | none => false

/-- R256. -/
def execDhalt (s : State) : Out :=
  onDrive .dhalt s fun w v s =>
    s.driveTest w .dhalt ((List.range 32).any fun l => ((s.wgs[w]?).map fun g => g.openRoot v l).getD false) fun s =>
      s.updDrive w fun v => { v.advance 1 with halted := true }

/-- R257. -/
def execDsync (c t : BitVec 4) (s : State) : Out :=
  onDrive (.dsync c t) s fun w v s => if s.driveMet w v c t then s.updDrive w fun v => v.advance 1 else s

end Sys2Proof.Machine
end

