-- ==== Sys2Proof/Machine/Transfer.lean ====
section
/-! DEFINITION. Transfer: the byte ranges of copies and engine words: spans, their places and faults, range locks
(R224, R261, R263, R269, R322, R328), and reading and writing their elements (R209, R264, R265, R412). -/

namespace Sys2Proof.Machine

/-! ## Spans -/

/-- A strided range: rows of `len` bytes. -/
structure Span where
  base : Nat
  rows : Nat
  len : Nat
  stride : Int
deriving DecidableEq, Repr

/-- The address of byte j of row i. -/
def Span.addr (x : Span) (i j : Nat) : Int := (x.base : Int) + i * x.stride + j

/-- The bounding range [lo, hi) (R261). -/
def Span.lo (x : Span) : Int := (x.base : Int) + min 0 (((x.rows - 1 : Nat) : Int) * x.stride)

/-- The end of the bounding range. -/
def Span.hi (x : Span) : Int := (x.base : Int) + max 0 (((x.rows - 1 : Nat) : Int) * x.stride) + x.len

/-- The bounding range leaves the 57-bit space (ACCESS for bits [63:57]). -/
def Span.outside (x : Span) : Bool := x.lo < 0 || 2 ^ 57 < x.hi

/-- A breach of the multiples of an element size. -/
def Span.misaligned (x : Span) (e : Nat) : Bool := x.base % e ≠ 0 || x.stride % (e : Int) ≠ 0

/-- The addresses of the elements of size e, row by row. -/
def Span.elems (x : Span) (e : Nat) : List Nat :=
  (List.range x.rows).flatMap fun i => (List.range (x.len / e)).map fun k => (x.addr i (k * e)).toNat

/-- The bytes of a span's bounding range, each run by its names (R263, R323). -/
def State.spanKeys (s : State) (w : Nat) (x : Span) : List (Nat × Nat) := s.keyRange w x.lo.toNat x.hi.toNat

/-- The lock entry of a span's bounding range (R269). -/
def State.spanLock (s : State) (holder : Nat) (dst : Bool) (w : Nat) (x : Span) : Lock :=
  ⟨holder, dst, s.lockParts w x.lo.toNat x.hi.toNat⟩

/-- The lookups of a byte range leave their translations in the buffers. -/
def State.lookRange (s : State) (w lo hi : Nat) : State := (chunks lo hi).foldl (fun s c => s.look w c.1) s

/-! ## Places of a transfer -/

/-- What a transfer meets at an element. -/
inductive Verdict where
  | ok
  | absent (va : Nat) (state : BitVec 2)
  | lost
  | fault
deriving DecidableEq, Repr

/-- The worse of two (R265, R328: FAULT before LOST). -/
def Verdict.join : Verdict → Verdict → Verdict
  | .fault, _ => .fault
  | _, .fault => .fault
  | .lost, _ => .lost
  | _, .lost => .lost
  | .absent a s, _ => .absent a s
  | _, v => v

/-- What an element at a place meets: no mapping or permission, an unallocated byte of a pool (R197, R265), a lost
allocation or an absent workgroup (R209, R213, R338), a page that is not resident (R342). -/
def State.verdict (s : State) (va : Nat) (write : Bool) (x : Place) : Verdict :=
  let ok : BitVec 3 → Bool := fun perm => if write then perm.getLsbD 1 else perm.getLsbD 0
  match x with
  | .bad | .homeless => .fault
  | .away => .lost
  | .lost => .lost
  | .pool x off => if (s.allocAt x off).isNone then .fault else if s.lostAt x off then .lost else .ok
  | .page _ perm => if ok perm then .ok else .fault
  | .absent st perm => if ok perm then .absent va st else .fault

/-- What an element at a workgroup's address meets. -/
def State.judge (s : State) (w va : Nat) (write : Bool) : Verdict := s.verdict va write (s.place w va)

/-- The worst of a list of elements. -/
def State.judgeAll (s : State) (w : Nat) (write : Bool) (l : List Nat) : Verdict :=
  l.foldl (fun v a => v.join (s.judge w a write)) .ok

/-- The bytes at a place, as they stand at the home (R412). -/
def State.readIn (s : State) (p : Place) (n : Nat) : List Byte :=
  match s.physOf p with
  | some a => memRead s.mem a n
  | none => List.replicate n 0

/-- The bytes at an address, as they stand at the home (R412). -/
def State.readAt (s : State) (w va n : Nat) : List Byte := s.readIn (s.place w va) n

/-- Bytes that an agent's engine operation writes at a place, addressed there by its workgroup, under the bindings of its
issue (R306, R410). -/
def State.writeIn (s : State) (a : Agent) (w id : Nat) (o : Origin) (p : Place) (va : Nat) (bs : List Byte) : State :=
  match s.physOf p with
  | some x => s.performEngine a (objsFrom x (s.wordsBound w o.binds va bs.length)) o id (at_ x bs)
  | none => s

/-- What an operation that ends early leaves in a run of bytes at a place: word by word its earlier value, its new value, or
for LOST zero (R209, R224, R265; log 9). No new value: the earlier one. -/
def State.leaveIn (s : State) (a : Agent) (w id : Nat) (o : Origin) (p : Place) (va : Nat) (bs : Option (List Byte)) (lost : Bool)
    (n : Nat) : State :=
  match s.physOf p with
  | none => s
  | some x =>
    let old := memRead s.mem x n
    let left := (List.range n).map fun k =>
      let c := Config.leftover s.draw ((x + k) / 4)
      let y := old.getD k 0
      if c % 3 = 0 then y
      else if c % 3 = 1 then (match bs with
        | some bs => bs.getD k 0
        | none => y)
      else if lost then 0 else y
    s.writeIn a w id o p va left

/-! ## Checks of a span at issue (step 2 of R263, R224) -/

/-- The own-window byte an address names. -/
def State.ownOffset (s : State) (w va : Nat) : Option Nat :=
  match s.place w va with
  | .pool x off => if x = w then some off else none
  | _ => none

/-- The allocation in which an own-window range starts. -/
def State.startAlloc (s : State) (w va : Nat) : Option Alloc := (s.ownOffset w va).bind (s.allocAt w ·)

/-- The virtual address lies in the workgroup's own slot of the pool region or of its commons, in or out of the pool. -/
def State.ownSlot (s : State) (w va : Nat) : Bool :=
  match s.wgs[w]?, s.launchOf? w with
  | some g, some l =>
    let b := (s.poolBase w).toNat
    (b ≤ va && va < b + 2 ^ 24) || (match g.commons with
      | some (cid, slot) =>
        let c := l.commonsBase g.team cid.toNat + slot.toNat * 2 ^ 24
        c ≤ va && va < c + 2 ^ 24
      | none => false)
  | _, _ => false

/-- An own-window range that leaves the pool or meets no allocation at its start (R197). -/
def State.leavesPool (s : State) (w : Nat) (x : Span) : Bool :=
  let lo := x.lo.toNat
  s.ownSlot w lo && ((s.startAlloc w lo).isNone || (s.ownOffset w (x.hi.toNat - 1)).isNone)

/-- An own-window range that runs past the end of the allocation in which it starts (RANGE). -/
def State.pastAlloc (s : State) (w : Nat) (x : Span) : Bool :=
  match s.ownOffset w x.lo.toNat, s.startAlloc w x.lo.toNat with
  | some off, some a => a.base + a.size < off + (x.hi - x.lo).toNat
  | _, _ => false

/-- An address of the commons regions that leads nowhere (R322, R325). -/
def State.commonsHole (s : State) (w : Nat) (x : Span) : Bool :=
  (chunks x.lo.toNat x.hi.toNat).any fun c => s.inCommons w c.1 && s.place w c.1 = .bad

/-- The range touches a lost allocation of the own workgroup. -/
def State.ownLost (s : State) (w : Nat) (x : Span) : Option Alloc :=
  (chunks x.lo.toNat x.hi.toNat).findSome? fun c =>
    (s.ownOffset w c.1).bind fun off => (s.wgs[w]?).bind fun g =>
      g.allocs.find? fun a => a.lost && a.base < off + (c.2 - c.1) && off < a.base + a.size

/-- A range touches scratchpad that is lost or in nobody's hands (R209, R213, R338). -/
def State.touchesLost (s : State) (w : Nat) (x : Span) : Bool :=
  (chunks x.lo.toNat x.hi.toNat).any fun c => match s.place w c.1 with
    | .away => true
    | .lost => true
    | .pool y off => ((s.wgs[y]?).map fun g => g.allocs.any fun a =>
        a.lost && a.base < off + (c.2 - c.1) && off < a.base + a.size).getD false
    | _ => false

/-! ## Range-lock entries (R269) -/

/-- Entries free on a core. -/
def State.locksFree (s : State) (core : Nat) : Nat := 32 - ((s.cores[core]?).map fun c => c.locks.length).getD 0

/-- Entries taken on a core. -/
def State.lock (s : State) (core : Nat) (ks : List Lock) : State :=
  s.updCore core fun c => { c with locks := c.locks ++ ks }

/-- A release of one operation's writes (R265, R267, R290); `inner`: to its own workgroup alone (R329). -/
def State.releaseOp (s : State) (a : Agent) (via : Obj) (sc : BitVec 4) (id : Nat) (inner : Bool) : State :=
  let done : Bool := match via with
    | .barrier _ _ => false
    | _ => true
  let r : Release := ⟨a, via, sc, s.commonsOf (s.wgOfAgent a), s.draw, done, inner⟩
  { s with writes := s.writes.map fun x => if x.op = id && id ≠ 0 then { x with rels := x.rels ++ [r] } else x }

end Sys2Proof.Machine
end

