-- ==== Sys2Proof/Machine/Copy.lean ====
section
/-! DEFINITION. Copy: `xcopy` in its four forms, its effect and its completion (R259-R271, R327-R329, R395-R397,
R410-R412), and the words that wait for tags and show them (R272-R275). -/

namespace Sys2Proof.Machine

/-! ## Descriptors (R261, R262) -/

/-- An eight-word descriptor. -/
structure CopyDesc where
  src : Nat
  dst : Nat
  high : Bool
  kind : Nat
  len : Nat
  rows : Nat
  ss : Int
  ds : Int
  event : BitVec 16
deriving DecidableEq, Repr

/-- A descriptor from its words: 57-bit addresses, and whether a bit above them is set. -/
def copyDesc (ws : List Word) : CopyDesc :=
  let f : Nat → Word := fun k => ws.getD k 0
  ⟨((f 1).extractLsb' 0 25 ++ f 0).toNat, ((f 3).extractLsb' 0 25 ++ f 2).toNat,
    (f 1).extractLsb' 25 7 ≠ 0 || (f 3).extractLsb' 25 7 ≠ 0,
    ((f 4).extractLsb' 24 8).toNat, ((f 4).extractLsb' 0 24).toNat, ((f 5).extractLsb' 0 16).toNat, (f 6).toInt, (f 7).toInt,
    (f 5).extractLsb' 16 16⟩

/-- se of R262. -/
def copySe (kind : Nat) : Nat := if kind = 6 || kind = 7 then 2 else 4

/-- de of R262. -/
def copyDe (kind : Nat) : Nat :=
  if kind = 1 || kind = 2 then 2 else if kind = 3 || kind = 4 || kind = 5 then 1 else if kind = 0x12 then 16 else 4

/-- A kind its form allows (R262, R268). -/
def kindOk (form : CopyForm) (kind : Nat) : Bool :=
  if form = .add then kind = 0x10 || kind = 0x11 || kind = 0x12 else kind ≤ 7

/-- Source and destination as strided ranges. -/
def CopyDesc.srcSpan (d : CopyDesc) : Span := ⟨d.src, d.rows, d.len, d.ss⟩
def CopyDesc.dstSpan (d : CopyDesc) : Span := ⟨d.dst, d.rows, d.len / copySe d.kind * copyDe d.kind, d.ds⟩

/-! ## Sides -/

/-- Where a side lies: in this module's addresses as the workgroup has them, or on another module (R395). -/
inductive Side where
  | here (x : Span)
  | there (m : Nat) (x : Span)
deriving DecidableEq, Repr

/-- A fabric address (R395). -/
def isFabric (va : Nat) : Bool := va / 2 ^ 56 % 2 = 1

/-- A side of a copy: a fabric side on the own module travels no link (R395). -/
def State.side (s : State) (form : CopyForm) (x : Span) : Side :=
  if form = .fabric && isFabric x.base then
    let y : Span := { x with base := x.base % 2 ^ 44 }
    if x.base / 2 ^ 44 % 4096 = s.fabricNo.toNat then .here y else .there (x.base / 2 ^ 44 % 4096) y
  else .here x

/-- The workgroup's own commons id, and the offset of an address in its multicast alias (R322, R328). -/
def State.aliasAt (s : State) (w va : Nat) : Option (Nat × Nat) :=
  match s.wgs[w]?, s.launchOf? w with
  | some g, some l =>
    match g.commons with
    | some (cid, _) =>
      let b := l.commonsBase g.team cid.toNat + 2 ^ 28
      if b ≤ va && va < b + 2 ^ 24 then some (cid.toNat, va - b) else none
    | none => none
  | _, _ => none

/-- The members of a commons, by workgroup. -/
def State.membersOf (s : State) (w cid : Nat) : List Nat :=
  match s.wgs[w]?, s.launchOf? w with
  | some g, some l => (((l.teams[g.team]?).bind (·.commons[cid]?)).getD []).filterMap id
  | _, _ => []

/-- A destination in the multicast alias as a range of one member's pool. -/
def State.portion (s : State) (m : Nat) (x : Span) : Span :=
  { x with base := (s.poolBase m).toNat + x.base % 2 ^ 24 }

/-- The runs of a side; a byte that leads nowhere has the name of its address (R263). -/
def State.sideRuns (s : State) (w : Nat) : Side → List (Nat × Nat)
  | .here x => s.spanKeys w x
  | .there _ _ => []

/-- The destinations of a copy, as ranges of this module: every member's portion of a multicast copy. -/
def State.dstSides (s : State) (form : CopyForm) (members : List Nat) (d : CopyDesc) : List Side :=
  if members.isEmpty then [s.side form d.dstSpan] else members.map fun m => .here (s.portion m d.dstSpan)

/-! ## Issue (R263) -/

/-- Step 1 of R263. -/
def State.copyIllegal (s : State) (w : Nat) (form : CopyForm) (tag : Nat) (bar : Option (BitVec 4)) (d : CopyDesc)
    (members : List Nat) : Bool :=
  match s.wgs[w]?, s.launchOf? w with
  | some g, some l =>
    !kindOk form d.kind || d.len = 0 || d.rows = 0 || d.len % copySe d.kind ≠ 0 || l.desc.copyq = 0 || l.desc.tags = 0 ||
      (form ≠ .detach && l.desc.tags ≤ tag) || (form = .detach && d.event = 0) || (form ≠ .detach && d.event ≠ 0) ||
      (match bar with
        | some n => !(((g.barriers[n.toNat]?).map (·.init)).getD false)
        | none => false) ||
      (form = .add && l.desc.pre) || d.high ||
      (form = .fabric && isFabric d.src = isFabric d.dst) ||
      ((s.aliasAt w d.dstSpan.lo.toNat).isSome && (form = .add || form = .fabric)) ||
      (s.dstSides form members d).any fun x => runsMeet (s.sideRuns w (s.side form d.srcSpan)) (s.sideRuns w x)
  | _, _ => true

/-- Step 2 of R263 for a local side of element size e: the cause and s.tval of its first fault. -/
def State.sideFault (s : State) (w : Nat) (x : Span) (e : Nat) (header : Bool) : Option (BitVec 8 × Word) :=
  let lo := BitVec.ofInt 32 x.lo
  if x.outside || 2 ^ 56 < x.hi then some (causeAccess, lo)
  else if x.misaligned e then some (causeMisalign, BitVec.ofNat 32 x.base)
  else if s.commonsHole w x || s.leavesPool w x then some (causeAccess, lo)
  else if header && ((x.lo % 65536 < 16 : Bool) || x.lo / 65536 * 65536 + 65536 < x.hi) then some (causeAccess, lo)
  else if s.pastAlloc w x then some (causeRange, BitVec.ofInt 32 x.hi)
  else none

/-- Step 2 of R263, source first; a fabric side is not checked (R397), a multicast destination against the own pool
(R328). -/
def State.copyFault (s : State) (w : Nat) (form : CopyForm) (d : CopyDesc) : Option (BitVec 8 × Word) :=
  let one : Span → Nat → Bool → Bool → Option (BitVec 8 × Word) := fun x e dst h =>
    if form = .fabric && isFabric x.base then none
    else if dst && (s.aliasAt w x.lo.toNat).isSome then
      if (s.aliasAt w (x.hi.toNat - 1)).isNone then some (causeAccess, BitVec.ofInt 32 x.lo)
      else if x.misaligned e then some (causeMisalign, BitVec.ofNat 32 x.base)
      else (s.sideFault w (s.portion w x) e h).map fun c =>
        (c.1, if c.1 = causeRange then BitVec.ofInt 32 x.hi else BitVec.ofInt 32 x.lo)
    else s.sideFault w x e h
  (one d.srcSpan (copySe d.kind) false false).or (one d.dstSpan (copyDe d.kind) true (d.kind = 0x12))

/-- The members a multicast copy writes to (R328); none for another copy. -/
def State.copyMembers (s : State) (w : Nat) (d : CopyDesc) : List Nat :=
  match s.aliasAt w d.dstSpan.lo.toNat with
  | some (cid, _) => s.membersOf w cid
  | none => []

/-- The local ranges a copy touches at issue. -/
def State.localSides (s : State) (form : CopyForm) (members : List Nat) (d : CopyDesc) : List Span :=
  (s.side form d.srcSpan :: s.dstSides form members d).filterMap fun x => match x with
    | .here y => some y
    | .there _ _ => none

/-- A range of the issuing workgroup's own window as R263 step 3 tests it. -/
def State.lostSide (s : State) (w : Nat) (form : CopyForm) (x : Span) (dst : Bool) : Option (Alloc × BitVec 64) :=
  if form = .fabric && isFabric x.base then none
  else
    let y := if dst && (s.aliasAt w x.lo.toNat).isSome then s.portion w x else x
    (s.ownLost w y).map fun a => (a, BitVec.ofNat 64 x.base)

/-! ## Taking effect (R263 steps 4 and 5, R269, R328, R397) -/

/-- The lock entries of a copy on its own core: source and destination, one alone for a fabric copy. -/
def State.copyLocks (s : State) (c : Copy) : List Lock :=
  let d := copyDesc c.desc
  let one : Span → Bool → List Lock := fun x dst =>
    if c.form = .fabric && isFabric x.base then []
    else
      let y := if dst && c.cast.isSome then s.portion c.wg x else x
      [s.spanLock c.id dst c.wg y]
  one d.srcSpan false ++ one d.dstSpan true

/-- The lock entries of a copy in other tables: one for each other member of a multicast copy, one on the core whose
scratchpad a fabric side names. -/
def State.farLocks (s : State) (c : Copy) : List (Nat × Lock) :=
  let d := copyDesc c.desc
  if c.form = .fabric then
    ([(d.srcSpan, false), (d.dstSpan, true)].filterMap fun y =>
      if !isFabric y.1.base then none
      else match s.side c.form y.1 with
        | .here x => match s.place c.wg x.lo.toNat with
          | .pool m _ => some (s.coreOf m, s.spanLock c.id y.2 c.wg x)
          | _ => none
        | .there _ _ => none)
  else (c.members.filter (· ≠ c.wg)).map fun m => (s.coreOf m, s.spanLock c.id true c.wg (s.portion m d.dstSpan))

/-- An entry stands in a core's table. -/
def State.holdsLock (s : State) (core : Nat) (k : Lock) : Bool := ((s.cores[core]?).map fun c => c.locks.contains k).getD false

/-- The other tables' entries are taken where one is free. -/
def State.lockFar (s : State) (c : Copy) : State :=
  (s.farLocks c).foldl (fun s (core, k) => if s.holdsLock core k || s.locksFree core = 0 then s else s.lock core [k]) s

/-- Queue entries a workgroup's copies hold; one that it has left behind counts against that core alone (R178, R296). -/
def State.inQueue (s : State) (w : Nat) : Nat :=
  (s.copies.filter fun c => c.wg = w && c.inFlight && c.core = s.coreOf w && !s.stray c).length

/-- Step 4 of R263 is over. -/
def State.copyReady (s : State) (c : Copy) : Bool :=
  s.inQueue c.wg < (((s.launchOf? c.wg).map (·.desc.copyq)).getD 0) &&
    !(c.form ≠ CopyForm.detach &&
      s.copies.any fun x => x.wg = c.wg && x.inFlight && x.form ≠ CopyForm.detach && x.tag = c.tag) &&
    (s.copyLocks c).length ≤ s.locksFree c.core

/-- The rounding mode an agent's copy samples. -/
def State.modeOfAgent (s : State) : Agent → BitVec 3
  | .thread i => ((s.threads[i]?).map fun th => th.rm.extractLsb' 0 3).getD 0
  | .drive w => ((s.drive? w).map (·.mode)).getD 0
  | .host | .peer _ => 0

/-- An agent goes on past its word. -/
def State.goOn (s : State) : Agent → State
  | .thread i => s.updThread i fun th => th.advance 1
  | .drive w => s.updDrive w fun d => d.advance 1
  | .host | .peer _ => s

/-- The local ranges of a copy all of which must stand: of a multicast copy its source, for its portions are judged one by
one (R328). -/
def State.wholeSides (s : State) (form : CopyForm) (cast : Bool) (d : CopyDesc) : List Span :=
  if cast then [d.srcSpan] else s.localSides form [] d

/-- A thread's copy that waits in step 4 touches an allocation of its own that has been lost since step 3 (R209, R263). -/
def State.lostSince (s : State) (c : Copy) : Bool :=
  let d := copyDesc c.desc
  match c.agent with
  | .thread _ => !c.lost && ((s.lostSide c.wg c.form d.srcSpan false).or (s.lostSide c.wg c.form d.dstSpan true)).isSome
  | _ => false

/-- Step 3 is to be taken again: the word issues afresh. -/
def State.copyAgain (s : State) (c : Copy) : State :=
  let s : State := { s with copies := s.copies.filter fun x => x.id ≠ c.id }
  match c.agent with
  | .thread i => s.updThread i fun th => { th with park := .none }
  | _ => s

/-- A fabric copy's side on another module: that it begins there, and the rows it reads (R397). -/
def State.beginFar (s : State) (c : Copy) : State :=
  let p := s.peerOf c
  let d := copyDesc c.desc
  let one : State → Span → Bool → State := fun s x dst => match s.side c.form x with
    | .here _ => s
    | .there m y =>
      let s : State := s.sendFlit m 0#8 (.begins p (BitVec.ofInt 44 y.lo) (y.hi - y.lo).toNat dst)
      if dst then s
      else (List.range y.rows).foldl (fun s i => s.sendFlit m 0#8 (.access ⟨p, BitVec.ofInt 44 (y.addr i 0), y.len, none⟩)) s
  one (one s d.srcSpan false) d.dstSpan true

/-- Step 5 of R263: tag, queue entry, lock entries, counter, mode; the agent goes on. What has been lost while the copy waited
is lost to it (R209). -/
def State.copyEffect (s : State) (c : Copy) : State :=
  let d := copyDesc c.desc
  let s : State := (s.lock c.core (s.copyLocks c)).lockFar c
  let s : State := (s.localSides c.form c.members d).foldl (fun s x => s.lookRange c.wg x.lo.toNat x.hi.toNat) s
  let s : State := if c.form = .detach then s
    else s.updWg c.wg fun g => { g with tags := g.tags.set c.tag ⟨false, 0, c.id⟩ }
  let c : Copy := { c with
    inFlight := true, mode := s.modeOfAgent c.agent
    lost := c.lost || (s.wholeSides c.form c.cast.isSome d).any (s.touchesLost c.wg) }
  let s : State := { s with copies := (s.copies.filter fun x => x.id ≠ c.id) ++ [c] }
  (s.beginFar c).goOn c.agent

/-- A copy past steps 1 to 3 takes effect, or its agent waits (R263). -/
def State.copySend (s : State) (c : Copy) : State :=
  if s.copyReady c then s.copyEffect c
  else
    let s : State := { s with copies := s.copies ++ [c] }
    match c.agent with
    | .thread i => s.updThread i fun th => { th with park := .copy }
    | .drive w => s.updDrive w fun d => { d with park := .copy }
    | .host | .peer _ => s

/-- The slots of a workgroup's commons now; none outside any commons (R322). -/
def State.slotsOf (s : State) (w : Nat) : List (Option Nat) :=
  match s.wgs[w]?, s.launchOf? w with
  | some g, some l => ((g.commons.bind fun c => (l.teams[g.team]?).bind (·.commons[c.1.toNat]?))).getD []
  | _, _ => []

/-- A copy as it is issued. It transfers nothing where a side touches a lost allocation (R209, R211); a multicast copy's
portions are judged one by one (R328). -/
def State.newCopy (s : State) (a : Agent) (w : Nat) (form : CopyForm) (tag : Nat) (bar : Option (BitVec 4)) (ws : List Word)
    (iter : Word) (lost : Bool) : Copy :=
  let d := copyDesc ws
  let ms := s.copyMembers w d
  ⟨s.nextId, a, w, s.coreOf w, form, tag, bar, ws, 0, iter, ms, (s.aliasAt w d.dstSpan.lo.toNat).map (·.1), s.slotsOf w, false,
    false, lost || (s.wholeSides form (s.aliasAt w d.dstSpan.lo.toNat).isSome d).any (s.touchesLost w), false, [], false, false, s.originOf a⟩

/-- Step 3 of R263 for a thread: the loss entry of the first side that touches a lost allocation of its own, or the
nested path. -/
def State.copyLoss (s : State) (k : Nat) (th : Thread) (form : CopyForm) (d : CopyDesc) : Except State (State × Bool) :=
  match (s.lostSide th.wg form d.srcSpan false).or (s.lostSide th.wg form d.dstSpan true) with
  | none => .ok (s, false)
  | some (a, ea) => match s.lossEntry k th a ea with
    | .error s => .error s
    | .ok (s, _) => .ok (s, true)

/-- The watch test of a thread's copy (R381): the rows of its source as reads, of its destination as writes. -/
def State.watchCopy (s : State) (k : Nat) (th : Thread) (d : CopyDesc) : Option State :=
  let one : Span → Nat → Option State := fun x bit =>
    (List.range x.rows).findSome? fun i => s.watchThread k th (BitVec.ofInt 64 (x.addr i 0)) x.len bit
  (one d.srcSpan 0).or (one d.dstSpan 1)

/-- `xcopy` in either stream (R261, R263). -/
def onCopy (i : Issue) (r : BitVec 7) (form : CopyForm) (tag : Nat) (bar : Option (BitVec 4)) (s : State) : Out :=
  match s.issuer with
  | some (.drive w) =>
    match s.drive? w with
    | none => .fault .noIssuer
    | some v =>
      let here : BitVec 8 → State := fun c => s.driveFault w (wordAddr v.pc) i.word c
      let rs := (List.range 8).map fun j => r.extractLsb' 0 5 + BitVec.ofNat 5 j
      let ws := rs.map v.reg
      let d := copyDesc ws
      .next (
        if !i.wf || i.guard ≠ 7#3 || 24 < r.toNat || r.toNat % 2 ≠ 0 then here causeIllegal
        else if rs.any v.pendingWrite then s
        else if s.copyIllegal w form tag bar d (s.copyMembers w d) then here causeIllegal
        else match s.copyFault w form d with
          | some (c, _) => here c
          | none => s.fresh.copySend (s.newCopy (.drive w) w form tag bar ws v.iter false))
  | _ => onIssue i s fun k th s =>
    let ws := (octetOf r).map th.reg
    let d := copyDesc ws
    if s.copyIllegal th.wg form tag bar d (s.copyMembers th.wg d) then s.illegalWord k i.word
    else match s.copyFault th.wg form d with
      | some (c, v) => s.takeTrap k c v
      | none => match s.watchCopy k th d with
        | some s => s
        | none => match s.copyLoss k th form d with
          | .error s => s
          | .ok (s, nested) => s.fresh.copySend (s.newCopy (.thread k) th.wg form tag bar ws 0 nested)

/-- The barrier a word names, with its given bit set. -/
def givenBar (b : BitVec 4) (e : BitVec 1) : Option (BitVec 4) := if e = 1#1 then some b else none

/-- An issue record of a thread's `xcopy`: its register a multiple of 8 (R261). -/
def copyIssue (i : Instr) (r : BitVec 7) (s : State) : Issue :=
  let x := issueOf i
  match s.issuer with
  | some (.drive _) => x
  | _ => { x with wf := x.wf && r.toNat % 8 = 0 }

/-- R263. -/
def execXcopy (g : BitVec 3) (r : BitVec 7) (t : BitVec 6) (b : BitVec 4) (e : BitVec 1) (s : State) : Out :=
  onCopy (copyIssue (.xcopy g r t b e) r s) r .plain t.toNat (givenBar b e) s

/-- R263, R266. -/
def execXcopyAdd (g : BitVec 3) (r : BitVec 7) (t : BitVec 6) (b : BitVec 4) (e : BitVec 1) (s : State) : Out :=
  onCopy (copyIssue (.xcopyAdd g r t b e) r s) r .add t.toNat (givenBar b e) s

/-- R263, R267. -/
def execXcopyDetach (g : BitVec 3) (r : BitVec 7) (s : State) : Out :=
  onCopy (copyIssue (.xcopyDetach g r) r s) r .detach 0 none s

/-- R263, R268, R397. -/
def execXcopyFabric (g : BitVec 3) (r : BitVec 7) (t : BitVec 6) (b : BitVec 4) (e : BitVec 1) (s : State) : Out :=
  onCopy (copyIssue (.xcopyFabric g r t b e) r s) r .fabric t.toNat (givenBar b e) s

/-- COPY_TAKES_EFFECT (R263 steps 3 to 5): a waiting copy, by its identifier. -/
def execCopyTakesEffect (c : Nat) (s : State) : Out :=
  match s.copies.find? fun x => x.id = c && !x.inFlight with
  | some x => if s.lostSince x then .next (s.copyAgain x) else if s.copyReady x then .next (s.copyEffect x) else .fault .stepNotEnabled
  | none => .fault .stepNotEnabled

/-! ## Transfer (R262, R264, R266) -/

/-- Thread flags as the status byte has them (R265). -/
def copyStatus (f : Word) : BitVec 8 :=
  (if f.getLsbD 0 then 4#8 else 0) ||| (if f.getLsbD 1 then 8#8 else 0) ||| (if f.getLsbD 2 then 16#8 else 0) |||
    (if f.getLsbD 4 then 32#8 else 0)

/-- A destination element (R262): its bytes from the source bytes and those it holds, with E of its region; and the
status bits. -/
def copyElem (kind : Nat) (mode : BitVec 3) (e : Int) (x old : List Byte) : List Byte × BitVec 8 :=
  let v := ofBytes x
  let narrow : Fmt → Bool → Nat → List Byte × BitVec 8 := fun f nan n =>
    let r := f.roundVal mode nan (fp32.decode v)
    (toBytes n r.bits, copyStatus r.flags)
  if kind = 0 then (x, 0)
  else if kind = 1 then narrow bf16 false 2
  else if kind = 2 then narrow fp16 false 2
  else if kind = 3 then narrow e4m3 false 1
  else if kind = 4 then narrow e4m3 true 1
  else if kind = 5 then narrow e5m2 false 1
  else if kind = 6 then ((toBytes 4 (widen bf16 v).1.toNat), copyStatus (widen bf16 v).2)
  else if kind = 7 then ((toBytes 4 (widen fp16 v).1.toNat), copyStatus (widen fp16 v).2)
  else if kind = 0x10 then (toBytes 4 (ofBytes old + v), 0)
  else if kind = 0x11 then
    let r := fp32.add mode (ofBytes old) v
    (toBytes 4 r.bits, copyStatus r.flags)
  else
    let (y, o) := roundToGrid (fp32.decode v) e mode
    let n := ofBytes old
    let c := cellOfNat n
    let z := wideAdd c y o
    (toBytes 16 (n / 2 ^ 97 * 2 ^ 97 + natOfCell z), if (wideAdd { c with sov := false } y o).sov then 64#8 else 0)

/-- A module lies in the workgroup's fabric job. -/
def State.inJob (s : State) (w m : Nat) : Bool := ((s.processes[s.procOf w]?).map fun p => p.job.contains m).getD false

/-- Where an address of a copy lies: in its workgroup's commons, with the member whose slot it was at issue (R322, R325);
none once that slot has been revoked. -/
def State.copyPlace (s : State) (c : Copy) (va : Nat) : Option Place :=
  if s.inCommons c.wg va then ((c.commons[va / 2 ^ 24 % 16]?).join).map fun m => s.slotPlace m (va % 2 ^ 24)
  else some (s.place c.wg va)

/-- What an element of a copy meets; one that leads into a revoked slot is read as lost and written nowhere (R325). -/
def State.judgeAt (s : State) (c : Copy) (write : Bool) (va : Nat) : Verdict :=
  match s.copyPlace c va with
  | some p => s.verdict va write p
  | none => if write then .ok else .lost

/-- What a side meets (R265, R328, R397). -/
def State.judgeSide (s : State) (c : Copy) (e : Nat) (write : Bool) : Side → Verdict
  | .here x =>
    if c.form = .fabric && isFabric (if write then (copyDesc c.desc).dst else (copyDesc c.desc).src) && !s.inJob c.wg s.fabricNo.toNat
      then .fault
    else (x.elems e).foldl (fun v a => v.join (s.judgeAt c write a)) .ok
  | .there m _ =>
    if !s.inJob c.wg m || !s.routed m then .fault
    else match Config.remoteVerdict s.draw c.id with
      | 0 => .ok
      | 1 => .lost
      | _ => .fault

/-- The bytes at an address of a copy. -/
def State.copyBytes (s : State) (c : Copy) (va n : Nat) : List Byte :=
  ((s.copyPlace c va).map fun p => s.readIn p n).getD (List.replicate n 0)

/-- The bytes of a source element, where it can be read. -/
def State.copySource (s : State) (c : Copy) (side : Side) (a : Nat) : Option (List Byte) :=
  let n := copySe (copyDesc c.desc).kind
  match side with
  | .here _ => if s.judgeAt c false a = .ok then some (s.copyBytes c a n) else none
  | .there _ _ => some ((List.range n).map fun j => Config.remoteByte c.id (a + j))

/-- E of the region that holds a destination element. -/
def State.expAt (s : State) (c : Copy) (va : Nat) : Int :=
  match (s.copyPlace c va).bind s.physOf with
  | some a => s.regionExp a
  | none => 0

/-- One destination written, element by element; `part`: as an early end leaves it, after LOST or FAULT. -/
def State.copyInto (s : State) (c : Copy) (src : Side) (part lost : Bool) (dst : Side) : State × BitVec 8 :=
  let d := copyDesc c.desc
  let de := copyDe d.kind
  let from_ := match src with
    | .here x => x.elems (copySe d.kind)
    | .there _ x => x.elems (copySe d.kind)
  match dst with
  | .there m x =>
    (from_.zip (x.elems de)).foldl (fun (t : State × BitVec 8) p =>
      let y := copyElem d.kind c.mode 0 ((t.1.copySource c src p.1).getD []) []
      (t.1.sendFlit m 0#8 (.access ⟨t.1.peerOf c, BitVec.ofNat 44 p.2, de, some y.1⟩), t.2 ||| y.2)) (s, 0)
  | .here x =>
    (from_.zip (x.elems de)).foldl (fun (t : State × BitVec 8) p =>
      let s := t.1
      let new := (s.copySource c src p.1).map fun b =>
        copyElem d.kind c.mode (s.expAt c p.2) b (s.copyBytes c p.2 de)
      let f := t.2 ||| ((new.map (·.2)).getD 0)
      match s.copyPlace c p.2 with
      | none => (s, f)
      | some y =>
        if part then (s.leaveIn c.agent c.wg c.id c.origin y p.2 (new.map (·.1)) lost de, f)
        else match new with
          | some v => (s.writeIn c.agent c.wg c.id c.origin y p.2 v.1, f)
          | none => (s, f)) (s, 0)

/-! ## Completion (R265, R267) -/

/-- Threads and drive streams of a workgroup that wait for tags test them again (R273). -/
def State.wakeTags (s : State) (w : Nat) : State :=
  let waits : Agent → Bool := fun a => s.copies.any fun c => c.agent = a && !c.inFlight
  let s : State := (s.threadsOf w).foldl (fun s i => s.updThread i fun th =>
    if th.park = .copy && !waits (.thread i) then { th with park := .none } else th) s
  s.updDrive w fun d => if d.park = .copy && !waits (.drive w) then { d with park := .none } else d

/-- The copy's tid, as records name its issuer. -/
def State.tidOf (s : State) : Agent → BitVec 10
  | .thread i => ((s.threads[i]?).map (·.tid)).getD 0
  | _ => 0

/-- A copy's agent is a drive stream. -/
def Agent.isDrive : Agent → Bool
  | .drive _ => true
  | _ => false

/-- The steps of R265 in their order, then what follows: the detached post and the records (R265, R267). -/
def State.copyFinish (s : State) (c : Copy) (code : BitVec 8) (flags : BitVec 8) : State :=
  let d := copyDesc c.desc
  let s : State := (s.unlock c.id).endFar c
  let s : State := if c.form = .detach then s
    else s.updWg c.wg fun g => { g with tags := g.tags.set c.tag ⟨true, flags ||| code, c.id⟩ }
  let s : State := { s with copies := s.copies.filter fun x => x.id ≠ c.id }
  let s : State := match c.bar with
    | some n => (s.releaseOp c.agent (.barrier c.wg n) 2#4 c.id c.cast.isSome).arrive c.wg (some n) 1
    | none => s
  let s : State := if c.form = .detach then
      let domain := ((s.launchOf? c.wg).map (·.desc.domain)).getD 0
      let s : State := (s.releaseOp c.agent .default 7#4 c.id false).releaseOp c.agent (.event domain d.event) 7#4 c.id false
      let s : State := { s with messages := s.messages ++ [⟨domain, d.event, some c.agent, false⟩] }
      if code = 0 then s else s.notify (.detachedEnded (s.launchId c.wg) (s.wgidOf c.wg))
    else s
  let s : State := if code = 2#8 then s.notify (.copyFault (s.launchId c.wg) (s.wgidOf c.wg) (s.tidOf c.agent) c.agent.isDrive) else s
  (s.settleDue c.wg).wakeTags c.wg

/-- An earlier copy of its workgroup in the same queue is parked: it holds every access behind it (R342). -/
def State.behindParked (s : State) (c : Copy) : Bool :=
  (s.copies.takeWhile fun x => x.id ≠ c.id).any fun x => x.wg = c.wg && x.core = c.core && x.inFlight && x.parked

/-- An earlier engine word of the copy's drive stream has still to write into its source, by the bytes they reach (R223,
R264). -/
def State.behindWord (s : State) (c : Copy) : Bool :=
  match c.agent with
  | .drive w =>
    let src := s.sideRuns c.wg (s.side c.form (copyDesc c.desc).srcSpan)
    (((s.drive? w).map (·.ops)).getD []).any fun o => o.id < c.id &&
      (((s.cores[c.core]?).map (·.locks)).getD []).any fun x => x.holder = o.id && x.dst && runsMeet (s.lockRuns c.core x) src
  | _ => false

/-- What holds a copy from completing: a squash, a workgroup whose restoration is not over (R298), a parked access, its own or
one before it (R342), lock entries of other tables not free (R328), earlier writes of the drive stream that meet its source
(R223, R264). -/
def State.copyHeld (s : State) (c : Copy) : Bool :=
  !c.inFlight || c.squashed || c.parked || s.behindParked c ||
    (c.form ≠ CopyForm.detach && ((s.wgs[c.wg]?).map fun g => decide (g.state = .restored)).getD false) ||
    (s.farLocks c).any (fun (core, k) => !s.holdsLock core k && s.locksFree core = 0) || s.behindWord c

/-- The destinations of a copy, each with what its member's banks have met since (R209): of a multicast copy the portions of
the members that still hold their slots (R328). -/
def State.copyDsts (s : State) (c : Copy) : List (Side × Verdict) :=
  let x := (copyDesc c.desc).dstSpan
  if c.cast.isNone then [(s.side c.form x, .ok)]
  else c.members.map fun m => (.here (s.portion m x), if c.darkIn.contains m then .lost else .ok)

/-- What the destinations meet. -/
def State.judgeDsts (s : State) (c : Copy) : List (Side × Verdict) :=
  (s.copyDsts c).map fun y => (y.1, y.2.join (s.judgeSide c (copyDe (copyDesc c.desc).kind) true y.1))

/-- What a copy whose workgroup has ended had begun to write (R45, R397; log 9). -/
def State.leaveCopy (s : State) (c : Copy) : State :=
  (s.copyDsts c).foldl (fun s y => (s.copyInto c (s.side c.form (copyDesc c.desc).srcSpan) true false y.1).1) s

/-- The rows of a destination that are written on this module, as runs of addresses and lengths; none that lead into a
revoked slot. -/
def State.writtenRuns (s : State) (c : Copy) : Side → List (Nat × Nat)
  | .there _ _ => []
  | .here x => ((List.range x.rows).map fun i => ((x.addr i 0).toNat, x.len)).filter fun r => (s.copyPlace c r.1).isSome

/-- The watch records of what a copy has written (R381); a multicast copy's destination is its alias. -/
def State.watchWrites (s : State) (c : Copy) (written : List Side) : State :=
  let x := (copyDesc c.desc).dstSpan
  let runs := if c.cast.isNone then written.flatMap (s.writtenRuns c)
    else if written.isEmpty then [] else (List.range x.rows).map fun i => ((x.addr i 0).toNat, x.len)
  let ended := ((s.wgs[c.wg]?).map fun g => decide (g.state = .ended)).getD true
  if runs.isEmpty then s else s.watchEngine c.core c.wg runs (s.tidOf c.agent) c.agent.isDrive ended

/-- A transfer into a slot that has been revoked since issue counts as dropped, once for the copy (R325, R328). -/
def State.countRevoked (s : State) (c : Copy) : State :=
  let hole : Side → Bool := fun y => match y with
    | .here x => (x.elems (copyDe (copyDesc c.desc).kind)).any fun a => (s.copyPlace c a).isNone
    | .there _ _ => false
  if c.revoked || (s.copyDsts c).any fun y => hole y.1 then s.countDropped c.wg else s

/-- A copy ends early, with LOST (1) or FAULT (2): a portion that completed is written whole, what the other destinations
hold is left open (R265, R328; log 9). -/
def State.copyEarly (s : State) (c : Copy) (code : BitVec 8) : State :=
  if c.lost then s.copyFinish c code 0
  else
    let d := copyDesc c.desc
    let src := s.side c.form d.srcSpan
    let vs := s.judgeSide c (copySe d.kind) false src
    let all := s.judgeDsts c
    let whole : Verdict → Bool := fun v => !c.dark && vs = .ok && v = .ok
    let (s, f) := all.foldl (fun (t : State × BitVec 8) y =>
      let (s, f) := t.1.copyInto c src (!whole y.2) (c.dark || code = 1#8) y.1
      (s, t.2 ||| f)) (s, 0)
    let s : State := s.watchWrites c ((all.filter fun y => whole y.2).map (·.1))
    s.copyFinish c code (f &&& BitVec.ofNat 8 (Config.leftover s.draw (2 ^ 60 + c.id)))

/-- A copy's transfer and completion; none where an absent page finds no slot to park in. -/
def State.copyComplete (s : State) (c : Copy) : Option State :=
  let d := copyDesc c.desc
  let src := s.side c.form d.srcSpan
  let vs := s.judgeSide c (copySe d.kind) false src
  let reads := match vs with
    | .absent _ _ => true
    | _ => false
  match ((s.judgeDsts c).map (·.2)).foldl Verdict.join vs with
  | .fault => some ((s.countRevoked c).copyEarly c 2#8)
  | .lost => some ((s.countRevoked c).copyEarly c 1#8)
  | .absent va st =>
    if c.lost || c.dark then some ((s.countRevoked c).copyEarly c 1#8)
    else (s.parkOn c.core c.wg va st (.copy c.id) (if reads then 0#2 else 1#2) 2#4 (s.tidOf c.agent)).map fun s =>
      { s with copies := s.copies.map fun x => if x.id = c.id then { x with parked := true } else x }
  | .ok =>
    let s : State := s.countRevoked c
    if c.lost || c.dark then some (s.copyEarly c 1#8)
    else
      let dsts := (s.copyDsts c).map (·.1)
      let (s, f) := dsts.foldl (fun (t : State × BitVec 8) y =>
        let (s, f) := t.1.copyInto c src false false y
        (s, t.2 ||| f)) (s, 0)
      some ((s.watchWrites c dsts).copyFinish c 0 f)

/-- COPY_COMPLETE (R265): a copy in flight, by its identifier. -/
def execCopyComplete (c : Nat) (s : State) : Out :=
  match s.copies.find? fun x => x.id = c with
  | some x => if s.copyHeld x then .fault .stepNotEnabled
      else match s.copyComplete x with
        | some s => .next s
        | none => .fault .stepNotEnabled
  | none => .fault .stepNotEnabled

/-! ## Tags (R272-R275) -/

/-- Tags done of a workgroup, as a mask. -/
def State.doneMask (s : State) (w : Nat) : BitVec 64 :=
  (((s.wgs[w]?).map (·.tags)).getD []).zipIdx.foldl (fun m t => if t.1.done then m ||| (1#64 <<< t.2) else m) 0

/-- A mask that is zero or has a bit at or above `.tags`. -/
def State.maskBad (s : State) (w : Nat) (m : BitVec 64) : Bool :=
  m = 0 || 2 ^ (((s.wgs[w]?).map (·.tags.length)).getD 0) ≤ m.toNat

/-- A thread observes the tags of a mask that are done (R411). -/
def State.observeTags (s : State) (k w : Nat) (m : BitVec 64) : State :=
  let seen := m &&& s.doneMask w
  (List.range 64).foldl (fun s t => if seen.getLsbD t then s.observeTag k t else s) s

/-- Drive registers a tag word reads or writes. -/
def drivePair (r : BitVec 7) : List (BitVec 5) := [r.extractLsb' 0 5, r.extractLsb' 0 5 + 1]

/-- The 64-bit mask in a pair of drive registers. -/
def Drive.mask (v : Drive) (r : BitVec 7) : BitVec 64 := v.reg (r.extractLsb' 0 5 + 1) ++ v.reg (r.extractLsb' 0 5)

/-- `xwaitany` and `xwaitall` (R273): `met` of the mask and the tags done. -/
def onTagWait (i : Instr) (r : BitVec 7) (s : State) (met : BitVec 64 → BitVec 64 → Bool) : Out :=
  onBoth (issueOf i) r s
    (fun k th s =>
      let m := th.pair r
      if s.maskBad th.wg m then s.illegal k i
      else if met m (s.doneMask th.wg) then
        (s.observeTags k th.wg m).updThread k fun th => th.advance 1
      else s.updThread k fun th => { th with park := .copy })
    (fun w v s =>
      if (drivePair r).any v.pendingWrite then s
      else if s.maskBad w (v.mask r) then s.driveFaultHere w i causeIllegal
      else if met (v.mask r) (s.doneMask w) then s.updDrive w fun v => v.advance 1
      else s.updDrive w fun v => { v with park := .copy })

/-- R273. -/
def execXwaitany (g : BitVec 3) (r : BitVec 7) (s : State) : Out :=
  onTagWait (.xwaitany g r) r s fun m d => m &&& d ≠ 0

/-- R273. -/
def execXwaitall (g : BitVec 3) (r : BitVec 7) (s : State) : Out :=
  onTagWait (.xwaitall g r) r s fun m d => m &&& d = m

/-- What `xffr` writes (R274): the lowest done tag of the mask and its status. -/
def State.firstDone (s : State) (w : Nat) (m : BitVec 64) : Word × Word × Option Nat :=
  match (List.range 64).find? fun t => m.getLsbD t && (s.doneMask w).getLsbD t with
  | some t => (BitVec.ofNat 32 t, ((((s.wgs[w]?).bind fun g => g.tags[t]?).map fun (x : Tag) => x.status).getD 0).setWidth 32, some t)
  | none => (0xFFFFFFFF, 0, none)

/-- R274: M as `xwaitany` takes it. -/
def execXffr (g : BitVec 3) (r : BitVec 7) (s : State) : Out :=
  onBoth (issueOf (.xffr g r)) r s
    (fun k th s =>
      let m := th.pair r
      if s.maskBad th.wg m then s.illegal k (.xffr g r)
      else
        let (a, b, t) := s.firstDone th.wg m
        let s : State := match t with
          | some t => s.observeTag k t
          | none => s
        s.updThread k fun th => ((th.setReg r a).setReg (r + 1) b).advance 1)
    (fun w v s =>
      if (drivePair r).any v.pendingWrite then s
      else if s.maskBad w (v.mask r) then s.driveFaultHere w (.xffr g r) causeIllegal
      else
        let (a, b, _) := s.firstDone w (v.mask r)
        s.updDrive w fun v => ((v.setReg (r.extractLsb' 0 5) a).setReg (r.extractLsb' 0 5 + 1) b).advance 1)

/-- R275. -/
def execXtags (g : BitVec 3) (r : BitVec 7) (s : State) : Out :=
  onBoth (issueOf (.xtags g r)) r s
    (fun k th s =>
      let m := s.doneMask th.wg
      (s.observeTags k th.wg m).updThread k fun th => (th.setPair r m).advance 1)
    (fun w v s =>
      if (drivePair r).any v.pendingWrite then s
      else
        let m := s.doneMask w
        s.updDrive w fun v => ((v.setReg (r.extractLsb' 0 5) (m.extractLsb' 0 32)).setReg (r.extractLsb' 0 5 + 1)
          (m.extractLsb' 32 32)).advance 1)

end Sys2Proof.Machine
end

