-- ==== Sys2Proof/Machine/Barrier.lean ====
section
/-! DEFINITION. Barrier: the named barriers' words (R276-R280) and the team barrier's (R320, R321). -/

namespace Sys2Proof.Machine

/-- A barrier is in use (R277): someone waits at it, a counted arrival is on its way to a `bar.sync`, a copy in flight
names it, or weight is gathered. -/
def State.barBusy (s : State) (w : Nat) (n : BitVec 4) : Bool :=
  match s.wgs[w]? with
  | none => true
  | some g =>
    ((s.threadsOf w).any fun i => ((s.threads[i]?).map fun th => th.park.atBar (some n)).getD false) ||
      ((g.drive.map fun d => d.park.atBar (some n)).getD false) ||
      (g.due.any fun d => d.sync && d.bar = some n) ||
      (s.copies.any fun c => c.wg = w && c.inFlight && c.bar = some n) ||
      (match g.barriers[n.toNat]? with
        | some b => b.count ≠ 0
        | none => true)

/-- What `bar.init` leaves: an initialised barrier keeps its phase (R277). -/
def Barrier.initTo (b : Barrier) (e : BitVec 16) : Barrier :=
  { b with init := true, phase := if b.init then b.phase else 0, count := if b.init then b.count else 0, expected := e }

/-- `bar.init` and `bar.inval` take effect (R277). -/
def State.editBar (s : State) (w : Nat) (n : BitVec 4) (f : Barrier → Barrier) : State :=
  s.updWg w fun g => { g with barriers := g.barriers.modify n.toNat f }

/-- The operations a drive stream's arrival waits for (R279). -/
def State.driveIds (s : State) (w : Nat) (d : Drive) : List Nat :=
  (d.ops.map (·.id)) ++ ((s.copies.filter fun c => c.agent = .drive w && c.form ≠ CopyForm.detach).map (·.id))

/-- A barrier register breaks its layout (R278). -/
def barRegBad (v : Word) : Bool := v.extractLsb' 17 15 ≠ 0 || v.extractLsb' 12 4 ≠ 0

/-- The weight in a barrier register. -/
def barWeight (v : Word) : Nat := (v.extractLsb' 0 12).toNat

/-- An arrival is made and counts once its operations have been performed (R278, R284). -/
def State.due (s : State) (w : Nat) (d : Due) : State :=
  (s.updWg w fun g => { g with due := g.due ++ [d] }).settleDue w

/-- A thread's arrival of nonzero weight (R278): a commit point, then the arrival; `arv` goes on, `sync` waits. -/
def State.threadArrive (s : State) (k : Nat) (th : Thread) (bar : Option (BitVec 4)) (weight : Nat) (sync : Bool) : State :=
  match s.commit th.wg fun e => e.thread = k with
  | none => s.takeTrap k causeSpill 0
  | some s =>
    let ids := s.commitIds th.wg k
    let s : State := s.updThread k fun th => if sync then { th with park := .drain ids } else th.advance 1
    s.due th.wg ⟨.thread k, bar, weight, ids, sync, s.draw⟩

/-- A weight-0 `sync` (R278): it passes where the phase's parity differs, else it waits; nothing is released. -/
def State.threadParity (s : State) (k : Nat) (th : Thread) (bar : Option (BitVec 4)) (p : Bool) : State :=
  if ((s.barrier? th.wg bar).map fun b => b.phase.getLsbD 0) ≠ some p then s.passBar th.wg k bar
  else s.updThread k fun th => { th with park := .parity bar p }

/-- A drive stream's arrival of nonzero weight (R279). -/
def State.driveArrive (s : State) (w : Nat) (v : Drive) (bar : Option (BitVec 4)) (weight : Nat) (sync : Bool) : State :=
  let ids := s.driveIds w v
  let s : State := s.updDrive w fun v => if sync then { v with park := .drain ids } else v.advance 1
  s.due w ⟨.drive w, bar, weight, ids, sync, s.draw⟩

/-- A weight-0 `sync` of the drive stream. -/
def State.driveParity (s : State) (w : Nat) (bar : Option (BitVec 4)) (p : Bool) : State :=
  if ((s.barrier? w bar).map fun b => b.phase.getLsbD 0) ≠ some p then s.passBarDrive w bar
  else s.updDrive w fun v => { v with park := .parity bar p }

/-- The word waits already: a `sync` executed again changes nothing (log 1). -/
def Park.waitsBar (p : Park) : Bool :=
  match p with
  | .drain _ => true
  | .phase _ => true
  | .parity _ _ => true
  | _ => false

/-- `sync` or `arv` of a thread at a barrier, its register's value given (R278, R320). -/
def State.threadBar (s : State) (k : Nat) (th : Thread) (word : Word) (bar : Option (BitVec 4)) (v : Word) (sync : Bool) :
    State :=
  if sync && th.park.waitsBar then s
  else if th.park.acquires then s.acquireAgain k th
  else if barRegBad v || !(((s.barrier? th.wg bar).map (·.init)).getD false) then s.illegalWord k word
  else if barWeight v ≠ 0 then s.threadArrive k th bar (barWeight v) sync
  else if sync then s.threadParity k th bar (v.getLsbD 16)
  else s.updThread k fun th => th.advance 1

/-- The same of a drive stream (R279). -/
def State.driveBar (s : State) (w : Nat) (d : Drive) (word : Word) (bar : Option (BitVec 4)) (v : Word) (sync : Bool) :
    State :=
  if sync && d.park.waitsBar then s
  else if barRegBad v || !(((s.barrier? w bar).map (·.init)).getD false) then
    s.driveFault w (wordAddr d.pc) word causeIllegal
  else if barWeight v ≠ 0 then s.driveArrive w d bar (barWeight v) sync
  else if sync then s.driveParity w bar (v.getLsbD 16)
  else s.updDrive w fun v => v.advance 1

/-- R277. -/
def execBarInit (g : BitVec 3) (r : BitVec 7) (b : BitVec 4) (s : State) : Out :=
  let bad : Word → Bool := fun v => v.extractLsb' 16 16 ≠ 0 || v = 0
  onBoth (issueOf (.barInit g r b)) r s
    (fun k th s =>
      let v := th.reg r
      if bad v || s.barBusy th.wg b then s.illegal k (.barInit g r b)
      else (s.editBar th.wg b fun x => x.initTo (v.extractLsb' 0 16)).updThread k fun th => th.advance 1)
    (fun w d s =>
      let r := r.extractLsb' 0 5
      if d.pendingWrite r then s
      else
        let v := d.reg r
        if bad v || s.barBusy w b then s.driveFaultHere w (.barInit g (r.setWidth 7) b) causeIllegal
        else (s.editBar w b fun x => x.initTo (v.extractLsb' 0 16)).updDrive w fun d => d.advance 1)

/-- What issuing `bar.arv` asks. -/
def barArvIssue (g : BitVec 3) (r : BitVec 7) (b : BitVec 4) : Issue :=
  ⟨true, [r], g, 1, true, g ++ 0xEE#8 ++ r ++ b ++ 128#10⟩

/-- What issuing `bar.sync` asks. -/
def barSyncIssue (g : BitVec 3) (r : BitVec 7) (b : BitVec 4) : Issue :=
  ⟨true, [r], g, 1, true, g ++ 0xEE#8 ++ r ++ b ++ 256#10⟩

/-- What issuing `bar.inval` asks. -/
def barInvalIssue (g : BitVec 3) (b : BitVec 4) : Issue := ⟨true, [], g, 1, true, g ++ 0xEE#8 ++ 0#7 ++ b ++ 384#10⟩

/-- `bar.arv` or `bar.sync` in either stream. -/
def onBar (i : Issue) (r : BitVec 7) (b : BitVec 4) (sync : Bool) (s : State) : Out :=
  onBoth i r s
    (fun k th s => s.threadBar k th i.word (some b) (th.reg r) sync)
    (fun w d s =>
      if d.pendingWrite (r.extractLsb' 0 5) then s
      else s.driveBar w d i.word (some b) (d.reg (r.extractLsb' 0 5)) sync)

/-- R278, R279, R280. -/
def execBarArv (g : BitVec 3) (r : BitVec 7) (b : BitVec 4) (s : State) : Out := onBar (barArvIssue g r b) r b false s

/-- R278, R279, R280. -/
def execBarSync (g : BitVec 3) (r : BitVec 7) (b : BitVec 4) (s : State) : Out := onBar (barSyncIssue g r b) r b true s

/-- R277. -/
def execBarInval (g : BitVec 3) (b : BitVec 4) (s : State) : Out :=
  onBoth (barInvalIssue g b) 0 s
    (fun k th s =>
      if s.barBusy th.wg b then s.illegalWord k (barInvalIssue g b).word
      else (s.editBar th.wg b fun _ => ⟨false, 0, 0, 0, [], []⟩).updThread k fun th => th.advance 1)
    (fun w d s =>
      if s.barBusy w b then s.driveFault w (wordAddr d.pc) (barInvalIssue g b).word causeIllegal
      else (s.editBar w b fun _ => ⟨false, 0, 0, 0, [], []⟩).updDrive w fun d => d.advance 1)

/-! ## The team barrier (R320, R321) -/

/-- What issuing `tmbar.sync` asks. -/
def tmbarSyncIssue (g : BitVec 3) (a : BitVec 7) : Issue := ⟨true, [a], g, 1, true, g ++ 0xF8#8 ++ 0#7 ++ a ++ 0#7⟩

/-- What issuing `tmbar.arv` asks. -/
def tmbarArvIssue (g : BitVec 3) (a : BitVec 7) : Issue := ⟨true, [a], g, 1, true, g ++ 0xF8#8 ++ 0#7 ++ a ++ 1#7⟩

/-- R320. -/
def execTmbarSync (g : BitVec 3) (a : BitVec 7) (s : State) : Out :=
  onIssue (tmbarSyncIssue g a) s fun k th s => s.threadBar k th (tmbarSyncIssue g a).word none (th.reg a) true

/-- R320. -/
def execTmbarArv (g : BitVec 3) (a : BitVec 7) (s : State) : Out :=
  onIssue (tmbarArvIssue g a) s fun k th s => s.threadBar k th (tmbarArvIssue g a).word none (th.reg a) false

end Sys2Proof.Machine
end

