-- ==== Sys2Proof/Machine/Elementary.lean ====
section
/-! DEFINITION. Elementary: the unary functions of R102, each the exact real correctly rounded. Roots are exact
integers with a sticky bit; 2^a, log₂ a, sin a and cos a are enclosed between two fixed-point bounds of 1,024 bits
(log 13). -/

namespace Sys2Proof.Machine

/-- Integer square root, bit by bit from bit k. -/
def isqrtFrom : Nat → Nat → Nat → Nat
  | 0, n, r => if (r + 1) * (r + 1) ≤ n then r + 1 else r
  | k + 1, n, r => isqrtFrom k n (if (r + 2 ^ (k + 1)) * (r + 2 ^ (k + 1)) ≤ n then r + 2 ^ (k + 1) else r)

/-- ⌊√n⌋. -/
def isqrt (n : Nat) : Nat := isqrtFrom (n.log2 / 2 + 1) n 0

/-- A root q · 2^e, exact or strictly between q and q + 1, rounded. -/
def Fmt.roundRoot (f : Fmt) (mode : BitVec 3) (q : Nat) (exact : Bool) (e : Int) : Rounded :=
  if exact then f.round mode false false q 1 e else f.round mode false false (2 * q + 1) 1 (e - 1)

/-- √(m · 2^e), m positive. -/
def Fmt.sqrtOf (f : Fmt) (mode : BitVec 3) (m : Nat) (e : Int) : Rounded :=
  let (m, e) := if e % 2 = 0 then (m, e) else (2 * m, e - 1)
  let n := m * 2 ^ 256
  let q := isqrt n
  f.roundRoot mode q (q * q = n) (e / 2 - 128)

/-- 1/√(m · 2^e), m positive. -/
def Fmt.rsqrtOf (f : Fmt) (mode : BitVec 3) (m : Nat) (e : Int) : Rounded :=
  let (m, e) := if e % 2 = 0 then (m, e) else (2 * m, e - 1)
  let n := 2 ^ 512
  let q := isqrt (n / m)
  f.roundRoot mode q (q * q * m = n) (-(e / 2) - 256)

/-! ## Enclosures: a pair of bounds scaled by 2^fracBits -/

def fracBits : Nat := 1024

/-- An enclosure of a real by two integers over 2^1024. -/
structure Encl where
  lo : Int
  hi : Int
deriving DecidableEq, Repr

def Encl.one : Encl := ⟨2 ^ fracBits, 2 ^ fracBits⟩
def Encl.add (a b : Encl) : Encl := ⟨a.lo + b.lo, a.hi + b.hi⟩
def Encl.sub (a b : Encl) : Encl := ⟨a.lo - b.hi, a.hi - b.lo⟩

/-- Product of enclosures of non-negative reals. -/
def Encl.mul (a b : Encl) : Encl :=
  ⟨a.lo * b.lo / 2 ^ fracBits, a.hi * b.hi / 2 ^ fracBits + 1⟩

/-- Quotient by a positive natural number. -/
def Encl.divNat (a : Encl) (n : Nat) : Encl := ⟨a.lo / n, a.hi / n + 1⟩

/-- The rational p/q, p and q non-negative. -/
def Encl.rat (p q : Nat) : Encl := ⟨((p * 2 ^ fracBits / q : Nat) : Int), ((p * 2 ^ fracBits / q + 1 : Nat) : Int)⟩

/-- Σ x^k/k! for k below the fuel, starting from the term t of index k: `step` is 1 for exp, 2 with alternating signs
for sin and cos. -/
def expTerms : Nat → Nat → Encl → Encl → Encl → Encl
  | 0, _, _, _, acc => acc
  | n + 1, k, x, t, acc => expTerms n (k + 1) x ((t.mul x).divNat (k + 1)) (acc.add t)

/-- e^x for an x in [0, 1): 180 terms, the tail below one unit of 2^-1000. -/
def Encl.exp (x : Encl) : Encl :=
  let s := expTerms 180 0 x Encl.one ⟨0, 0⟩
  ⟨s.lo, s.hi + 2 ^ 20⟩

/-- Σ ± x^(2j)/… with the square of x: the alternating series of sin and cos. -/
def altTerms : Nat → Nat → Bool → Encl → Encl → Encl → Encl
  | 0, _, _, _, _, acc => acc
  | n + 1, k, plus, x2, t, acc =>
    altTerms n (k + 2) (!plus) x2 ((t.mul x2).divNat ((k + 1) * (k + 2))) (if plus then acc.add t else acc.sub t)

/-- sin x and cos x for an x in [0, 1). -/
def Encl.sin (x : Encl) : Encl :=
  let s := altTerms 90 1 true (x.mul x) x ⟨0, 0⟩
  ⟨s.lo - 2 ^ 20, s.hi + 2 ^ 20⟩

def Encl.cos (x : Encl) : Encl :=
  let s := altTerms 90 0 true (x.mul x) Encl.one ⟨0, 0⟩
  ⟨s.lo - 2 ^ 20, s.hi + 2 ^ 20⟩

/-- Σ t^(2j+1)/(2j+1): atanh t for a t in [0, 1/3]; with alternating signs atan t. -/
def oddTerms : Nat → Nat → Bool → Bool → Encl → Encl → Encl → Encl
  | 0, _, _, _, _, _, acc => acc
  | n + 1, k, alt, plus, t2, t, acc =>
    oddTerms n (k + 2) alt (if alt then !plus else true) t2 (t.mul t2)
      (if plus then acc.add (t.divNat k) else acc.sub (t.divNat k))

def Encl.atanh (t : Encl) : Encl :=
  let s := oddTerms 330 1 false true (t.mul t) t ⟨0, 0⟩
  ⟨s.lo, s.hi + 2 ^ 20⟩

def Encl.atan (t : Encl) : Encl :=
  let s := oddTerms 330 1 true true (t.mul t) t ⟨0, 0⟩
  ⟨s.lo - 2 ^ 20, s.hi + 2 ^ 20⟩

/-- ln 2 = 2 atanh(1/3). -/
def Encl.ln2 : Encl := let a := (Encl.rat 1 3).atanh; ⟨2 * a.lo, 2 * a.hi⟩

/-- π = 16 atan(1/5) − 4 atan(1/239). -/
def Encl.pi : Encl :=
  let a := (Encl.rat 1 5).atan
  let b := (Encl.rat 1 239).atan
  ⟨16 * a.lo - 4 * b.hi, 16 * a.hi - 4 * b.lo⟩

/-- A real known to be no rational strictly inside the enclosure, times 2^e, rounded: where the bounds round alike,
that is the result (R102), else the free value of log 13. -/
def Encl.round (x : Encl) (mode : BitVec 3) (e : Int) (kind : Nat) (a : Word) : Rounded :=
  let rnd (v : Int) : Rounded :=
    let w := 2 * v + 1
    fp32.round mode false (w < 0) w.natAbs 1 (e - fracBits - 1)
  let l := rnd x.lo
  let h := rnd (x.hi - 1)
  if l = h then l else ⟨(Config.elementary kind a).toNat, flagNX⟩

/-- ⌊x⌋ and the fraction of m · 2^e over 2^fracBits, for a non-negative finite value. -/
def splitInt (m : Nat) (e : Int) : Nat × Nat :=
  let v := (scaledDiv m 1 (e + fracBits)).1
  (v / 2 ^ fracBits, v % 2 ^ fracBits)

/-- 2^a for a finite nonzero a (R102). -/
def exp2Of (mode : BitVec 3) (a : Word) (neg : Bool) (m : Nat) (e : Int) : Rounded :=
  if 10 < floorLog m 1 + e then
    -- |a| ≥ 2^11: far outside the range; the rounding is that of 2^±2048
    if neg then fp32.round mode false false 1 1 (-2048) else fp32.round mode false false 1 1 2048
  else
    let (n, f) := splitInt m e
    if f = 0 then fp32.round mode false false 1 1 (if neg then -(n : Int) else n)
    else
      let (n, f) : Int × Nat := if neg then (-(n : Int) - 1, 2 ^ fracBits - f) else ((n : Int), f)
      let y := Encl.mul ⟨f, f⟩ Encl.ln2
      y.exp.round mode n 0 a

/-- log₂ a for a finite positive a. -/
def log2Of (mode : BitVec 3) (a : Word) (m : Nat) (e : Int) : Rounded :=
  let k := m.log2
  let n : Int := e + k
  if m = 2 ^ k then
    fp32.round mode false (n < 0) n.natAbs 1 0
  else
    -- y = m/2^k in (1, 2); ln y = 2 atanh((y-1)/(y+1))
    let t := Encl.rat (m - 2 ^ k) (m + 2 ^ k)
    let l := t.atanh
    let num : Encl := ⟨2 * l.lo, 2 * l.hi⟩
    let q : Encl := ⟨num.lo * 2 ^ fracBits / Encl.ln2.hi, num.hi * 2 ^ fracBits / Encl.ln2.lo + 1⟩
    let r : Encl := ⟨q.lo + n * 2 ^ fracBits, q.hi + n * 2 ^ fracBits⟩
    r.round mode 0 1 a

/-- sin a or cos a for a finite nonzero a: reduced by the nearest multiple of π/2. -/
def trigOf (isCos : Bool) (mode : BitVec 3) (a : Word) (neg : Bool) (m : Nat) (e : Int) : Rounded :=
  -- |a| over 2^fracBits is exact: e is at least -149
  let x := (scaledDiv m 1 (e + fracBits)).1
  let pi := Encl.pi
  let k := ((2 * x : Int) + pi.lo / 2) / pi.lo
  let r : Encl := ⟨(x : Int) - (k * pi.hi + 1) / 2, (x : Int) - k * pi.lo / 2⟩
  let negR : Bool := r.hi < 0
  let ra : Encl := if negR then ⟨-r.hi, -r.lo⟩ else ⟨if r.lo < 0 then 0 else r.lo, r.hi⟩
  let quad := (k + if isCos then 1 else 0) % 4
  -- sin(r + q π/2)
  let base : Encl := if quad % 2 = 0 then ra.sin else ra.cos
  let flip1 : Bool := quad % 2 = 0 && negR
  let flip2 : Bool := 2 ≤ quad
  let flip3 : Bool := neg && !isCos
  let v : Encl := if (flip1 != flip2) != flip3 then ⟨-base.hi, -base.lo⟩ else base
  v.round mode 0 (if isCos then 3 else 2) a

/-- The seven functions, numbered as their opcodes from 0x56 (R102). -/
def elementary (op : Nat) (mode : BitVec 3) (a : Word) : Rounded :=
  let nanNV : Rounded := ⟨fp32.nan, flagNV⟩
  match fp32.decode a.toNat with
  | .nan s => ⟨fp32.nan, flagIf s flagNV⟩
  | .inf neg =>
    match op with
    | 0 => ⟨fp32.signed neg 0, 0⟩
    | 1 => if neg then nanNV else ⟨0, 0⟩
    | 2 => if neg then nanNV else ⟨fp32.inf, 0⟩
    | 3 => if neg then ⟨0, 0⟩ else ⟨fp32.inf, 0⟩
    | 4 => if neg then nanNV else ⟨fp32.inf, 0⟩
    | _ => nanNV
  | .fin neg m e =>
    if m = 0 then
      match op with
      | 0 => ⟨fp32.signed neg fp32.inf, flagDZ⟩
      | 1 => ⟨fp32.signed neg fp32.inf, flagDZ⟩
      | 2 => ⟨fp32.signed neg 0, 0⟩
      | 3 => ⟨0x3F800000, 0⟩
      | 4 => ⟨fp32.signed true fp32.inf, flagDZ⟩
      | 5 => ⟨fp32.signed neg 0, 0⟩
      | _ => ⟨0x3F800000, 0⟩
    else
      match op with
      | 0 => fp32.round mode false neg 1 m (-e)
      | 1 => if neg then nanNV else fp32.rsqrtOf mode m e
      | 2 => if neg then nanNV else fp32.sqrtOf mode m e
      | 3 => exp2Of mode a neg m e
      | 4 => if neg then nanNV else log2Of mode a m e
      | 5 => trigOf false mode a neg m e
      | _ => trigOf true mode a neg m e

end Sys2Proof.Machine
end

