-- ==== Sys2Proof/Machine/Real.lean ====
section
/-! DEFINITION. Real: the FP32, packed and conversion words of class 000 (R95-R108). -/

namespace Sys2Proof.Machine

/-- The dynamic mode: s.rm sampled at issue (R59, R69). -/
def Thread.mode (th : Thread) : BitVec 3 := th.rm.extractLsb' 0 3

/-- The mode of an FP rounding field (R40, R68). -/
def Thread.modeOf (th : Thread) (m : BitVec 7) : BitVec 3 := if m = 0 then th.mode else BitVec.ofNat 3 (m.toNat - 1)

/-- A rounded result into d (R60, R78). -/
def Thread.putR (th : Thread) (d : BitVec 7) (r : Rounded) : Thread := th.put d (BitVec.ofNat 32 r.bits, r.flags)

/-- The register as an FP32 encoding. -/
def Thread.fr (th : Thread) (r : BitVec 7) : Nat := (th.reg r).toNat

/-- Element i of a packed register (R103). -/
def half (w : Word) (i : Nat) : Nat := w.toNat / 65536 ^ i % 65536

/-- A packed operation: each element on its own, the union of the flags (R103). -/
def packed (f : Nat → Nat → Nat → Rounded) (a b d : Word) : Word × Word :=
  let x := f (half a 0) (half b 0) (half d 0)
  let y := f (half a 1) (half b 1) (half d 1)
  (BitVec.ofNat 32 (x.bits + 65536 * y.bits), x.flags ||| y.flags)

/-- The registers a conversion reads from and writes to (R104). -/
def cvtSrc (a s : BitVec 7) : List (BitVec 7) :=
  if s = 8#7 || s = 9#7 then pair a
  else if s = 0x18#7 || s = 0x19#7 || s = 0x1A#7 || s = 0x28#7 || s = 0x29#7 then quadOf a
  else if s = 0x21#7 then octetOf a else [a]

def cvtDst (d s : BitVec 7) : List (BitVec 7) :=
  if s = 0x20#7 then octetOf d else if s = 0x2A#7 || s = 0x2B#7 then quadOf d else [d]

/-- `cvt` in a mode (R104): every source is read before any destination is written (R78). -/
def Thread.convert (th : Thread) (mode : BitVec 3) (d a s : BitVec 7) : Thread :=
  let (vs, fl) := Machine.convert s mode ((cvtSrc a s).map th.reg) (th.reg (d + 3))
  (th.setRegs ((cvtDst d s).zip vs)).raise fl

/-- `fmin` (R96). -/
def execFmin (g : BitVec 3) (d a b : BitVec 7) (s : State) : Out :=
  onRegs (.fmin g d a b) s fun th => th.putR d (fp32.minMax false (th.fr a) (th.fr b))

/-- `fmax` (R96). -/
def execFmax (g : BitVec 3) (d a b : BitVec 7) (s : State) : Out :=
  onRegs (.fmax g d a b) s fun th => th.putR d (fp32.minMax true (th.fr a) (th.fr b))

/-- `fdiv` (R97). -/
def execFdiv (g : BitVec 3) (d a b : BitVec 7) (s : State) : Out :=
  onRegs (.fdiv g d a b) s fun th => th.putR d (fp32.div th.mode (th.fr a) (th.fr b))

/-- `fadd` in s.rm (R95). -/
def execFadd (g : BitVec 3) (d a b : BitVec 7) (s : State) : Out :=
  onRegs (.fadd g d a b) s fun th => th.putR d (fp32.add th.mode (th.fr a) (th.fr b))

/-- `fadd.rn` (R95). -/
def execFaddRn (g : BitVec 3) (d a b : BitVec 7) (s : State) : Out :=
  onRegs (.faddRn g d a b) s fun th => th.putR d (fp32.add 0#3 (th.fr a) (th.fr b))

/-- `fsub` in s.rm (R95). -/
def execFsub (g : BitVec 3) (d a b : BitVec 7) (s : State) : Out :=
  onRegs (.fsub g d a b) s fun th => th.putR d (fp32.sub th.mode (th.fr a) (th.fr b))

/-- `fsub.rn` (R95). -/
def execFsubRn (g : BitVec 3) (d a b : BitVec 7) (s : State) : Out :=
  onRegs (.fsubRn g d a b) s fun th => th.putR d (fp32.sub 0#3 (th.fr a) (th.fr b))

/-- `fmul` in s.rm (R95). -/
def execFmul (g : BitVec 3) (d a b : BitVec 7) (s : State) : Out :=
  onRegs (.fmul g d a b) s fun th => th.putR d (fp32.mul th.mode (th.fr a) (th.fr b))

/-- `fmul.rn` (R95). -/
def execFmulRn (g : BitVec 3) (d a b : BitVec 7) (s : State) : Out :=
  onRegs (.fmulRn g d a b) s fun th => th.putR d (fp32.mul 0#3 (th.fr a) (th.fr b))

/-- `ffma` in s.rm (R95): a × b + d, one rounding. -/
def execFfma (g : BitVec 3) (d a b : BitVec 7) (s : State) : Out :=
  onRegs (.ffma g d a b) s fun th => th.putR d (fp32.fma th.mode (th.fr a) (th.fr b) (th.fr d))

/-- `ffma.rn` (R95). -/
def execFfmaRn (g : BitVec 3) (d a b : BitVec 7) (s : State) : Out :=
  onRegs (.ffmaRn g d a b) s fun th => th.putR d (fp32.fma 0#3 (th.fr a) (th.fr b) (th.fr d))

/-- `fscale` (R98). -/
def execFscale (g : BitVec 3) (d a b : BitVec 7) (s : State) : Out :=
  onRegs (.fscale g d a b) s fun th => th.putR d (fp32.scale th.mode (th.fr a) (th.rs b))

/-- `fcmp` (R99). -/
def execFcmp (g : BitVec 3) (c : BitVec 4) (p : BitVec 3) (a b : BitVec 7) (s : State) : Out :=
  onRegs (.fcmp g c p a b) s fun th => 
    let r := fp32.compare c (th.fr a) (th.fr b)
    (th.setPred p r.1).raise r.2

/-- `fabs` (R100). -/
def execFabs (g : BitVec 3) (d a : BitVec 7) (s : State) : Out :=
  onRegs (.fabs g d a) s fun th => th.put d (signOp false (th.reg a))

/-- `fneg` (R100). -/
def execFneg (g : BitVec 3) (d a : BitVec 7) (s : State) : Out :=
  onRegs (.fneg g d a) s fun th => th.put d (signOp true (th.reg a))

/-- `fclass` (R100). -/
def execFclass (g : BitVec 3) (d a : BitVec 7) (s : State) : Out :=
  onRegs (.fclass g d a) s fun th => th.setReg d (fclass (th.reg a))

/-- `frnd` (R101). -/
def execFrnd (g : BitVec 3) (d a m : BitVec 7) (s : State) : Out :=
  onRegs (.frnd g d a m) s fun th => th.putR d (fp32.integral (th.modeOf m) (th.fr a))

/-- `frcp` (R102). -/
def execFrcp (g : BitVec 3) (d a m : BitVec 7) (s : State) : Out :=
  onRegs (.frcp g d a m) s fun th => th.putR d (elementary 0 (th.modeOf m) (th.reg a))

/-- `frsq` (R102). -/
def execFrsq (g : BitVec 3) (d a m : BitVec 7) (s : State) : Out :=
  onRegs (.frsq g d a m) s fun th => th.putR d (elementary 1 (th.modeOf m) (th.reg a))

/-- `fsqrt` (R102). -/
def execFsqrt (g : BitVec 3) (d a m : BitVec 7) (s : State) : Out :=
  onRegs (.fsqrt g d a m) s fun th => th.putR d (elementary 2 (th.modeOf m) (th.reg a))

/-- `fex2` (R102). -/
def execFex2 (g : BitVec 3) (d a m : BitVec 7) (s : State) : Out :=
  onRegs (.fex2 g d a m) s fun th => th.putR d (elementary 3 (th.modeOf m) (th.reg a))

/-- `flg2` (R102). -/
def execFlg2 (g : BitVec 3) (d a m : BitVec 7) (s : State) : Out :=
  onRegs (.flg2 g d a m) s fun th => th.putR d (elementary 4 (th.modeOf m) (th.reg a))

/-- `fsin` (R102). -/
def execFsin (g : BitVec 3) (d a m : BitVec 7) (s : State) : Out :=
  onRegs (.fsin g d a m) s fun th => th.putR d (elementary 5 (th.modeOf m) (th.reg a))

/-- `fcos` (R102). -/
def execFcos (g : BitVec 3) (d a m : BitVec 7) (s : State) : Out :=
  onRegs (.fcos g d a m) s fun th => th.putR d (elementary 6 (th.modeOf m) (th.reg a))

/-- `cvt` (R104-R108). -/
def execCvt (g : BitVec 3) (d a cs : BitVec 7) (s : State) : Out :=
  onRegs (.cvt g d a cs) s fun th => th.convert th.mode d a cs

/-- `cvt.rn` (R104-R108). -/
def execCvtRn (g : BitVec 3) (d a cs : BitVec 7) (s : State) : Out :=
  onRegs (.cvtRn g d a cs) s fun th => th.convert 0#3 d a cs

/-- `cvt.rna` (R104-R108). -/
def execCvtRna (g : BitVec 3) (d a cs : BitVec 7) (s : State) : Out :=
  onRegs (.cvtRna g d a cs) s fun th => th.convert 1#3 d a cs

/-- `cvt.rz` (R104-R108). -/
def execCvtRz (g : BitVec 3) (d a cs : BitVec 7) (s : State) : Out :=
  onRegs (.cvtRz g d a cs) s fun th => th.convert 2#3 d a cs

/-- `cvt.rp` (R104-R108). -/
def execCvtRp (g : BitVec 3) (d a cs : BitVec 7) (s : State) : Out :=
  onRegs (.cvtRp g d a cs) s fun th => th.convert 3#3 d a cs

/-- `cvt.rm` (R104-R108). -/
def execCvtRm (g : BitVec 3) (d a cs : BitVec 7) (s : State) : Out :=
  onRegs (.cvtRm g d a cs) s fun th => th.convert 4#3 d a cs

/-- `hadd2.bf16` (R103). -/
def execHadd2Bf16 (g : BitVec 3) (d a b : BitVec 7) (s : State) : Out :=
  onRegs (.hadd2Bf16 g d a b) s fun th => th.put d (packed (fun x y _ => bf16.add th.mode x y) (th.reg a) (th.reg b) (th.reg d))

/-- `hsub2.bf16` (R103). -/
def execHsub2Bf16 (g : BitVec 3) (d a b : BitVec 7) (s : State) : Out :=
  onRegs (.hsub2Bf16 g d a b) s fun th => th.put d (packed (fun x y _ => bf16.sub th.mode x y) (th.reg a) (th.reg b) (th.reg d))

/-- `hmul2.bf16` (R103). -/
def execHmul2Bf16 (g : BitVec 3) (d a b : BitVec 7) (s : State) : Out :=
  onRegs (.hmul2Bf16 g d a b) s fun th => th.put d (packed (fun x y _ => bf16.mul th.mode x y) (th.reg a) (th.reg b) (th.reg d))

/-- `hfma2.bf16` (R103). -/
def execHfma2Bf16 (g : BitVec 3) (d a b : BitVec 7) (s : State) : Out :=
  onRegs (.hfma2Bf16 g d a b) s fun th => th.put d (packed (bf16.fma th.mode) (th.reg a) (th.reg b) (th.reg d))

/-- `hmin2.bf16` (R103). -/
def execHmin2Bf16 (g : BitVec 3) (d a b : BitVec 7) (s : State) : Out :=
  onRegs (.hmin2Bf16 g d a b) s fun th => th.put d (packed (fun x y _ => bf16.minMax false x y) (th.reg a) (th.reg b) (th.reg d))

/-- `hmax2.bf16` (R103). -/
def execHmax2Bf16 (g : BitVec 3) (d a b : BitVec 7) (s : State) : Out :=
  onRegs (.hmax2Bf16 g d a b) s fun th => th.put d (packed (fun x y _ => bf16.minMax true x y) (th.reg a) (th.reg b) (th.reg d))

/-- `hadd2.hf16` (R103). -/
def execHadd2Hf16 (g : BitVec 3) (d a b : BitVec 7) (s : State) : Out :=
  onRegs (.hadd2Hf16 g d a b) s fun th => th.put d (packed (fun x y _ => fp16.add th.mode x y) (th.reg a) (th.reg b) (th.reg d))

/-- `hsub2.hf16` (R103). -/
def execHsub2Hf16 (g : BitVec 3) (d a b : BitVec 7) (s : State) : Out :=
  onRegs (.hsub2Hf16 g d a b) s fun th => th.put d (packed (fun x y _ => fp16.sub th.mode x y) (th.reg a) (th.reg b) (th.reg d))

/-- `hmul2.hf16` (R103). -/
def execHmul2Hf16 (g : BitVec 3) (d a b : BitVec 7) (s : State) : Out :=
  onRegs (.hmul2Hf16 g d a b) s fun th => th.put d (packed (fun x y _ => fp16.mul th.mode x y) (th.reg a) (th.reg b) (th.reg d))

/-- `hfma2.hf16` (R103). -/
def execHfma2Hf16 (g : BitVec 3) (d a b : BitVec 7) (s : State) : Out :=
  onRegs (.hfma2Hf16 g d a b) s fun th => th.put d (packed (fp16.fma th.mode) (th.reg a) (th.reg b) (th.reg d))

/-- `hmin2.hf16` (R103). -/
def execHmin2Hf16 (g : BitVec 3) (d a b : BitVec 7) (s : State) : Out :=
  onRegs (.hmin2Hf16 g d a b) s fun th => th.put d (packed (fun x y _ => fp16.minMax false x y) (th.reg a) (th.reg b) (th.reg d))

/-- `hmax2.hf16` (R103). -/
def execHmax2Hf16 (g : BitVec 3) (d a b : BitVec 7) (s : State) : Out :=
  onRegs (.hmax2Hf16 g d a b) s fun th => th.put d (packed (fun x y _ => fp16.minMax true x y) (th.reg a) (th.reg b) (th.reg d))

end Sys2Proof.Machine
end

