-- ==== Sys2Proof/Machine/Engine.lean ====
section
/-! DEFINITION. Engine: the matrix engine's words (R216-R243) and `fred` (R398-R401): their issue, what they depend on,
what they do, and the two device steps that execute and complete them. -/

namespace Sys2Proof.Machine

/-- Bits of the tile status word beyond those of s.flags (R225). -/
def tileLost : Word := 0x200
def tileSov : Word := 0x400
def tileIdx : Word := 0x800

/-! ## Buffers (R218, R219) -/

/-- K of a reservation record. -/
def recK (r0 : Word) : Nat := (r0.extractLsb' 16 16).toNat
/-- Rows of a reservation record. -/
def recRows (r0 : Word) : Nat := (r0.extractLsb' 0 12).toNat
/-- Format of a reservation record. -/
def recFmt (r1 : Word) : BitVec 3 := r1.extractLsb' 0 3
/-- The record is in per-block mode. -/
def recBlocks (r1 : Word) : Bool := r1.extractLsb' 3 2 = 1#2
/-- The record's offset. -/
def recOff (r1 : Word) : Int := (r1.extractLsb' 8 8).toInt

/-- Half-bytes of an element of a format. -/
def halfBytes (fmt : BitVec 3) : Nat := if fmt = 2#3 then 1 else if fmt = 0#3 || fmt = 1#3 then 2 else 4

/-- Element bytes of a row. -/
def rowBytes (r0 r1 : Word) : Nat := recK r0 * halfBytes (recFmt r1) / 2

/-- A raw row: elements, then in per-block mode its offset bytes (R220). -/
def rawBytes (r0 r1 : Word) : Nat := rowBytes r0 r1 + if recBlocks r1 then recK r0 / 32 else 0

/-- Bytes a reservation takes, in whole units of 256 (R218). -/
def recSize (r0 r1 : Word) : Nat := (recRows r0 * rawBytes r0 r1 + 255) / 256 * 256

/-- A record breaks the table of R219. -/
def recBad (r0 r1 : Word) : Bool :=
  recK r0 < 32 || 1024 < recK r0 || recK r0 % 32 ≠ 0 || r0.extractLsb' 12 4 ≠ 0 || recRows r0 = 0 ||
    r1.extractLsb' 16 16 ≠ 0 || r1.extractLsb' 5 3 ≠ 0 || r1.getLsbD 4 || (recBlocks r1 && recFmt r1 ≠ 2#3) ||
    4#3 < recFmt r1

/-- The narrow format of a number (R226, R230). -/
def fmtOf (f : BitVec 3) : Fmt := if f = 0#3 then e4m3 else if f = 1#3 then e5m2 else if f = 3#3 then bf16 else if f = 4#3 then fp16 else fp32

/-- The block offset of an element (R219). -/
def Buffer.block (b : Buffer) (row k : Nat) : Int :=
  if recBlocks b.rec1 then (((b.data.getD row []).getD (rowBytes b.rec0 b.rec1 + k / 32) 0).toInt) else 0

/-- `DecodeOp` of R226, and whether FMT is reported. -/
def Buffer.elem (b : Buffer) (row k : Nat) : FVal × Bool :=
  let r := b.data.getD row []
  let off := recOff b.rec1 + b.block row k
  if recFmt b.rec1 = 2#3 then
    let (vs, f) := decodeIO4 (BitVec.ofNat 32 (ofBytes ((r.drop (4 * (k / 8))).take 4))) off
    (vs.getD (k % 8) (.fin false 0 0), f)
  else
    let n := halfBytes (recFmt b.rec1) / 2
    (((fmtOf (recFmt b.rec1)).decode (ofBytes ((r.drop (n * k)).take n))).scaleBy off, false)

/-- FMT is reported by some element of a buffer. -/
def Buffer.fmtFlag (b : Buffer) : Word :=
  flagIf (recFmt b.rec1 = 2#3 && (List.range (recRows b.rec0)).any fun i => (List.range (recK b.rec0 / 8)).any fun k =>
    (b.elem i (8 * k)).2) flagFMT

/-- The least exponent of a buffer's nonzero values (R227). -/
def Buffer.leastExp (b : Buffer) : Int :=
  let base : Int := if recFmt b.rec1 = 1#3 then -16 else if recFmt b.rec1 = 3#3 then -133
    else if recFmt b.rec1 = 4#3 then -24 else -9
  let blocks := (List.range (recRows b.rec0)).flatMap fun i => (List.range (recK b.rec0 / 32)).map fun k => b.block i (32 * k)
  base + recOff b.rec1 + match blocks with
    | [] => 0
    | x :: t => t.foldl min x

/-- A fresh reservation: its elements are undefined, its block offsets zero (R219; log 10). -/
def freshBuffer (draw : Nat) (r0 r1 : Word) : Buffer :=
  ⟨r0, r1, (List.range (recRows r0)).map fun i =>
    ((List.range (rowBytes r0 r1)).map fun k => Config.freshByte (draw * 2 ^ 24 + i * 2 ^ 12 + k)) ++
      List.replicate (rawBytes r0 r1 - rowBytes r0 r1) 0⟩

/-! ## Tiles (R221) -/

/-- Units of 64 cells that a shape takes. -/
def tileUnits (rows cols : Nat) : Nat := (rows * cols + 63) / 64

/-- Units of a tile and its shadow. -/
def Tile.units (t : Tile) : Nat := tileUnits t.rows t.cols * if t.shadow.isSome then 2 else 1

/-- A tile by its handle. -/
def Wg.tile (g : Wg) (t : BitVec 4) : Option Tile := (g.tiles[t.toNat]?).join

/-- A buffer by its handle. -/
def Wg.buffer (g : Wg) (u : BitVec 3) : Option Buffer := (g.buffers[u.toNat]?).join

/-- Writing a tile. -/
def Wg.setTile (g : Wg) (t : BitVec 4) (x : Option Tile) : Wg := { g with tiles := g.tiles.set t.toNat x }

/-- Writing a buffer. -/
def Wg.setBuffer (g : Wg) (u : BitVec 3) (x : Option Buffer) : Wg := { g with buffers := g.buffers.set u.toNat x }

/-- Units of a workgroup's tiles and shadows. -/
def Wg.units (g : Wg) : Nat := (g.tiles.map fun t => (t.map Tile.units).getD 0).sum

/-- Bytes of a workgroup's reservations. -/
def Wg.bufferBytes (g : Wg) : Nat := (g.buffers.map fun b => (b.map fun b => recSize b.rec0 b.rec1).getD 0).sum

/-- A total over the workgroups that hold a core's resources. -/
def State.onCore (s : State) (core : Nat) (f : Wg → Nat) : Nat :=
  (s.wgs.map fun g => if g.core = core && g.resident then f g else 0).sum

/-- The state of a zero cell. -/
def zeroCell : WCell := ⟨0, false⟩

/-- Zero cells. -/
def zeroCells (n : Nat) : List WCell := List.replicate n zeroCell

/-- A cell of a tile, row by row. -/
def Tile.cell (t : Tile) (i j : Nat) : WCell := t.cells.getD (i * t.cols + j) zeroCell

/-- Some cell's sticky bit is set. -/
def sticky (l : List WCell) : Bool := l.any (·.sov)

/-! ## Descriptors and ranges -/

/-- A drive register as an engine word read it at issue (R216). -/
def Op.reg (o : Op) (r : BitVec 5) : Word := o.dregs[r.toNat]'(r.isLt)

/-- The address in a pair of drive registers. -/
def Op.base (o : Op) (r : BitVec 5) : Nat := ((o.reg (r + 1)).extractLsb' 0 25 ++ o.reg r : VAddr).toNat

/-- An address pair with a nonzero reserved bit (R216). -/
def pairBad (hi : Word) : Bool := hi.extractLsb' 25 7 ≠ 0

/-- The reservation a buffer word meets, as the words before it leave it (R221). -/
def recordAt (g : Wg) (ops : List Op) (u : BitVec 3) : Option (Word × Word) :=
  ops.foldl (fun r o => match o.word with
    | .breserve x y => if x = u then some (o.reg y, o.reg (y + 1)) else r
    | .brelease x => if x = u then none else r
    | _ => r) ((g.buffer u).map fun b => (b.rec0, b.rec1))

/-- The shape a tile word meets, as the words before it leave it (R221). -/
def shapeAt (g : Wg) (ops : List Op) (t : BitVec 4) : Option (Nat × Nat) :=
  ops.foldl (fun r o => match o.word with
    | .talloc x y => if x = t then some (((o.reg y).extractLsb' 0 16).toNat, ((o.reg y).extractLsb' 16 16).toNat) else r
    | .tfree x => if x = t then none else r
    | _ => r) ((g.tile t).map fun x => (x.rows, x.cols))

/-- Source bytes of an element of a fill (R220). -/
def fillSize (r1 : Word) (kind : BitVec 2) : Nat := if kind = 1#2 then 4 else if kind = 2#2 then 2 else halfBytes (recFmt r1) / 2

/-- Source bytes of a row of a fill without `.t`. -/
def fillRow (r0 r1 : Word) (kind : BitVec 2) : Nat := if kind = 0#2 then rawBytes r0 r1 else recK r0 * fillSize r1 kind

/-- Bytes of a cell in memory (R222, R230). -/
def moveSize (x : BitVec 3) : Nat := if x = 0#3 then 16 else 4

/-- Bytes of an element of a memory `tcvt`. -/
def cvtSize (f : Word) : Nat := if f = 5#32 then 4 else if f = 3#32 || f = 4#32 then 2 else 1

/-- An empty range, for a word whose buffer or tile does not stand. -/
def noSpan : Span := ⟨0, 0, 0, 0⟩

/-- The memory ranges of an engine word: each a destination or a source (R224). -/
def opSpans (g : Wg) (ops : List Op) (o : Op) : List (Span × Bool) :=
  match o.word with
  | .bfill u r x =>
    match recordAt g ops u with
    | none => [(noSpan, false)]
    | some (r0, r1) =>
      let n := ((o.reg (r + 3)).extractLsb' 16 16).toNat
      let k := x.extractLsb' 0 2
      if x.getLsbD 2 then [(⟨o.base r, recK r0, n * fillSize r1 k, (o.reg (r + 2)).toInt⟩, false)]
      else [(⟨o.base r, n, fillRow r0 r1 k, (o.reg (r + 2)).toInt⟩, false)]
  | .bgather u r x =>
    let n := ((o.reg (r + 3)).extractLsb' 0 16).toNat
    let t := ((o.reg (r + 3)).extractLsb' 16 16).toNat
    let row := ((recordAt g ops u).map fun y => fillRow y.1 y.2 x).getD 0
    [(⟨o.base (r + 4), 1, 4 * n, 0⟩, false), (⟨o.base r, t, row, (o.reg (r + 2)).toInt⟩, false)]
  | .tld t r x =>
    match shapeAt g ops t with
    | none => [(noSpan, false)]
    | some (m, n) => [(⟨o.base r, m, n * moveSize x, (o.reg (r + 2)).toInt⟩, false)]
  | .tst t r x =>
    match shapeAt g ops t with
    | none => [(noSpan, true)]
    | some (m, n) => [(⟨o.base r, m, n * moveSize x, (o.reg (r + 2)).toInt⟩, true)]
  | .tcvtMemory t r _ _ =>
    match shapeAt g ops t with
    | none => [(noSpan, true)]
    | some (m, n) => [(⟨o.base r, m, n * cvtSize (o.reg (r + 3)), (o.reg (r + 2)).toInt⟩, true)]
  | _ => []

/-- The element size of a word's memory range (R220, R222, R230). -/
def opElem (g : Wg) (ops : List Op) (o : Op) : Nat :=
  match o.word with
  | .bfill u _ x => match recordAt g ops u with
    | some (_, r1) => if x.extractLsb' 0 2 = 0#2 && recFmt r1 = 2#3 then 4 else max 1 (fillSize r1 (x.extractLsb' 0 2))
    | none => 1
  | .bgather u _ x => match recordAt g ops u with
    | some (_, r1) => if x = 0#2 && recFmt r1 = 2#3 then 4 else max 1 (fillSize r1 x)
    | none => 1
  | .tld _ _ x => moveSize x
  | .tst _ _ x => moveSize x
  | .tcvtMemory _ r _ _ => cvtSize (o.reg (r + 3))
  | _ => 1

/-! ## What words depend on (R223, R235) -/

/-- The handles an engine word reads and writes: tiles, buffers, lineage tags. -/
structure Uses where
  tr : List (BitVec 4) := []
  tw : List (BitVec 4) := []
  br : List (BitVec 3) := []
  bw : List (BitVec 3) := []
  tags : List (BitVec 5) := []
deriving DecidableEq, Repr

/-- The handles of a word. `talloc`, `tfree`, `breserve` and `brelease` write theirs (R221). -/
def usesOf (i : Instr) : Uses :=
  match i with
  | .breserve u _ => { bw := [u] }
  | .brelease u => { bw := [u] }
  | .bfill u _ _ => { bw := [u] }
  | .bgather u _ _ => { bw := [u] }
  | .mma t a b _ _ _ _ => { tr := [t], tw := [t], br := [a, b] }
  | .mmaw t a b _ _ _ _ => { tr := [t, a.setWidth 4], tw := [t], br := [b] }
  | .talloc t _ => { tw := [t] }
  | .tfree t => { tw := [t] }
  | .tzero t => { tw := [t] }
  | .tld t _ _ => { tw := [t] }
  | .tst t _ _ => { tr := [t] }
  | .tpost t l => { tw := [t], tags := [l] }
  | .tfinal t => { tw := [t] }
  | .tsettle l _ => { tags := [l] }
  | .tcvtBuffer t u _ _ => { tr := [t], bw := [u] }
  | .tcvtMemory t _ _ _ => { tr := [t] }
  | .fred t _ => { tr := [t], tw := [t] }
  | .tadd t u _ => { tr := [t, u], tw := [t] }
  | .tsub t u _ => { tr := [t, u], tw := [t] }
  | .tneg t u _ => { tr := [u], tw := [t] }
  | .tshift t u _ _ => { tr := [u], tw := [t] }
  | .tmuli t u _ _ => { tr := [u], tw := [t] }
  | .trsum t u _ => { tr := [u], tw := [t] }
  | .tcsum t u _ => { tr := [u], tw := [t] }
  | .ttrans t u _ => { tr := [u], tw := [t] }
  | .tslice t u _ _ => { tr := [u], tw := [t] }
  | .tcopy t u _ => { tr := [u], tw := [t] }
  | _ => {}

/-- The tile an `mma` or `mmaw` accumulates into. -/
def mmaTarget (i : Instr) : Option (BitVec 4) :=
  match i with
  | .mma t _ _ _ _ _ _ => some t
  | .mmaw t _ _ _ _ _ _ => some t
  | _ => none

/-- The source tile of a linear word of R229, with its destination, its l field and its r field. -/
def linearOf (i : Instr) : Option (BitVec 4 × BitVec 4 × BitVec 5 × Option (BitVec 5)) :=
  match i with
  | .tadd t u l => some (t, u, l, none)
  | .tsub t u l => some (t, u, l, none)
  | .tneg t u l => some (t, u, l, none)
  | .tshift t u l r => some (t, u, l, some r)
  | .tmuli t u l r => some (t, u, l, some r)
  | .trsum t u l => some (t, u, l, none)
  | .tcsum t u l => some (t, u, l, none)
  | .ttrans t u l => some (t, u, l, none)
  | .tslice t u l r => some (t, u, l, some r)
  | .tcopy t u l => some (t, u, l, none)
  | _ => none

/-- An `mmaw` is linear in its wide source (R227). -/
def Wg.linearMmaw (g : Wg) (t a : BitVec 4) (b : BitVec 3) : Bool :=
  match g.tile t, g.tile a, g.buffer b with
  | some x, some y, some z => x.exp.toInt ≤ y.exp.toInt + z.leastExp
  | _, _, _ => false

/-- A word reads a tile only as a linear source. -/
def Wg.linearRead (g : Wg) (i : Instr) (t : BitVec 4) : Bool :=
  match i with
  | .mmaw x a b _ _ _ _ => a.setWidth 4 = t && x ≠ t && g.linearMmaw x (a.setWidth 4) b
  | _ => match linearOf i with
    | some (x, u, _, _) => u = t && x ≠ t
    | none => false

/-- A word into a Provisional root, an `mma` or its `tfinal`, and a linear reader of the root leave each other's order open
(R235, R316). -/
def Wg.unordered (g : Wg) (e o : Instr) (t : BitVec 4) : Bool :=
  g.linearRead o t && (mmaTarget e = some t || e = .tfinal t) &&
    ((g.tile t).map fun x => decide (x.state = .provisional)).getD false

/-- A later word of the stream depends on an earlier one through the tiles, buffers and tags they name (R223, R235). Words
of one lineage tag keep their order too. -/
def Wg.orders (g : Wg) (e o : Instr) : Bool :=
  let a := usesOf e
  let b := usesOf o
  (a.tw.any fun t => (b.tr.contains t || b.tw.contains t) && !g.unordered e o t) ||
    (a.tr.any fun t => b.tw.contains t && !g.unordered o e t) ||
    (a.bw.any fun u => b.br.contains u || b.bw.contains u) || (a.br.any fun u => b.bw.contains u) ||
    (a.tags.any fun l => b.tags.contains l)

/-- The words before one in the queue. -/
def Drive.before (d : Drive) (o : Op) : List Op := d.ops.takeWhile fun x => x.id ≠ o.id

/-- The bytes that an engine word writes (`dst`) or reads, by their names (R224, R323). -/
def State.opKeys (s : State) (w : Nat) (g : Wg) (d : Drive) (o : Op) (dst : Bool) : List (Nat × Nat) :=
  ((opSpans g (d.before o) o).filter fun x => x.2 = dst).flatMap fun x => s.spanKeys w x.1

/-- A later word depends on an earlier one of its stream (R223): also where a `tst` or memory `tcvt` writes bytes that the
later word reads. -/
def State.depends (s : State) (w : Nat) (g : Wg) (d : Drive) (e o : Op) : Bool :=
  g.orders e.word o.word || runsMeet (s.opKeys w g d e true) (s.opKeys w g d o false)

/-! ## Contraction and linear words -/

/-- An infinity. -/
def FVal.isInf : FVal → Bool
  | .inf _ => true
  | _ => false

/-- Products summed into one cell (R226): the cell, and the status bits. `linear`: in an `mmaw` linear in its wide source
a product with an infinite element sets NV too (R227). -/
def accumulate (e : Int) (mode : BitVec 3) (linear : Bool) (c : WCell) (ps : List FVal) : WCell × Word :=
  ps.foldl (fun (c, f) x =>
    let (v, o) := roundToGrid x e mode
    let d := wideAdd c v o
    (d, f ||| flagIf (x.isNan || (linear && x.isInf)) flagNV ||| flagIf (o || (d.sov && !c.sov)) tileSov)) (c, 0)

/-- A contraction over K into cells of n columns: `src` gives the left operand (R226). -/
def contract (e : Int) (mode : BitVec 3) (linear : Bool) (n : Nat) (src : Nat → Nat → FVal) (b : Buffer) (cells : List WCell) :
    List WCell × Word :=
  let r := cells.zipIdx.map fun (c, i) =>
    accumulate e mode linear c ((List.range (recK b.rec0)).map fun k => ((src (i / n) k).mul (b.elem (i % n) k).1).1)
  (r.map (·.1), (r.map (·.2)).foldl (· ||| ·) 0 ||| b.fmtFlag)

/-- V × 2^e for one term; past 192 places the result saturates all the same. -/
def scaleInt (v : Int) (e : Int) : Int := v * 2 ^ (min e.toNat 192)

/-- The exact integer w of R229 for cell (i, j), and the OR of the sticky bits read. `old` is T(i, j). -/
def linearCell (w : Instr) (k : Word) (et : Int) (u : Tile) (old : WCell) (i j : Nat) : Int × Bool :=
  let sc : WCell → Int := fun c => c.v.toInt * 2 ^ (u.exp.toInt - et).toNat
  let one : WCell → Int × Bool := fun c => (sc c, c.sov)
  let sum : List WCell → Int × Bool := fun l => ((l.map sc).sum, sticky l)
  match w with
  | .tadd _ _ _ => (old.v.toInt + sc (u.cell i j), old.sov || (u.cell i j).sov)
  | .tsub _ _ _ => (old.v.toInt - sc (u.cell i j), old.sov || (u.cell i j).sov)
  | .tneg _ _ _ => (-sc (u.cell i j), (u.cell i j).sov)
  | .tshift _ _ _ _ => (scaleInt (u.cell i j).v.toInt (u.exp.toInt + k.toInt - et), (u.cell i j).sov)
  | .tmuli _ _ _ _ => (k.toInt * sc (u.cell i j), (u.cell i j).sov)
  | .trsum _ _ _ => sum ((List.range u.cols).map fun x => u.cell i x)
  | .tcsum _ _ _ => sum ((List.range u.rows).map fun x => u.cell x j)
  | .ttrans _ _ _ => one (u.cell j i)
  | .tslice _ _ _ _ => one (u.cell ((k.extractLsb' 0 16).toNat + i) ((k.extractLsb' 16 16).toNat + j))
  | _ => one (u.cell i j)

/-- A linear word applied to every cell of its destination (R229): the cells, and SOV where an overflow sets a bit. -/
def linearCells (w : Instr) (k : Word) (t u : Tile) (old : List WCell) : List WCell × Word :=
  let r := old.zipIdx.map fun (c, x) =>
    let (v, o) := linearCell w k t.exp.toInt u c (x / t.cols) (x % t.cols)
    (clampCell v o, flagIf (clampCell v false).sov tileSov)
  (r.map (·.1), (r.map (·.2)).foldl (· ||| ·) 0)

/-- Shapes and grids of a linear word (R229) are broken. -/
def linearBad (w : Instr) (k : Word) (t u : Tile) : Bool :=
  let grid : Bool := match w with
    | .tshift _ _ _ _ => t.exp.toInt ≤ u.exp.toInt + k.toInt
    | _ => t.exp.toInt ≤ u.exp.toInt
  let shape : Bool := match w with
    | .trsum _ _ _ => t.rows = u.rows && t.cols = 1
    | .tcsum _ _ _ => t.rows = 1 && t.cols = u.cols
    | .ttrans _ _ _ => t.rows = u.cols && t.cols = u.rows
    | .tslice _ _ _ _ => (k.extractLsb' 0 16).toNat + t.rows ≤ u.rows && (k.extractLsb' 16 16).toNat + t.cols ≤ u.cols
    | _ => t.rows = u.rows && t.cols = u.cols
  !(grid && shape)

/-- Cell by cell addition of a correction (R236). -/
def addCells (a b : List WCell) : List WCell :=
  a.zipWith (fun c d => clampCell (c.v.toInt + d.v.toInt) (c.sov || d.sov)) b

/-- An overflow in such an addition. -/
def addSov (a b : List WCell) : Word :=
  flagIf ((a.zip b).any fun (c, d) => (clampCell (c.v.toInt + d.v.toInt) false).sov) tileSov

/-! ## Provisional tiles (R231-R239) -/

/-- `LinearPart` of a log entry on the shadow of its source (R236). -/
def Wg.linearPart (g : Wg) (e : LogEntry) : List WCell × Word :=
  match g.tile e.t, g.tile e.u with
  | some t, some u =>
    let sh : Tile := { u with cells := u.shadow.getD [] }
    match e.buf with
    | some b => match g.buffer b with
      | some y => contract t.exp.toInt 0#3 true t.cols (fun i k => wideValue (sh.cell i k) u.exp.toInt) y (zeroCells t.cells.length)
      | none => (zeroCells t.cells.length, 0)
    | none => linearCells e.word e.dval t sh (zeroCells t.cells.length)
  | _, _ => ([], 0)

/-- A correction enters a tile and its shadow. -/
def Tile.correct (t : Tile) (d : List WCell) : Tile :=
  { t with cells := addCells t.cells d, shadow := t.shadow.map fun x => addCells x d }

/-- One log entry chased (R236). -/
def Wg.chaseEntry (g : Wg) (e : LogEntry) : Wg × Word :=
  let (d, f) := g.linearPart e
  match g.tile e.t with
  | some t => (g.setTile e.t (some (t.correct d)), f ||| addSov t.cells d)
  | none => (g, f)

/-- The tiles of a tag with their shadows zero again. -/
def Wg.clearShadows (g : Wg) (l : BitVec 5) : Wg :=
  { g with tiles := g.tiles.map fun x => x.map fun t =>
    if t.tag = some l then { t with shadow := t.shadow.map fun z => zeroCells z.length } else t }

/-- `Chase(l, C)` (R236): the workgroup, and the status bits of its additions. -/
def Wg.chase (g : Wg) (l : BitVec 5) (root : BitVec 4) (c : List WCell) : Wg × Word :=
  match g.tile root with
  | none => (g, 0)
  | some t =>
    let g1 := g.setTile root (some { t with cells := addCells t.cells c, shadow := some c })
    let (g2, f) := (g.log.filter fun e => e.tag = l).foldl (fun (g, f) e =>
      let (g, x) := g.chaseEntry e
      (g, f ||| x)) (g1, addSov t.cells c)
    (g2.clearShadows l, f)

/-- A buffer is pinned by an unsettled lineage (R236, R240). -/
def Wg.pinned (g : Wg) (u : BitVec 3) : Bool := g.log.any fun e => e.buf = some u

/-- The tag a tile carries. -/
def Wg.tagOf (g : Wg) (t : BitVec 4) : Option (BitVec 5) := (g.tile t).bind (·.tag)

/-- Units a new shadow for a tile would take. -/
def Wg.shadowNeed (g : Wg) (t : BitVec 4) : Nat :=
  match g.tile t with
  | some x => if x.shadow.isSome then 0 else tileUnits x.rows x.cols
  | none => 0

/-- A word in the queue accumulates into a tile. -/
def Op.targets (o : Op) (t : BitVec 4) : Bool := mmaTarget o.word = some t

/-- A lineage field of a linear word. -/
def lineageField (i : Instr) : Option (BitVec 5) :=
  match i with
  | .mmaw _ _ _ l _ _ _ => some l
  | _ => (linearOf i).map (·.2.2.1)

/-- The words of a queue that a tag governs: those before its `tsettle`, and before it is posted afresh. -/
def tagWords (l : BitVec 5) (ops : List Op) : List Op :=
  ops.takeWhile fun o => match o.word with
    | .tsettle x _ => x ≠ l
    | .tpost _ x => x ≠ l || o.running
    | _ => true

/-- Words queued that settlement leaves behind it: they wait for it themselves (R238), or for one that does. -/
def Wg.stuck (g : Wg) (i : Instr) (ts : List (BitVec 4)) : Bool :=
  let u := usesOf i
  match i with
  | .mma t _ _ _ _ _ z => z = 1#1 && ts.contains t
  | .mmaw t a b _ _ _ z => (z = 1#1 && ts.contains t) || (ts.contains (a.setWidth 4) && !g.linearMmaw t (a.setWidth 4) b)
  | .tadd _ _ _ => false
  | .tsub _ _ _ => false
  | .tpost _ _ => false
  | .tfinal _ => false
  | i => match linearOf i with
    | some (t, _, _, _) => ts.contains t
    | none => (u.tr ++ u.tw).any ts.contains || u.bw.any g.pinned

/-- A word queued is still to read a tile of the tag linearly, under its name (R236, R316): the tag does not settle before it.
`ts`: the tiles that carry the tag by then; `wait`: the words that wait for its settlement. -/
def Wg.awaits (g : Wg) (l : BitVec 5) : List (BitVec 4) → List Instr → List Op → Bool
  | _, _, [] => false
  | ts, wait, o :: rest =>
    if o.running then g.awaits l ts wait rest
    else if g.stuck o.word ts || wait.any (fun e => g.orders e o.word) then g.awaits l ts (o.word :: wait) rest
    else
      let reads := ts.any fun t => match o.word with
        | .mmaw _ a _ _ _ _ _ => a.setWidth 4 = t
        | i => ((linearOf i).map fun x => decide (x.2.1 = t)).getD false
      let room := g.log.length < 64 && (usesOf o.word).tw.all fun t => g.units + g.shadowNeed t ≤ 682
      if reads && room && lineageField o.word = some l then true else g.awaits l ts wait rest

/-- Settlement of a tag, if its conditions hold (R234). -/
def Wg.settle (g : Wg) (l : BitVec 5) : Wg :=
  match (g.lineage[l.toNat]?).join with
  | none => g
  | some u =>
    let ops := (g.drive.map (·.ops)).getD []
    let mine := tagWords l ops
    let tiles := (List.range 16).filterMap fun k => let t := BitVec.ofNat 4 k; if g.tagOf t = some l then some t else none
    if !(((g.tile u.root).map fun t => decide (t.state = .final ∧ t.tag = some l)).getD false) || ops.any (·.targets u.root) ||
        g.awaits l tiles [] mine then g
    else
      let st : Word := if g.tiles.any fun x => (x.map fun t => decide (t.tag = some l) && sticky t.cells).getD false then 1 else 0
      let open_ := (ops.takeWhile fun o => match o.word with
        | .tpost _ x => x ≠ l || o.running
        | _ => true).map (·.id)
      { g with
        tiles := g.tiles.map fun x => x.map fun t =>
          if t.tag = some l then { t with state := .plain, tag := none, shadow := none } else t
        log := g.log.filter fun e => e.tag ≠ l
        lineage := g.lineage.set l.toNat none
        drive := g.drive.map fun d => { d with ops := d.ops.map fun o => match o.word with
          | .tsettle x _ => if x = l && o.settled.isNone && open_.contains o.id then { o with settled := some st } else o
          | _ => o } }

/-- Settlement of every tag whose conditions hold. -/
def Wg.settleAll (g : Wg) : Wg := (List.range 32).foldl (fun g l => g.settle (BitVec.ofNat 5 l)) g

/-- Some tag with log entries has a Final root, earlier `tfinal`s of the stream counted (R239). -/
def Wg.canSettle (g : Wg) (before : List Op) : Bool :=
  g.log.any fun e => match (g.lineage[e.tag.toNat]?).join with
    | some u => (((g.tile u.root).map fun t => decide (t.state = .final)).getD false) || before.any fun o => o.finals u.root
    | none => false

/-! ## Issue -/

/-- A word waits at issue for operand-buffer space or accumulator units (R219, R221): what it and the words queued ask
for does not fit, though it could. -/
def State.spaceHold (s : State) (w : Nat) (d : Drive) (i : Instr) : Bool :=
  match s.wgs[w]? with
  | none => false
  | some g =>
    let queued : (Op → Nat) → Nat := fun f => s.onCore g.core fun x => ((x.drive.map fun v => ((v.ops.filter fun o => !o.running).map f).sum).getD 0)
    match i with
    | .breserve _ r =>
      let n := recSize (d.reg r) (d.reg (r + 1))
      let q := queued fun o => match o.word with
        | .breserve _ y => recSize (o.reg y) (o.reg (y + 1))
        | _ => 0
      2 ^ 20 < n + s.onCore g.core Wg.bufferBytes + q &&
        (n + g.bufferBytes ≤ 2 ^ 20 || d.ops.any fun o => match o.word with
          | .brelease _ => true
          | _ => false)
    | .talloc _ r =>
      let size : Word → Nat := fun x => tileUnits (x.extractLsb' 0 16).toNat (x.extractLsb' 16 16).toNat
      let n := size (d.reg r)
      let q := queued fun o => match o.word with
        | .talloc _ y => size (o.reg y)
        | _ => 0
      682 < n + s.onCore g.core Wg.units + q &&
        (n + g.units ≤ 682 || d.ops.any fun o => match o.word with
          | .tfree _ => true
          | _ => false)
    | _ => false

/-- A tag is in use: from the issue of its `tpost` to its settlement (R232). -/
def Wg.used (g : Wg) (d : Drive) (l : BitVec 5) : Bool := ((g.lineage[l.toNat]?).join).isSome || d.ops.any fun o => o.posts l.toNat

/-- The word enters the queue (R223, R224, R246, R247): its lock entries are taken, a reduction it joins is registered, and
the stream goes on. -/
def State.enqueue (s : State) (w : Nat) (d : Drive) (i : Instr) (table : List (BitVec 16)) : State :=
  match s.wgs[w]? with
  | none => s
  | some g =>
    let id := s.nextId
    let done : Option Word := match i with
      | .tsettle l _ => if g.used d l then none else some 0
      | _ => none
    let o : Op := ⟨id, i, wordAddr d.pc, d.d, d.mode, d.iter, false, false, false, false, none, 0, done,
      s.originOf (.drive w)⟩
    let spans := opSpans g d.ops o
    let o : Op := { o with lost := spans.any fun x => s.touchesLost w x.1 }
    let ks := spans.map fun x => s.spanLock id x.2 w x.1
    let s : State := (s.fresh).lock g.core ks
    let s : State := spans.foldl (fun s x => s.lookRange w x.1.lo.toNat x.1.hi.toNat) s
    let s : State := match i with
      | .fred _ r => { s with reductions := s.reductions ++ [⟨(d.reg (r + 1)).extractLsb' 0 16, w, id, table, [], none⟩] }
      | _ => s
    s.updDrive w fun v => { v.advance 1 with ops := v.ops ++ [o] }

/-- The drive stream issues an engine word (R216, R217, R223, R224, R246, R257): it waits for a pending write to a
register it reads, faults where its registers break its entry, waits for a permit, for space and for lock entries, and
enters the queue. -/
def onEngine (i : Instr) (s : State) (rs : List (BitVec 5)) (bad : Drive → Option (BitVec 8)) : Out :=
  onDrive i s fun w d s =>
    if rs.any d.pendingWrite then s
    else match bad d with
      | some c => s.driveFaultHere w i c
      | none =>
        let need := match i with
          | .bfill _ _ _ | .tld _ _ _ | .tst _ _ _ | .tcvtMemory _ _ _ _ => 1
          | .bgather _ _ _ => 2
          | _ => 0
        if 32 ≤ d.ops.length || s.spaceHold w d i || s.locksFree (s.coreOf w) < need then s
        else s.enqueue w d i []

/-- n consecutive drive registers. -/
def regsFrom (r : BitVec 5) (n : Nat) : List (BitVec 5) := (List.range n).map fun k => r + BitVec.ofNat 5 k

/-- A cause where a test holds. -/
def causeIf (c : Bool) (x : BitVec 8) : Option (BitVec 8) := if c then some x else none

/-- A base or a stride in the registers is not a multiple of e. -/
def Drive.misaligned (d : Drive) (r : BitVec 5) (e : Nat) : Bool :=
  (d.addr r).toNat % e ≠ 0 || (d.reg (r + 2)).toInt % (e : Int) ≠ 0

/-- R219. -/
def execBreserve (u : BitVec 3) (r : BitVec 5) (s : State) : Out :=
  onEngine (.breserve u r) s (regsFrom r 2) fun d => causeIf (recBad (d.reg r) (d.reg (r + 1))) causeIllegal

/-- R219. -/
def execBrelease (u : BitVec 3) (s : State) : Out := onEngine (.brelease u) s [] fun _ => none

/-- R220. The alignment of a conversion's source is found at issue, that of a raw one when it executes. -/
def execBfill (u : BitVec 3) (r : BitVec 5) (x : BitVec 3) (s : State) : Out :=
  onEngine (.bfill u r x) s (regsFrom r 4) fun d =>
    (causeIf (pairBad (d.reg (r + 1)) || (d.reg (r + 3)).extractLsb' 16 16 = 0) causeIllegal).or
      (causeIf (x.extractLsb' 0 2 ≠ 0#2 && d.misaligned r (fillSize 0 (x.extractLsb' 0 2))) causeMisalign)

/-- R220. An index list whose address is not a multiple of 4 has cause MISALIGN, as the base and the stride (log 68). -/
def execBgather (u : BitVec 3) (r : BitVec 5) (x : BitVec 2) (s : State) : Out :=
  onEngine (.bgather u r x) s (regsFrom r 6) fun d =>
    (causeIf (pairBad (d.reg (r + 1)) || pairBad (d.reg (r + 5)) || (d.reg (r + 3)).extractLsb' 16 16 = 0 ||
      (d.reg (r + 3)).extractLsb' 0 16 = 0) causeIllegal).or
      (causeIf ((d.addr (r + 4)).toNat % 4 ≠ 0 || (x ≠ 0#2 && d.misaligned r (fillSize 0 x))) causeMisalign)

/-- R226. -/
def execMma (t : BitVec 4) (a b : BitVec 3) (l : BitVec 5) (m n : BitVec 2) (z : BitVec 1) (s : State) : Out :=
  onEngine (.mma t a b l m n z) s [] fun _ => none

/-- R226, R227. -/
def execMmaw (t : BitVec 4) (a b : BitVec 3) (l : BitVec 5) (m n : BitVec 2) (z : BitVec 1) (s : State) : Out :=
  onEngine (.mmaw t a b l m n z) s [] fun _ => none

/-- R221. -/
def execTalloc (t : BitVec 4) (r : BitVec 5) (s : State) : Out :=
  onEngine (.talloc t r) s (regsFrom r 2) fun d =>
    let rows := ((d.reg r).extractLsb' 0 16).toNat
    let cols := ((d.reg r).extractLsb' 16 16).toNat
    causeIf (rows = 0 || 256 < rows || cols = 0 || 1024 < cols || 32768 < rows * cols ||
      (d.reg (r + 1)).extractLsb' 10 22 ≠ 0) causeIllegal

/-- R221. -/
def execTfree (t : BitVec 4) (s : State) : Out := onEngine (.tfree t) s [] fun _ => none

/-- R221. -/
def execTzero (t : BitVec 4) (s : State) : Out := onEngine (.tzero t) s [] fun _ => none

/-- R222. -/
def execTld (t : BitVec 4) (r : BitVec 5) (x : BitVec 3) (s : State) : Out :=
  onEngine (.tld t r x) s (regsFrom r 3) fun d =>
    (causeIf (pairBad (d.reg (r + 1))) causeIllegal).or (causeIf (d.misaligned r (moveSize x)) causeMisalign)

/-- R222. -/
def execTst (t : BitVec 4) (r : BitVec 5) (x : BitVec 3) (s : State) : Out :=
  onEngine (.tst t r x) s (regsFrom r 3) fun d =>
    (causeIf (pairBad (d.reg (r + 1))) causeIllegal).or (causeIf (d.misaligned r (moveSize x)) causeMisalign)

/-- R232. -/
def execTpost (t : BitVec 4) (l : BitVec 5) (s : State) : Out := onEngine (.tpost t l) s [] fun _ => none

/-- R233. -/
def execTfinal (t : BitVec 4) (s : State) : Out := onEngine (.tfinal t) s [] fun _ => none

/-- R234: a tag whose root is Provisional at issue is a fault. -/
def execTsettle (l r : BitVec 5) (s : State) : Out :=
  onEngine (.tsettle l r) s [r] fun d =>
    match s.issuer with
    | some (.drive w) => causeIf (((s.wgs[w]?).map fun g => g.openRoot d l.toNat).getD false) causeIllegal
    | _ => none

/-- R230. -/
def execTcvtBuffer (t : BitVec 4) (u : BitVec 3) (n z : BitVec 1) (s : State) : Out :=
  onEngine (.tcvtBuffer t u n z) s [] fun _ => none

/-- R230. -/
def execTcvtMemory (t : BitVec 4) (r : BitVec 5) (n z : BitVec 1) (s : State) : Out :=
  onEngine (.tcvtMemory t r n z) s (regsFrom r 4) fun d =>
    let f := d.reg (r + 3)
    (causeIf (pairBad (d.reg (r + 1)) || 5 < f.toNat || f = 2#32 || (n = 1#1 && f ≠ 0)) causeIllegal).or
      (causeIf (d.misaligned r (cvtSize f)) causeMisalign)

/-- R229. -/
def execTadd (t u : BitVec 4) (l : BitVec 5) (s : State) : Out := onEngine (.tadd t u l) s [] fun _ => none
/-- R229. -/
def execTsub (t u : BitVec 4) (l : BitVec 5) (s : State) : Out := onEngine (.tsub t u l) s [] fun _ => none
/-- R229. -/
def execTneg (t u : BitVec 4) (l : BitVec 5) (s : State) : Out := onEngine (.tneg t u l) s [] fun _ => none
/-- R229. -/
def execTshift (t u : BitVec 4) (l r : BitVec 5) (s : State) : Out := onEngine (.tshift t u l r) s [r] fun _ => none
/-- R229. -/
def execTmuli (t u : BitVec 4) (l r : BitVec 5) (s : State) : Out := onEngine (.tmuli t u l r) s [r] fun _ => none
/-- R229. -/
def execTrsum (t u : BitVec 4) (l : BitVec 5) (s : State) : Out := onEngine (.trsum t u l) s [] fun _ => none
/-- R229. -/
def execTcsum (t u : BitVec 4) (l : BitVec 5) (s : State) : Out := onEngine (.tcsum t u l) s [] fun _ => none
/-- R229. -/
def execTtrans (t u : BitVec 4) (l : BitVec 5) (s : State) : Out := onEngine (.ttrans t u l) s [] fun _ => none
/-- R229. -/
def execTslice (t u : BitVec 4) (l r : BitVec 5) (s : State) : Out := onEngine (.tslice t u l r) s [r] fun _ => none
/-- R229. -/
def execTcopy (t u : BitVec 4) (l : BitVec 5) (s : State) : Out := onEngine (.tcopy t u l) s [] fun _ => none

/-- What reading the table of a `fred` descriptor meets (R398). -/
def State.fredVerdict (s : State) (w base n : Nat) : Verdict :=
  if 2 ^ 57 < base + 2 * n then .fault else s.judgeAll w false ((List.range n).map fun k => base + 2 * k)

/-! ## Cells across the links (R400) -/

/-- The least width in which an integer is a two's-complement number; 0 for zero. -/
def cellWidth (v : Int) : Nat := if v = 0 then 0 else if 0 < v then Nat.log2 v.toNat + 2 else if v = -1 then 1 else Nat.log2 (-v - 1).toNat + 2

/-- The width of a unit: the least that holds each of its cells. -/
def unitWidth (cs : List WCell) : Nat := (cs.map fun c => cellWidth c.v.toInt).foldl max 0

/-- Numbers of b bits packed, the first lowest. -/
def packBits (b : Nat) : List Nat → Nat
  | [] => 0
  | x :: t => x % 2 ^ b + 2 ^ b * packBits b t

/-- n numbers of b bits unpacked. -/
def unpackBits (b : Nat) : Nat → Nat → List Nat
  | 0, _ => []
  | n + 1, x => x % 2 ^ b :: unpackBits b n (x / 2 ^ b)

/-- A unit of 64 cells as it is sent: its head, the mask where a sticky bit is set, the cells. -/
def packUnit (cs : List WCell) : List Byte :=
  let b := unitWidth cs
  let m := sticky cs
  BitVec.ofNat 8 (b + if m then 128 else 0) ::
    ((if m then toBytes 8 (packBits 1 (cs.map fun c => if c.sov then 1 else 0)) else []) ++
      toBytes (8 * b) (packBits b (cs.map fun c => c.v.toNat)))

/-- Units of 64 cells, the last padded with zero cells; the number bounds them. -/
def packUnits : Nat → List WCell → List Byte
  | 0, _ => []
  | n + 1, cs => packUnit ((cs ++ zeroCells 64).take 64) ++ packUnits n (cs.drop 64)

/-- A tile's cells as they are sent. -/
def packCells (cs : List WCell) : List Byte := packUnits ((cs.length + 63) / 64) cs

/-- A cell from its b bits, sign-extended. -/
def cellOfBits (b : Nat) (x : Nat) (sov : Bool) : WCell :=
  ⟨BitVec.ofInt 96 (if 2 ^ b ≤ 2 * x then (x : Int) - 2 ^ b else x), sov⟩

/-- A unit received, and the bytes behind it; none where it is no unit. -/
def unpackUnit (bs : List Byte) : Option (List WCell × List Byte) :=
  match bs with
  | [] => none
  | h :: t =>
    let b := h.toNat % 128
    let k := if 128 ≤ h.toNat then 8 else 0
    if 96 < b || t.length < k + 8 * b then none
    else
      let xs := unpackBits b 64 (ofBytes ((t.drop k).take (8 * b)))
      let ms := unpackBits 1 64 (ofBytes (t.take k))
      some ((xs.zip ms).map fun y => cellOfBits b y.1 (y.2 = 1), t.drop (k + 8 * b))

/-- Units received. -/
def unpackUnits : Nat → List Byte → Option (List WCell)
  | 0, bs => if bs.isEmpty then some [] else none
  | n + 1, bs => match unpackUnit bs with
    | some (cs, rest) => (unpackUnits n rest).map (cs ++ ·)
    | none => none

/-- The n cells of a tile received. -/
def unpackCells (n : Nat) (bs : List Byte) : Option (List WCell) := (unpackUnits ((n + 63) / 64) bs).map (·.take n)

/-- The table of a `fred` descriptor. -/
def State.fredTable (s : State) (w base n : Nat) : List (BitVec 16) :=
  (List.range n).map fun k => BitVec.ofNat 16 (ofBytes (s.readAt w (base + 2 * k) 2))

/-- R398, R399: the checks of issue, against the registers and the table; a page of the table that is not resident parks the
stream (R342). -/
def execFred (t : BitVec 4) (r : BitVec 5) (s : State) : Out :=
  onDrive (.fred t r) s fun w d s =>
    if (regsFrom r 4).any d.pendingWrite then s
    else
      let d0 := d.reg r
      let n := (d0.extractLsb' 16 12).toNat + 1
      let rank := (d0.extractLsb' 0 12).toNat
      let group := (d.reg (r + 1)).extractLsb' 0 16
      let base := (d.addr (r + 2)).toNat
      if d0.extractLsb' 28 4 ≠ 0 || d0.extractLsb' 12 4 ≠ 0 || n < 2 || n ≤ rank || (d.reg (r + 1)).extractLsb' 16 16 ≠ 0 ||
          group = 0 || pairBad (d.reg (r + 3)) || base % 2 ≠ 0 then s.driveFaultHere w (.fred t r) causeIllegal
      else match s.fredVerdict w base n with
        | .absent va st => match s.parkAccess w va st (.drive w) 0#2 1#4 0 with
          | some s => s.updDrive w fun d => { d with park := .page }
          | none => s
        | .ok =>
          let tbl := s.fredTable w base n
          if tbl.getD rank 0 ≠ s.fabricNo.setWidth 16 || s.reductions.any (fun x => x.group = group && x.wg ≠ w) then
            s.driveFaultHere w (.fred t r) causeIllegal
          else if 32 ≤ d.ops.length then s
          else (s.lookRange w base (base + 2 * n)).enqueue w d (.fred t r) tbl
        | _ => s.driveFaultHere w (.fred t r) causeAccess

/-! ## Execution -/

/-- What execution of a queued word comes to: it waits, it is a drive fault (R217), or it has begun. -/
inductive Start where
  | wait
  | fault (cause : BitVec 8)
  | run (g : Wg) (o : Op)

/-- Rows and columns of the contraction codes (R226). -/
def mmaRows (m : BitVec 2) : Nat := if m = 0#2 then 16 else if m = 1#2 then 32 else if m = 2#2 then 64 else 128
def mmaCols (n : BitVec 2) : Nat := 64 * (n.toNat + 1)

/-- The formats of an `mma` (R226). -/
def formatsOk (a b : BitVec 3) : Bool := (a ≤ 1#3 && b ≤ 1#3) || a = b

/-- The l field holds the tag a tile carries, or 0 (R243). -/
def lineageOk (l : BitVec 5) (tag : Option (BitVec 5)) : Bool := l = tag.getD 0#5

/-- An `mma` or `mmaw` past its checks accumulates: into its tile, or as a correction of a Provisional root (R226,
R235). -/
def Wg.accumulateInto (g : Wg) (o : Op) (t : BitVec 4) (x : Tile) (z linear : Bool) (src : Nat → Nat → FVal) (b : Buffer)
    (more : Word) : Wg × Op :=
  if x.state = .provisional then
    let (c, f) := contract x.exp.toInt o.mode linear x.cols src b (zeroCells x.cells.length)
    (g, { o with correction := some c, flags := f ||| more })
  else
    let (c, f) := contract x.exp.toInt o.mode linear x.cols src b (if z then zeroCells x.cells.length else x.cells)
    (g.setTile t (some { x with cells := c }), { o with flags := f ||| more })

/-- An `mma` executes (R226, R235, R238, R243). -/
def Wg.startMma (g : Wg) (o : Op) (t : BitVec 4) (a b : BitVec 3) (l : BitVec 5) (m n : BitVec 2) (z : BitVec 1) : Start :=
  match g.tile t, g.buffer a, g.buffer b with
  | some x, some p, some q =>
    if x.rows ≠ mmaRows m || x.cols ≠ mmaCols n || recRows p.rec0 ≠ mmaRows m || recRows q.rec0 ≠ mmaCols n ||
        recK p.rec0 ≠ recK q.rec0 || !formatsOk (recFmt p.rec1) (recFmt q.rec1) || x.state = .final ||
        (x.state = .provisional && z = 1#1) then .fault causeIllegal
    else if z = 1#1 && x.tag.isSome then .wait
    else if !lineageOk l x.tag then .fault causeIllegal
    else
      let (g, o) := g.accumulateInto o t x (z = 1#1) false (fun i k => (p.elem i k).1) q p.fmtFlag
      .run g o
  | _, _, _ => .fault causeIllegal

/-- What appending a log entry comes to. -/
inductive Logged where
  | wait
  | fault
  | go (g : Wg)

/-- Log and shadow of a word whose read-only source carries a tag (R236, R239): it waits, faults, or the entry is
appended and its destination tagged. -/
def Wg.logWord (g : Wg) (used : Nat) (before : List Op) (e : LogEntry) : Logged :=
  if 64 ≤ g.log.length || 682 < used + g.shadowNeed e.t then (if g.canSettle before then .wait else .fault)
  else
    match g.tile e.t with
    | none => .fault
    | some x =>
      let x : Tile := { x with
        tag := some e.tag
        state := if x.state = .plain then .derived else x.state
        shadow := some (x.shadow.getD (zeroCells x.cells.length)) }
      .go { g.setTile e.t (some x) with log := g.log ++ [e] }

/-- A linear word executes (R229, R236, R238, R239); its lineage field is checked once it need not wait (R243). -/
def Wg.startLinear (g : Wg) (used : Nat) (before : List Op) (o : Op) (t u : BitVec 4) (l : BitVec 5)
    (r : Option (BitVec 5)) : Start :=
  let k : Word := (r.map o.reg).getD 0
  match g.tile t, g.tile u with
  | some x, some y =>
    if linearBad o.word k x y then .fault causeIllegal
    else
      let reads : Bool := match o.word with
        | .tadd _ _ _ => true
        | .tsub _ _ _ => true
        | _ => false
      if x.tag.isSome && (!reads || (y.tag.isSome && y.tag ≠ x.tag)) then .wait
      else
        let (c, f) := linearCells o.word k x y x.cells
        let o : Op := { o with flags := f }
        let ok := lineageOk l (y.tag.or x.tag)
        match y.tag with
        | none => if ok then .run (g.setTile t (some { x with cells := c })) o else .fault causeIllegal
        | some tag =>
          match g.logWord used before ⟨o.word, t, u, k, none, tag⟩ with
          | .go g =>
            if ok then .run (g.setTile t ((g.tile t).map fun x => { x with cells := c })) o else .fault causeIllegal
          | .wait => .wait
          | .fault => .fault causeIllegal
  | _, _ => .fault causeIllegal

/-- An `mmaw` executes (R226, R227, R235-R239, R243). Where it accumulates into the tile that it reads its operand from, the
products read the tile's cells as they stood before the word (DESIGN CHOICE, log 84). -/
def Wg.startMmaw (g : Wg) (used : Nat) (before : List Op) (o : Op) (t a : BitVec 4) (b : BitVec 3) (l : BitVec 5)
    (m n : BitVec 2) (z : BitVec 1) : Start :=
  match g.tile t, g.tile a, g.buffer b with
  | some x, some y, some q =>
    let linear := g.linearMmaw t a b
    if x.rows ≠ mmaRows m || x.cols ≠ mmaCols n || y.rows ≠ mmaRows m || recK q.rec0 ≠ y.cols ||
        recRows q.rec0 ≠ mmaCols n || x.state = .final || (x.state = .provisional && z = 1#1) then .fault causeIllegal
    else if (z = 1#1 && x.tag.isSome) || (y.tag.isSome && !linear) ||
        (y.tag.isSome && x.tag.isSome && y.tag ≠ x.tag) then .wait
    else
      let ok := lineageOk l (y.tag.or x.tag)
      let go : Wg → Start := fun g => match g.tile t with
        | some x =>
          if !ok then .fault causeIllegal else
          let cell := fun i k => if z = 1#1 && t = a then zeroCell else y.cell i k
          let (g, o) := g.accumulateInto o t x (z = 1#1) linear (fun i k => wideValue (cell i k) y.exp.toInt) q 0
          .run g o
        | none => .fault causeIllegal
      match y.tag with
      | none => go g
      | some tag =>
        match g.logWord used before ⟨o.word, t, a, 0, some b, tag⟩ with
        | .go g => go g
        | .wait => .wait
        | .fault => .fault causeIllegal
  | _, _, _ => .fault causeIllegal

/-- A narrowing of a cell (R230): the element, and its status bits. -/
def cvtCell (e : Int) (off : Int) (fmt : Fmt) (mode : BitVec 3) (nan relu : Bool) (c : WCell) : Nat × Word :=
  let v := if relu && c.v.toInt < 0 then FVal.fin false 0 0 else wideValue c e
  let r := fmt.roundVal mode nan (v.scaleBy (-off))
  (r.bits, r.flags ||| flagIf c.sov flagWOV)

/-- `tcvt` into a buffer executes (R230, R238). -/
def Wg.startTcvt (g : Wg) (o : Op) (t : BitVec 4) (u : BitVec 3) (nan relu : BitVec 1) : Start :=
  match g.tile t, g.buffer u with
  | some x, some b =>
    if recRows b.rec0 ≠ x.rows || recK b.rec0 ≠ x.cols || recFmt b.rec1 = 2#3 || b.rec1.extractLsb' 3 2 ≠ 0 ||
        (nan = 1#1 && recFmt b.rec1 ≠ 0#3) then .fault causeIllegal
    else if x.tag.isSome || g.pinned u then .wait
    else
      let n := halfBytes (recFmt b.rec1) / 2
      let r := x.cells.map fun c => cvtCell x.exp.toInt (recOff b.rec1) (fmtOf (recFmt b.rec1)) o.mode (nan = 1#1) (relu = 1#1) c
      let data := (List.range x.rows).map fun i => ((r.drop (i * x.cols)).take x.cols).flatMap fun y => toBytes n y.1
      .run (g.setBuffer u (some { b with data := data })) { o with flags := (r.map (·.2)).foldl (· ||| ·) 0 }
  | _, _ => .fault causeIllegal

/-- A range that starts in an allocation of a pool, its own or another's, and runs past its end (R224). -/
def State.pastAny (s : State) (w : Nat) (x : Span) : Bool :=
  match s.place w x.lo.toNat with
  | .pool y off => ((s.allocAt y off).map fun a => decide (a.base + a.size < off + (x.hi - x.lo).toNat)).getD false
  | _ => false

/-- The memory conditions of an engine word, found when it executes (R217, R220, R222, R224). A range that touches a lost
allocation ends LOST even where it also leaves its allocation or has an address with no mapping (DESIGN CHOICE, log 83). -/
def State.rangeFault (s : State) (w : Nat) (g : Wg) (before : List Op) (o : Op) : Option (BitVec 8) :=
  let spans := opSpans g before o
  let x := (spans.getLast?).getD (noSpan, false)
  if x.1.misaligned (opElem g before o) then some causeMisalign
  else if spans.any fun x => x.1.outside then some causeAccess
  else if o.lost || o.dark then none
  else if spans.any fun x => s.leavesPool w x.1 then some causeAccess
  else if spans.any fun x => s.pastAny w x.1 then some causeRange
  else none

/-- A fill's buffer conditions (R220). -/
def Wg.fillBad (g : Wg) (o : Op) : Bool :=
  match o.word with
  | .bfill u r x => match g.buffer u with
    | some b =>
      let first := ((o.reg (r + 3)).extractLsb' 0 16).toNat
      let n := ((o.reg (r + 3)).extractLsb' 16 16).toNat
      recRows b.rec0 < first + n || (recFmt b.rec1 = 2#3 && (x.getLsbD 2 || x.extractLsb' 0 2 ≠ 0))
    | none => true
  | .bgather u r x => match g.buffer u with
    | some b => recRows b.rec0 < ((o.reg (r + 3)).extractLsb' 0 16).toNat || (recFmt b.rec1 = 2#3 && x ≠ 0)
    | none => true
  | _ => false

/-- A memory word executes past its handle's conditions: its range is judged, and the transfer is under way. -/
def State.startMemory (s : State) (w : Nat) (g : Wg) (before : List Op) (o : Op) : Start :=
  match s.rangeFault w g before o with
  | some c => .fault c
  | none => .run g o

/-- Execution of a queued word (R217, R221, R223, R238-R240). -/
def State.start (s : State) (w : Nat) (g : Wg) (d : Drive) (o : Op) : Start :=
  let before := d.before o
  let used := s.onCore g.core Wg.units
  let tagged : BitVec 4 → Bool := fun t => (g.tagOf t).isSome
  match o.word with
  | .breserve u r =>
    let n := recSize (o.reg r) (o.reg (r + 1))
    let frees := before.any fun x => match x.word with
      | .brelease _ => true
      | _ => false
    if (g.buffer u).isSome then .fault causeIllegal
    else if 2 ^ 20 < n + g.bufferBytes then (if frees then .wait else .fault causeIllegal)
    else if 2 ^ 20 < n + s.onCore g.core Wg.bufferBytes then .wait
    else .run (g.setBuffer u (some (freshBuffer s.draw (o.reg r) (o.reg (r + 1))))) o
  | .brelease u =>
    if (g.buffer u).isNone then .fault causeIllegal
    else if g.pinned u then .wait
    else .run (g.setBuffer u none) o
  | .bfill u _ _ =>
    if g.fillBad o then .fault causeIllegal else if g.pinned u then .wait else s.startMemory w g before o
  | .bgather u _ _ =>
    if g.fillBad o then .fault causeIllegal else if g.pinned u then .wait else s.startMemory w g before o
  | .mma t a b l m n z => g.startMma o t a b l m n z
  | .mmaw t a b l m n z => g.startMmaw used before o t (a.setWidth 4) b l m n z
  | .talloc t r =>
    let rows := ((o.reg r).extractLsb' 0 16).toNat
    let cols := ((o.reg r).extractLsb' 16 16).toNat
    let n := tileUnits rows cols
    let frees := before.any fun x => match x.word with
      | .tfree _ => true
      | _ => false
    if (g.tile t).isSome then .fault causeIllegal
    else if 682 < n + g.units then (if frees then .wait else .fault causeIllegal)
    else if 682 < n + used then .wait
    else .run (g.setTile t (some ⟨rows, cols, (o.reg (r + 1)).extractLsb' 0 10, zeroCells (rows * cols), .plain, none, none⟩)) o
  | .tfree t => if (g.tile t).isNone then .fault causeIllegal else if tagged t then .wait else .run (g.setTile t none) o
  | .tzero t =>
    match g.tile t with
    | none => .fault causeIllegal
    | some x => if x.tag.isSome then .wait else .run (g.setTile t (some { x with cells := zeroCells x.cells.length })) o
  | .tld t _ _ =>
    if (g.tile t).isNone then .fault causeIllegal else if tagged t then .wait else s.startMemory w g before o
  | .tst t _ _ =>
    if (g.tile t).isNone then .fault causeIllegal else if tagged t then .wait else s.startMemory w g before o
  | .tpost t l =>
    match g.tile t with
    | none => .fault causeIllegal
    | some x =>
      if x.tag.isSome || ((g.lineage[l.toNat]?).join).isSome then .fault causeIllegal
      else if 682 < used + g.shadowNeed t then (if g.canSettle before then .wait else .fault causeIllegal)
      else
        let x : Tile := { x with state := .provisional, tag := some l, shadow := some (zeroCells x.cells.length) }
        .run { g.setTile t (some x) with lineage := g.lineage.set l.toNat (some ⟨t⟩) } o
  | .tfinal t =>
    match g.tile t with
    | none => .fault causeIllegal
    | some x => if x.state ≠ .provisional then .fault causeIllegal else .run (g.setTile t (some { x with state := .final })) o
  | .tsettle _ _ => if o.settled.isSome then .run g o else .wait
  | .tcvtBuffer t u n z => g.startTcvt o t u n z
  | .tcvtMemory t _ _ _ =>
    if (g.tile t).isNone then .fault causeIllegal else if tagged t then .wait else s.startMemory w g before o
  | .fred t _ => if (g.tile t).isNone then .fault causeIllegal else if tagged t then .wait else .run g o
  | i => match linearOf i with
    | some (t, u, l, r) => g.startLinear used before o t u l r
    | none => .fault causeIllegal

/-- A `fred` that takes part sends its cells to the other members' modules (R393, R399, R400). -/
def State.fredSend (s : State) (g : Wg) (o : Op) : State :=
  match o.word with
  | .fred t _ =>
    let units := packCells (((g.tile t).map (·.cells)).getD [])
    (s.reductions.filter fun r => r.op = o.id).foldl
      (fun s r => (s.partners r).foldl (fun s m => s.sendFlit m 2#8 (.reduce r.group units)) s)
      ({ s with reductions := s.reductions.map fun r => if r.op = o.id then { r with sent := units } else r } : State)
  | _ => s

/-- The k-th queued word of a drive stream begins (R223), if nothing it depends on is before it. -/
def State.engineExecute (s : State) (w k : Nat) : Option State :=
  match s.wgs[w]? with
  | none => none
  | some g =>
    match g.drive with
    | none => none
    | some d =>
      match d.ops[k]? with
      | none => none
      | some o =>
        if o.running || g.state ≠ .resident || (d.before o).any (fun e => s.depends w g d e o) then none
        else match s.start w g d o with
          | .wait => none
          | .fault c => some (s.driveFault w o.addr (wordOf o.word) c)
          | .run g o =>
            let o : Op := { o with running := true }
            let s : State := s.fredSend g o
            some (s.updWg w fun _ => { g with drive := g.drive.map fun d =>
              { d with ops := d.ops.map fun x => if x.id = o.id then o else x } })

/-- ENGINE_OP_EXECUTE (R217, R223). -/
def execEngineOpExecute (w k : Nat) (s : State) : Out :=
  match s.engineExecute w k with
  | some s => .next s
  | none => .fault .stepNotEnabled

/-! ## Completion -/

/-- The elements an engine word reads or writes, each with its size and direction; of a gather the rows whose indices can be
read. -/
def State.opElems (s : State) (w : Nat) (g : Wg) (o : Op) : List Nat × Nat × Bool :=
  match o.word with
  | .bgather _ r _ =>
    match opSpans g [] o with
    | [ix, tb] =>
      let t := ((o.reg (r + 3)).extractLsb' 16 16).toNat
      let is := ix.1.elems 4
      (is ++ (is.filterMap fun a =>
        let v := ofBytes (s.readAt w a 4)
        if s.judge w a false = .ok && v < t then some v else none).flatMap fun v =>
          ({ tb.1 with base := (tb.1.addr v 0).toNat, rows := 1 } : Span).elems 1, 1, false)
    | _ => ([], 1, false)
  | _ =>
    match opSpans g [] o with
    | [x] =>
      let e := match o.word with
        | .bfill _ _ _ => 1
        | _ => opElem g [] o
      (x.1.elems e, e, x.2)
    | _ => ([], 1, false)

/-- The element of a fill from its source bytes (R220): the stored bytes, and the flags. -/
def fillElem (r1 : Word) (kind : BitVec 2) (mode : BitVec 3) (bs : List Byte) : List Byte × Word :=
  if kind = 0#2 then (bs, 0)
  else
    let v := (if kind = 1#2 then fp32 else bf16).decode (ofBytes bs)
    let r := (fmtOf (recFmt r1)).roundVal mode false (v.scaleBy (-recOff r1))
    (toBytes (halfBytes (recFmt r1) / 2) r.bits, r.flags ||| flagIf v.isNan flagNV)

/-- FMT of a raw IO4 row (R71, R220). -/
def rawFmt (r0 r1 : Word) (bs : List Byte) : Word :=
  flagIf (recFmt r1 = 2#3 && (List.range (recK r0 / 8)).any fun k =>
    (decodeIO4 (BitVec.ofNat 32 (ofBytes ((bs.drop (4 * k)).take 4))) 0).2) flagFMT

/-- One row read by a fill without `.t`. -/
def State.fillRowAt (s : State) (w : Nat) (r0 r1 : Word) (kind : BitVec 2) (mode : BitVec 3) (a : Nat) : List Byte × Word :=
  if kind = 0#2 then
    let bs := (List.range (rawBytes r0 r1)).flatMap fun k => s.readAt w (a + k) 1
    (bs, rawFmt r0 r1 bs)
  else
    let es := (List.range (recK r0)).map fun k => fillElem r1 kind mode (s.readAt w (a + k * fillSize r1 kind) (fillSize r1 kind))
    (es.flatMap (·.1), (es.map (·.2)).foldl (· ||| ·) 0)

/-- One row read by a fill with `.t`. -/
def State.fillRowT (s : State) (w : Nat) (r0 r1 : Word) (kind : BitVec 2) (mode : BitVec 3) (x : Span) (i : Nat) : List Byte × Word :=
  let e := fillSize r1 kind
  let es := (List.range (recK r0)).map fun k => fillElem r1 kind mode (s.readAt w (x.addr k (i * e)).toNat e)
  (es.flatMap (·.1), (es.map (·.2)).foldl (· ||| ·) 0)

/-- The rows a fill would write, from the first, with the status bits (R220). -/
def State.fillData (s : State) (w : Nat) (g : Wg) (o : Op) : Nat × List (List Byte) × Word :=
  let join : List (List Byte × Word) → List (List Byte) × Word := fun l => (l.map (·.1), (l.map (·.2)).foldl (· ||| ·) 0)
  match o.word, opSpans g [] o with
  | .bfill u r x, [sp] =>
    match g.buffer u with
    | some b =>
      let n := ((o.reg (r + 3)).extractLsb' 16 16).toNat
      let k := x.extractLsb' 0 2
      (((o.reg (r + 3)).extractLsb' 0 16).toNat, join ((List.range n).map fun i =>
        if x.getLsbD 2 then s.fillRowT w b.rec0 b.rec1 k o.mode sp.1 i
        else s.fillRowAt w b.rec0 b.rec1 k o.mode (sp.1.addr i 0).toNat))
    | none => (0, [], 0)
  | .bgather u r x, [ix, tb] =>
    match g.buffer u with
    | some b =>
      let t := ((o.reg (r + 3)).extractLsb' 16 16).toNat
      (0, join ((ix.1.elems 4).map fun a =>
        let v := ofBytes (s.readAt w a 4)
        if v < t then s.fillRowAt w b.rec0 b.rec1 x o.mode (tb.1.addr v 0).toNat
        else (List.replicate (rawBytes b.rec0 b.rec1) 0, tileIdx)))
    | none => (0, [], 0)
  | _, _ => (0, [], 0)

/-- What LOST leaves of a row: element by element its earlier value, its new value or zero (R224; log 9). Of the block-offset
bytes of a row in per-block mode the two halves are left apart, as elements are (DESIGN CHOICE, log 83). -/
def leftRow (draw row : Nat) (fmt : BitVec 3) (old new : List Byte) : List Byte :=
  let pick : Nat → Nat → Nat → Nat := fun k a b =>
    let c := Config.leftover draw (row * 2 ^ 16 + k)
    if c % 3 = 0 then a else if c % 3 = 1 then b else 0
  (List.range old.length).map fun k =>
    let a := (old.getD k 0).toNat
    let b := (new.getD k 0).toNat
    if fmt = 2#3 then BitVec.ofNat 8 (pick (2 * k) (a % 16) (b % 16) + 16 * pick (2 * k + 1) (a / 16) (b / 16))
    else BitVec.ofNat 8 (pick (k / (halfBytes fmt / 2)) a b)

/-- A fill completes. `part`: it ends with LOST, leaving a part. -/
def State.finishFill (s : State) (w : Nat) (g : Wg) (o : Op) (u : BitVec 3) (part : Bool) : State :=
  match g.buffer u with
  | none => s
  | some b =>
    let (first, rows, f) := s.fillData w g o
    let data := b.data.zipIdx.map fun (old, i) =>
      if first ≤ i then (match rows[i - first]? with
        | some new => if part then leftRow s.draw i (recFmt b.rec1) old new else new
        | none => old)
      else old
    s.updWg w fun g => { g.setBuffer u (some { b with data := data }) with tstat := g.tstat ||| (if part then tileLost else f) }

/-- The cell `tld` forms from the bytes at its element (R222), and SOV. -/
def loadCell (x : BitVec 3) (e : Int) (mode : BitVec 3) (bs : List Byte) : WCell × Word :=
  let n := ofBytes bs
  if x = 0#3 then (cellOfNat n, flagIf (cellOfNat n).sov tileSov)
  else
    let v := if x = 1#3 then fp32.decode n else valOfInt (BitVec.ofNat 32 n).toInt 0
    let (k, o) := roundToGrid v e mode
    let c := wideAdd zeroCell k o
    (c, flagIf c.sov tileSov)

/-- The bytes `tst` forms from a cell (R222), and the status bits. -/
def storeCell (x : BitVec 3) (e : Int) (mode : BitVec 3) (c : WCell) : List Byte × Word :=
  if x = 0#3 then (toBytes 16 (natOfCell c), 0)
  else if x = 1#3 then
    let r := fp32.roundVal mode false (wideValue c e)
    (toBytes 4 r.bits, r.flags ||| flagIf c.sov flagWOV)
  else
    let r := intResult (wideValue c e) mode (-2147483648) 2147483647
    (toBytes 4 r.1.toNat, r.2 ||| flagIf c.sov flagWOV)

/-- `tld` completes (R222, R224). -/
def State.finishLoadTile (s : State) (w : Nat) (g : Wg) (o : Op) (t : BitVec 4) (x : BitVec 3) (part : Bool) : State :=
  match g.tile t, opSpans g [] o with
  | some tl, [sp] =>
    let new := (sp.1.elems (moveSize x)).map fun a => loadCell x tl.exp.toInt o.mode (s.readAt w a (moveSize x))
    let cells := if part then (tl.cells.zip (new.map (·.1))).zipIdx.map fun ((a, b), k) =>
        let c := Config.leftover s.draw k
        if c % 3 = 0 then a else if c % 3 = 1 then b else zeroCell
      else new.map (·.1)
    s.updWg w fun g => { g.setTile t (some { tl with cells := cells }) with
      tstat := g.tstat ||| (if part then tileLost else (new.map (·.2)).foldl (· ||| ·) 0) }
  | _, _ => s

/-- The elements a `tst` or memory `tcvt` writes, with the status bits (R222, R230). -/
def storeElems (g : Wg) (o : Op) : List (List Byte) × Word :=
  let join : List (List Byte × Word) → List (List Byte) × Word := fun l => (l.map (·.1), (l.map (·.2)).foldl (· ||| ·) 0)
  match o.word with
  | .tst t _ x => match g.tile t with
    | some tl => join (tl.cells.map fun c => storeCell x tl.exp.toInt o.mode c)
    | none => ([], 0)
  | .tcvtMemory t r n z => match g.tile t with
    | some tl =>
      let f := o.reg (r + 3)
      join (tl.cells.map fun c =>
        let y := cvtCell tl.exp.toInt 0 (fmtOf (f.extractLsb' 0 3)) o.mode (n = 1#1) (z = 1#1) c
        (toBytes (cvtSize f) y.1, y.2))
    | none => ([], 0)
  | _ => ([], 0)

/-- `tst` or a memory `tcvt` completes (R222, R224, R230, R381). -/
def State.finishStore (s : State) (w : Nat) (g : Wg) (o : Op) (part : Bool) : State :=
  match opSpans g [] o with
  | [sp] =>
    let e := opElem g [] o
    let (bs, f) := storeElems g o
    let addrs := sp.1.elems e
    let s : State := (addrs.zip bs).foldl (fun s (a, b) =>
      if part then s.leaveIn (.drive w) w o.id o.origin (s.place w a) a (some b) true e
      else s.writeIn (.drive w) w o.id o.origin (s.place w a) a b) s
    let s : State := s.watchEngine (s.coreOf w) w ((List.range sp.1.rows).map fun i => ((sp.1.addr i 0).toNat, sp.1.len)) 0 true false
    s.updWg w fun g => { g with tstat := g.tstat ||| (if part then tileLost else f) }
  | _ => s

/-- What a `tst` or memory `tcvt` whose workgroup has ended had begun to write (R45, R224; log 9). -/
def State.leaveOp (s : State) (w : Nat) (g : Wg) (o : Op) : State :=
  match opSpans g [] o with
  | [(sp, true)] =>
    let e := opElem g [] o
    ((sp.elems e).zip (storeElems g o).1).foldl (fun s (a, b) => s.leaveIn (.drive w) w o.id o.origin (s.place w a) a (some b) false e) s
  | _ => s

/-- A memory word's transfer, judged good or lost. -/
def State.transfer (s : State) (w : Nat) (g : Wg) (o : Op) (part : Bool) : State :=
  match o.word with
  | .bfill u _ _ => s.finishFill w g o u part
  | .bgather u _ _ => s.finishFill w g o u part
  | .tld t _ x => s.finishLoadTile w g o t x part
  | _ => s.finishStore w g o part

/-- The word leaves the queue: its permit returns and the tiles counter falls, its lock entries are released, tags that
may settle do, and arrivals that waited for it count (R223, R224, R234, R279). -/
def State.retireOp (s : State) (w : Nat) (o : Op) : State :=
  ((s.unlock o.id).updWg w fun g =>
    let g : Wg := { g with drive := g.drive.map fun d => { d with ops := d.ops.filter fun x => x.id ≠ o.id } }
    g.settleAll).settleDue w

/-- What the completion of a running word does (R223-R236, R399); none while it waits. -/
def State.finishOp (s : State) (w : Nat) (g : Wg) (o : Op) : Option State :=
  let status : Word → State → State := fun f s => s.updWg w fun g => { g with tstat := g.tstat ||| f }
  match o.word with
  | .bfill _ _ _ | .bgather _ _ _ | .tld _ _ _ | .tst _ _ _ | .tcvtMemory _ _ _ _ =>
    if o.lost then some ((status tileLost s).retireOp w o)
    else
      let (as, _, wr) := s.opElems w g o
      match s.judgeAll w wr as with
      | .fault => some (s.driveFault w o.addr (wordOf o.word) causeAccess)
      | .absent va st =>
        if o.dark then some ((s.transfer w g o true).retireOp w o)
        else (s.parkAccess w va st (.op w o.id) (if wr then 1#2 else 0#2) 3#4 0).map fun s =>
          s.updDrive w fun d => { d with ops := d.ops.map fun x => if x.id = o.id then { x with parked := true } else x }
      | .lost => some ((s.transfer w g o true).retireOp w o)
      | .ok => some ((s.transfer w g o o.dark).retireOp w o)
  | .tsettle _ r => some ((s.updDrive w fun d => d.setReg r (o.settled.getD 0)).retireOp w o)
  | .fred t _ =>
    match (s.reductions.find? fun x => x.op = o.id).bind (·.result) with
    | none => none
    | some cells =>
      let s : State := { s with reductions := s.reductions.filter fun x => x.op ≠ o.id }
      let s : State := s.updWg w fun g => g.setTile t ((g.tile t).map fun x => { x with cells := cells })
      some ((status (flagIf (sticky cells) tileSov) s).retireOp w o)
  | _ =>
    match o.correction, mmaTarget o.word with
    | some c, some t =>
      match g.tagOf t with
      | some l =>
        let (g, f) := g.chase l t c
        some ((status (o.flags ||| f) (s.updWg w fun _ => g)).retireOp w o)
      | none => some ((status o.flags s).retireOp w o)
    | _, _ => some ((status o.flags s).retireOp w o)

/-- The k-th queued word of a drive stream completes. -/
def State.engineComplete (s : State) (w k : Nat) : Option State :=
  match s.wgs[w]? with
  | none => none
  | some g =>
    match (g.drive.bind fun d => d.ops[k]?) with
    | none => none
    | some o => if !o.running || o.parked || g.state ≠ .resident then none else s.finishOp w g o

/-- ENGINE_OP_COMPLETE (R223). -/
def execEngineOpComplete (w k : Nat) (s : State) : Out :=
  match s.engineComplete w k with
  | some s => .next s
  | none => .fault .stepNotEnabled

/-! ## Reductions (R399) -/

/-- One member's part of a reduction. -/
structure Part where
  exp : BitVec 10
  mode : BitVec 3
  cells : List WCell

/-- The cells a reduction leaves on the member whose exponent is given (R399). -/
def reduceCells (e : BitVec 10) (parts : List Part) : List WCell :=
  let eg : Int := match parts.map fun p => p.exp.toInt with
    | [] => 0
    | x :: t => t.foldl max x
  let n := ((parts.head?).map fun p => p.cells.length).getD 0
  (List.range n).map fun c =>
    let vs := parts.map fun p =>
      let x := p.cells.getD c zeroCell
      let (v, o) := roundToGrid (wideValue x p.exp.toInt) eg p.mode
      (v, o || x.sov)
    clampCell ((vs.map (·.1)).sum * 2 ^ (eg - e.toInt).toNat) (vs.any (·.2))

/-- FRED_REDUCTION_BEGIN (R399, R400): the other members' parts arrive in their compressed form; n, tables or shapes that
differ are a drive fault. -/
def State.fredBegin (s : State) (group : Nat) (others : List FredMember) : Option State :=
  match s.reductions.find? fun x => x.group.toNat = group && x.result.isNone with
  | none => none
  | some x =>
    match s.wgs[x.wg]? with
    | none => none
    | some g =>
      match g.drive.bind fun d => d.ops.find? fun o => o.id = x.op with
      | none => none
      | some o =>
        match o.word with
        | .fred t r =>
          match g.tile t with
          | none => none
          | some tl =>
            let n := ((o.reg r).extractLsb' 16 12).toNat + 1
            let rank := ((o.reg r).extractLsb' 0 12).toNat
            if !o.running || others.length + 1 ≠ n || !(decide (rank :: others.map (·.rank)).Nodup) ||
                others.any (fun m => n ≤ m.rank) then none
            else if others.any fun m => m.n ≠ n || m.table ≠ x.table || m.rows ≠ tl.rows || m.cols ≠ tl.cols then
              some (s.driveFault x.wg o.addr (wordOf o.word) causeIllegal)
            else if others.any fun m => (unpackCells tl.cells.length m.units).isNone then none
            else
              let parts : List Part := ⟨tl.exp, o.mode, tl.cells⟩ ::
                others.map fun m => ⟨m.exp, m.mode, (unpackCells tl.cells.length m.units).getD []⟩
              some { s with reductions := s.reductions.map fun y =>
                if y.op = x.op then { y with result := some (reduceCells tl.exp parts) } else y }
        | _ => none

/-- FRED_REDUCTION_BEGIN. -/
def execFredReductionBegin (group : Nat) (others : List FredMember) (s : State) : Out :=
  match s.fredBegin group others with
  | some s => .next s
  | none => .fault .stepNotEnabled

end Sys2Proof.Machine
end

