-- ==== Sys2Proof/Machine/Scratch.lean ====
section
/-! DEFINITION. Scratch: the bank budget, arrays and banks (R193-R195, R199, R203), darkening and its loss points
(R208, R209), placement (R198) and the scratchpad words (R200-R207, R210-R213), in-field tests (R369) and array errors
(R214). -/

namespace Sys2Proof.Machine

/-! ## Arrays and the budget -/

/-- Arrays retired. -/
def Core.retired (c : Core) : Nat := (c.arrays.filter fun a => a = .retired).length

/-- An array is lit. -/
def ArrayState.isLit (a : ArrayState) : Bool :=
  match a with
  | .lit _ => true
  | _ => false

/-- An array is under test. -/
def ArrayState.isTesting (a : ArrayState) : Bool :=
  match a with
  | .testing _ => true
  | _ => false

/-- The bank an array holds, if lit. -/
def ArrayState.bank? (a : ArrayState) : Option Nat :=
  match a with
  | .lit b => some b
  | _ => none

/-- Arrays lit. -/
def Core.litCount (c : Core) : Nat := (c.arrays.filter ArrayState.isLit).length

/-- Arrays lit or under test for a bank: what step 1 of R199 counts. -/
def Core.taken (c : Core) : Nat := (c.arrays.filter fun a => a.isLit || a.isTesting).length

/-- B (R194, R206, R361). -/
def Core.budget (c : Core) : Nat := (clampInt (64 + 2 * (c.scol : Int) + c.offset) 0 ((192 - c.retired : Nat) : Int)).toNat

/-- The workgroup whose pool holds a bank of a core. -/
def State.poolOwner (s : State) (core bank : Nat) : Option Nat :=
  s.wgs.findIdx? fun g => g.core = core && g.resident && g.poolFirst ≤ bank && bank < g.poolFirst + g.poolBanks

/-- An allocation occupies byte range [lo, hi) of its pool. -/
def Alloc.touches (a : Alloc) (lo hi : Nat) : Bool := a.base < hi && lo < a.base + a.size

/-- What the threads of a workgroup wait to have lit. -/
def State.lightings (s : State) (w : Nat) : List (Nat × Lighting) :=
  (s.threadsOf w).filterMap fun i => match s.threads[i]? with
    | some th => match th.park with
      | .array p => some (i, p)
      | _ => none
    | none => none

/-- The places that parked `salloc`s of a workgroup have chosen (R198). -/
def State.plans (s : State) (w : Nat) : List (Nat × Nat × Nat) :=
  (s.lightings w).filterMap fun x => if x.2.fresh then some (x.2.base, x.2.size, x.2.rank.toNat) else none

/-- The ranges taken in a pool, with their ranks: allocations, lost ones included, and chosen places. -/
def State.taken (s : State) (w : Nat) : List (Nat × Nat × Nat) :=
  ((((s.wgs[w]?).map (·.allocs)).getD []).map fun a => (a.base, a.size, a.rank.toNat)) ++ s.plans w

/-- The ranks of what a bank of a pool holds; the bank numbered within the pool. -/
def State.ranksIn (s : State) (w bank : Nat) : List Nat :=
  (s.taken w).filterMap fun x => if x.1 < (bank + 1) * 65536 && bank * 65536 < x.1 + x.2.1 then some x.2.2 else none

/-- The rank of a bank of a core (R196). -/
def State.bankRank (s : State) (core bank : Nat) : Nat :=
  match s.poolOwner core bank with
  | some w => match s.wgs[w]? with
    | some g => (s.ranksIn w (bank - g.poolFirst)).foldl max 0
    | none => 0
  | none => 0

/-- The victim of R203: a lit bank of the lowest rank, the highest number among equals; never rank 7. -/
def State.victim (s : State) (core : Nat) : Option (Nat × Nat) :=
  let lit := (((s.cores[core]?).map (·.arrays)).getD []).filterMap ArrayState.bank?
  (lit.map fun b => (s.bankRank core b, b)).foldl (fun (best : Option (Nat × Nat)) x =>
    if 7 ≤ x.1 then best
    else match best with
      | none => some x
      | some y => if x.1 < y.1 || (x.1 = y.1 && y.2 < x.2) then some x else best) none

/-- An array of a core changed. -/
def State.setArray (s : State) (core k : Nat) (a : ArrayState) : State :=
  s.updCore core fun c => { c with arrays := c.arrays.set k a }

/-- A lock entry of a holder, of a source or of a destination, lies in the bank at a physical address, by the names of its
bytes. -/
def State.lockedIn (s : State) (holder lo : Nat) (dst : Bool) : Bool :=
  let k := s.keyOf lo
  s.cores.zipIdx.any fun (c, core) => c.locks.any fun x =>
    x.holder = holder && x.dst = dst && runsMeet (s.lockRuns core x) [(k, k + 65536)]

/-- The array of a bank powers down: its contents are gone (R193, R200). -/
def State.powerDown (s : State) (core bank : Nat) : State :=
  let lo := 2 ^ 50 + core * 2 ^ 24 + bank * 65536
  let s : State := s.updCore core fun c => { c with arrays := c.arrays.map fun a => if a = .lit bank then .free else a }
  { s with mem := memClear s.mem lo (lo + 65536) }

/-- A copy in flight whose sides touch a bank that darkens: of a multicast copy a destination, by its member (R209,
R328). -/
def State.darkCopy (s : State) (owner : Option Nat) (lo : Nat) (c : Copy) : Copy :=
  let src := c.inFlight && s.lockedIn c.id lo false
  let dst := c.inFlight && s.lockedIn c.id lo true
  if c.cast.isNone then { c with dark := c.dark || src || dst }
  else { c with dark := c.dark || src, darkIn := if dst then owner.toList ++ c.darkIn else c.darkIn }

/-- A bank darkens (R208, R209): every allocation in it is lost, engine operations that touch it will end LOST, its
array powers down. -/
def State.darken (s : State) (core bank : Nat) : State :=
  let lo := 2 ^ 50 + core * 2 ^ 24 + bank * 65536
  let owner := s.poolOwner core bank
  let s : State := match owner with
    | some w => s.updWg w fun g =>
        let b := (bank - g.poolFirst) * 65536
        let f : Alloc → Alloc := fun a => if a.touches b (b + 65536) then { a with lost := true } else a
        { g with allocs := g.allocs.map f }
    | none => s
  let hit := fun id => s.lockedIn id lo false || s.lockedIn id lo true
  let s : State := { s with
    copies := s.copies.map (s.darkCopy owner lo)
    wgs := s.wgs.map fun g => { g with drive := g.drive.map fun d =>
      { d with ops := d.ops.map fun o => if hit o.id then { o with dark := true } else o } } }
  s.powerDown core bank

/-- Banks darken until the lit arrays fit B; the first number bounds the victims (R194). -/
def State.fitFrom (s : State) (core : Nat) : Nat → State
  | 0 => s
  | n + 1 => match s.cores[core]? with
    | none => s
    | some c =>
      if c.litCount ≤ c.budget then s
      else match s.victim core with
        | some v => (s.darken core v.2).fitFrom core n
        | none => s.notify (.shortfall core)

/-- R194: after any change of B. -/
def State.fitBudget (s : State) (core : Nat) : State := s.fitFrom core 193

/-- R199 for one bank of a core: an array starts its test. None: no array. -/
def State.obtainArray (s : State) (core bank rank : Nat) : Option State :=
  match s.cores[core]? with
  | none => none
  | some c =>
    if c.taken < c.budget then (c.arrays.findIdx? fun a => a = .free).map fun k => s.setArray core k (.testing bank)
    else match s.victim core with
      | some (r, b) =>
        if r < rank then (c.arrays.findIdx? fun a => a = .lit b).map fun k => (s.darken core b).setArray core k (.testing bank)
        else none
      | none => none

/-- R199 for several banks, in order. -/
def State.obtainAll (s : State) (core rank : Nat) : List Nat → Option State
  | [] => some s
  | b :: t => match s.obtainArray core b rank with
    | some s => s.obtainAll core rank t
    | none => none

/-- What failed obtaining leaves: victims stay dark, arrays taken for the request return (R199, R207). -/
def State.obtainSome (s : State) (core rank : Nat) : List Nat → State
  | [] => s
  | b :: t => match s.obtainArray core b rank with
    | some s => s.obtainSome core rank t
    | none => s

/-- A bank of a core is lit. -/
def State.bankLit (s : State) (core bank : Nat) : Bool := ((s.cores[core]?).map fun c => c.arrays.contains (.lit bank)).getD false

/-- An array is under test for a bank of a core. -/
def State.bankTesting (s : State) (core bank : Nat) : Bool :=
  ((s.cores[core]?).map fun c => c.arrays.contains (.testing bank)).getD false

/-- Arrays of banks of a core are released, dark at once (R200). -/
def State.releaseBanks (s : State) (core : Nat) (bs : List Nat) : State :=
  bs.foldl (fun s b => (s.powerDown core b).updCore core fun c =>
    { c with arrays := c.arrays.map fun a => if a = .testing b then .free else a }) s

/-! ## Placement (R198) -/

/-- The lowest free 32-byte-aligned run of a size in a bank of a pool. -/
def State.runIn (s : State) (w bank size : Nat) : Option Nat :=
  ((List.range 2048).map fun k => bank * 65536 + 32 * k).find? fun o =>
    o + size ≤ (bank + 1) * 65536 && (s.taken w).all fun x => o + size ≤ x.1 || x.1 + x.2.1 ≤ o

/-- The place of an allocation of a size and rank in a pool. -/
def State.placeAlloc (s : State) (w size rank : Nat) : Option Nat :=
  match s.wgs[w]? with
  | none => none
  | some g =>
    let banks := List.range g.poolBanks
    let lit := fun b => s.bankLit g.core (g.poolFirst + b)
    if size < 65536 then
      (banks.findSome? fun b => if lit b && !(s.ranksIn w b).isEmpty && (s.ranksIn w b).all (· = rank) then s.runIn w b size else none).or
      (((banks.find? fun b => (s.ranksIn w b).isEmpty).map (· * 65536)).or
      (banks.findSome? fun b => if lit b then s.runIn w b size else none))
    else
      let n := (size + 65535) / 65536
      (banks.find? fun b => b + n ≤ g.poolBanks && (List.range n).all fun j => (s.ranksIn w (b + j)).isEmpty).map (· * 65536)

/-- The banks of a core that a range of a pool occupies. -/
def State.banksOf (s : State) (w base size : Nat) : List Nat :=
  (List.range ((base + size + 65535) / 65536 - base / 65536)).map fun k =>
    (((s.wgs[w]?).map (·.poolFirst)).getD 0) + base / 65536 + k

/-! ## salloc (R202) -/

/-- A descriptor breaks the table of R202. -/
def sallocBad (size r : Word) (h : BitVec 64) : Bool :=
  size.toNat < 32 || 12582912 < size.toNat || size.toNat % 32 ≠ 0 || r.extractLsb' 3 29 ≠ 0 || r = 0 ||
    h.extractLsb' 57 7 ≠ 0 || h.extractLsb' 0 2 ≠ 0 || (h = 0 && r ≠ 7)

/-- The virtual address of a place in a workgroup's pool. -/
def State.poolVa (s : State) (w base : Nat) : BitVec 64 := (s.poolBase w + BitVec.ofNat 57 base).setWidth 64

/-- A pair result: an address, or a status with bit 63 set. -/
def statusPair (n : Nat) : BitVec 64 := (0x80000000 : Word) ++ BitVec.ofNat 32 n

/-- A bank of a core is one that a waiting thread of a workgroup has asked to have lit. -/
def State.wantedBank (s : State) (w b : Nat) : Bool := (s.lightings w).any fun x => x.2.want.contains b

/-- The allocation comes to be for a thread, its bytes zero, lost where a bank of it has darkened since its test (R202,
R362). -/
def State.allocate (s : State) (k w : Nat) (p : Lighting) : State :=
  let a := s.poolPhys w p.base
  let lost := (s.banksOf w p.base p.size).any fun b => !s.bankLit (s.coreOf w) b
  (s.zero (.thread k) a (a + p.size)).updWg w fun g => { g with allocs := g.allocs ++ [⟨p.base, p.size, p.rank, p.handler, lost⟩] }

/-- The lost mark of a relit allocation is cleared; it is lost again at once where a bank has darkened (R207, R362). -/
def State.clearLost (s : State) (w : Nat) (p : Lighting) : State :=
  let lost := (s.banksOf w p.base p.size).any fun b => !s.bankLit (s.coreOf w) b
  s.updWg w fun g => { g with allocs := g.allocs.map fun a => if a.base = p.base then { a with lost := lost } else a }

/-- A `salloc` or `srelight` succeeds. -/
def State.lightDone (s : State) (k w : Nat) (p : Lighting) : State :=
  if p.fresh then
    (s.allocate k w p).updThread k fun th => (th.setPair p.d (s.poolVa w p.base)).advance 1
  else (s.clearLost w p).updThread k fun th => (th.setReg p.d 0).advance 1

/-- Of the banks that were dark when a request began, those that hold no allocation still standing and that no other
request has asked for: what its failure darkens again. -/
def State.onlyLost (s : State) (w : Nat) (p : Lighting) : List Nat :=
  match s.wgs[w]? with
  | none => []
  | some g => p.want.filter fun b =>
      let lo := (b - g.poolFirst) * 65536
      (g.allocs.all fun x => !x.touches lo (lo + 65536) || x.lost) && !s.wantedBank w b

/-- A `salloc` or `srelight` fails for want of an array: status 2, and what it alone has lit is dark again (R199, R207;
log 71). -/
def State.lightFail (s : State) (k w : Nat) (p : Lighting) : State :=
  let s : State := s.updThread k fun th =>
    (if p.fresh then th.setPair p.d (statusPair 2) else th.setReg p.d 2).advance 1
  s.releaseBanks (s.coreOf w) (s.onlyLost w p)

/-- A request seeks arrays for the banks given, and waits for their tests (R199). An array that other requests hold under
test is not to be had: a `srelight` past its test of status 1 that finds no other answers status 2 though no test has failed
(DESIGN CHOICE, log 82). -/
def State.lightSeek (s : State) (k w : Nat) (p : Lighting) (need : List Nat) : State :=
  let core := s.coreOf w
  let s : State := s.updThread k fun th => { th with park := .array p }
  match s.obtainAll core p.rank.toNat need with
  | some s => s
  | none => (s.obtainSome core p.rank.toNat need).lightFail k w p

/-- A request begins (R199, R202, R207): with every bank lit it succeeds at once. -/
def State.lightBegin (s : State) (k w : Nat) (p : Lighting) : State :=
  let core := s.coreOf w
  let dark := (s.banksOf w p.base p.size).filter fun b => !s.bankLit core b
  if dark.isEmpty then s.lightDone k w p
  else s.lightSeek k w { p with want := dark, left := dark } (dark.filter fun b => !s.bankTesting core b)

/-- What issuing `salloc` asks. -/
def sallocIssue (g : BitVec 3) (d a : BitVec 7) : Issue :=
  ⟨even d && quad a, pair d ++ quadOf a, g, 1, true, g ++ 0xF0#8 ++ d ++ a ++ 0#7⟩

/-- R202. The places that `salloc`s waiting for an array test have chosen count among the 64 allocations (DESIGN CHOICE,
log 82). -/
def execSalloc (g : BitVec 3) (d a : BitVec 7) (s : State) : Out :=
  onIssue (sallocIssue g d a) s fun k th s =>
    let size := th.reg a
    let r := th.reg (a + 1)
    let h := th.pair (a + 2)
    match th.park with
    | .array _ => s
    | _ =>
      if sallocBad size r h then s.illegalWord k (sallocIssue g d a).word
      else if 64 ≤ (s.taken th.wg).length then s.updThread k fun th => (th.setPair d (statusPair 3)).advance 1
      else match s.placeAlloc th.wg size.toNat r.toNat with
        | none => s.updThread k fun th => (th.setPair d (statusPair 1)).advance 1
        | some base => s.lightBegin k th.wg ⟨true, d, base, size.toNat, r.extractLsb' 0 3, h, [], []⟩

/-! ## sfree, srelight, sret (R204, R207, R212) -/

/-- The allocation of a workgroup whose base an address is. -/
def State.allocOf (s : State) (w : Nat) (va : BitVec 64) : Option Alloc :=
  (s.wgs[w]?).bind fun g => g.allocs.find? fun a => s.poolVa w a.base = va

/-- A range-lock entry of the core names a byte of an allocation. -/
def State.allocLocked (s : State) (w : Nat) (a : Alloc) : Bool :=
  s.locked (s.coreOf w) (poolKey w a.base) (poolKey w (a.base + a.size)) true

/-- Threads that wait in `srelight` for an allocation that is freed issue the word again (log 71). -/
def State.wakeRelight (s : State) (w base : Nat) : State :=
  (s.lightings w).foldl (fun s x =>
    if !x.2.fresh && x.2.base = base then s.updThread x.1 fun th => { th with park := .none } else s) s

/-- What issuing `sfree` asks. -/
def sfreeIssue (g : BitVec 3) (a : BitVec 7) : Issue := ⟨even a, pair a, g, 1, true, g ++ 0xF1#8 ++ 0#7 ++ a ++ 0#7⟩

/-- R200, R204. -/
def execSfree (g : BitVec 3) (a : BitVec 7) (s : State) : Out :=
  onIssue (sfreeIssue g a) s fun k th s =>
    match s.allocOf th.wg (th.pair a) with
    | none => s.illegalWord k (sfreeIssue g a).word
    | some x =>
      if s.allocLocked th.wg x then s.illegalWord k (sfreeIssue g a).word
      else
        let core := s.coreOf th.wg
        let s : State := s.updWg th.wg fun g => { g with allocs := g.allocs.filter fun y => y.base ≠ x.base }
        let s : State := s.wakeRelight th.wg x.base
        let empty := (s.banksOf th.wg x.base x.size).filter fun b => (s.bankRank core b = 0 : Bool)
        ((s.releaseBanks core empty).releaseHandler th.wg x.base).updThread k fun th => th.advance 1

/-- Lit banks of a core of a rank or above, other than those given (R207). -/
def State.rankedLit (s : State) (core rank : Nat) (own : List Nat) : Nat :=
  ((((s.cores[core]?).map (·.arrays)).getD []).filter fun a => match a with
    | .lit b => rank ≤ s.bankRank core b && !own.contains b
    | _ => false).length

/-- What issuing `srelight` asks. -/
def srelightIssue (g : BitVec 3) (d a : BitVec 7) : Issue := ⟨even a, d :: pair a, g, 1, true, g ++ 0xF2#8 ++ d ++ a ++ 0#7⟩

/-- R207. -/
def execSrelight (g : BitVec 3) (d a : BitVec 7) (s : State) : Out :=
  onIssue (srelightIssue g d a) s fun k th s =>
    match th.park with
    | .array _ => s
    | _ =>
      match s.allocOf th.wg (th.pair a) with
      | none => s.illegalWord k (srelightIssue g d a).word
      | some x =>
        let core := s.coreOf th.wg
        let banks := s.banksOf th.wg x.base x.size
        let n := (banks.filter fun b => !s.bankLit core b).length
        let b := ((s.cores[core]?).map Core.budget).getD 0
        if !x.lost then s.updThread k fun th => (th.setReg d 0).advance 1
        else if b < s.rankedLit core x.rank.toNat banks + n then s.updThread k fun th => (th.setReg d 1).advance 1
        else s.lightBegin k th.wg ⟨false, d, x.base, x.size, x.rank, x.handler, [], []⟩

/-- What issuing `sret` asks. -/
def sretIssue (g : BitVec 3) : Issue := ⟨true, [], g, 1, true, g ++ 0xF3#8 ++ 0#21⟩

/-- R212. -/
def execSret (g : BitVec 3) (s : State) : Out :=
  onIssue (sretIssue g) s fun k th s =>
    match th.loss with
    | none => s.illegalWord k (sretIssue g).word
    | some e =>
      (s.updThread k fun th => { th with loss := none, pc := e.resume, recheck := e.resume.idx ≠ 0, park := .none,
                                         unmatched := false }).releaseHandler th.wg e.alloc

/-! ## sinfo and bdgt (R205, R206) -/

/-- What issuing `sinfo.alloc` asks. -/
def sinfoAllocIssue (g : BitVec 3) (d a : BitVec 7) : Issue :=
  ⟨quad d && even a, quadOf d ++ pair a, g, 1, false, g ++ 0xF4#8 ++ d ++ a ++ 0#7⟩

/-- A quad written. -/
def Thread.setQuad (th : Thread) (d : BitVec 7) (a b c e : Word) : Thread :=
  (((th.setReg d a).setReg (d + 1) b).setReg (d + 2) c).setReg (d + 3) e

/-- R205. -/
def execSinfoAlloc (g : BitVec 3) (d a : BitVec 7) (s : State) : Out :=
  onIssue (sinfoAllocIssue g d a) s fun k th s =>
    match s.allocOf th.wg (th.pair a) with
    | none => s.illegalWord k (sinfoAllocIssue g d a).word
    | some x =>
      let bs := s.banksOf th.wg x.base x.size
      let w1 : Word := BitVec.ofNat 16 (bs.headD 0) ++ BitVec.ofNat 8 bs.length ++ 0#3 ++ (if x.lost then 1#1 else 0#1) ++ 0#1 ++ x.rank
      s.updThread k fun th =>
        (th.setQuad d (BitVec.ofNat 32 x.size) w1 (x.handler.extractLsb' 0 32) (x.handler.extractLsb' 32 32)).advance 1

/-- What issuing `sinfo.entry` asks. -/
def sinfoEntryIssue (g : BitVec 3) (d : BitVec 7) : Issue := ⟨quad d, quadOf d, g, 1, false, g ++ 0xF4#8 ++ d ++ 1#14⟩

/-- R205. -/
def execSinfoEntry (g : BitVec 3) (d : BitVec 7) (s : State) : Out :=
  onIssue (sinfoEntryIssue g d) s fun k th s =>
    match th.loss with
    | none => s.illegalWord k (sinfoEntryIssue g d).word
    | some e =>
      let b := s.poolVa th.wg e.alloc
      s.updThread k fun th =>
        (th.setQuad d (b.extractLsb' 0 32) (b.extractLsb' 32 32) (low e.ea) (if e.nested then 1 else 0)).advance 1

/-- What issuing `sinfo.core` asks. -/
def sinfoCoreIssue (g : BitVec 3) (d : BitVec 7) : Issue := ⟨quad d, quadOf d, g, 1, false, g ++ 0xF4#8 ++ d ++ 2#14⟩

/-- R205. -/
def execSinfoCore (g : BitVec 3) (d : BitVec 7) (s : State) : Out :=
  onIssue (sinfoCoreIssue g d) s fun k th s =>
    match s.cores[s.coreOf th.wg]?, s.wgs[th.wg]? with
    | some c, some g =>
      let b := s.poolVa th.wg 0
      let f := BitVec.ofNat 8
      s.updThread k fun th =>
        (th.setQuad d (b.extractLsb' 0 32) (b.extractLsb' 32 32) (f c.budget ++ f c.litCount ++ f c.retired ++ f g.poolBanks) 0
          ).advance 1
    | _, _ => s

/-- What issuing `bdgt` asks. -/
def bdgtIssue (g : BitVec 3) (a : BitVec 7) : Issue := ⟨true, [a], g, 1, true, g ++ 0xF5#8 ++ 0#7 ++ a ++ 0#7⟩

/-- R206. -/
def execBdgt (g : BitVec 3) (a : BitVec 7) (s : State) : Out :=
  onIssue (bdgtIssue g a) s fun k th s =>
    if !(((s.launchOf? th.wg).map (·.desc.tb)).getD false) then s.illegalWord k (bdgtIssue g a).word
    else
      let core := s.coreOf th.wg
      ((s.updCore core fun c => { c with offset := clampInt (c.offset + (th.reg a).toInt) (-2147483648) 2147483647 }
        ).fitBudget core).updThread k fun th => th.advance 1

/-! ## Tests and errors (R199, R214, R369) -/

/-- A bank's array has passed its test: requests that wait for nothing more succeed. -/
def State.bankPassed (s : State) (w b : Nat) : State :=
  (s.lightings w).foldl (fun s x =>
    let p : Lighting := { x.2 with left := x.2.left.filter (· ≠ b) }
    if !x.2.left.contains b then s
    else if p.left.isEmpty then s.lightDone x.1 w p
    else s.updThread x.1 fun th => { th with park := .array p }) s

/-- A bank's array has failed its test: requests that wait for it seek another (R199). -/
def State.bankFailed (s : State) (w b : Nat) : State :=
  (s.lightings w).foldl (fun s x =>
    if !x.2.left.contains b || s.bankTesting (s.coreOf w) b then s
    else s.lightSeek x.1 w x.2 [b]) s

/-- An array's test ends (R199, R362): failing, it is retired and a record goes to Worxus; passing, it lights its bank
if one still waits for it, and then the budget is applied. -/
def State.arrayTested (s : State) (core k : Nat) (pass : Bool) : Option State :=
  match s.cores[core]? with
  | none => none
  | some c => match c.arrays[k]? with
    | some (.testing b) =>
      match s.poolOwner core b with
      | none => some (if pass then s.setArray core k .free
          else ((s.setArray core k .retired).notify (.arrayRetired core k)).fitBudget core)
      | some w =>
        if !pass then some ((((s.setArray core k .retired).notify (.arrayRetired core k)).bankFailed w b).fitBudget core)
        else if s.bankRank core b = 0 then some ((s.setArray core k .free).bankPassed w b)
        else
          let lo := 2 ^ 50 + core * 2 ^ 24 + b * 65536
          let s : State := s.setArray core k (.lit b)
          let s : State := s.zero (.drive w) lo (lo + 65536)
          some ((s.bankPassed w b).fitBudget core)
    | _ => none

/-- Bit k of a small mask set or cleared. -/
def putBit (m : BitVec 4) (k : Nat) (v : Bool) : BitVec 4 := if v then m ||| (1#4 <<< k) else m &&& ~~~(1#4 <<< k)

/-- The lit parts that a count leaves lit: the highest numbers darken first (R362). -/
def keepLow (lit : BitVec 4) (n : Nat) : BitVec 4 :=
  ((List.range 4).foldl (fun (r : BitVec 4 × Nat) k =>
    if lit.getLsbD k && r.2 < n then (putBit r.1 k true, r.2 + 1) else r) (0, 0)).1

/-- How many of four parts are marked. -/
def marks (m : BitVec 4) : Nat := ((List.range 4).filter fun k => m.getLsbD k).length

/-- Lit and testing parts fitted to a count of the unfused ones (R361, R362): darkening at once, relighting in ascending
number after a test. -/
def fitMasks (lit testing fused : BitVec 4) (n : Nat) : BitVec 4 × BitVec 4 :=
  let lit := keepLow (lit &&& ~~~fused) n
  let testing := testing &&& ~~~fused
  let dark := (List.range 4).filter fun k => !lit.getLsbD k && !testing.getLsbD k && !fused.getLsbD k
  (lit, (dark.take (n - (marks lit + marks testing))).foldl (fun m k => putBit m k true) testing)

/-- Lane groups all of whose lanes are fused (R361). -/
def Core.groupsFused (c : Core) : BitVec 4 :=
  (List.range 4).foldl (fun m k => putBit m k (c.lanesFused.extractLsb' (16 * k) 16 = 0xFFFF#16)) 0

/-- The count of lit lane groups or slices that a column step gives (R361). -/
def partCount (scol : Nat) (fused : BitVec 4) : Nat := min (1 + 3 * scol / 64) (4 - marks fused)

/-- Lane groups and slices fitted to the column step. -/
def Core.fitParts (c : Core) : Core :=
  let g := fitMasks c.groupsLit c.groupsTesting c.groupsFused (partCount c.scol c.groupsFused)
  let s := fitMasks c.slicesLit c.slicesTesting c.slicesFused (partCount c.scol c.slicesFused)
  { c with groupsLit := g.1, groupsTesting := g.2, slicesLit := s.1, slicesTesting := s.2 }

/-- A part of lower number is under test (R362). -/
def lowerTesting (m : BitVec 4) (k : Nat) : Bool := (List.range k).any fun j => m.getLsbD j

/-- A lane group's or slice's test ends (R362, R369): it is lit again, or never; parts come back in ascending number. -/
def State.partTested (s : State) (core k : Nat) (slice pass : Bool) : Option State :=
  match s.cores[core]? with
  | none => none
  | some c =>
    let testing := if slice then c.slicesTesting else c.groupsTesting
    if !testing.getLsbD k || 4 ≤ k || lowerTesting testing k then none
    else
      let s : State := s.updCore core fun c =>
        if slice then { c with slicesTesting := putBit c.slicesTesting k false,
                               slicesLit := putBit c.slicesLit k pass,
                               slicesFused := if pass then c.slicesFused else putBit c.slicesFused k true }
        else { c with groupsTesting := putBit c.groupsTesting k false,
                      groupsLit := putBit c.groupsLit k pass,
                      lanesFused := if pass then c.lanesFused else c.lanesFused ||| (0xFFFF#64 <<< (16 * k)) }
      let s : State := s.updCore core Core.fitParts
      some (if pass then s else s.notify (.partFused core (if slice then .slice else .laneGroup) k))

/-- Lane k set or cleared in a mask of lanes. -/
def putLane (m : BitVec 64) (k : Nat) (v : Bool) : BitVec 64 := if v then m ||| (1#64 <<< k) else m &&& ~~~(1#64 <<< k)

/-- The test of one lane ends (R191, R304, R368): after a mismatch of its shadow unit it serves bundles again or is fused;
within the test of its group it may fail alone. -/
def State.laneTested (s : State) (core n : Nat) (pass : Bool) : Option State :=
  match s.cores[core]? with
  | none => none
  | some c =>
    let inGroup := c.groupsTesting.getLsbD (n / 16) || ((c.proving.map fun v => v.groups.getLsbD (n / 16)).getD false)
    if 64 ≤ n || !(c.lanesTesting.getLsbD n || (inGroup && !pass)) then none
    else
      let s : State := s.updCore core fun c =>
        Core.fitParts { c with lanesTesting := putLane c.lanesTesting n false,
                               lanesFused := if pass then c.lanesFused else putLane c.lanesFused n true }
      some (if pass then s else s.notify (.partFused core .lane n))

/-- A part still awaits its share of a full test; a column's clock and control signals do until the test is over. -/
def Proving.has (v : Proving) (part : TestPart) (n : Nat) : Bool :=
  match part with
  | .array => v.arrays.contains n
  | .laneGroup => v.groups.getLsbD n
  | .slice => v.slices.getLsbD n
  | .lane => false
  | .column => n = 0

/-- Every part has had its share of a full test. -/
def Proving.over (v : Proving) : Bool := v.arrays.isEmpty && v.groups = 0 && v.slices = 0

/-- A part has had its share of a full test. -/
def Proving.less (v : Proving) (part : TestPart) (n : Nat) : Proving :=
  match part with
  | .array => { v with arrays := v.arrays.filter (· ≠ n) }
  | .laneGroup => { v with groups := putBit v.groups n false }
  | .slice => { v with slices := putBit v.slices n false }
  | .lane | .column => v

/-- What a failed part of a full test comes to (R368, R369). -/
def Core.lose (c : Core) (part : TestPart) (n : Nat) : Core :=
  match part with
  | .array => { c with arrays := c.arrays.set n .retired }
  | .laneGroup => { c with lanesFused := c.lanesFused ||| (0xFFFF#64 <<< (16 * n)), groupsLit := putBit c.groupsLit n false,
                           groupsTesting := putBit c.groupsTesting n false }
  | .slice => { c with slicesFused := putBit c.slicesFused n true, slicesLit := putBit c.slicesLit n false,
                       slicesTesting := putBit c.slicesTesting n false }
  | .lane => c
  | .column => { c with withdrawn := true }

/-- The valid entries of a bus's repair file, by the signal each names (R368). -/
def State.spares (s : State) (core bus : Nat) : List Nat :=
  (List.range 64).filterMap fun w =>
    let v := ((s.repair.find? fun x => x.1 = core * 65536 + bus * 256 + 4 * w).map (·.2)).getD 0
    if v.getLsbD 31 then some (v.extractLsb' 0 11).toNat else none

/-- No bus of a column fails its test: no two valid entries of one bus name the same signal (R368). -/
def State.busesPass (s : State) (core : Nat) : Bool := (List.range 16).all fun k => decide (s.spares core k).Nodup

/-- The full test of every part of the module at boot is over: the device is ready (R370). -/
def State.bootReady (s : State) : State :=
  if s.boot.booted && !s.boot.ready && !s.boot.stopped && s.cores.all (fun c => (c.proving.map Proving.over).getD true) then
    ({ s with boot := { s.boot with ready := true } }).notify .ready
  else s

/-- A part's share of a full test ends (R368-R370). The column is back in use once every part has passed or is out of use
and its buses pass. -/
def State.proved (s : State) (core : Nat) (part : TestPart) (n : Nat) (pass : Bool) : Option State :=
  match (s.cores[core]?).bind (·.proving) with
  | none => none
  | some v =>
    if !v.has part n then none
    else
      let v := v.less part n
      let s : State := s.updCore core fun c =>
        let c : Core := { c with proving := if v.over && s.busesPass core then none else some v }
        if pass then c else (c.lose part n).fitParts
      some (if pass then s else s.notify (match part with
        | .array => .arrayRetired core n
        | p => .partFused core p n)).bootReady

/-- IN_FIELD_TEST_COMPLETE (R199, R362, R369). -/
def execInFieldTestComplete (c : Nat) (part : TestPart) (n : Nat) (pass : Bool) (s : State) : Out :=
  let r := match part with
    | .array => s.arrayTested c n pass
    | .laneGroup => s.partTested c n false pass
    | .slice => s.partTested c n true pass
    | .lane => s.laneTested c n pass
    | .column => none
  match (s.proved c part n pass).or r with
  | some s => .next s
  | none => .fault .stepNotEnabled

/-- UNCORRECTABLE_ARRAY_ERROR (R214): an array that was lit when it erred reports, and is retired with a record. The
bank it holds darkens; one that holds none any more darkens nothing (log 72). -/
def execUncorrectableArrayError (c array _bank : Nat) (s : State) : Out :=
  let retire : State → State := fun s => (s.setArray c array .retired).notify (.arrayRetired c array)
  match (s.cores[c]?).bind fun (k : Core) => k.arrays[array]? with
  | some (.lit b) => .next ((retire (s.darken c b)).fitBudget c)
  | some .free => .next ((retire s).fitBudget c)
  | some (.testing _) => match s.arrayTested c array false with
    | some s => .next s
    | none => .fault .stepNotEnabled
  | _ => .fault .stepNotEnabled

end Sys2Proof.Machine
end

