-- ==== Sys2Proof/Machine/Cluster.lean ====
section
/-! DEFINITION. Cluster: a workgroup joins and leaves a commons (R322-R326); what engine work leaves that ended with its
workgroup (R45). -/

namespace Sys2Proof.Machine

/-! ## cjoin (R324) -/

/-- A slot of a commons of a workgroup's team. -/
def State.slotOf (s : State) (w cid slot : Nat) : Option Nat :=
  match s.wgs[w]?, s.launchOf? w with
  | some g, some l =>
    let cs := ((l.teams[g.team]?).bind fun (t : Team) => t.commons[cid]?).getD []
    (cs[slot]?).join
  | _, _ => none

/-- The slot is mapped to the workgroup's pool. -/
def State.fillCommons (s : State) (w : Nat) (cid : BitVec 3) (slot : BitVec 4) : State :=
  match s.wgs[w]? with
  | none => s
  | some g =>
    let s : State := { s with launches := s.launches.modify g.launch fun l =>
      { l with teams := l.teams.modify g.team fun t =>
        { t with commons := t.commons.modify cid.toNat fun c => c.set slot.toNat (some w) } } }
    s.updWg w fun g => { g with commons := some (cid, slot), dropped := 0 }

/-- The region base of a commons of the workgroup's team (R322). -/
def State.regionBase (s : State) (w cid : Nat) : BitVec 64 :=
  match s.wgs[w]?, s.launchOf? w with
  | some g, some l => BitVec.ofNat 64 (l.commonsBase g.team cid)
  | _, _ => 0

/-- What issuing `cjoin` asks. -/
def cjoinIssue (g : BitVec 3) (d a : BitVec 7) : Issue :=
  ⟨even d, pair d ++ [a], g, 1, true, g ++ 0xF6#8 ++ d ++ a ++ 0#7⟩

/-- R324. -/
def execCjoin (g : BitVec 3) (d a : BitVec 7) (s : State) : Out :=
  onIssue (cjoinIssue g d a) s fun k th s =>
    let v := th.reg a
    let cid := v.extractLsb' 8 3
    let slot := v.extractLsb' 0 4
    let answer : State → BitVec 64 → State := fun s x => s.updThread k fun th => (th.setPair d x).advance 1
    if v.extractLsb' 11 21 ≠ 0 || v.extractLsb' 4 4 ≠ 0 then s.illegalWord k (cjoinIssue g d a).word
    else if ((s.wgs[th.wg]?).bind (·.commons)).isSome then answer s (statusPair 2)
    else if (s.slotOf th.wg cid.toNat slot.toNat).isSome then answer s (statusPair 1)
    else answer (s.fillCommons th.wg cid slot) (s.regionBase th.wg cid.toNat)

/-- What issuing `cjoin.info` asks. -/
def cjoinInfoIssue (g : BitVec 3) (d : BitVec 7) : Issue := ⟨quad d, quadOf d, g, 1, true, g ++ 0xF6#8 ++ d ++ 1#14⟩

/-- The member mask of a commons (R317). -/
def State.memberMask (s : State) (w cid : Nat) : BitVec 16 :=
  (List.range 16).foldl (fun m k => if (s.slotOf w cid k).isSome then m ||| (1#16 <<< k) else m) 0

/-- The third word of `cjoin.info` (R324). -/
def State.memberWord (s : State) (w : Nat) : Word :=
  match (s.wgs[w]?).bind (·.commons) with
  | some (cid, slot) => 1#1 ++ 0#8 ++ cid ++ slot ++ s.memberMask w cid.toNat
  | none => 0

/-- R324. -/
def execCjoinInfo (g : BitVec 3) (d : BitVec 7) (s : State) : Out :=
  onIssue (cjoinInfoIssue g d) s fun k th s =>
    let b := s.poolVa th.wg 0
    let dropped := ((s.wgs[th.wg]?).map (·.dropped)).getD 0
    s.updThread k fun th =>
      (th.setQuad d (b.extractLsb' 0 32) (b.extractLsb' 32 32) (s.memberWord th.wg) (dropped.setWidth 32)).advance 1

/-! ## Engine work without its workgroup (R45) -/

/-- A remnant ends: what it had begun to write is left open, word by word (log 9). -/
def State.leaveRemnant (s : State) : Remnant → State
  | .copy c => s.leaveCopy c
  | .op w d o => match s.wgs[w]? with
    | some g => s.leaveOp w { g with drive := some d } o
    | none => s

/-- Every remnant ends. -/
def State.leaveRemnants (s : State) : State := s.remains.foldl State.leaveRemnant { s with remains := [] }

/-! ## cleave (R325) -/

/-- A range of addresses meets a slot of a commons region, as its members name it. -/
def State.namesSlot (s : State) (w : Nat) (cid slot : Nat) (lo hi : Int) : Bool :=
  let b : Int := ((s.regionBase w cid).toNat + slot * 2 ^ 24 : Nat)
  lo < b + 2 ^ 24 && b < hi

/-- A range of addresses meets the region of a commons. -/
def State.namesRegion (s : State) (w cid : Nat) (lo hi : Int) : Bool :=
  let b : Int := (s.regionBase w cid).toNat
  lo < b + 2 ^ 29 && b < hi

/-- Step 2 of R325 is over: no ordinary entry of the share lies in the region. -/
def State.shareClear (s : State) (w cid : Nat) : Bool :=
  ((s.wgs[w]?).map fun g => g.hay.all fun e =>
    e.spec || !s.namesRegion w cid e.va.toNat (e.va.toNat + e.bytes.length)).getD true

/-- Copies, engine words and `wadd`s of the members addressed to a slot (step 3 of R325), of one that has left since its
copy's issue too; a load or another atomic is
performed as it issues (log 7). -/
def State.slotUsers (s : State) (w cid slot : Nat) : List Nat :=
  let ms := s.membersOf w cid
  let hits : Span → Bool := fun x => s.namesSlot w cid slot x.lo x.hi
  ((s.copies.filter fun c => c.inFlight && c.commons.contains (some w) &&
      (c.members.contains w || hits (copyDesc c.desc).srcSpan || hits (copyDesc c.desc).dstSpan)).map (·.id)) ++
    (ms.flatMap fun m => match s.wgs[m]? with
      | some g => match g.drive with
        | some d => (d.ops.filter fun o => (opSpans g (d.before o) o).any fun x => hits x.1).map (·.id)
        | none => []
      | none => []) ++
    (ms.flatMap fun m => (((s.wgs[m]?).map (·.wadds)).getD []).filterMap fun a => if a.target = some w then some a.id else none)

/-- Step 5 of R325: speculations of the leaver whose write set touches the region abort with code 1. -/
def State.abortRegion (s : State) (w cid : Nat) : State :=
  (s.threadsOf w).foldl (fun s i => match s.threads[i]? with
    | some th => match th.spec with
      | some sp =>
        if sp.writes.any fun f => s.namesRegion w cid (32 * f : Nat) (32 * f + 32 : Nat) then s.abortNow i 1#8 else s
      | none => s
    | none => s) s

/-- Steps 4 to 6 of R325. -/
def State.cleaveEnd (s : State) (k : Nat) (th : Thread) (d : BitVec 7) (cid : BitVec 3) : State :=
  let s : State := s.acquire k .default 4#4
  let s : State := (s.revoke th.wg).abortRegion th.wg cid.toNat
  s.updThread k fun th => (th.setReg d 0).advance 1

/-- Steps 2 and 3 of R325; `ids`: what step 3 waits for, empty in step 2. -/
def State.cleaveWait (s : State) (k : Nat) (th : Thread) (d : BitVec 7) (cid : BitVec 3) (slot : BitVec 4)
    (ids : List Nat) : State :=
  if ids.any s.outstanding then s
  else if !ids.isEmpty then s.cleaveEnd k th d cid
  else if !s.shareClear th.wg cid.toNat then s.updThread k fun th => { th with park := .cleave [] }
  else
    let users := s.slotUsers th.wg cid.toNat slot.toNat
    if users.isEmpty then s.cleaveEnd k th d cid else s.updThread k fun th => { th with park := .cleave users }

/-- What issuing `cleave` asks. -/
def cleaveIssue (g : BitVec 3) (d : BitVec 7) : Issue := ⟨true, [d], g, 1, true, g ++ 0xF7#8 ++ d ++ 0#14⟩

/-- R325. -/
def execCleave (g : BitVec 3) (d : BitVec 7) (s : State) : Out :=
  onIssue (cleaveIssue g d) s fun k th s =>
    match (s.wgs[th.wg]?).bind (·.commons) with
    | none => s.updThread k fun th => (th.setReg d 1).advance 1
    | some (cid, slot) =>
      match th.park with
      | .cleave ids => s.cleaveWait k th d cid slot ids
      | _ => s.drainThen k th (fun e => e.thread = k) (fun s => s.commitIds th.wg k) fun s =>
          s.cleaveWait k th d cid slot []

end Sys2Proof.Machine
end

