-- ==== Sys2Proof/Machine/Peer.lean ====
section
/-! DEFINITION. Peer: what fabric copies of other modules do on this one (R395, R397): their accesses to a peer process,
translated and performed here, and the lock entry that one holds on a core. -/

namespace Sys2Proof.Machine

/-- The peer process takes part in a job with the module (R395, R397). -/
def State.peerOk (s : State) (x : FabricPeer) : Bool :=
  ((s.processes[x.proc]?).map fun p => p.job.contains x.module.toNat).getD false

/-- What a module is told about an access of a copy of its: done (0), LOST (1) or FAULT (2), and the bytes read; a flit of
the responses (R393). -/
def State.answerPeer (s : State) (x : FabricPeer) (code : BitVec 8) (data : List Byte) : State :=
  s.sendFlit x.module.toNat 1#8 (.answer x.copy code data)

/-- An access of another module is of no workgroup of this one. -/
def noWg : Nat := 2 ^ 64

/-- The core that a record about another module's access names: the spec gives none (log 18). -/
def State.peerCore (s : State) (die : Nat) : Nat := 16 * die + Config.unstated s.draw die % 16

/-- A page that is not resident is asked for on behalf of another module (R342, R397): its access is a copy's. -/
def State.summonPeer (s : State) (die core : Nat) (a : FabricAccess) (va : Nat) (state : BitVec 2) (slot : BitVec 16) : State :=
  let kind : BitVec 2 := if a.data.isSome then 1 else 0
  if state = 1#2 then s.expandAt die (s.peerLeaf die a.peer.proc va) core noWg va slot kind 2#4 0 (some a.peer)
  else if state = 2#2 then s.postRecord core a.peer.launch a.peer.wgid va slot 0#8 2#4 0#4 kind 0
  else s

/-- Another module's access parks at the hub of the die whose link brought it (R397); with no slot free it waits. -/
def State.parkPeer (s : State) (die : Nat) (a : FabricAccess) (va : Nat) (state : BitVec 2) : Option State :=
  let core := s.peerCore die
  let p : ParkedAccess := ⟨.peer a, a.peer.proc, BitVec.ofNat 57 va, if a.data.isSome then 1 else 0, 0, noWg, 0, 2, core⟩
  ((s.hubs[die]?).bind fun h => h.slots.findIdx? Option.isNone).map fun k =>
    (s.updHub die fun h => { h with slots := h.slots.set k (some p) }).summonPeer die core a va state (BitVec.ofNat 16 k)

/-- What another module's access meets. -/
def State.judgePeer (s : State) (die : Nat) (a : FabricAccess) : Verdict :=
  (List.range a.bytes).foldl (fun v k =>
    v.join (s.verdict (a.va.toNat + k) a.data.isSome (s.peerPlace die a.peer.proc (a.va.toNat + k)))) .ok

/-- The bytes of another module's access, each at its home. -/
def State.peerBytes (s : State) (die : Nat) (a : FabricAccess) : List Nat :=
  (List.range a.bytes).map fun k => (s.physOf (s.peerPlace die a.peer.proc (a.va.toNat + k))).getD 0

/-- Another module's access (R395, R397): translated through the tables of the peer process, it is performed and
answered, ends with LOST or FAULT, or parks. -/
def State.servePeer (s : State) (die : Nat) (a : FabricAccess) : Option State :=
  let s : State := s.fillWalk die a.peer.proc a.va.toNat
  if !s.peerOk a.peer || (a.data.map (·.length)).any (· ≠ a.bytes) then some (s.answerPeer a.peer 2 [])
  else match s.judgePeer die a with
    | .fault => some (s.answerPeer a.peer 2 [])
    | .lost => some (s.answerPeer a.peer 1 [])
    | .absent va st => s.parkPeer die a va st
    | .ok => some (match a.data with
      | none => s.answerPeer a.peer 0 ((s.peerBytes die a).map (memGet s.mem))
      | some bs => (s.performEngine (.peer a.peer.module.toNat) (fun _ => .default) (s.originOf (.peer a.peer.module.toNat)) 0
          ((s.peerBytes die a).zip bs)).answerPeer a.peer 0 [])

/-! ## The lock entry (R397) -/

/-- The holder of the entry of another module's copy. -/
def peerHolder (x : FabricPeer) : Nat := 2 ^ 100 + x.module.toNat * 2 ^ 64 + x.copy

/-- The module whose copy holds an entry. -/
def holderModule (holder : Nat) : Option Nat := if holder < 2 ^ 100 then none else some ((holder - 2 ^ 100) / 2 ^ 64)

/-- The entry that a copy takes on a range of this module: where it lies in a scratchpad window, on the owning core. -/
def State.peerLock (s : State) (die : Nat) (x : FabricPeer) (va : BitVec 44) (len : Nat) (write : Bool) : Option (Nat × Lock) :=
  match s.peerPlace die x.proc va.toNat with
  | .pool w _ => some (s.coreOf w, ⟨peerHolder x, write, [.peer x.proc va.toNat (va.toNat + len)]⟩)
  | _ => none

/-- Another module's copy begins on a range; none while the owning core has no entry free. -/
def State.beginPeer (s : State) (die : Nat) (x : FabricPeer) (va : BitVec 44) (len : Nat) (write : Bool) : Option State :=
  match s.peerLock die x va len write with
  | some (core, k) => if s.locksFree core = 0 then none else some (s.lock core [k])
  | none => some s

end Sys2Proof.Machine
end

