-- ==== Sys2Proof/Machine/Place.lean ====
section
/-! DEFINITION. Place: what a workgroup takes from a core (R174-R178, R195), its start (R62, R115, R176, R179, R244,
R272, R276, R27), and memory as the device's own engines reach it by virtual address. -/

namespace Sys2Proof.Machine

/-! ## Memory of a process -/

/-- The physical address of a byte as a workgroup addresses it: in a resident page, or in the pool of a resident
workgroup (R338). -/
def State.physVa (s : State) (w va : Nat) : Option Nat := s.physOf (s.place w va)

/-- Bytes the device reads for a workgroup; zero where nothing resident stands. -/
def State.readVa (s : State) (w va n : Nat) : List Byte :=
  (List.range n).map fun k => match s.physVa w (va + k) with
    | some p => memGet s.mem p
    | none => 0

/-- A little-endian number the device reads. -/
def State.numVa (s : State) (w va n : Nat) : Nat := ofBytes (s.readVa w va n)

/-- Bytes the device writes for a workgroup, where a resident page holds them. -/
def State.writeVa (s : State) (w va : Nat) (bs : List Byte) : State :=
  { s with mem := bs.zipIdx.foldl (fun m x => match s.physVa w (va + x.2) with
      | some p => memSet m p x.1
      | none => m) s.mem }

/-! ## Room on a core (R174, R175) -/

/-- The sum of an item over the launches of a core's resident workgroups. -/
def State.used (s : State) (core : Nat) (f : Descriptor → Nat) : Nat :=
  ((s.residents core).map fun w => ((s.launchOf? w).map fun l => f l.desc).getD 0).sum

/-- Squads of a launch's workgroup. -/
def Descriptor.squads (d : Descriptor) : Nat := d.squads0 + if d.two then d.squads1 else 0

/-- Upper-tier bytes of a launch's workgroup (R174). -/
def Descriptor.frames (d : Descriptor) : Nat := 128 * (d.squads0 * d.regs0 + if d.two then d.squads1 * d.regs1 else 0)

/-- Banks of a core that pools hold. -/
def State.assignedBanks (s : State) (core : Nat) : List (Nat × Nat) :=
  (s.residents core).filterMap fun w => (s.wgs[w]?).map fun g => (g.poolFirst, g.poolBanks)

/-- The lowest bank at which P unassigned banks stand together (R195). -/
def State.poolRoom (s : State) (core p : Nat) : Option Nat :=
  (List.range 193).find? fun b => b + p ≤ 192 && (s.assignedBanks core).all fun x => b + p ≤ x.1 || x.1 + x.2 ≤ b

/-- Queue entries of a core that detached copies left behind hold (R178, R267, R296). -/
def State.strayCopies (s : State) (core : Nat) : Nat :=
  (s.copies.filter fun c => c.core = core && c.inFlight && s.stray c).length

/-- A process's workgroup may stand on a core beside those already there (R376). -/
def State.attachOk (s : State) (core p : Nat) : Bool :=
  let attached : Nat → Bool := fun x => ((s.processes[x]?).map fun y => (y.debug).isSome).getD false
  !attached p || (s.residents core).all fun w => s.procOf w = p || !attached (s.procOf w)

/-- Every reservation of a workgroup of a process and launch fits the core as it stands (R174, R175, R191, R195, R358,
R365), and no other process is attached there beside an attached one (R376). -/
def State.fits (s : State) (core p : Nat) (d : Descriptor) : Bool :=
  match s.cores[core]? with
  | none => false
  | some c =>
    s.attachOk core p && !c.withdrawn && !c.tripped && c.proving.isNone && c.lanesFused ≠ BitVec.allOnes 64 &&
      (s.residents core).length < 16 &&
      s.used core Descriptor.squads + d.squads ≤ 64 &&
      s.used core Descriptor.frames + d.frames ≤ 524288 &&
      s.used core Descriptor.banks + d.banks ≤ 192 - c.retired &&
      s.used core (·.copyq) + s.strayCopies core + d.copyq ≤ 64 &&
      s.used core (·.tags) + d.tags ≤ 64 &&
      (s.poolRoom core d.banks).isSome

/-- The workgroup takes its reservations on a core (R175, R195): its pool's banks start dark and empty;
an attached process's block is loaded (R376). Its ac 0 is still to come (R179). -/
def State.takeRoom (s : State) (w core : Nat) (d : Descriptor) (st : WgState) : State :=
  let slot := ((List.range 16).find? fun k => (s.residents core).all fun x =>
    ((s.wgs[x]?).map (·.slot)) ≠ some k).getD 0
  let first := (s.poolRoom core d.banks).getD 0
  let alone := (s.residents core).all fun x => s.procOf x ≠ s.procOf w
  (s.loadBlock core (s.procOf w)).updWg w fun g =>
    { g with ac0 := none, alone := alone, core := core, slot := slot, state := st, poolFirst := first, poolBanks := d.banks, placedAt := s.draw }

/-- Squads take free active slots in squad order, those the test selects (R179, R298). -/
def State.activate (s : State) (w : Nat) (f : Nat → Bool) : State :=
  let core := s.coreOf w
  (List.range (((s.wgs[w]?).map fun g => g.squads.length).getD 0)).foldl (fun s q =>
    if f q then match s.freeSlotOf core with
      | some k => s.updSquad w q fun sq => { sq with slot := some k, since := none }
      | none => s
    else s) s

/-! ## The start of a workgroup -/

/-- A thread as R62 starts it. -/
def freshThread (w tid : Nat) (role : Bool) (regs : Nat) (entry tvec csb : VAddr) : Thread where
  wg := w
  tid := BitVec.ofNat 10 tid
  role := role
  regs := regs
  pc := ⟨entry, 0⟩
  clause := ⟨0, []⟩
  recheck := false
  stack := []
  depth := 0
  g := Vector.replicate 128 0
  p := 0
  m := Vector.replicate 4 0
  rm := 0
  flags := 0
  tcause := 0
  tval := 0
  tac := 0
  tpc := 0
  tvec := tvec
  csb := csb
  clkLatch := none
  loads := []
  handler := none
  loss := none
  spec := none
  conflict := false
  doom := none
  park := .none
  exited := false
  hold := none
  unmatched := false
  floors := []
  lastAcq := 0
  related := []

/-- The drive stream as R244 starts it. -/
def freshDrive (entry : VAddr) : Drive where
  pc := ⟨entry, 0⟩
  clause := ⟨0, []⟩
  recheck := false
  d := Vector.replicate 32 0
  mode := 0
  clkLatch := none
  iter := 0
  ops := []
  halted := false
  park := .none
  hold := none
  unmatched := false
  related := []

/-- A squad with empty join registers. -/
def freshSquad : Squad := ⟨List.replicate 8 ⟨0, 0⟩, [], none, false, none, none⟩

/-- Where a thread's call stack lies: 4,096 entries of 8 bytes behind another (log 15). -/
def csbOf (base : VAddr) (tid : Nat) : VAddr := base + BitVec.ofNat 57 (32768 * tid)

/-- The threads of a workgroup, by index in the workgroup (R176). -/
def freshThreads (w : Nat) (d : Descriptor) (tvec csb : VAddr) : List Thread :=
  (List.range (32 * d.squads)).map fun t =>
    let second := decide (32 * d.squads0 ≤ t)
    freshThread w t second (if second then d.regs1 else d.regs0) (if second then d.entry1 else d.entry0) tvec (csbOf csb t)

/-- A workgroup before it is placed: R115, R219, R221, R225, R231, R272, R276, R317. -/
def freshWg (l : Nat) (d : Descriptor) (wgid team : Nat) (tvec csb : VAddr) (shapes : List (List Word)) : Wg where
  launch := l
  wgid := BitVec.ofNat 24 wgid
  team := team
  core := 0
  slot := 0
  state := .resuming
  squads := List.replicate d.squads freshSquad
  barriers := List.replicate 16 ⟨true, 0, 0, BitVec.ofNat 16 (32 * d.squads), [], []⟩
  due := []
  bindings := []
  shapes := shapes
  tags := List.replicate d.tags ⟨true, 0, 0⟩
  poolFirst := 0
  poolBanks := d.banks
  allocs := []
  hay := []
  records := []
  spilledRecords := 0
  wadds := []
  buffers := List.replicate 8 none
  tiles := List.replicate 16 none
  lineage := List.replicate 32 none
  log := []
  tstat := 0
  drive := if d.drv then some (freshDrive d.dentry) else none
  commons := none
  dropped := 0
  published := false
  committed := false
  killsHalf := 0
  killsStart := 0
  request := none
  kept := []
  parks := []
  placedAt := 0
  charge := 0
  tvec := tvec
  csb := csb
  ac0 := none
  alone := false
  waiting := []

/-- The shape registers of a workgroup, loaded from the records its launch names (R27, R28). -/
def State.loadShapes (s : State) (w : Nat) (d : Descriptor) : List (List Word) :=
  (List.range 8).map fun h => match (d.shapes[h]?).join with
    | some va => (List.range 32).map fun k => BitVec.ofNat 32 (s.numVa w (va.toNat + 4 * k) 4)
    | none => List.replicate 32 0

/-- Every thread of a workgroup acquires at device scope before it starts: also what the events its launch waited for
released, and every release that the issuer of its `lnch` completed before it, through whatever object and at whatever scope
(R349, R350); what the host has written by then it has too (log 2). -/
def State.startAcquire (s : State) (w : Nat) : State :=
  let es := ((s.launchOf? w).map fun l => l.desc.waits.map fun e => Obj.event l.desc.domain e).getD []
  let issuer := ((s.launchOf? w).bind (·.by_)).toList
  let had : Write → Bool := fun v => v.agent = .host || issuer.any fun x => v.rels.any fun r => r.agent = x.1 && r.time ≤ x.2
  (s.threadsOf w).foldl (fun s i => es.foldl (fun s o => s.acquire i o 7#4)
    ((s.acquire i .default 7#4).obtain i 7#4 (relatedBy issuer) fun _ v => had v)) s

/-! ## The restart area (R299) -/

/-- The control page of a workgroup's restart area: one area for each workgroup, in their order (log 39). -/
def State.restArea (s : State) (w : Nat) : Nat :=
  match s.wgs[w]?, s.launchOf? w with
  | some g, some l => l.desc.rest.toNat + g.wgid.toNat * (4096 + 2 * 4096 * l.desc.restsz)
  | _, _ => 0

/-- Control word 0. -/
def State.control (s : State) (w : Nat) : Word := BitVec.ofNat 32 (s.numVa w (s.restArea w) 4)

/-- Control word 0 written. -/
def State.setControl (s : State) (w : Nat) (v : Word) : State := s.writeVa w (s.restArea w) (toBytes 4 v.toNat)

/-- A launch is restartable. -/
def State.restartable (s : State) (w : Nat) : Bool := ((s.launchOf? w).map (·.desc.rst)).getD false

/-- The workgroup begins from its start on the core whose room it has taken (R62, R299). -/
def State.beginWg (s : State) (w : Nat) : State :=
  match s.wgs[w]?, s.launchOf? w with
  | some g, some l =>
    let ts := freshThreads w l.desc g.tvec g.csb
    let s : State := (s.threadsOf w).foldl (fun s i => s.updThread i fun th =>
      (ts[th.tid.toNat]?).getD th) s
    let f := freshWg g.launch l.desc g.wgid.toNat g.team g.tvec g.csb (s.loadShapes w l.desc)
    let s : State := s.updWg w fun g =>
      { f with core := g.core, slot := g.slot, state := g.state, poolFirst := g.poolFirst, placedAt := g.placedAt, charge := g.charge, alone := g.alone,
               published := g.published, killsStart := g.killsStart, wadds := g.wadds, commons := g.commons }
    let s : State := if l.desc.rst then s.setControl w 0 else s
    s.startAcquire w
  | _, _ => s

end Sys2Proof.Machine
end

