-- ==== Sys2Proof/Machine/Recover.lean ====
section
/-! DEFINITION. Recover: checkpoints and restart records (R29, R189, R190, R281, R299, R300), kills and relaunches
(R301-R305, R331), pre-emption and resumption (R292-R298, R319), and the commands that ask for them (R358). -/

namespace Sys2Proof.Machine

/-! ## Live sets (R29, R189) -/

/-- An entry of a live-range table: its eight words. -/
abbrev LiveMap := List Word

/-- Bit r of the g map. -/
def liveG (l : LiveMap) (r : Nat) : Bool := (l.getD (1 + r / 32) 0).getLsbD (r % 32)

/-- Bit k of the m map, of the p map, of the d map. -/
def liveM (l : LiveMap) (k : Nat) : Bool := (l.getD 5 0).getLsbD (8 + k)
def liveP (l : LiveMap) (k : Nat) : Bool := (l.getD 5 0).getLsbD k
def liveD (l : LiveMap) (k : Nat) : Bool := (l.getD 6 0).getLsbD k

/-- The g maps of an allotment. -/
def allotMap (regs k : Nat) : Word := BitVec.ofNat 32 (2 ^ (min 32 (regs - 32 * k)) - 1)

/-- The table's entry whose word 0 is given. -/
def State.tableMap (s : State) (w : Nat) (w0 : Word) : Option LiveMap :=
  match s.launchOf? w with
  | none => none
  | some l =>
    let at_ := fun k => l.desc.ranges.toNat + 32 * k
    ((List.range l.desc.nranges).find? fun k => s.numVa w (at_ k) 4 = w0.toNat).map fun k =>
      (List.range 8).map fun j => BitVec.ofNat 32 (s.numVa w (at_ k + 4 * j) 4)

/-- The live map of a thread's `ckpt` at an address, restricted to the role's allotment; without an entry, all that the
thread has. -/
def State.threadMap (s : State) (w : Nat) (addr : VAddr) (regs : Nat) : LiveMap :=
  let w0 : Word := (addr - (((s.launchOf? w).map (·.text)).getD 0)).extractLsb' 0 31 |>.setWidth 32
  match s.tableMap w w0 with
  | some l => w0 :: ((List.range 4).map fun k => l.getD (1 + k) 0 &&& allotMap regs k) ++ [l.getD 5 0, 0, 0]
  | none => w0 :: ((List.range 4).map (allotMap regs)) ++ [0x00FF0F7F, 0, 0]

/-- The live map of the drive stream's `ckpt`. -/
def State.driveMap (s : State) (w : Nat) (addr : VAddr) : LiveMap :=
  let w0 : Word := 1#1 ++ (addr - (((s.launchOf? w).map (·.drive)).getD 0)).extractLsb' 0 31
  match s.tableMap w w0 with
  | some l => [w0, 0, 0, 0, 0, 0, l.getD 6 0, 0]
  | none => [w0, 0, 0, 0, 0, 0, BitVec.allOnes 32, 0]

/-- What a checkpoint keeps of a thread (R62): every register not live is zero. -/
def Thread.trim (th : Thread) (l : LiveMap) : Thread :=
  { th with
    g := Vector.ofFn fun r => if liveG l r.val then th.g[r] else 0
    m := Vector.ofFn fun k => if liveM l k.val then th.m[k] else 0
    p := (List.range 7).foldl (fun p k => if liveP l k then p ||| (th.p &&& (1#7 <<< k)) else p) 0
    clkLatch := none }

/-- What a checkpoint keeps of the drive stream. -/
def Drive.trim (d : Drive) (l : LiveMap) : Drive :=
  { d with d := Vector.ofFn fun r => if liveD l r.val then d.d[r] else 0, clkLatch := none }

/-! ## Writing a half (R300) -/

/-- Bytes padded with zeros to a length. -/
def padTo (n : Nat) (bs : List Byte) : List Byte := bs ++ List.replicate (n - bs.length) 0

/-- A thread or drive entry padded to a multiple of 32. -/
def pad32 (bs : List Byte) : List Byte := padTo ((bs.length + 31) / 32 * 32) bs

/-- The bytes of a word. -/
def wordBytes (w : Word) : List Byte := toBytes 4 w.toNat

/-- The 288-byte head of an entry: maps, place, six words, three addresses, the on-core call stack. -/
def entryHead (l : LiveMap) (pc : Pc) (six : List Word) (three : List VAddr) (stack : List VAddr) : List Byte :=
  (l.flatMap wordBytes) ++ toBytes 8 pc.hdr.toNat ++ toBytes 4 pc.idx.toNat ++
    padTo 36 (six.flatMap wordBytes) ++ padTo 80 (three.flatMap fun a => toBytes 8 a.toNat) ++
    padTo 128 (stack.flatMap fun a => toBytes 8 a.toNat)

/-- A thread's entry: for a member at its `ckpt`, the word after it; for a thread in handler mode, its resume point with
everything live (log 39); for an exited thread the head alone, its maps and its address zero. -/
def State.threadEntry (s : State) (w : Nat) (th : Thread) : List Byte :=
  let six : List Word := [th.rm, th.flags, th.tcause, th.tval, th.tac, th.depth.setWidth 32]
  let three := [th.tpc, th.tvec, th.csb]
  if th.exited then entryHead (List.replicate 8 0) ⟨0, th.pc.idx⟩ six three th.stack
  else
    let l := s.threadMap w (wordAddr th.pc) th.regs
    let (l, pc) := match th.handler with
      | some r => (0 :: (List.range 4).map (allotMap th.regs) ++ [0x00FF0F7F, 0, 0], r)
      | none => (l, pcAfter th.pc th.clause 1)
    pad32 (entryHead l pc six three th.stack ++
      (((List.range th.regs).filter (liveG l)).flatMap fun r => wordBytes (th.g.toList.getD r 0)) ++
      (((List.range 4).filter (liveM l)).flatMap fun k => wordBytes (th.m.toList.getD k 0)) ++
      wordBytes (th.p.setWidth 32))

/-- The drive stream's entry. -/
def State.driveEntry (s : State) (w : Nat) (g : Wg) (d : Drive) : List Byte :=
  let l := s.driveMap w (wordAddr d.pc)
  pad32 (entryHead l (pcAfter d.pc d.clause 1) [d.mode.setWidth 32, g.tstat] [] [] ++ wordBytes d.iter ++
    (((List.range 32).filter (liveD l)).flatMap fun k => wordBytes (d.d.toList.getD k 0)))

/-- A barrier in 8 bytes (R276). -/
def barrierBytes (b : Barrier) : List Byte := toBytes 8 (0#15 ++ (if b.init then 1#1 else 0#1) ++ b.phase ++ b.count ++ b.expected).toNat

/-- An allocation in 32 bytes. -/
def State.allocBytes (s : State) (w : Nat) (a : Alloc) : List Byte :=
  padTo 32 (toBytes 8 (s.poolVa w a.base).toNat ++ toBytes 4 a.size ++ toBytes 4 a.rank.toNat ++ toBytes 8 a.handler.toNat)

/-- A binding in 32 bytes. -/
def bindingBytes (b : Binding) : List Byte :=
  padTo 32 (toBytes 4 b.desc.toNat ++ toBytes 4 0 ++ toBytes 8 b.flag.toNat ++ toBytes 8 b.base.toNat ++ toBytes 4 b.len.toNat)

/-- A half's bytes (R300). -/
def State.halfBytes (s : State) (w : Nat) (g : Wg) : List Byte :=
  let drive := match g.drive with
    | some d => if d.halted then none else some d
    | none => none
  let done : Nat := (g.tags.zipIdx.map fun t => if t.1.done then 2 ^ t.2 else 0).sum
  padTo 64 (toBytes 4 (32 * g.squads.length) ++ toBytes 4 (if drive.isSome then 1 else 0)) ++
    g.barriers.flatMap barrierBytes ++ toBytes 8 done ++
    padTo 120 (g.tags.map (·.status)) ++
    padTo 2048 (g.allocs.flatMap (s.allocBytes w)) ++
    padTo 2048 (g.squads.flatMap fun q => q.joins.flatMap fun r => toBytes 8 (r.arrived ++ r.enrolled).toNat) ++
    padTo 512 (g.bindings.flatMap bindingBytes) ++
    ((s.threadsOf w).flatMap fun i => match s.threads[i]? with
      | some th => s.threadEntry w th
      | none => []) ++
    (match drive with
      | some d => s.driveEntry w g d
      | none => [])

/-- Bytes of a half. -/
def State.halfSize (s : State) (w : Nat) : Nat := 4096 * ((s.launchOf? w).map (·.desc.restsz)).getD 0

/-- The number of the half that is not current, and its base (R299). -/
def State.inactiveHalf (s : State) (w : Nat) : Nat × Nat :=
  let c := s.control w
  let k : Nat := if c.getLsbD 1 then (if c.getLsbD 0 then 0 else 1) else 0
  (k, s.restArea w + 4096 + k * s.halfSize w)

/-- A member that reaches `ckpt` writes its entry to the inactive half, behind the entries of those before it as they stand
then (R189, R190, R281; log 39). -/
def State.writeMember (s : State) (w : Nat) (a : Agent) : State :=
  match s.wgs[w]? with
  | none => s
  | some g =>
    if !s.restartable w then s
    else
      let entry : Nat → List Byte := fun i => ((s.threads[i]?).map (s.threadEntry w)).getD []
      let ts := s.threadsOf w
      let place : Nat × List Byte := match a with
        | .thread k => (4928 + ((ts.takeWhile (· ≠ k)).map fun i => (entry i).length).sum, entry k)
        | _ => (4928 + (ts.map fun i => (entry i).length).sum, (g.drive.map (s.driveEntry w g)).getD [])
      s.writeVa w ((s.inactiveHalf w).2 + place.1) (place.2.take (s.halfSize w - place.1))

/-- The inactive half is written whole (R281). Where `.restart` is smaller than R32 computes, what lies past the half's end is
cut off, and the workgroup goes on (DESIGN CHOICE, log 77). -/
def State.writeInactive (s : State) (w : Nat) : State :=
  match s.wgs[w]? with
  | none => s
  | some g => if !s.restartable w then s else s.writeVa w (s.inactiveHalf w).2 ((s.halfBytes w g).take (s.halfSize w))

/-- The inactive half is complete and becomes current (R281, R299). -/
def State.writeHalf (s : State) (w : Nat) : State :=
  if !s.restartable w then s
  else
    let k := (s.inactiveHalf w).1
    ((s.writeInactive w).setControl w (BitVec.ofNat 32 (2 + k))).updWg w fun g => { g with killsHalf := 0 }

/-! ## Reading a half (R302) -/

/-- The base of the current half. -/
def State.halfBase (s : State) (w : Nat) : Nat :=
  s.restArea w + 4096 + (if (s.control w).getLsbD 0 then s.halfSize w else 0)

/-- A 57-bit address read. -/
def State.addrVa (s : State) (w a : Nat) : VAddr := BitVec.ofNat 57 (s.numVa w a 8)

/-- Values taken in turn for the numbers a test selects. -/
def dealOut (sel : Nat → Bool) (get : Nat → Word) (n : Nat) : List Word :=
  ((List.range n).foldl (fun (acc : List Word × Nat) r =>
    if sel r then (acc.1 ++ [get acc.2], acc.2 + 1) else (acc.1 ++ [0], acc.2)) ([], 0)).1

/-- A thread restored from its entry, and the entry's size. -/
def State.readThread (s : State) (w base : Nat) (th : Thread) (fresh : Thread) : Thread × Nat :=
  let word : Nat → Word := fun o => BitVec.ofNat 32 (s.numVa w (base + o) 4)
  let l : LiveMap := (List.range 8).map fun k => word (4 * k)
  let hdr := s.addrVa w (base + 32)
  if l.all (· = 0) && hdr = 0 then ({ fresh with exited := true }, 288)
  else
    let ng := ((List.range th.regs).filter (liveG l)).length
    let nm := ((List.range 4).filter (liveM l)).length
    let gs := dealOut (liveG l) (fun k => word (288 + 4 * k)) 128
    let ms := dealOut (liveM l) (fun k => word (288 + 4 * ng + 4 * k)) 4
    let p := (word (288 + 4 * (ng + nm))).extractLsb' 0 7
    let depth := (word 64).extractLsb' 0 13
    let stack := ((List.range 16).map fun k => s.addrVa w (base + 160 + 8 * k)).takeWhile (· ≠ 0)
    ({ fresh with
        pc := ⟨hdr, (word 40).extractLsb' 0 4⟩
        recheck := (word 40).extractLsb' 0 4 ≠ 0
        rm := word 44, flags := word 48, tcause := word 52, tval := word 56, tac := word 60
        depth := depth, stack := stack
        tpc := s.addrVa w (base + 80), tvec := s.addrVa w (base + 88), csb := s.addrVa w (base + 96)
        g := Vector.ofFn fun r => gs.getD r.val 0
        m := Vector.ofFn fun k => ms.getD k.val 0
        p := (List.range 7).foldl (fun q k => if liveP l k then q ||| (p &&& (1#7 <<< k)) else q) 0 },
      (288 + 4 * (ng + nm + 1) + 31) / 32 * 32)

/-- The threads of a workgroup restored from their entries, in ascending s.tid; the place after them. -/
def State.readThreads (s : State) (w : Nat) (ts : List Thread) : State × Nat :=
  (s.threadsOf w).foldl (fun (acc : State × Nat) i =>
    match acc.1.threads[i]? with
    | some th =>
      let (x, n) := s.readThread w acc.2 th ((ts[th.tid.toNat]?).getD th)
      (acc.1.updThread i fun _ => x, acc.2 + n)
    | none => acc) (s, s.halfBase w + 4928)

/-- The drive stream restored. -/
def State.readDrive (s : State) (w base : Nat) (d : Drive) : Drive :=
  let word : Nat → Word := fun o => BitVec.ofNat 32 (s.numVa w (base + o) 4)
  let l : LiveMap := (List.range 8).map fun k => word (4 * k)
  let ds := dealOut (liveD l) (fun k => word (292 + 4 * k)) 32
  { d with
    pc := ⟨s.addrVa w (base + 32), (word 40).extractLsb' 0 4⟩
    recheck := (word 40).extractLsb' 0 4 ≠ 0
    mode := (word 44).extractLsb' 0 3
    iter := word 288
    d := Vector.ofFn fun k => ds.getD k.val 0 }

/-- A workgroup restored from its current half on the core whose room it has taken (R300, R302, R215): its tile state as
R241 leaves it at a relaunch, free and with its status zero. -/
def State.readHalf (s : State) (w : Nat) : State :=
  match s.wgs[w]?, s.launchOf? w with
  | some g, some l =>
    let b := s.halfBase w
    let num := fun o n => s.numVa w (b + o) n
    let f := freshWg g.launch l.desc g.wgid.toNat g.team g.tvec g.csb (s.loadShapes w l.desc)
    let bars := (List.range 16).map fun k =>
      let v : BitVec 64 := BitVec.ofNat 64 (num (64 + 8 * k) 8)
      (⟨v.getLsbD 48, v.extractLsb' 32 16, v.extractLsb' 16 16, v.extractLsb' 0 16, [], []⟩ : Barrier)
    let done : BitVec 64 := BitVec.ofNat 64 (num 192 8)
    let tags := (List.range l.desc.tags).map fun t => (⟨done.getLsbD t, BitVec.ofNat 8 (num (200 + t) 1), 0⟩ : Tag)
    let allocs := (List.range 64).filterMap fun k =>
      let o := 320 + 32 * k
      if num (o + 8) 4 = 0 then none
      else some (⟨num o 8 - (s.poolVa w 0).toNat, num (o + 8) 4, BitVec.ofNat 3 (num (o + 12) 4),
        BitVec.ofNat 64 (num (o + 16) 8), true⟩ : Alloc)
    let joins := fun q => (List.range 8).map fun j =>
      let v : BitVec 64 := BitVec.ofNat 64 (num (2368 + 64 * q + 8 * j) 8)
      (⟨v.extractLsb' 32 32, v.extractLsb' 0 32⟩ : Join)
    let binds := (List.range 16).filterMap fun k =>
      let o := 4416 + 32 * k
      if num (o + 24) 4 = 0 then none
      else some (⟨BitVec.ofNat 32 (num o 4), BitVec.ofNat 64 (num (o + 8) 8), BitVec.ofNat 64 (num (o + 16) 8),
        BitVec.ofNat 32 (num (o + 24) 4)⟩ : Binding)
    let (s', at_) := s.readThreads w (freshThreads w l.desc g.tvec g.csb)
    let drive := match f.drive with
      | some d => if num 4 4 % 2 = 1 then some (s.readDrive w at_ d) else some { d with halted := true }
      | none => none
    s'.updWg w fun g =>
      { f with core := g.core, slot := g.slot, state := g.state, poolFirst := g.poolFirst, placedAt := g.placedAt,
               charge := g.charge, alone := g.alone, published := g.published, committed := g.committed, killsHalf := g.killsHalf, killsStart := g.killsStart,
               wadds := g.wadds, commons := g.commons, barriers := bars, tags := tags, allocs := allocs,
               squads := (List.range g.squads.length).map fun q => { freshSquad with joins := joins q },
               bindings := binds, drive := drive }
  | _, _ => s

/-! ## Kills (R301, R302, R331) -/

/-- What R302 does with a workgroup killed now: 0 from its record, 1 from its start, 2 nothing. -/
def State.relaunchAction (s : State) (w : Nat) (g : Wg) : BitVec 2 :=
  if s.restartable w && (s.control w).getLsbD 1 then (if g.killsHalf + 1 < 3 then 0 else 2)
  else if !g.committed && g.killsStart + 1 < 3 then 1
  else 2

/-- The members of a team. -/
def State.teamOf (s : State) (l t : Nat) : List Nat :=
  (List.range s.wgs.length).filter fun w => match s.wgs[w]? with
    | some g => g.launch = l && g.team = t
    | none => false

/-- Other members of a workgroup's team. -/
def State.teamMates (s : State) (w : Nat) : List Nat :=
  match s.wgs[w]? with
  | none => []
  | some g => (s.teamOf g.launch g.team).filter (· ≠ w)

/-- A thread's place in a full save (R49, R132, R153, R163, R282, R294, R354): what waits for a release of its own stays as it
is, a parked access too (R297); everything else issues its word afresh. -/
def Park.saved (p : Park) : Park :=
  match p with
  | .event _ _ | .ckpt | .copy | .array _ | .handler _ | .cleave _ | .collective | .tryGroup _ | .tryWait => .none
  | p => p

/-- The word a thread stands before. -/
def Thread.word (th : Thread) : Word := ((th.clause.words[th.pc.idx.toNat - 1]?).join).getD 0

/-- A thread stopped in the release of its `fsig`: it is saved at the word and issues it afresh (R402). -/
def Thread.inSignal (th : Thread) : Bool := th.pc.idx ≠ 0 && bits th.word 21 8 = 0xFE#8

/-- A thread's place in a full save. -/
def Thread.saved (th : Thread) : Thread := { th with park := if th.inSignal then .none else th.park.saved }

/-- A saved member's arrival at a collective word is withdrawn, and no occurrence is about to execute (R153, R163). -/
def State.withdrawAll (s : State) (w : Nat) : State :=
  let waits := (s.threadsOf w).filter fun i => ((s.threads[i]?).map fun th => decide (th.park = .collective)).getD false
  let s : State := waits.foldl (fun s i => match s.threads[i]? with
    | some th => s.withdrawArrival w th.squad th.pos
    | none => s) s
  s.updWg w fun g => { g with squads := g.squads.map fun q => { q with gathers := q.gathers.map fun x => { x with formed := false } } }

/-- Every load outstanding of a thread completes (R163). -/
def State.finishLoads (s : State) (i : Nat) : State :=
  match s.threads[i]? with
  | some th => th.loads.foldl (fun s l => s.updThread i fun x => x.complete l) s
  | none => s

/-- Copies, engine words and accesses that the save squashes (R282, R295, R297, R241): waiting copies are withdrawn,
copies in flight are marked, engine words in flight are queued again, locks and slots released; the parked accesses are
kept with their counts. -/
def State.squash (s : State) (w : Nat) : State :=
  let ids := s.engineIds w
  let mine : ParkedAccess → Bool := fun p => p.wg = w && (match p.waiter with
    | .copy id => ids.contains id
    | _ => true)
  let parks := s.hubs.flatMap fun h => h.slots.filterMap fun x => x.filter mine
  let s : State := (s.copies.filter fun c => c.wg = w && c.form ≠ CopyForm.detach).foldl State.endFar s
  let s : State := { s with
    copies := (s.copies.filter fun c => !(c.wg = w && !c.inFlight)).map fun c =>
      if c.wg = w && c.form ≠ CopyForm.detach then { c with squashed := true, parked := false, dark := false, darkIn := [] } else c
    cores := s.cores.map fun c => { c with locks := c.locks.filter fun k => !ids.contains k.holder }
    hubs := s.hubs.map fun h => { h with slots := h.slots.map fun x => x.filter fun p => !mine p } }
  s.updWg w fun g =>
    { g with
      parks := g.parks ++ parks
      drive := g.drive.map fun d => { d with ops := d.ops.map fun o =>
        match o.word with
        | .bfill _ _ _ | .bgather _ _ _ | .tld _ _ _ | .tst _ _ _ | .tcvtMemory _ _ _ _ =>
          { o with running := false, parked := false, dark := false }
        | _ => o } }

/-- A hold is over whose record still waits for the queue: the record stands (R379, R382). -/
def State.endHold (s : State) (i : Nat) : State :=
  match s.threads[i]? with
  | some th =>
    (s.updWg th.wg fun g => { g with waiting := g.waiting ++ (th.hold.bind (·.record)).toList }).updThread i fun th =>
      { th with hold := none }
  | none => s

/-- A pending request aborts a thread's speculation with code 6; a held member is no longer held (R137, R292, R379). -/
def State.abortRequest (s : State) (i : Nat) : State :=
  let was := (List.range s.threads.length).filter fun k => ((s.threads[k]?).map fun th => th.spec.isSome).getD false
  let s : State := s.abortNow i 6#8
  (was.filter fun k => ((s.threads[k]?).map fun th => th.spec.isNone).getD false).foldl State.endHold s

/-- Each squad's set as the saved context records it (R294). -/
def Wg.noteSets (g : Wg) : Wg := { g with squads := g.squads.map fun q => { q with was := q.slot.isSome } }

/-- The full-save path (R294): a swap completes (R182), every thread stops, speculations abort with code 6, issued words
complete; entries that a commit point has passed and that have not drained wait for the next one (R291). -/
def State.saveFull (s : State) (w : Nat) : State :=
  let s : State := s.endSwap w
  let s : State := (s.threadsOf w).foldl (fun s i => (s.abortRequest i).finishLoads i) s
  let s : State := (s.squash w).withdrawAll w
  let s : State := (s.threadsOf w).foldl (fun s i => s.updThread i Thread.saved) s
  let s : State := s.updDrive w fun d => { d with park := d.park.saved }
  s.updWg w fun g => { g.noteSets with
    state := .saving
    hay := g.hay.map fun e => if e.committed then { e with held := true } else e }

/-- A member of a killed workgroup's team is to be stopped by the full-save path at once (R331); one whose contents are
still on their way back waits for room again. -/
def State.stopMate (s : State) (w : Nat) : State :=
  match s.wgs[w]? with
  | none => s
  | some g =>
    if g.state = .lighting then
      (s.freeRoom w).updWg w fun g => { g with state := .resuming }
    else if g.state = .resident || g.state = .restored then
      s.updWg w fun g => { g with request := some { g.request.getD ⟨s.clk, false, true⟩ with now := true } }
    else s

/-- A workgroup has started and not ended: on its core, or in a saved context. -/
def Wg.live (g : Wg) : Bool := g.resident || g.state = .saved || g.state = .resuming

/-- A workgroup is killed (R301): its failure record, its work dropped, its room free, or its saved context dropped; the rest
of its team is stopped by a full save, and the team goes to another cluster (R331). `final`: never relaunched, whatever R302
gives; nor is the member of a reduction (R401). -/
def State.kill (s : State) (w : Nat) (addr : BitVec 64) (tval : Word) (cause : BitVec 8) (source : BitVec 4)
    (tid : BitVec 10) (final : Bool) : State :=
  match s.wgs[w]? with
  | none => s
  | some g =>
    if !g.live then s
    else
      let act : BitVec 2 := if final || s.reductions.any (fun r => r.wg = w) then 2 else s.relaunchAction w g
      let st : WgState := if act = 2 then .failed else .killed
      let s : State := s.reportFailure w addr tval cause source act tid
      let s : State := if g.resident then s.leaveCore w st
        else ((s.dropWork w).revoke w).updWg w fun g => { g with state := st }
      let s : State := s.updWg w fun g =>
        let left := if g.hay.isEmpty then [] else g.records
        { g with killsHalf := g.killsHalf + 1, killsStart := g.killsStart + 1, request := none, records := left,
                 kept := [], parks := [] }
      let s : State := { s with launches := s.launches.modify g.launch fun l =>
        { l with teams := l.teams.modify g.team fun t => { t with avoid := some (g.core / 4) } } }
      (s.teamMates w).foldl State.stopMate s

/-- The values of R121, which a failure record's cause is one of (R303). -/
def causes : List (BitVec 8) :=
  [causeIllegal, causeIllegalClause, causeStack, causeTrap, causeBrk, causeTarget, causeFetch, causeAccess, causeMisalign,
    causeRangeLock, causeRange, causeSpill, causeSdc, causeUncorr, causeNoHandler]

/-- s.tid as a failure record carries it: zero for sources 1, 3 and 5 (R303). -/
def failureTid (source : BitVec 4) (tid : BitVec 10) : BitVec 10 :=
  if source = 1#4 || source = 3#4 || source = 5#4 then 0 else tid

/-- A kill for which the spec gives no cause: its record's address, tval, cause, source and thread are open, within what
R303 allows (R356, R358, R375; log 18). -/
def State.killOpen (s : State) (w : Nat) : State :=
  let f : Nat → Nat := fun k => Config.unstated s.draw (8 * w + k)
  let source := BitVec.ofNat 4 (f 3 % 7)
  s.kill w (BitVec.ofNat 64 (f 0)) (BitVec.ofNat 32 (f 1)) (causes.getD (f 2 % causes.length) causeAccess) source
    (failureTid source (BitVec.ofNat 10 (f 4))) false

/-- A detached copy of a workgroup, by its identifier. -/
def State.detachedCopy (s : State) (w id : Nat) : Option Copy :=
  s.copies.find? fun c => c.id = id && c.wg = w && c.inFlight && c.form = .detach

/-- The lane or the slice whose check has found a mismatch is to be tested again before it serves (R304, R305, R228). -/
def Core.suspect (c : Core) (source : BitVec 4) (part : Nat) : Core :=
  if source = 4#4 && part < 64 then { c with lanesTesting := putLane c.lanesTesting part true }
  else if source = 5#4 && part < 4 then
    { c with slicesLit := putBit c.slicesLit part false, slicesTesting := putBit c.slicesTesting part true }
  else c

/-- UNCORRECTABLE_ERROR_CONSUMED, SDCTRAP and residue mismatches (R301, R304, R305): source 4 and 5 are those of the
shadow units and the residue checks. A detached copy named ends with FAULT (R356). -/
def execUncorrectableErrorConsumed (w : Nat) (source : BitVec 4) (site : ErrorSite) (addr : BitVec 64) (s : State) : Out :=
  match s.wgs[w]? with
  | some g =>
    match if source = 2#4 then s.detachedCopy w site.part else none with
    | some c => .next (s.copyEarly c 2#8)
    | none =>
      if g.resident && source ≤ 6#4 then
        .next ((s.kill w addr 0 (if source = 4#4 || source = 5#4 then causeSdc else causeUncorr) source
          (failureTid source site.tid) false).updCore g.core fun c => c.suspect source site.part)
      else .fault .stepNotEnabled
  | none => .fault .stepNotEnabled

/-! ## Parked accesses that proceed or fail (R345) -/

/-- A parked access proceeds: what parked tries again. -/
def State.unpark (s : State) (die : Nat) (x : Waiter) : State :=
  match x with
  | .thread i => s.updThread i fun th => if th.park = .page then { th with park := .none } else th
  | .drive w => s.updDrive w fun d => if d.park = .page then { d with park := .none } else d
  | .entry w id => s.updWg w fun g => { g with hay := g.hay.map fun e => if e.id = id then { e with parked := false } else e }
  | .wadd w id => s.updWg w fun g => { g with wadds := g.wadds.map fun a => if a.id = id then { a with parked := false } else a }
  | .op w id => s.updDrive w fun d => { d with ops := d.ops.map fun o => if o.id = id then { o with parked := false } else o }
  | .copy id => { s with copies := s.copies.map fun c => if c.id = id then { c with parked := false } else c }
  | .peer a => (s.servePeer die a).getD s

/-- An access parks again. -/
def State.parkAgain (s : State) (x : Waiter) : State :=
  match x with
  | .thread i => s.updThread i fun th => { th with park := .page }
  | .drive w => s.updDrive w fun d => { d with park := .page }
  | .entry w id => s.updWg w fun g => { g with hay := g.hay.map fun e => if e.id = id then { e with parked := true } else e }
  | .wadd w id => s.updWg w fun g => { g with wadds := g.wadds.map fun a => if a.id = id then { a with parked := true } else a }
  | .op w id => s.updDrive w fun d => { d with ops := d.ops.map fun o =>
      if o.id = id then { o with parked := true, running := true } else o }
  | .copy id => { s with copies := s.copies.map fun c => if c.id = id then { c with parked := true } else c }
  | .peer _ => s

/-- A slot of a die's table is freed. -/
def State.clearSlot (s : State) (die slot : Nat) : State := s.updHub die fun h => { h with slots := h.slots.set slot none }

/-- The side of a fabric copy that lies in the fabric holds an address of this module (R397). -/
def State.onFabricSide (s : State) (c : Copy) (va : Nat) : Bool :=
  let d := copyDesc c.desc
  c.form = .fabric &&
    (match s.side c.form (if isFabric d.src then d.srcSpan else d.dstSpan) with
      | .here y => y.lo ≤ (va : Int) && (va : Int) < y.hi
      | .there _ _ => false)

/-- The owning workgroup of an unrecoverable fault is killed and not relaunched (R345). -/
def State.killOwner (s : State) (p : ParkedAccess) : State :=
  s.kill p.wg (p.va.setWidth 64) (p.va.setWidth 32) causeAccess p.source (failureTid p.source p.tid) true

/-- An unrecoverable fault (R345): a detached copy, or a copy's fabric side (R397), ends with FAULT; another module's
access is answered with FAULT (R397); otherwise the owning workgroup is killed, a buffered store or `wadd` discarded (R301). -/
def State.unrecoverable (s : State) (p : ParkedAccess) : State :=
  match p.waiter with
  | .copy id =>
    match s.copies.find? fun c => c.id = id with
    | some c => if c.form = .detach || s.onFabricSide c p.va.toNat then s.copyEarly c 2#8 else s.killOwner p
    | none => s
  | .entry w id => (s.killOwner p).drained w id
  | .wadd w id => (s.killOwner p).waddDone w id
  | .peer a => s.answerPeer a.peer 2 []
  | _ => s.killOwner p

/-- The n-th replay of the access in a slot has found its page not resident: its record is posted again, with the core where
it parked (R344); at 4 it is unrecoverable, a cold page expands (R345). -/
def State.replayFailed (s : State) (die slot : Nat) (p : ParkedAccess) (n : Nat) (st : BitVec 2) : State :=
  let s : State := s.updHub die fun h => { h with slots := h.slots.set slot (some { p with count := n }) }
  let number := BitVec.ofNat 16 slot
  let s : State := match p.waiter with
    | .peer a => s.postRecord p.core a.peer.launch a.peer.wgid p.va.toNat number 0#8 p.source (BitVec.ofNat 4 n) p.kind 0
    | _ => s.postFaultOn p.core p.wg p.va.toNat number 0#8 p.source (BitVec.ofNat 4 n) p.kind (recordTid p.source p.tid)
  if 4 ≤ n then (s.clearSlot die slot).unrecoverable p
  else if st ≠ 1#2 then s
  else match p.waiter with
    | .peer a => s.expandAt die (s.peerLeaf die p.proc p.va.toNat) p.core noWg p.va.toNat number p.kind p.source 0 (some a.peer)
    | _ => s.startExpand p.core p.wg p.va.toNat number p.kind p.source p.tid

/-! ## ckpt (R189, R190, R281, R293) -/

/-- The members a checkpoint waits for have all parked at a `ckpt` (R281). `all`: as the checkpoint path has it, no
thread in handler mode or in a loss entry (R293). -/
def State.ckptReady (s : State) (w : Nat) (all : Bool) : Bool :=
  ((s.threadsOf w).all fun i => match s.threads[i]? with
    | some th => th.exited || (if all then th.park = .ckpt && th.handler.isNone && th.loss.isNone
        else th.handler.isSome || th.park = .ckpt)
    | none => true) &&
  (match s.drive? w with
    | some d => d.halted || d.park = .ckpt
    | none => true)

/-- A member's release and acquire of the default object (R281, R283). -/
def State.ckptOrder (s : State) (w : Nat) : State :=
  let ms := (s.threadsOf w).filter fun i => ((s.threads[i]?).map fun th => decide (th.park = .ckpt)).getD false
  let s : State := ms.foldl (fun s i => s.releaseBy i .default 2#4) s
  ms.foldl (fun s i => s.obtain i 2#4 (s.relates i .default 2#4) fun th x => s.precedes i th .default 2#4 x ||
    (x.obj = .default && s.within 2#4 x.agent (.thread i) && !x.rels.isEmpty)) s

/-- The members go on past their `ckpt` words. -/
def State.ckptGoOn (s : State) (w : Nat) : State :=
  let s : State := (s.threadsOf w).foldl (fun s i => s.updThread i fun th =>
    if th.park = .ckpt then th.advance 1 else th) s
  s.updDrive w fun d => if d.park = .ckpt then d.advance 1 else d

/-- The checkpoint save (R293): a swap completes (R182); live sets alone are kept, the members stand after their `ckpt`
words. Where the drive stream has halted, what it left in flight is squashed, its parked faults recorded (R241, R297). -/
def State.saveCkpt (s : State) (w : Nat) : State :=
  let s : State := (s.endSwap w).squash w
  let s : State := (s.threadsOf w).foldl (fun s' i => s'.updThread i fun th =>
    if th.exited then th else th.trim (s.threadMap w (wordAddr th.pc) th.regs)) s
  let s : State := s.updDrive w fun d => if d.halted then d else d.trim (s.driveMap w (wordAddr d.pc))
  (s.ckptGoOn w).updWg w fun g => { g.noteSets with state := .saving }

/-- The pre-emption request has been taken by the checkpoint path (R293). -/
def Wg.byCkpt (g : Wg) : Bool := (g.request.map (·.ckpt)).getD false

/-- ac in a µs (R30). -/
def acPerUs : Nat := 2100

/-- The bound of a workgroup's launch is over (R292). -/
def State.boundOver (s : State) (_w : Nat) (g : Wg) : Bool :=
  match g.request, s.launches[g.launch]? with
  | some r, some l => r.now || r.t0 + l.desc.ckbound * acPerUs ≤ s.clk
  | _, _ => false

/-- The checkpoint completes once its drain has (R281): the half, the members; under a request, the save. Every drain record
retires (R285). -/
def State.ckptDone (s : State) (w : Nat) : State :=
  match s.wgs[w]? with
  | none => s
  | some g =>
    if !((g.hay.filter fun e => !e.spec).isEmpty && g.wadds.isEmpty) then s
    else
      let s : State := ((s.writeHalf w).ckptOrder w).updWg w fun g => { g with records := [], spilledRecords := 0 }
      if g.byCkpt then s.saveCkpt w else s.ckptGoOn w

/-- A parked member tests whether the checkpoint completes; every member's record is written before the share drains
(R189, R281). Under a request the checkpoint path is taken before the bound or not at all, and once taken goes on (R293).
None: neither a drain record nor spill space for one. -/
def State.ckptTest (s : State) (w : Nat) : Option State :=
  match s.wgs[w]? with
  | none => some s
  | some g =>
    let pending := g.request.isSome
    if !s.ckptReady w pending || (pending && !g.byCkpt && s.boundOver w g) then some s
    else
      let s : State := s.updWg w fun g => { g with request := g.request.map fun r => { r with ckpt := true } }
      ((s.writeInactive w).commit w fun _ => true).map fun s => s.ckptDone w

/-- What issuing `ckpt` asks. -/
def ckptIssue (g : BitVec 3) : Issue := ⟨true, [], g, 1, true, g ++ 0xEF#8 ++ 0#21⟩

/-- A member reaches its `ckpt` (R189, R281): it writes its record and parks; parked already, it only tests. -/
def State.ckptPark (s : State) (w : Nat) (a : Agent) (parked : Bool) : State :=
  if parked then s
  else
    let s : State := s.writeMember w a
    match a with
    | .thread k => s.updThread k fun th => { th with park := .ckpt }
    | _ => s.updDrive w fun d => { d with park := .ckpt }

/-- R281: a member waits for its copies (the drive stream for its tiles too, a thread for its loads), parks, and tests. -/
def execCkpt (g : BitVec 3) (s : State) : Out :=
  onBoth (ckptIssue g) 0 s
    (fun k th s =>
      if s.copiesOf (.thread k) ≠ 0 || !th.loads.isEmpty then s
      else
        match (s.ckptPark th.wg (.thread k) (th.park = .ckpt)).ckptTest th.wg with
        | some s => s
        | none => s.takeTrap k causeSpill 0)
    (fun w d s =>
      if s.copiesOf (.drive w) ≠ 0 || !d.ops.isEmpty then s
      else
        match (s.ckptPark w (.drive w) (d.park = .ckpt)).ckptTest w with
        | some s => s
        | none => s.driveFault w (wordAddr d.pc) (ckptIssue g).word causeSpill)

/-! ## Saving (R294, R296) -/

/-- A thread's word is in the middle of what it does: it waits for a drain, or for the answer to a `lnch` (R163, R355). -/
def Park.midWord (p : Park) : Bool :=
  match p with
  | .drain _ | .released | .launch => true
  | _ => false

/-- A due arrival is a thread's. -/
def Due.ofThread (d : Due) : Bool :=
  match d.agent with
  | .thread _ => true
  | _ => false

/-- The words already issued have completed: `wadd`s performed, drains over, arrivals made, answers given (R163, R294,
R355; log 73); a thread in the release of its `fsig` is not waited for (R402). -/
def State.wordsDone (s : State) (w : Nat) (g : Wg) : Bool :=
  g.wadds.isEmpty && !(g.due.any Due.ofThread) &&
    (s.threadsOf w).all fun i => ((s.threads[i]?).map fun th => !th.park.midWord || th.inSignal).getD true

/-- FULL_SAVE (R294): past the bound, unless the checkpoint path has been taken. -/
def execFullSave (w : Nat) (s : State) : Out :=
  match s.wgs[w]? with
  | some g =>
    if (g.state = .resident || g.state = .restored) && s.boundOver w g && !g.byCkpt && s.wordsDone w g then .next (s.saveFull w)
    else .fault .stepNotEnabled
  | none => .fault .stepNotEnabled

/-- What a save keeps of the scratchpad (R215): of a checkpoint save the rank-7 allocations, else every one not lost. -/
def State.keep (s : State) (w : Nat) (g : Wg) : Wg :=
  let stays : Alloc → Bool := fun a => !a.lost && (!g.byCkpt || a.rank = 7#3)
  { g with
    kept := (g.allocs.filter stays).map fun a =>
      let lo := s.poolPhys w a.base
      ⟨a.base, (s.mem.filter fun c => lo ≤ c.1 && c.1 < lo + a.size).map fun c => (c.1 - lo, c.2)⟩
    allocs := g.allocs.map fun a => if stays a then a else { a with lost := true } }

/-- Every member of a workgroup's team that a request names has been saved (R319). -/
def State.matesSaved (s : State) (w : Nat) : Bool :=
  (s.teamMates w).all fun x => ((s.wgs[x]?).map fun g => !(g.request.isSome && (g.state = .resident || g.state = .restored))).getD true

/-- CONTEXT_WRITTEN (R296): the context stands in the DRAM layer, every reservation is free; the team leaves as one
(R319). -/
def execContextWritten (w : Nat) (s : State) : Out :=
  match s.wgs[w]? with
  | some g =>
    if g.state ≠ .saving || !s.matesSaved w then .fault .stepNotEnabled
    else
      let core := g.core
      let s : State := (s.updWg w fun g => s.keep w g).freeRoom w
      .next (((s.updWg w fun g => { g with state := .saved, request := none }).endOffset core).sendUp (core / 4) (.news (.saved w)))
  | none => .fault .stepNotEnabled

/-! ## Resuming (R298, R319) -/

/-- The banks of a core that a saved context's allocations need (R298 step 2). -/
def State.keptBanks (s : State) (w : Nat) : List Nat :=
  match s.wgs[w]? with
  | none => []
  | some g => ((g.allocs.filter fun a => !a.lost && g.kept.any fun k => k.base = a.base).flatMap fun a =>
      s.banksOf w a.base a.size).dedup

/-- The kept contents go back once every bank of theirs is lit. -/
def State.writeKept (s : State) (w : Nat) : State :=
  match s.wgs[w]? with
  | none => s
  | some g =>
    if (s.keptBanks w).any fun b => !s.bankLit g.core b then s
    else
      let back (m : List Host.Cell) (k : Kept) : List Host.Cell :=
        if g.allocs.any fun a => a.base = k.base && !a.lost then
          k.bytes.foldl (fun m c => memSet m (s.poolPhys w k.base + c.1) c.2) m
        else m
      let s : State := { s with mem := g.kept.foldl back s.mem }
      s.updWg w fun g => { g with kept := [] }

/-- Members of a team that stop it from issuing (R319). -/
def Wg.holdsTeam (g : Wg) : Bool :=
  g.state = .saving || g.state = .saved || g.state = .resuming || g.state = .lighting || g.state = .killed ||
    (g.state = .restored && !g.parks.isEmpty)

/-- Once every member of a team stands restored, its squads may issue (R298 step 6). -/
def State.releaseTeam (s : State) (l t : Nat) : State :=
  let mine : Wg → Bool := fun g => g.launch = l && g.team = t
  if s.wgs.any fun g => mine g && g.holdsTeam then s
  else { s with
    wgs := s.wgs.map fun g => if mine g && g.state = .restored then { g with state := .resident } else g
    launches := s.launches.modify l fun x => { x with teams := x.teams.modify t fun y => { y with avoid := none } } }

/-- A parked access of a context is replayed on resumption, its entry read afresh (R297); an entry still not resident
raises it again, its count one higher. With no slot free it stays in the context. -/
def State.replaySaved (s : State) (p : ParkedAccess) : State :=
  match s.wgs[p.wg]? with
  | none => s
  | some g =>
    if g.state ≠ .restored then s
    else
      let s : State := (s.refresh g.core p.proc p.va.toNat).look p.wg p.va.toNat
      match s.place p.wg p.va.toNat with
      | .absent st _ =>
        match s.takeSlot g.core p.wg p.va.toNat p.waiter p.kind p.source p.tid (p.count + 1) with
        | some (s, slot) =>
          (s.parkAgain p.waiter).replayFailed (g.core / 16) slot { p with core := g.core } (p.count + 1) st
        | none => s.updWg p.wg fun g => { g with parks := g.parks ++ [p] }
      | _ => s.unpark (g.core / 16) p.waiter

/-- The parked accesses of a context are replayed. -/
def State.replayContext (s : State) (w : Nat) : State :=
  match s.wgs[w]? with
  | none => s
  | some g => g.parks.foldl State.replaySaved (s.updWg w fun g => { g with parks := [] })

/-- The squashed copies of a workgroup as they are issued again on a core; one that now touches a lost allocation transfers
nothing (R209, R282). -/
def State.copiesAgain (s : State) (w core : Nat) : List Copy :=
  (s.copies.filter fun c => c.wg = w && c.squashed).map fun c =>
    let lost := (s.wholeSides c.form c.cast.isSome (copyDesc c.desc)).any (s.touchesLost w)
    { c with squashed := false, core := core, lost := c.lost || lost }

/-- The engine words of a workgroup as they are issued again; one that now touches a lost allocation transfers nothing
(R209, R241). -/
def State.opsAgain (s : State) (w : Nat) (g : Wg) : List Op :=
  match g.drive with
  | some d => d.ops.map fun o => if o.running then o
      else { o with lost := o.lost || (opSpans g (d.before o) o).any fun x => s.touchesLost w x.1 }
  | none => []

/-- Lock entries that a resumed workgroup takes again (R298 step 5). -/
def State.resumeLocks (s : State) (w : Nat) : List Lock :=
  match s.wgs[w]? with
  | none => []
  | some g =>
    ((s.copiesAgain w g.core).flatMap s.copyLocks) ++
      (match g.drive with
        | some d => d.ops.flatMap fun o => (opSpans g (d.before o) o).map fun x => s.spanLock o.id x.2 w x.1
        | none => [])

/-- Steps 3 to 6 of R298, once banks are lit and contents are back. -/
def State.restore (s : State) (w : Nat) : State :=
  match s.wgs[w]? with
  | none => s
  | some g =>
    let cs := s.copiesAgain w g.core
    let s : State := s.lock g.core (s.resumeLocks w)
    let s : State := (cs.foldl State.lockFar s).updDrive w fun d => { d with ops := s.opsAgain w g }
    let s : State := cs.foldl State.beginFar s
    let s : State := { s with copies := s.copies.map fun c => (cs.find? fun x => x.id = c.id).getD c }
    let s : State := (s.threadsOf w).foldl (fun s i => s.updThread i fun th => { th with recheck := th.pc.idx ≠ 0 && !th.exited }) s
    let s : State := s.updDrive w fun d => { d with recheck := d.pc.idx ≠ 0 && !d.halted }
    let s : State := s.updWg w fun g => { g with state := .restored }
    let s : State := s.replayContext w
    s.activate w fun q => ((g.squads[q]?).map (·.was)).getD false

/-- The cores on which the members of a team that already stand have been placed. -/
def State.teamCores (s : State) (l t : Nat) : List Nat :=
  (s.wgs.filter fun g => g.launch = l && g.team = t && g.resident).map (·.core)

/-- A core lies in the cluster of a team's members that already stand (R319), and not in that where one has failed
(R331). -/
def State.clusterOk (s : State) (l t core : Nat) : Bool :=
  ((s.teamCores l t).all fun c => c / 4 = core / 4) &&
    (((s.launches[l]?).bind fun x => x.teams[t]?).bind (·.avoid)) ≠ some (core / 4)

/-- A workgroup's core changes: its team's cluster follows. -/
def State.setCluster (s : State) (l t c : Nat) : State :=
  { s with launches := s.launches.modify l fun x => { x with teams := x.teams.modify t fun y => { y with cluster := c } } }

/-- The rank by which a bank of a resumed workgroup obtains its array: the highest of the saved allocations in it (R199,
R298 step 2). -/
def State.keptRank (s : State) (w bank : Nat) : Nat :=
  match s.wgs[w]? with
  | none => 0
  | some g => ((g.allocs.filter fun a => !a.lost && (g.kept.any fun k => k.base = a.base) &&
      (s.banksOf w a.base a.size).contains bank).map fun a => a.rank.toNat).foldl max 0

/-- Arrays are sought for the banks of a resumed workgroup that have none; none where the budget will not light them. -/
def State.seekKept (s : State) (w core : Nat) : Option State :=
  ((s.keptBanks w).filter fun b => !s.bankLit core b && !s.bankTesting core b).foldl
    (fun (r : Option State) b => r.bind fun s => s.obtainArray core b (s.keptRank w b)) (some s)

/-- Once every bank of a resumed workgroup is lit and its lock entries are free, its contents go back and it is restored
(R298 steps 2 to 6); else it waits. -/
def State.finishResume (s : State) (w core : Nat) : Option State :=
  match s.wgs[w]? with
  | none => none
  | some g =>
    if (s.keptBanks w).any (fun b => !s.bankLit core b) || s.locksFree core < (s.resumeLocks w).length then none
    else some ((((s.writeKept w).restore w).setCluster g.launch g.team (core / 4)).releaseTeam g.launch g.team)

/-- The Stile of a team. -/
def State.stileOf (s : State) (l t : Nat) : Nat := (((s.launches[l]?).bind fun x => x.teams[t]?).map (·.cluster)).getD 0

/-- A resumed workgroup takes its room on the cluster whose Stile resumes its team and seeks arrays for its banks; none where
something does not fit (R298, R358). -/
def State.resumeOn (s : State) (w core : Nat) : Option State :=
  match s.wgs[w]?, s.launchOf? w with
  | some g, some l =>
    if g.state ≠ .resuming || core / 4 ≠ s.stileOf g.launch g.team || !s.fits core l.proc l.desc ||
        !s.clusterOk g.launch g.team core then none
    else ((s.takeRoom w core l.desc .lighting).seekKept w core).map fun s => (s.finishResume w core).getD s
  | _, _ => none

/-- A resumed workgroup goes on: a bank whose test has failed seeks another array, its contents go back, an access that
found no slot is replayed (R297, R298). -/
def State.resumeMore (s : State) (w core : Nat) : Option State :=
  match s.wgs[w]? with
  | none => none
  | some g =>
    if g.core ≠ core then none
    else if g.state = .lighting then
      if (s.keptBanks w).any fun b => !s.bankLit core b && !s.bankTesting core b then s.seekKept w core else s.finishResume w core
    else if g.state = .restored && !g.parks.isEmpty &&
        ((s.hubs[core / 16]?).any fun h => h.slots.any Option.isNone) then
      some ((s.replayContext w).releaseTeam g.launch g.team)
    else none

/-- WORKGROUP_RESUME (R298): room is taken, or an array is sought again, or the contents go back. -/
def execWorkgroupResume (w core : Nat) (s : State) : Out :=
  match (s.resumeOn w core).or (s.resumeMore w core) with
  | some s => .next s
  | none => .fault .stepNotEnabled

/-- WORKGROUP_RELAUNCH (R301, R302, R331): every committed entry is over; on a core of another cluster, from the record or
from the start. -/
def State.relaunchOn (s : State) (w core : Nat) : Option State :=
  match s.wgs[w]?, s.launchOf? w with
  | some g, some l =>
    if g.state ≠ .killed || !g.hay.isEmpty || !g.wadds.isEmpty || g.core / 4 = core / 4 || !s.fits core l.proc l.desc ||
        !s.clusterOk g.launch g.team core then none
    else
      let half := s.restartable w && (s.control w).getLsbD 1
      let s : State := s.takeRoom w core l.desc .restored
      let s : State := if half then (s.readHalf w).startAcquire w else s.beginWg w
      let s : State := s.updWg w fun g => { g with records := [], spilledRecords := 0 }
      some (((s.activate w fun _ => true).setCluster g.launch g.team (core / 4)).releaseTeam g.launch g.team)
  | _, _ => none

/-- WORKGROUP_RELAUNCH. -/
def execWorkgroupRelaunch (w core : Nat) (s : State) : Out :=
  match s.relaunchOn w core with
  | some s => .next s
  | none => .fault .stepNotEnabled

/-! ## Commands (R292, R319, R358) -/

/-- A pre-emption request reaches a team (R292, R319): a second one, or one of a launch marked `.preemptible no`, has no
effect. -/
def State.requestTeam (s : State) (l t : Nat) : State :=
  let ms := s.teamOf l t
  let busy := ms.any fun w => ((s.wgs[w]?).map fun g => g.request.isSome || g.state = .saving).getD false
  let here : Wg → Bool := fun g => g.state = .resident || g.state = .lighting || g.state = .restored
  if busy || !(((s.launches[l]?).map (·.desc.pre)).getD false) then s
  else ms.foldl (fun s w => s.updWg w fun g => if here g then { g with request := some ⟨s.clk, false, false⟩ } else g) s

/-- Teams with a workgroup on a core are pre-empted (R331, R365). -/
def State.requestCore (s : State) (core : Nat) : State :=
  (s.residents core).foldl (fun s w => match s.wgs[w]? with
    | some g => s.requestTeam g.launch g.team
    | none => s) s

/-- A team is to resume on a cluster (R298, R319): its saved members wait for room there, or where members of it already
stand; one that is still being saved is not to be resumed, and the command is ignored. -/
def State.resumeAt (s : State) (l t c : Nat) : State :=
  let ms := s.teamOf l t
  let is_ : WgState → Bool := fun st => ms.any fun w => ((s.wgs[w]?).map fun g => decide (g.state = st)).getD false
  if is_ .saving || !(is_ .saved || is_ .resuming) then s
  else
    let s : State := if (s.teamCores l t).isEmpty then s.setCluster l t c else s
    ms.foldl (fun s w => s.updWg w fun g => if g.state = .saved then { g with state := .resuming } else g) s

/-- A command takes effect at its Stile (R358); naming a team or workgroup that is not resident it is ignored. -/
def State.perform_ (s : State) (c : Command) : State :=
  match c with
  | .place l t => { s with placements := s.placements.modify (s.stileOf l t) fun q => q ++ [(l, t)] }
  | .preempt l t => s.requestTeam l t
  | .resume l t c => s.resumeAt l t c
  | .kill w => if ((s.wgs[w]?).map (·.resident)).getD false then s.killOpen w else s
  | .withdraw c => (s.updCore c fun k => { k with withdrawn := true }).requestCore c
  | .return_ c => s.updCore c fun k => { k with withdrawn := false }

/-- A command is sent down a link, or held behind others (R358). -/
def State.sendDown (s : State) (stile : Nat) (c : Command) : State :=
  match s.links[stile]? with
  | none => s
  | some l =>
    if l.down = 0 || !l.held.isEmpty then
      { s with links := s.links.modify stile fun l => { l with held := l.held ++ [c] } }
    else
      let s : State := { s with links := s.links.modify stile fun l => { l with down := l.down - 1 } }
      s.perform_ c

/-- The team has been sent to a Stile. -/
def State.teamSent (s : State) (l t : Nat) : Bool := (((s.launches[l]?).bind fun x => x.teams[t]?)).isSome

/-- PREEMPT_TEAM (R292, R358): sent whether or not the team is resident, which its Stile tests. -/
def execPreemptTeam (l t : Nat) (s : State) : Out :=
  if s.teamSent l t then .next (s.sendDown (s.stileOf l t) (.preempt l t)) else .fault .stepNotEnabled

/-- The workgroup stands in a saved context of a team. -/
def State.savedIn (s : State) (l t w : Nat) : Bool :=
  ((s.wgs[w]?).map fun g => g.launch = l && g.team = t && g.state = .saved).getD false

/-- A debug handler's edit of a thread (R294, R378). A hold whose place it moves no longer spares the word there. -/
def Thread.edit (th : Thread) (x : ThreadEdit) : Thread :=
  let y : Thread := x.m.foldl (fun th x => th.setMask x.1 x.2) (th.setRegs x.g)
  let moved := x.pc.isSome
  { y with
    pc := (x.pc.map fun a => ⟨a.1, a.2⟩).getD th.pc
    unmatched := th.unmatched && !moved, hold := th.hold.map fun h => { h with brk := h.brk || moved }
    p := x.p.getD th.p, rm := x.rm.getD th.rm, flags := x.flags.getD th.flags
    tcause := x.tcause.getD th.tcause, tval := x.tval.getD th.tval, tac := x.tac.getD th.tac
    tpc := x.tpc.getD th.tpc, tvec := x.tvec.getD th.tvec, csb := x.csb.getD th.csb
    stack := (x.stack.map fun a => a.1.take 16).getD th.stack, depth := (x.stack.map (·.2)).getD th.depth }

/-- One byte of the scratchpad contents in a saved context, by its offset in the pool; none outside them. -/
def Wg.editKept (g : Wg) (off : Nat) (b : Byte) : Wg :=
  { g with kept := g.kept.map fun k =>
      if g.allocs.any fun a => a.base = k.base && !a.lost && a.base ≤ off && off < a.base + a.size then
        { k with bytes := memSet k.bytes (off - k.base) b }
      else k }

/-- A debug handler's edit of a saved context (R294, R378): a thread; a drive stream's place, registers and mode; scratchpad
contents. -/
def State.edit (s : State) (l t : Nat) (e : ContextEdit) : State :=
  match e with
  | .thread i x => if s.savedIn l t (((s.threads[i]?).map (·.wg)).getD s.wgs.length) then s.updThread i fun th => th.edit x else s
  | .drive w pc d mode =>
    if !s.savedIn l t w then s
    else s.updDrive w fun v =>
      let y : Drive := d.foldl (fun v x => v.setReg x.1 x.2) v
      { y with
        pc := (pc.map fun a => ⟨a.1, a.2⟩).getD v.pc, mode := mode.getD v.mode
        unmatched := v.unmatched && pc.isNone, hold := v.hold.map fun h => { h with brk := h.brk || pc.isSome } }
  | .scratch w off bs => if s.savedIn l t w then s.updWg w fun g => bs.zipIdx.foldl (fun g x => g.editKept (off + x.2) x.1) g else s

/-- RESUME_TEAM (R298, R358): Meridian sends the command to the Stile that is to resume the team, after a debug handler has
edited what it would of the contexts (R378). -/
def execResumeTeam (team : Nat × Nat × Nat) (edits : List ContextEdit) (s : State) : Out :=
  let l := team.1
  let t := team.2.1
  let stile := team.2.2
  if s.teamSent l t && stile < s.links.length then
    .next ((edits.foldl (fun s e => s.edit l t e) s).sendDown stile (.resume l t stile))
  else .fault .stepNotEnabled

/-- KILL_WORKGROUP (R358). -/
def execKillWorkgroup (w : Nat) (s : State) : Out :=
  match s.wgs[w]? with
  | some g => .next (s.sendDown (g.core / 4) (.kill w))
  | none => .fault .stepNotEnabled

/-- WITHDRAW_CORE (R331, R358). -/
def execWithdrawCore (c : Nat) (s : State) : Out :=
  if c < s.cores.length then .next (s.sendDown (c / 4) (.withdraw c)) else .fault .stepNotEnabled

/-- RETURN_CORE (R358). -/
def execReturnCore (c : Nat) (s : State) : Out :=
  if c < s.cores.length then .next (s.sendDown (c / 4) (.return_ c)) else .fault .stepNotEnabled

/-- COMMAND_ACK (R358): a permit returns, and the next held command or report is sent. -/
def execCommandAck (stile : Nat) (up : Bool) (s : State) : Out :=
  match s.links[stile]? with
  | none => .fault .stepNotEnabled
  | some l =>
    if up then
      if 8 ≤ l.up then .fault .stepNotEnabled
      else match l.upHeld with
        | [] => .next { s with links := s.links.modify stile fun l => { l with up := l.up + 1 } }
        | r :: t =>
          let s : State := { s with links := s.links.modify stile fun l => { l with upHeld := t } }
          .next (s.take_ r)
    else if 8 ≤ l.down then .fault .stepNotEnabled
    else match l.held with
      | [] => .next { s with links := s.links.modify stile fun l => { l with down := l.down + 1 } }
      | c :: t =>
        let s : State := { s with links := s.links.modify stile fun l => { l with held := t } }
        .next (s.perform_ c)

end Sys2Proof.Machine
end

