-- ==== Sys2Proof/Machine/Die.lean ====
section
/-! DEFINITION. Die: replays of parked accesses (R345), `ptsync` and `icinv` (R346, R347), expansion (R343), and failures
at the level of the die (R356). -/

namespace Sys2Proof.Machine

/-! ## Parked accesses and their replay (R345) -/

/-- The lookup of a parked access's address. -/
def State.lookParked (s : State) (die : Nat) (p : ParkedAccess) : State :=
  match p.waiter with
  | .peer _ => s.fillWalk die p.proc p.va.toNat
  | _ => s.look p.wg p.va.toNat

/-- Where a parked access's address lies. -/
def State.placeParked (s : State) (die : Nat) (p : ParkedAccess) : Place :=
  match p.waiter with
  | .peer _ => s.peerPlace die p.proc p.va.toNat
  | _ => s.place p.wg p.va.toNat

/-- The replay of a parked access: translated afresh; resident, it proceeds and its slot is free; still not resident, its
count rises and its record is posted again; at 4 it is unrecoverable. -/
def State.replay (s : State) (die slot : Nat) : State :=
  match (s.hubs[die]?).bind fun h => (h.slots[slot]?).join with
  | none => s
  | some p =>
    let s : State := s.lookParked die p
    match s.placeParked die p with
    | .absent st _ => s.replayFailed die slot p (p.count + 1) st
    | _ => (s.clearSlot die slot).unpark die p.waiter

/-- Every parked access of the module that a test selects is replayed. -/
def State.replayAll (s : State) (f : ParkedAccess → Bool) : State :=
  let all := s.hubs.zipIdx.flatMap fun (h, die) => h.slots.zipIdx.filterMap fun (x, slot) =>
    match x with
    | some p => if f p then some (die, slot) else none
    | none => none
  all.foldl (fun s (die, slot) => s.replay die slot) s

/-- REPLAY_DOORBELL (R343, R345): a slot number is written to a die's doorbell; an expansion that waits for it goes on
once the ring holds frames. -/
def execReplayDoorbell (die slot : Nat) (s : State) : Out :=
  if s.hubs.length ≤ die then .fault .stepNotEnabled
  else
    let wake (h : Hub) : Hub :=
      if h.frames.isEmpty then h else { h with expands := h.expands.map fun e => { e with waits := false } }
    .next ((s.updHub die wake).replay die slot)

/-! ## ptsync and icinv (R346, R347) -/

/-- Translations of a process that a test selects leave every translation buffer and walk cache. -/
def State.dropCached (s : State) (p : Nat) (f : Cached → Bool) : State :=
  let keep : List Cached → List Cached := fun l => l.filter fun c => !(c.proc = p && f c)
  { s with
    cores := s.cores.map fun c => { c with tlb := keep c.tlb }
    hubs := s.hubs.map fun h => { h with walk := keep h.walk } }

/-- The leaf that the tables of a process hold for an address now, once the translations of it are gone. -/
def State.leafNow (s : State) (p va : Nat) : List Cached :=
  ((s.walk 0 p va).getLast?).toList.filter fun c => c.pte.getLsbD 1

/-- `ptsync` of a page (R346): its translations and the entries on its path go, then its parked accesses are replayed. -/
def State.syncPage (s : State) (p va : Nat) : State :=
  let leaves := s.heldLeaves p va
  let s : State := s.dropCached p fun c => c.holds va
  let now := s.leafNow p va
  let s : State := now.foldl (fun s c => s.arrived leaves c) s
  s.replayAll fun a => a.proc = p && (a.va.toNat / 65536 = va / 65536 || (leaves ++ now).any fun c => c.holds a.va.toNat)

/-- `ptsync` of a context. -/
def State.syncAll (s : State) (p : Nat) : State :=
  let leaves := (s.cores.flatMap (·.tlb) ++ s.hubs.flatMap (·.walk)).filter fun c => c.proc = p && c.pte.getLsbD 1
  let s : State := s.dropCached p fun _ => true
  let s : State := ((leaves.map (·.base)).dedup).foldl (fun s va =>
    (s.leafNow p va).foldl (fun s c => s.arrived (leaves.filter (·.holds va)) c) s) s
  s.replayAll fun a => a.proc = p

/-- The workgroup's launch is privileged (R346). -/
def State.privileged (s : State) (w : Nat) : Bool := ((s.launchOf? w).map (·.desc.priv)).getD false

/-- What issuing `ptsync.page` asks. -/
def ptsyncPageIssue (g : BitVec 3) (a : BitVec 7) : Issue := ⟨even a, pair a, g, 1, true, g ++ 0xFC#8 ++ 0#7 ++ a ++ 0#7⟩

/-- R346. -/
def execPtsyncPage (g : BitVec 3) (a : BitVec 7) (s : State) : Out :=
  onIssue (ptsyncPageIssue g a) s fun k th s =>
    if !s.privileged th.wg then s.illegalWord k (ptsyncPageIssue g a).word
    else (s.updThread k fun th => th.advance 1).syncPage (s.procOf th.wg) (th.pair a).toNat

/-- What issuing `ptsync.all` asks. -/
def ptsyncAllIssue (g : BitVec 3) : Issue := ⟨true, [], g, 1, true, g ++ 0xFC#8 ++ 1#21⟩

/-- R346. -/
def execPtsyncAll (g : BitVec 3) (s : State) : Out :=
  onIssue (ptsyncAllIssue g) s fun k th s =>
    if !s.privileged th.wg then s.illegalWord k (ptsyncAllIssue g).word
    else (s.updThread k fun th => th.advance 1).syncAll (s.procOf th.wg)

/-- HUB_PTSYNC (R346): by a resident core. -/
def execHubPtsync (p : Nat) (va : Option VAddr) (s : State) : Out :=
  if s.processes.length ≤ p then .fault .stepNotEnabled
  else match va with
    | some va => .next (s.syncPage p va.toNat)
    | none => .next (s.syncAll p)

/-- What issuing `icinv` asks. -/
def icinvIssue (g : BitVec 3) (a : BitVec 7) (sc : BitVec 4) : Issue :=
  ⟨even a && (sc = 3#4 || sc = 5#4 || sc = 6#4 || sc = 7#4), pair a, g, 1, true, g ++ 0xFD#8 ++ 0#7 ++ a ++ 0#3 ++ sc⟩

/-- A core lies within a scope of another (R8). -/
def coreWithin (sc : BitVec 4) (a b : Nat) : Bool :=
  if sc = 3#4 then a = b else if sc = 5#4 then a / 4 = b / 4 else if sc = 6#4 then a / 16 = b / 16 else true

/-- The line of a physical address leaves the instruction caches within a scope (R347). -/
def State.dropLine (s : State) (core : Nat) (sc : BitVec 4) (phys : Nat) : State :=
  { s with cores := s.cores.zipIdx.map fun (c, k) =>
      if coreWithin sc core k then { c with icache := c.icache.filter fun l => l.line ≠ phys / 128 } else c }

/-- R347: the line that holds pair(a), as the issuer's process maps it. -/
def execIcinv (g : BitVec 3) (a : BitVec 7) (sc : BitVec 4) (s : State) : Out :=
  onIssue (icinvIssue g a sc) s fun k th s =>
    let s : State := match s.physVa th.wg (th.pair a).toNat with
      | some p => s.dropLine (s.coreOf th.wg) sc p
      | none => s
    s.updThread k fun th => th.advance 1

/-! ## Expansion (R343) -/

/-- The home of the leaf entry of an address, from the tables in memory. -/
def leafHome (m : List Host.Cell) (va : Nat) : Nat → Nat → Nat → Option Nat
  | 0, _, _ => none
  | n + 1, level, table =>
    let a := pteHome table level va
    let e := memDouble m a
    if !(walkable level va && pteValid level e) then none
    else if e.getLsbD 1 then some a
    else leafHome m va n (level + 1) (pteAddr e)

/-- The home of a process's leaf entry. -/
def State.leafHome (s : State) (p va : Nat) : Option Nat :=
  (s.processes[p]?).bind fun x => Sys2Proof.Machine.leafHome s.mem va 5 0 x.root

/-- An entry with another state (R340). -/
def pteWith (e : BitVec 64) (st : BitVec 2) : BitVec 64 := (e.extractLsb' 8 56) ++ st ++ (e.extractLsb' 0 6)

/-- An entry with another address field (R340). -/
def pteTo (e : BitVec 64) (frame : BitVec 52) : BitVec 64 :=
  (e.extractLsb' 52 12) ++ (frame.extractLsb' 16 36) ++ 0#8 ++ (e.extractLsb' 0 8)

/-- The image of a cold page, decompressed (R343; log 12): what it gives depends on its bytes. -/
def State.imageBytes (s : State) (image : Nat) : List Byte :=
  let held := memRead s.mem image 65536
  (List.range 65536).map (Config.expandedByte held)

/-- A record about an expansion, for the access that began it (R343, R344). -/
def State.postExpand (s : State) (e : Expand) (cause : BitVec 8) : State :=
  match e.peer with
  | some x => s.postRecord e.core x.launch x.wgid e.at_ e.slot cause e.source 0#4 e.kind 0
  | none => s.postFaultOn e.core e.wg e.at_ e.slot cause e.source 0#4 e.kind (recordTid e.source e.tid)

/-- Steps 1 and 2 of R343 for the k-th expansion of a die: state 3, then a frame and the image. With the ring empty a
record is posted and the expansion waits; a page no longer cold is reported as released. -/
def State.expand (s : State) (die k : Nat) : Option State :=
  match (s.hubs[die]?).bind fun h => (h.expands[k]?).map fun e => (h, e) with
  | none => none
  | some (h, e) =>
    if e.frame.isSome || e.waits then none
    else
      let post : BitVec 8 → State → State := fun c s => s.postExpand e c
      match s.leafHome e.proc e.va.toNat with
      | none => some (post 2#8 (s.updHub die fun h => { h with expands := h.expands.eraseIdx k }))
      | some a =>
        let pte := memDouble s.mem a
        if !((pteState pte = 1#2 || pteState pte = 3#2) && pteAddr pte = e.image) then
          some (post 2#8 (s.updHub die fun h => { h with expands := h.expands.eraseIdx k }))
        else
          let s : State := s.poke a (toBytes 8 (pteWith pte 3#2).toNat)
          match h.frames with
          | [] => some (post 1#8 (s.updHub die fun h => { h with expands := h.expands.modify k fun e => { e with waits := true } }))
          | f :: rest =>
            let frame := f.toNat / 65536 * 65536
            some (((s.renewFrame frame 65536).poke frame (s.imageBytes e.image)).updHub die fun h =>
              { h with frames := rest, expands := h.expands.modify k fun e => { e with frame := some f } })

/-- EXPANSION. -/
def execExpansion (die k : Nat) (s : State) : Out :=
  match s.expand die k with
  | some s => .next s
  | none => .fault .stepNotEnabled

/-- EXPANSION_COMPLETE: steps 3 and 4 of R343, and the image's space returned. -/
def execExpansionComplete (die k : Nat) (s : State) : Out :=
  match (s.hubs[die]?).bind fun h => h.expands[k]? with
  | none => .fault .stepNotEnabled
  | some e =>
    match e.frame with
    | none => .fault .stepNotEnabled
    | some f =>
      let s : State := s.updHub die fun h => { h with expands := h.expands.eraseIdx k }
      let s : State := match s.leafHome e.proc e.va.toNat with
        | some a => s.poke a (toBytes 8 (pteTo (pteWith (memDouble s.mem a) 0#2) f).toNat)
        | none => s
      let lo := e.va.toNat
      let s : State := s.dropCached e.proc fun c => lo < c.base + c.size && c.base < lo + 65536
      .next ((s.replayAll fun a => a.proc = e.proc && a.va.toNat / 65536 = lo / 65536).notify (.imageReturned e.image))

/-- FRAME_RING_SUPPLY (R336, R343): the ring holds 1,024 frames. -/
def execFrameRingSupply (die : Nat) (frames : List (BitVec 52)) (s : State) : Out :=
  if s.hubs.length ≤ die then .fault .stepNotEnabled
  else .next (s.updHub die fun h => { h with frames := (h.frames ++ frames).take 1024 })

/-! ## Failures (R356) -/

/-- A parked access of a failed die goes: a buffered store and a `wadd` are discarded, a detached copy ends with FAULT,
another module's access too. -/
def State.dropParked (s : State) (p : ParkedAccess) : State :=
  match p.waiter with
  | .entry w id => s.drained w id
  | .copy id => match s.copies.find? fun c => c.id = id with
    | some c => s.copyEarly c 2#8
    | none => s
  | .peer a => s.answerPeer a.peer 2 []
  | .wadd w id => s.waddDone w id
  | _ => s

/-- DIE_HUB_FAILURE: every workgroup on the die is killed, its cores take no placement, and its parked accesses go with
their workgroups. -/
def execDieHubFailure (die : Nat) (s : State) : Out :=
  if s.hubs.length ≤ die then .fault .stepNotEnabled
  else
    let cores := (List.range 16).map (16 * die + ·)
    let s : State := cores.foldl (fun s c => s.updCore c fun k => { k with withdrawn := true }) s
    let ws := cores.flatMap s.residents
    let s : State := ws.foldl (fun s w => s.killOpen w) s
    let left := ((s.hubs[die]?).map fun h => h.slots.filterMap id).getD []
    let s : State := s.updHub die fun h => { h with slots := h.slots.map fun _ => none }
    .next (left.foldl (fun s p => s.dropParked p) s)

/-- DATA_POISONED (R301, R356): the data is marked, a record is sent and nothing is killed. -/
def execDataPoisoned (addr : Nat) (s : State) : Out :=
  .next (({ s with poison := addr :: s.poison.filter (· ≠ addr) }).notify (.poisoned addr))

end Sys2Proof.Machine
end

