-- ==== Sys2Proof/Machine/Launch.lean ====
section
/-! DEFINITION. Launch: named events (R352-R354), launches from their submission to their end (R174-R178, R318,
R348-R351), and charges to the run tree (R359). -/

namespace Sys2Proof.Machine

/-! ## Named events (R352) -/

/-- An event's entry in the event table (R352). -/
def Event.bytes (x : Event) : List Byte :=
  toBytes 8 (0#16 ++ x.target ++ x.count ++ 0#15 ++ (if x.set then 1#1 else 0#1)).toNat

/-- The event table of a domain. -/
def State.eventTable (s : State) (d : Nat) : Option Nat := (s.processes.find? fun p => p.domain = d).bind (·.table)

/-- An entry of the event table as an event takes it: a target of zero stands for the reset, 1 (log 74). -/
def Event.load (x : Event) (v : BitVec 64) : Event :=
  { x with
    target := if v.extractLsb' 32 16 = 0 then 1 else v.extractLsb' 32 16
    count := v.extractLsb' 16 16, set := v.getLsbD 0 }

/-- An event at its reset, or as its domain's table has it (R352). -/
def State.loadEvent (s : State) (x : Event) : Event :=
  match s.eventTable x.domain with
  | some base => x.load (memDouble s.mem (base + 8 * x.num.toNat))
  | none => x

/-- An event as the Almanac has it; one not held is loaded from its table. -/
def State.event (s : State) (d : Nat) (e : BitVec 16) : Event :=
  (s.events.find? fun x => x.domain = d && x.num = e).getD (s.loadEvent ⟨d, e, 1, 0, false, false, []⟩)

/-- An event changes, and the change is written through to its table. -/
def State.setEvent (s : State) (x : Event) : State :=
  let s : State := { s with events := x :: s.events.filter fun y => !(y.domain = x.domain && y.num = x.num) }
  match s.eventTable x.domain with
  | some base => s.poke (base + 8 * x.num.toNat) x.bytes
  | none => s

/-- The wait events of a launch that are not zero. -/
def Launch.events (l : Launch) : List (BitVec 16) := l.desc.waits.filter (· ≠ 0)

/-- Every wait event of a launch is set (R350). -/
def State.waitsMet (s : State) (l : Launch) : Bool := l.events.all fun e => (s.event l.desc.domain e).set

/-- A waiter still waits: a thread of the squad is parked on the event, or the launch is queued. -/
def State.waiting (s : State) (d : Nat) (e : BitVec 16) : EvWaiter → Bool
  | .squad w q => (s.squadOf w q).any fun i => ((s.threads[i]?).map fun th => decide (th.park = .event d e)).getD false
  | .launch l => ((s.launches[l]?).map fun x => decide (x.state = .queued)).getD false

/-- A waiter joins an event's list, behind those that wait (R354). -/
def State.addWaiter (s : State) (d : Nat) (e : BitVec 16) (x : EvWaiter) : State :=
  let v := s.event d e
  let ws := v.waiters.filter (s.waiting d e)
  if ws.contains x then s else s.setEvent { v with waiters := ws ++ [x] }

/-- Queued launches whose waits are all set at this moment are ready (R350). -/
def State.testWaits (s : State) : State :=
  { s with launches := s.launches.map fun l => if l.state = .queued && s.waitsMet l then { l with state := .ready } else l }

/-- An `evwait` whose event is set (R353, R402): the thread obtains what the signals counted released, then acquires at
device scope, at fabric scope where a signal of another module was counted, after the drains in progress there (R406), and
goes on. -/
def State.eventAcquire (s : State) (i d : Nat) (e : BitVec 16) : State :=
  let sc : BitVec 4 := if (s.event d e).remote then scopeFabric else 7#4
  (s.acquire i (.event d e) sc).acquireAfter i sc (s.draining i sc)

/-- The threads parked on an event go on. -/
def State.releaseEvent (s : State) (d : Nat) (e : BitVec 16) : State :=
  (List.range s.threads.length).foldl (fun s i =>
    if ((s.threads[i]?).map fun th => decide (th.park = .event d e)).getD false then
      s.eventAcquire i d e
    else s) s

/-- The second part of `evsig` (R353): a signal is counted; at the target the event is set and its waiters go on. -/
def State.signal (s : State) (d : Nat) (e : BitVec 16) (remote : Bool) : State :=
  let x := s.event d e
  if x.set then s
  else if x.count + 1 = x.target then
    let s : State := s.setEvent { x with set := true, count := 0, remote := x.remote || remote }
    let s : State := s.releaseEvent d e
    let y := s.event d e
    (s.setEvent { y with waiters := y.waiters.filter (s.waiting d e) }).testWaits
  else s.setEvent { x with count := x.count + 1, remote := x.remote || remote }

/-- EVENT_SIGNAL_APPLY: the k-th signal in flight arrives at the Almanac. -/
def execEventSignalApply (k : Nat) (s : State) : Out :=
  match s.messages[k]? with
  | some m => .next (({ s with messages := s.messages.eraseIdx k }).signal m.domain m.num m.remote)
  | none => .fault .stepNotEnabled

/-! ## The event words (R353) -/

/-- The event domain of a workgroup. -/
def State.domainOf (s : State) (w : Nat) : Nat := ((s.launchOf? w).map (·.desc.domain)).getD 0

/-- What issuing an event word asks. -/
def eventIssue (g : BitVec 3) (a : BitVec 7) (x : BitVec 7) : Issue := ⟨true, [a], g, 1, true, g ++ 0xF9#8 ++ 0#7 ++ a ++ x⟩

/-- An operand of `evsig`, `evwait` and `evclr` that raises ILLEGAL. -/
def eventBad (v : Word) : Bool := v.extractLsb' 0 16 = 0 || v.extractLsb' 16 16 ≠ 0

/-- A signal of a thread of its own is still on its way to the event. -/
def State.signalling (s : State) (k d : Nat) (e : BitVec 16) : Bool :=
  s.messages.any fun m => m.domain = d && m.num = e && m.from_ = some (.thread k)

/-- What a thread has released is released through an event too (R353). -/
def State.releaseTo (s : State) (a : Agent) (d : Nat) (e : BitVec 16) : State :=
  s.release a [.default] (.event d e) 7#4 s.draw [] true

/-- R353: `rel.device`, then the signal. -/
def execEvsig (g : BitVec 3) (a : BitVec 7) (s : State) : Out :=
  onIssue (eventIssue g a 0) s fun k th s =>
    if eventBad (th.reg a) then s.illegalWord k (eventIssue g a 0).word
    else
      let d := s.domainOf th.wg
      let e := (th.reg a).extractLsb' 0 16
      s.relThen k th .default 7#4 fun s =>
        let s : State := s.releaseTo (.thread k) d e
        ({ s with messages := s.messages ++ [(⟨d, e, some (.thread k), false⟩ : EventMsg)] }).updThread k fun th => th.advance 1

/-- R353, R354: a set event lets the thread go on at once, with its acquire; else it parks. -/
def execEvwait (g : BitVec 3) (a : BitVec 7) (s : State) : Out :=
  onIssue (eventIssue g a 1) s fun k th s =>
    if eventBad (th.reg a) then s.illegalWord k (eventIssue g a 1).word
    else
      let d := s.domainOf th.wg
      let e := (th.reg a).extractLsb' 0 16
      if th.park.acquires then s.acquireAgain k th
      else if (s.event d e).set then s.eventAcquire k d e
      else (s.addWaiter d e (.squad th.wg th.squad)).updThread k fun th => { th with park := .event d e }

/-- R353: after the thread's own signals to the event. -/
def execEvclr (g : BitVec 3) (a : BitVec 7) (s : State) : Out :=
  onIssue (eventIssue g a 2) s fun k th s =>
    if eventBad (th.reg a) then s.illegalWord k (eventIssue g a 2).word
    else
      let d := s.domainOf th.wg
      let e := (th.reg a).extractLsb' 0 16
      if s.signalling k d e then s
      else (s.setEvent { s.event d e with set := false, count := 0, remote := false }).updThread k fun th => th.advance 1

/-- R353: as `evclr`, and the target. -/
def execEvarm (g : BitVec 3) (a : BitVec 7) (s : State) : Out :=
  onIssue (eventIssue g a 3) s fun k th s =>
    let v := th.reg a
    if v.extractLsb' 0 16 = 0 || v.extractLsb' 16 16 = 0 then s.illegalWord k (eventIssue g a 3).word
    else
      let d := s.domainOf th.wg
      let e := v.extractLsb' 0 16
      if s.signalling k d e then s
      else (s.setEvent { s.event d e with target := v.extractLsb' 16 16, set := false, count := 0, remote := false }
        ).updThread k fun th => th.advance 1

/-- ALMANAC_ERROR (R356): the entry is repaired from the event table; the workgroups among the eight waiters held in
hardware are killed, and launches waiting on the event are reported. -/
def execAlmanacError (d : Nat) (e : BitVec 16) (s : State) : Out :=
  let x := s.event d e
  let fixed := s.loadEvent x
  let ws := x.waiters.filter (s.waiting d e)
  let lost := ws.take 8
  let s : State := s.setEvent { fixed with waiters := ws.filter fun y => match y with
    | .squad _ _ => !lost.contains y
    | .launch _ => true }
  let gone := (lost.filterMap fun y => match y with
    | .squad w _ => some w
    | .launch _ => none).dedup
  let s : State := ws.foldl (fun s y => match y with
    | .launch l => s.notify (.eventLost d l)
    | .squad _ _ => s) s
  .next (gone.foldl (fun s w => s.killOpen w) s)

/-! ## wgdone and the end of a workgroup (R178, R350, R351) -/

/-- wgev of a workgroup's launch. -/
def State.wgevOf (s : State) (w : Nat) : BitVec 16 := ((s.launchOf? w).map (·.desc.wgev)).getD 0

/-- The workgroup signals wgev, once (R351). -/
def State.publish (s : State) (w : Nat) (from_ : Option Agent) : State :=
  if s.wgevOf w = 0 || ((s.wgs[w]?).map (·.published)).getD true then s
  else ({ s with messages := s.messages ++ [(⟨s.domainOf w, s.wgevOf w, from_, false⟩ : EventMsg)] }).updWg w fun g => { g with published := true }

/-- What issuing `wgdone` asks. -/
def wgdoneIssue (g : BitVec 3) : Issue := ⟨true, [], g, 1, true, g ++ 0xFB#8 ++ 0#21⟩

/-- R351: `rel.device`, then the workgroup's signal. -/
def execWgdone (g : BitVec 3) (s : State) : Out :=
  onIssue (wgdoneIssue g) s fun k th s =>
    s.relThen k th .default 7#4 fun s =>
      ((s.releaseTo (.thread k) (s.domainOf th.wg) (s.wgevOf th.wg)).publish th.wg (some (.thread k))).updThread k fun th =>
        th.advance 1

/-- The agents of a workgroup. -/
def State.agentsOf (s : State) (w : Nat) : List Agent := .drive w :: (s.threadsOf w).map Agent.thread

/-- Every write of a workgroup, of whatever object, is released through an event (R350). -/
def State.releaseWg (s : State) (w d : Nat) (e : BitVec 16) : State :=
  let objs := (s.writes.map (·.obj)).dedup
  (s.agentsOf w).foldl (fun s a => (s.release a [.default] .default 7#4 s.draw [] true).release a objs (.event d e) 7#4
    s.draw [] true) s

/-- The workgroups of a launch. -/
def State.wgsOf (s : State) (l : Nat) : List Nat :=
  (List.range s.wgs.length).filter fun w => match s.wgs[w]? with
    | some g => g.launch = l
    | none => false

/-- The launch ends with its last workgroup (R350): its done event is signalled, as a release of all its writes. -/
def State.endLaunch (s : State) (l : Nat) : State :=
  match s.launches[l]? with
  | none => s
  | some x =>
    let ws := s.wgsOf l
    if x.state = .ended || ws.length ≠ x.desc.grid ||
        !(ws.all fun w => ((s.wgs[w]?).map fun g => decide (g.state = .ended)).getD false) then s
    else
      let s : State := if x.desc.done = 0 then s
        else
          let s : State := ws.foldl (fun s w => s.releaseWg w x.desc.domain x.desc.done) s
          { s with messages := s.messages ++ [⟨x.desc.domain, x.desc.done, none, false⟩] }
      ({ s with launches := s.launches.modify l fun x => { x with state := .ended } }).notify (.launchEnded l)

/-- The five conditions of R178. -/
def State.finished (s : State) (w : Nat) (g : Wg) : Bool :=
  g.state = .resident && (s.threadsOf w).all (fun i => ((s.threads[i]?).map (·.exited)).getD false) &&
    (match g.drive with
      | some d => d.halted && d.ops.isEmpty
      | none => true) &&
    !(s.copies.any fun c => c.wg = w && c.form ≠ CopyForm.detach) && g.hay.isEmpty && g.wadds.isEmpty

/-- WORKGROUP_END (R178). -/
def execWorkgroupEnd (w : Nat) (s : State) : Out :=
  match s.wgs[w]? with
  | none => .fault .stepNotEnabled
  | some g =>
    if !s.finished w g then .fault .stepNotEnabled
    else
      let s : State := s.releaseWg w (s.domainOf w) (s.wgevOf w)
      let s : State := ((s.publish w none).revoke w).freeRoom w
      let s : State := (s.updWg w fun g => { g with state := .ended, records := [], spilledRecords := 0, request := none }
        ).endOffset g.core
      .next (s.endLaunch g.launch)

/-! ## Launch descriptors (R348, R349) -/

/-- A field of a descriptor word. -/
def fieldOf (w : Word) (lo n : Nat) : Nat := (w.extractLsb' lo n).toNat

/-- An allotment of registers within R30. -/
def regsOk (regs : Nat) : Bool := 16 ≤ regs && regs ≤ 128 && regs % 8 = 0

/-- Role fields hold (R30, R348). -/
def roleOk (squads regs : Nat) : Bool := 1 ≤ squads && squads ≤ 32 && regsOk regs

/-- The limits of R30 and the reserved bits of R348. The register field of a second role that is not present may be zero
(log 75). -/
def descOk (f : Nat → Word) : Bool :=
  let two := (f 0).getLsbD 20
  let n0 := fieldOf (f 2) 8 6
  let n1 := fieldOf (f 3) 8 6
  let team := fieldOf (f 0) 0 8
  fieldOf (f 0) 26 6 = 0 && fieldOf (f 0) 16 4 = 0 && fieldOf (f 1) 24 8 = 0 && fieldOf (f 2) 14 18 = 0 &&
    fieldOf (f 3) 14 18 = 0 && fieldOf (f 11) 15 17 = 0 && !(f 11).getLsbD 7 && fieldOf (f 24) 16 16 = 0 && f 25 = 0 &&
    (List.range 22).all (fun k => f (42 + k) = 0) &&
    1 ≤ fieldOf (f 0) 8 8 && fieldOf (f 0) 8 8 ≤ 200 && 1 ≤ team && team ≤ 64 && (fieldOf (f 1) 0 24 + 1) % team = 0 &&
    roleOk n0 (fieldOf (f 2) 0 8) && (if two then roleOk n1 (fieldOf (f 3) 0 8) else n1 = 0 && (fieldOf (f 3) 0 8 = 0 || regsOk (fieldOf (f 3) 0 8))) && n0 + n1 ≤ 32 &&
    fieldOf (f 5) 25 7 = 0 && fieldOf (f 7) 25 7 = 0 && fieldOf (f 9) 25 7 = 0 && fieldOf (f 19) 25 7 = 0 &&
    (f 10).toNat ≤ 12582912 && (f 10).toNat % 256 = 0 && fieldOf (f 11) 8 7 ≤ 64 && fieldOf (f 11) 0 7 ≤ 64 &&
    (f 14).toNat ≤ 16384 && ((f 0).getLsbD 22 || f 15 = 0) &&
    (List.range 8).all (fun h => fieldOf (f (27 + 2 * h)) 25 7 = 0)

/-- A 57-bit address in a pair of words. -/
def pairAddr (f : Nat → Word) (k : Nat) : VAddr := (f (k + 1)).extractLsb' 0 25 ++ f k

/-- A descriptor from its words; priv and domain are the issuer's, and Worxus gives the areas (R348). -/
def descOf (f : Nat → Word) (priv : Bool) (domain : Nat) (sys : WorxusLaunch) : Descriptor where
  priv := priv
  tb := (f 0).getLsbD 24
  pre := (f 0).getLsbD 23
  rst := (f 0).getLsbD 22
  drv := (f 0).getLsbD 21
  two := (f 0).getLsbD 20
  ckbound := fieldOf (f 0) 8 8
  team := fieldOf (f 0) 0 8
  grid := fieldOf (f 1) 0 24 + 1
  squads0 := fieldOf (f 2) 8 6
  squads1 := fieldOf (f 3) 8 6
  regs0 := fieldOf (f 2) 0 8
  regs1 := fieldOf (f 3) 0 8
  entry0 := pairAddr f 4
  entry1 := pairAddr f 6
  dentry := pairAddr f 8
  scratch := (f 10).toNat
  tags := fieldOf (f 11) 8 7
  copyq := fieldOf (f 11) 0 7
  spill := sys.spill
  spillsz := (f 14).toNat
  restsz := (f 15).toNat
  rest := sys.rest
  ranges := pairAddr f 18
  nranges := (f 20).toNat
  domain := domain
  done := (f 21).extractLsb' 0 16
  waits := [(f 22).extractLsb' 0 16, (f 22).extractLsb' 16 16, (f 23).extractLsb' 0 16, (f 23).extractLsb' 16 16]
  wgev := (f 24).extractLsb' 0 16
  shapes := (List.range 8).map fun h => let a := pairAddr f (26 + 2 * h); if a = 0 then none else some a

/-- A shape record within the limits of R27. Nonzero size or stride words at or above its rank, and nonzero reserved bits
(R28), break none of them (log 76). -/
def shapeOk (at_ : Nat) (f : Nat → Word) : Bool :=
  let rank := fieldOf (f 0) 0 3
  let e := 2 ^ fieldOf (f 0) 4 2
  at_ % 128 = 0 && 1 ≤ rank && fieldOf (f 3) 25 7 = 0 && (f 2).toNat % e = 0 &&
    (List.range rank).all fun k => 1 ≤ (f (4 + k)).toNat && (f (4 + k)).toNat < 2 ^ 31 && (f (11 + k)).toNat % e = 0

/-- How a launch's words are read: the k-th word from an address on. -/
abbrev ReadWords := Nat → Nat → Word

/-- A workgroup's process reads a run of words. -/
def State.wordsVa (s : State) (w : Nat) : ReadWords := fun va k => BitVec.ofNat 32 (s.numVa w (va + 4 * k) 4)

/-- A process's words as Worxus reads them, where resident pages hold them. -/
def State.wordsOf (s : State) (p : Nat) : ReadWords := fun va k =>
  match ((s.walk s.hubs.length p (va + 4 * k)).getLast?).bind fun c => if c.pte.getLsbD 1 then s.physOf (c.place (va + 4 * k)) else none with
  | some a => memWord s.mem a
  | none => 0

/-- The first shape register whose record breaks R27. -/
def badShape (read : ReadWords) (d : Descriptor) : Option Nat :=
  (List.range 8).find? fun h => match (d.shapes[h]?).join with
    | some va => !shapeOk va.toNat (read va.toNat)
    | none => false

/-- Workgroups of a launch that an empty core holds, as it stands (R174, R318). -/
def State.coreHolds (s : State) (core : Nat) (d : Descriptor) : Nat :=
  match s.cores[core]? with
  | none => 0
  | some c =>
    let per : Nat → Nat → Nat := fun total each => if each = 0 then 16 else total / each
    if c.withdrawn || c.lanesFused = BitVec.allOnes 64 then 0
    else [16, per 64 d.squads, per 524288 d.frames, per (192 - c.retired) d.banks, per 64 d.copyq, per 64 d.tags].foldl min 16

/-- A team of a launch fits a cluster when empty. -/
def State.fitsCluster (s : State) (c : Nat) (d : Descriptor) : Bool :=
  d.team ≤ ((List.range 4).map fun k => s.coreHolds (4 * c + k) d).sum

/-- A team of a launch fits some cluster of the module when empty (R318). -/
def State.fitsSomewhere (s : State) (d : Descriptor) : Bool := (List.range 16).any fun c => s.fitsCluster c d

/-! ## lnch (R349) -/

/-- What issuing `lnch` asks. -/
def lnchIssue (g : BitVec 3) (d a : BitVec 7) : Issue :=
  ⟨even d && even a, pair d ++ pair a, g, 1, true, g ++ 0xFA#8 ++ d ++ a ++ 0#7⟩

/-- R349: the thread waits for Meridian. -/
def execLnch (g : BitVec 3) (d a : BitVec 7) (s : State) : Out :=
  onIssue (lnchIssue g d a) s fun k th s =>
    ({ s with requests := s.requests ++ [(⟨th.wg, some k, (th.pair a).setWidth 57, d, (.thread k, s.draw)⟩ : LaunchRequest)] }).updThread k fun th =>
      { th with park := .launch }

/-- Launches in a process's device queue. -/
def State.queueOf (s : State) (p : Nat) : Nat :=
  (s.launches.filter fun l => l.proc = p && (l.state = .queued || l.state = .ready)).length

/-- A submission to a process's queue: its reader, the descriptor's address, whether it is privileged, its event domain. -/
structure Submission where
  proc : Nat
  read : ReadWords
  desc : VAddr
  priv : Bool
  domain : Nat

/-- The descriptor of a submission. -/
def Submission.descriptor (r : Submission) (sys : WorxusLaunch) : Descriptor := descOf (r.read r.desc.toNat) r.priv r.domain sys

/-- The submission of a `lnch` (R348, R349). -/
def State.submitted (s : State) (r : LaunchRequest) : Submission :=
  ⟨s.procOf r.wg, s.wordsVa r.wg, r.desc, s.privileged r.wg, s.domainOf r.wg⟩

/-- What a submission comes to: a status, or the launch that joins the queue (R349). -/
def State.judgeLaunch (s : State) (r : Submission) (sys : WorxusLaunch) : Nat ⊕ Descriptor :=
  let d := r.descriptor sys
  if 256 ≤ s.queueOf r.proc then .inl 1
  else if r.desc.toNat % 256 ≠ 0 || !descOk (r.read r.desc.toNat) || (badShape r.read d).isSome then .inl 2
  else if !s.fitsSomewhere d then .inl 3
  else .inr d

/-- The thread that waits for the answer gets it. -/
def State.answer (s : State) (r : LaunchRequest) (v : BitVec 64) : State :=
  match r.thread with
  | some k => s.updThread k fun th => if th.park = .launch then (th.setPair r.d v).advance 1 else th
  | none => s

/-- A launch joins its process's queue, with who issued its `lnch` and when; the base of its commons regions is a multiple
of 512 MiB (R322). -/
def State.enqueueLaunch (s : State) (p : Nat) (d : Descriptor) (sys : WorxusLaunch) (by_ : Option (Agent × Nat)) : State :=
  let l := s.launches.length
  let x : Launch := ⟨sys.id, p, d, .queued, sys.pool, sys.commons &&& ~~~0x1FFFFFFF#57, sys.text, sys.drive, [], false, by_⟩
  let s : State := { s with launches := s.launches ++ [x] }
  let s : State := x.events.foldl (fun s e => if (s.event d.domain e).set then s else s.addWaiter d.domain e (.launch l)) s
  s.testWaits

/-- A refused shape record is reported to Worxus (R28). -/
def State.shapeRefused (s : State) (r : Submission) (sys : WorxusLaunch) (status : Nat) : State :=
  match badShape r.read (r.descriptor sys) with
  | some h => if status = 2 then s.notify (.shapeRefused sys.id.toNat h) else s
  | none => s

/-- LNCH_ANSWER. -/
def execLnchAnswer (r : Nat) (sys : WorxusLaunch) (s : State) : Out :=
  match s.requests[r]? with
  | none => .fault .stepNotEnabled
  | some q =>
    let x := s.submitted q
    match s.judgeLaunch x sys with
    | .inl n =>
      .next (({ s with requests := s.requests.eraseIdx r }.shapeRefused x sys n).answer q (0x80000000#32 ++ BitVec.ofNat 32 n))
    | .inr d => .next (({ s with requests := s.requests.eraseIdx r }.enqueueLaunch x.proc d sys (some q.by_)).answer q (sys.id.setWidth 64))

/-- Worxus submits a launch to a process's queue (R349; log 70). -/
def State.submit (s : State) (p : Nat) (desc : VAddr) (priv : Bool) (sys : WorxusLaunch) : State :=
  match s.processes[p]? with
  | none => s
  | some x =>
    let r : Submission := ⟨p, s.wordsOf p, desc, priv, x.domain⟩
    match s.judgeLaunch r sys with
    | .inl n => s.shapeRefused r sys n
    | .inr d => s.enqueueLaunch p d sys none

/-! ## The run tree (R359) -/

/-- The leaf of a launch's queue. -/
def State.leafOf (s : State) (l : Nat) : Nat :=
  (((s.launches[l]?).bind fun x => s.processes[x.proc]?).map (·.leaf)).getD 0

/-- The virtual times on the path of a node, from the top down, each with its node's number; the first number bounds the
path. -/
def treePath (tree : List Node) : Nat → Nat → List (Rat × Nat)
  | 0, _ => []
  | n + 1, k =>
    match tree[k]? with
    | none => []
    | some x => (match x.parent with
      | some p => treePath tree n p
      | none => []) ++ [(x.v, k)]

/-- A path is served before another: at the first node where they part, the least v, the earlier-created among equals. -/
def pathBefore : List (Rat × Nat) → List (Rat × Nat) → Bool
  | x :: a, y :: b => if x = y then pathBefore a b else x.1 < y.1 || (x.1 = y.1 && x.2 < y.2)
  | _, _ => false

/-- Of the queues that have a ready launch, the one given is served next (R350, R359). -/
def State.servedNext (s : State) (l : Nat) : Bool :=
  let path : Nat → List (Rat × Nat) := fun k => treePath s.tree s.tree.length (s.leafOf k)
  (List.range s.launches.length).all fun k =>
    !(((s.launches[k]?).map fun x => decide (x.state = .ready)).getD false && pathBefore (path k) (path l))

/-- The resident cores' leaves are charged for the time they have run (R359; 2.1 ac are a nanosecond, R30). -/
def State.chargeCores (s : State) : State :=
  let s' : State := s.rcores.foldl (fun s r => match r.leaf with
    | some k => s.chargeLeaf k ((r.charge : Rat) * 10 / 21)
    | none => s) s
  { s' with rcores := s'.rcores.map fun r => { r with charge := 0 } }

/-- CHARGE_REPORT (R358, R359): a Stile reports the residence of its workgroups; 64 squad-cycles are one ac. The resident
cores' charges are brought up to date beside it (log 70). -/
def execChargeReport (stile : Nat) (s : State) : Out :=
  if s.links.length ≤ stile then .fault .stepNotEnabled
  else
    let mine := (s.wgs.filter fun g => g.core / 4 = stile && g.charge ≠ 0).map fun g =>
      (s.leafOf g.launch, (g.charge : Rat) / 64 * 10 / 21)
    let s : State := { s with wgs := s.wgs.map fun g => if g.core / 4 = stile then { g with charge := 0 } else g }
    .next (s.chargeCores.sendUp stile (.charges mine))

/-- Worxus adds a node to the run tree, its weight from 1 to 1,024 (R359; log 70). -/
def State.addNode (s : State) (parent : Option Nat) (weight : Nat) : State :=
  if weight < 1 || 1024 < weight || parent.any (s.tree.length ≤ ·) then s
  else { s with tree := s.tree ++ [⟨parent, weight, 0, false⟩] }

/-- Worxus creates a process, with a leaf of the run tree for its device queue (R349, R359; log 70). -/
def State.addProcess (s : State) (root domain : Nat) (table : Option Nat) (parent weight : Nat) (job : List Nat) : State :=
  let t := s.addNode (some parent) weight
  if t.tree.length = s.tree.length then s
  else { t with processes := t.processes ++ [⟨root, s.tree.length, domain, table, none, job, 0⟩] }

/-- Of the resident-core threads that have work and that no other core runs, a leaf's is served next by a core (R359). -/
def State.coreServes (s : State) (core leaf : Nat) : Bool :=
  let path : Nat → List (Rat × Nat) := treePath s.tree s.tree.length
  let elsewhere : Nat → Bool := fun k => s.rcores.zipIdx.any fun r => r.2 ≠ core && r.1.leaf = some k
  leaf < s.tree.length && !(s.processes.any (·.leaf = leaf)) && !elsewhere leaf &&
    (List.range s.tree.length).all fun k =>
      !(((s.tree[k]?).map (·.ready)).getD false && !elsewhere k && pathBefore (path k) (path leaf))

/-- A resident core begins to run the thread of a leaf, which has work and is the next served; or the thread it runs has no
more work, and it runs none (R359; log 70). -/
def State.runCore (s : State) (core : Nat) (leaf : Option Nat) : State :=
  let s := s.chargeCores
  let run (s : State) : State := { s with rcores := s.rcores.modify core fun r => { r with leaf := leaf } }
  match leaf with
  | some k => if s.coreServes core k then run { s with tree := s.tree.modify k fun x => { x with ready := true } } else s
  | none => match (s.rcores[core]?).bind (·.leaf) with
    | some k => run { s with tree := s.tree.modify k fun x => { x with ready := false } }
    | none => s

/-! ## Placement (R175, R318, R350) -/

/-- LAUNCH_READY (R350): ready launches of one queue begin placement in queue order, the queues in the order in which the
run tree serves them (R359). -/
def execLaunchReady (l : Nat) (s : State) : Out :=
  match s.launches[l]? with
  | none => .fault .stepNotEnabled
  | some x =>
    if x.state = .ready && !((s.launches.take l).any fun y => y.proc = x.proc && y.state = .ready) && s.servedNext l then
      .next { s with launches := s.launches.modify l fun x => { x with state := .placing } }
    else .fault .stepNotEnabled

/-- A team before its workgroups do anything (R317). -/
def freshTeam (d : Descriptor) (cluster : Nat) : Team :=
  ⟨⟨true, 0, 0, BitVec.ofNat 16 d.team, [], []⟩, List.replicate 8 (List.replicate 16 none), cluster, none⟩

/-- One workgroup of a team is placed on a core (R175, R176); none where it does not fit. -/
def State.placeOne (s : State) (l t k core : Nat) (tvec csb : VAddr) : Option State :=
  match s.launches[l]? with
  | none => none
  | some x =>
    if !s.fits core x.proc x.desc then none
    else
      let w := s.wgs.length
      let mine := csb + BitVec.ofNat 57 (32768 * 32 * x.desc.squads * k)
      let s : State := { s with
        wgs := s.wgs ++ [freshWg l x.desc (t * x.desc.team + k) t tvec mine []]
        threads := s.threads ++ freshThreads w x.desc tvec mine }
      let s : State := (s.takeRoom w core x.desc .restored).beginWg w
      some ((s.activate w fun _ => true).updWg w fun g => { g with state := .resident })

/-- A queued team that fits is placed whole, in one step, and reported (R318, R358). -/
def State.placeQueued (s : State) (l t : Nat) (cores : List Nat) (tvec csb : VAddr) : Option State :=
  let c := s.stileOf l t
  let s : State := { s with placements := s.placements.modify c fun q => q.filter (· ≠ (l, t)) }
  (cores.zipIdx.foldl (fun (r : Option State) (y : Nat × Nat) => r.bind fun s => s.placeOne l t y.2 y.1 tvec csb)
    (some s)).map fun s => s.sendUp c (.news (.placed l t))

/-- Meridian sends the next team of a launch to a Stile (R318, R358), where it waits for room (R317). -/
def State.sendTeam (s : State) (l cluster : Nat) : State :=
  match s.launches[l]? with
  | none => s
  | some x =>
    ({ s with launches := s.launches.modify l fun x => { x with teams := x.teams ++ [freshTeam x.desc cluster] } }
      ).sendDown cluster (.place l x.teams.length)

/-- The first team of a launch in a Stile's placement queue. -/
def State.queuedTeam (s : State) (l cluster : Nat) : Option Nat :=
  ((s.placements[cluster]?).bind fun q => q.find? fun y => y.1 = l).map (·.2)

/-- A team of a launch that waits at a Stile is placed, or the next one is sent there, and placed where it fits at once
(R318); once Meridian is ready (R370), to a cluster that could hold it when empty. -/
def State.placeTeam (s : State) (l : Nat) (cores : List Nat) (tvec csb : VAddr) : Option State :=
  match s.launches[l]? with
  | none => none
  | some x =>
    let c := cores.headD 0 / 4
    if !s.boot.ready || x.state ≠ .placing || cores.length ≠ x.desc.team || !(cores.all (· / 4 = c)) || s.links.length ≤ c then none
    else match s.queuedTeam l c with
      | some t => s.placeQueued l t cores tvec csb
      | none =>
        if x.desc.grid ≤ x.teams.length * x.desc.team || !s.fitsCluster c x.desc then none
        else
          let s : State := s.sendTeam l c
          some (((s.queuedTeam l c).bind fun t => s.placeQueued l t cores tvec csb).getD s)

/-- TEAM_PLACEMENT. -/
def execTeamPlacement (l : Nat) (cores : List Nat) (tvec csb : VAddr) (s : State) : Out :=
  match s.placeTeam l cores tvec csb with
  | some s => .next s
  | none => .fault .stepNotEnabled

/-- A launch has a team that waits: for Meridian to send it, or at its Stile. -/
def State.teamWaits (s : State) (l : Nat) (x : Launch) : Bool :=
  x.state ≠ .ended && (x.teams.length * x.desc.team < x.desc.grid || s.placements.any fun q => q.any fun y => y.1 = l)

/-- Meridian reports to Worxus, once, that a waiting team of a launch fits no cluster even when empty (R318). -/
def State.reportStuck (s : State) : State :=
  (List.range s.launches.length).foldl (fun s l => match s.launches[l]? with
    | some x =>
      if !x.reported && s.teamWaits l x && !s.fitsSomewhere x.desc then
        ({ s with launches := s.launches.modify l fun x => { x with reported := true } }).notify (.teamFitsNowhere l)
      else s
    | none => s) s

/-- WORXUS_ENDS_LAUNCH (R318): a launch with a team that waits and that no cluster could hold even when empty. -/
def execWorxusEndsLaunch (l : Nat) (s : State) : Out :=
  match s.launches[l]? with
  | none => .fault .stepNotEnabled
  | some x =>
    if s.teamWaits l x && !s.fitsSomewhere x.desc then
      let s : State := s.reportStuck
      .next (({ s with
        launches := s.launches.modify l fun x => { x with state := .ended }
        placements := s.placements.map fun (q : List (Nat × Nat)) => q.filter fun y => y.1 ≠ l }).notify (.launchEnded l))
    else .fault .stepNotEnabled

end Sys2Proof.Machine
end

