-- ==== Sys2Proof/Machine/Power.lean ====
section
/-! DEFINITION. Power: the power budget (R360-R363), column sensors and the thermal ring (R364-R367), the hub's registers
(R357, R368), boot, firmware and attestation (R370-R372), the management port and the host interface (R373-R375). -/

namespace Sys2Proof.Machine

/-! ## The budget (R360, R361) -/

/-- The effective step of the module. -/
def State.moduleStep (s : State) : Nat := min (min s.hostStep.toNat s.mgmtStep.toNat) (if s.brake then 0 else 64) - s.limit

/-- No sensor of a column's die works (R364). -/
def State.sensorless (s : State) (core : Nat) : Bool :=
  (List.range 16).all fun k => ((s.sensors[core / 16 * 16 + k]?).map (·.failed)).getD true

/-- s_col of a column. -/
def State.columnStep (s : State) (core : Nat) : Nat :=
  if s.sensorless core then 0 else s.moduleStep - ((s.sensors[core]?).map (·.theta)).getD 0

/-- BUDGET_HOST_WRITE (R360): a write of 65-127 is ignored. -/
def execBudgetHostWrite (v : Word) (s : State) : Out :=
  if 64#7 < v.extractLsb' 0 7 then .next s else .next { s with hostStep := v.extractLsb' 0 7 }

/-- BUDGET_MGMT_SET (R360, R374): a step of 65-127 is answered with an error. -/
def execBudgetMgmtSet (v : Word) (s : State) : Out :=
  if 64#32 < v then .next (s.notify .mgmtError) else .next { s with mgmtStep := v.extractLsb' 0 7 }

/-- PWRBRK_N_ASSERT (R360, R374). -/
def execPwrbrkNAssert (s : State) : Out := .next { s with brake := true }

/-- PWRBRK_N_DEASSERT. -/
def execPwrbrkNDeassert (s : State) : Out := .next { s with brake := false }

/-- BUDGET_APPLY (R194, R361, R362): the column's step takes effect. -/
def execBudgetApply (c : Nat) (s : State) : Out :=
  match s.cores[c]? with
  | none => .fault .stepNotEnabled
  | some k =>
    let n := s.columnStep c
    if k.scol = n then .fault .stepNotEnabled
    else .next ((s.updCore c fun k => { k with scol := n }.fitParts).fitBudget c)

/-! ## The thermal ring (R366, R367) -/

/-- The layout of a thermal record (R367). -/
def thermalRecord (time : BitVec 64) (kind : BitVec 8) (column : BitVec 6) (temp raw : BitVec 16) (est : Bool) (why : BitVec 3)
    (scol step : BitVec 8) (drop : BitVec 16) : BitVec 256 :=
  time ++ kind ++ 0#2 ++ column ++ temp ++ raw ++ (if est then 1#1 else 0#1) ++ why ++ 0#4 ++ scol ++ 0#8 ++ step ++ drop ++ 0#96

/-- Records the ring holds. -/
def Ring.count (r : Ring) : Nat := 2 ^ r.size.toNat

/-- A record finds the ring full. -/
def Ring.full (r : Ring) : Bool := (r.head.toNat + 1) % r.count = r.tail.toNat % r.count

/-- A record written, or dropped and counted. -/
def State.ringOne (s : State) (r : BitVec 256) : State :=
  if s.ring.full then
    let n := if s.ring.drop = BitVec.allOnes 32 then s.ring.drop else s.ring.drop + 1
    { s with ring := { s.ring with drop := n } }
  else
    let head := s.ring.head.toNat % s.ring.count
    let s : State := s.poke (s.ring.base.toNat + 32 * head) (toBytes 32 r.toNat)
    { s with ring := { s.ring with head := BitVec.ofNat 32 ((head + 1) % s.ring.count) } }

/-- The record of dropped records. -/
def State.dropRecord (s : State) : BitVec 256 :=
  thermalRecord (BitVec.ofNat 64 s.clk) 6#8 0 0 0 false 0 0 (BitVec.ofNat 8 s.moduleStep)
    (BitVec.ofNat 16 (min s.ring.drop.toNat 65535))

/-- The device writes a record where en is set; behind dropped ones, their count first. -/
def State.ringPush (s : State) (r : BitVec 256) : State :=
  if !s.ring.en then s
  else if s.ring.drop ≠ 0 && !s.ring.full then
    let s : State := s.ringOne s.dropRecord
    let s : State := { s with ring := { s.ring with drop := 0 } }
    s.ringOne r
  else s.ringOne r

/-! ## The fast limit (R363) -/

/-- The limit changes, with its record of kind 7. -/
def State.setLimit (s : State) (n : Nat) : State :=
  if n = s.limit then s
  else
    let s : State := { s with limit := n }
    s.ringPush (thermalRecord (BitVec.ofNat 64 s.clk) 7#8 0 0 0 false 0 0 (BitVec.ofNat 8 s.moduleStep) 0)

/-- POWER_MEASUREMENT (R363): every 10 µs. -/
def execPowerMeasurement (watts : Nat) (s : State) : Out :=
  let p := 800 + 25 * s.moduleStep
  if p < watts then
    if s.overCount + 1 = 10 then .next (({ s with overCount := 0, underCount := 0 }).setLimit (min 64 (s.limit + 1)))
    else .next { s with overCount := s.overCount + 1, underCount := 0 }
  else if watts + 50 ≤ p then
    if s.underCount + 1 = 100 then .next (({ s with overCount := 0, underCount := 0 }).setLimit (s.limit - 1))
    else .next { s with overCount := 0, underCount := s.underCount + 1 }
  else .next { s with overCount := 0, underCount := 0 }

/-! ## Column sensors (R364, R365) -/

/-- θ of a temperature in 1/16 °C (R365). -/
def thetaOf (t : Int) : Nat := if t < 1520 then 0 else if t < 1680 then (4 * (t / 16 - 94)).toNat else 64

/-- The hottest working column of a list, if one works. -/
def State.hottest (s : State) (cs : List Nat) : Option Int :=
  (cs.filterMap fun c => (s.sensors[c]?).bind fun x => if x.failed then none else some x.temp).foldl
    (fun (m : Option Int) t => some (match m with
      | some m => max m t
      | none => t)) none

/-- The temperature of a column whose sensor has failed (R364); none where its die has no working sensor. -/
def State.estimate (s : State) (c : Nat) : Option Int :=
  ((s.hottest ((List.range 4).map (c / 4 * 4 + ·))).or (s.hottest ((List.range 16).map (c / 16 * 16 + ·)))).map (· + 128)

/-- The power estimates, in mW, of the last samples that have read a raw value, this one first. -/
def Sensor.runWith (x : Sensor) (raw : BitVec 16) (power : Nat) : List Nat :=
  if x.samples ≠ 0 && x.raw = raw then (power :: x.run).take 256 else [power]

/-- 256 samples have read the same value while the power estimate differed by at least 2 W between two of them (R364). -/
def stuckRun (run : List Nat) : Bool := 256 ≤ run.length && run.any fun a => run.any fun b => b + 2000 ≤ a

/-- The checks a sample breaks: range, rate, stuck (R364). -/
def Sensor.why (x : Sensor) (raw : BitVec 16) (run : List Nat) : BitVec 3 :=
  let r := raw.toInt
  let rate := match x.accepted with
    | some a => decide (64 < r - a.toInt) || decide (64 < a.toInt - r)
    | none => false
  (if r < -320 || 2080 < r then 4#3 else 0) ||| (if rate then 2#3 else 0) ||| (if stuckRun run then 1#3 else 0)

/-- A thermal record of a column. -/
def State.columnRecord (s : State) (c : Nat) (kind : BitVec 8) (x : Sensor) (why : BitVec 3) : State :=
  s.ringPush (thermalRecord (BitVec.ofNat 64 s.clk) kind (BitVec.ofNat 6 c) (BitVec.ofInt 16 x.temp) x.raw x.failed why
    (BitVec.ofNat 8 (s.columnStep c)) (BitVec.ofNat 8 s.moduleStep) 0)

/-- SENSOR_SAMPLE (R364, R365), with the Budget Unit's power estimate for the column, in mW. -/
def execSensorSample (c : Nat) (raw : BitVec 16) (power : Nat) (s : State) : Out :=
  match s.sensors[c]? with
  | none => .fault .stepNotEnabled
  | some x =>
    let run := x.runWith raw power
    let why := x.why raw run
    let fails := !x.failed && why ≠ 0
    let y : Sensor := { x with
      raw := raw, run := run, failed := x.failed || fails, samples := x.samples + 1
      accepted := if x.failed || fails then x.accepted else some raw }
    let s : State := { s with sensors := s.sensors.set c y }
    let t := if y.failed then (s.estimate c).getD y.temp else raw.toInt
    let blind := fails && s.sensorless c
    let y : Sensor := { y with temp := t }
    let s : State := { s with sensors := s.sensors.set c y }
    let s : State := if fails then s.columnRecord c 2#8 y why else s
    let s : State := if blind then s.notify (.sensorless (c / 16)) else s
    let theta := thetaOf t
    let z : Sensor := { y with theta := theta }
    let s : State := { s with sensors := s.sensors.set c z }
    let s : State := if theta ≠ y.theta then s.columnRecord c 1#8 z 0 else s
    let tripped := ((s.cores[c]?).map (·.tripped)).getD false
    let s : State :=
      if 1680 ≤ t && !tripped then ((s.columnRecord c 3#8 z 0).updCore c fun k => { k with tripped := true }).requestCore c
      else if t < 1440 && tripped then (s.columnRecord c 4#8 z 0).updCore c fun k => { k with tripped := false }
      else s
    .next (if s.ring.period ≠ 0 && z.samples % s.ring.period.toNat = 0 then s.columnRecord c 0#8 z 0 else s)

/-! ## Hub registers (R357, R360, R366, R368) -/

/-- Every part of a core that is not out of use goes through the full in-field test (R368-R370). -/
def Core.prove (c : Core) : Core :=
  { c with proving := some ⟨(List.range 192).filter fun k => c.arrays[k]? ≠ some .retired, 15, 15⟩ }

/-- A write to a repair file (R368): only of a withdrawn column with no workgroup resident. -/
def State.writeRepair (s : State) (off : Nat) (v : Word) : State :=
  let core := off / 65536
  let at_ := off % 65536
  let open_ := ((s.cores[core]?).map (·.withdrawn)).getD false && (s.residents core).isEmpty
  if at_ < 4096 && at_ % 4 = 0 && open_ then
    ({ s with repair := (off, v &&& 0x800007FF#32) :: s.repair.filter fun x => x.1 ≠ off }).updCore core Core.prove
  else s

/-- TRING_CTL written (R366): base and size stand while en is set. -/
def State.writeRingCtl (s : State) (v : Word) : State :=
  let size := v.extractLsb' 4 4
  { s with ring := { s.ring with
    period := v.extractLsb' 8 12
    size := if s.ring.en || size < 6#4 then s.ring.size else size
    en := v.getLsbD 0 } }

/-- TRING_CTL_WRITE. -/
def execTringCtlWrite (v : Word) (s : State) : Out := .next (s.writeRingCtl v)

/-- TRING_TAIL_WRITE (R366). -/
def execTringTailWrite (v : Word) (s : State) : Out := .next { s with ring := { s.ring with tail := v } }

/-- A line leaves the instruction caches of a die, by a process's address (R380). -/
def State.dropLineOf (s : State) (die p : Nat) (va : VAddr) : State :=
  match ((s.walk die p va.toNat).getLast?).bind fun c => if c.pte.getLsbD 1 then s.physOf (c.place va.toNat) else none with
  | some a => s.dropLine (16 * die) 6#4 a
  | none => s

/-- Worxus writes a command, once it runs (R357, R370; log 70): to Meridian's mailbox, or to a die hub's registers. -/
def State.command (s : State) (off : Nat) (c : HubCommand) : State :=
  if !s.boot.ready then s
  else match c with
    | .node parent weight => if off < 0x100000 then s.addNode parent weight else s
    | .process root domain table parent weight job =>
      if off < 0x100000 then s.addProcess root domain table parent weight job else s
    | .launch p desc priv sys => if off < 0x100000 then s.submit p desc priv sys else s
    | .runs core leaf => if off < 0x100000 then s.runCore core leaf else s
    | .dropLine p va => if 0x400000 ≤ off && off < 0x800000 then s.dropLineOf ((off - 0x400000) / 0x100000) p va else s

/-- A register of the hub written (R357); reserved and read-only offsets ignore writes. -/
def State.writeHub (s : State) (off : Nat) (v : Word) : State :=
  if off = 0x100000 then (if 64#7 < v.extractLsb' 0 7 then s else { s with hostStep := v.extractLsb' 0 7 })
  else if off = 0x200000 then
    if s.ring.en then s
    else { s with ring := { s.ring with base := s.ring.base.extractLsb' 32 25 ++ (v &&& 0xFFFFFFE0#32) } }
  else if off = 0x200004 then
    if s.ring.en then s else { s with ring := { s.ring with base := v.extractLsb' 0 25 ++ (s.ring.base.extractLsb' 0 32 : Word) } }
  else if off = 0x200008 then s.writeRingCtl v
  else if off = 0x200010 then { s with ring := { s.ring with tail := v } }
  else if 0x800000 ≤ off && off < 0xC00000 then s.writeRepair (off - 0x800000) v
  else s

/-- REGISTER_WRITE (R357): a register, or a command. -/
def execRegisterWrite (off : Nat) (x : HubWrite) (s : State) : Out :=
  match x with
  | .command c => .next (s.command off c)
  | .word v => .next (s.writeHub off v)

/-- BUDGET_EFF (R360). -/
def State.budgetEff (s : State) : Word :=
  0#15 ++ (if s.brake then 1#1 else 0#1) ++ 0#1 ++ BitVec.ofNat 7 s.limit ++ 0#1 ++ BitVec.ofNat 7 s.moduleStep

/-- TRING_CTL as it reads. -/
def Ring.ctl (r : Ring) : Word := 0#12 ++ r.period ++ r.size ++ 0#3 ++ (if r.en then 1#1 else 0#1)

/-- A register of the hub read (R357): the Budget Unit, the thermal ring and the repair files; the mailbox, the security
block and the die hubs read as the spec leaves them (log 70); reserved offsets read 0. -/
def State.hubRead (s : State) (off : Nat) : Word :=
  if off = 0x100000 then s.hostStep.setWidth 32
  else if off = 0x100004 then s.mgmtStep.setWidth 32
  else if off = 0x100008 then s.budgetEff
  else if off = 0x200000 then s.ring.base.setWidth 32
  else if off = 0x200004 then (s.ring.base.extractLsb' 32 25).setWidth 32
  else if off = 0x200008 then s.ring.ctl
  else if off = 0x20000C then s.ring.head
  else if off = 0x200010 then s.ring.tail
  else if off = 0x200014 then s.ring.drop
  else if off < 0x100000 || (0x300000 ≤ off && off < 0x800000) then BitVec.ofNat 32 (Config.unstated s.draw off)
  else ((s.repair.find? fun x => x.1 + 0x800000 = off).map (·.2)).getD 0

/-! ## Boot and attestation (R370-R372) -/

/-- Every image of a set verifies under the key the set carries, and that key is the one in the fuses (R371). -/
def setVerifies (x : ImageSet) : Bool :=
  x.key.length = 68 && Config.shake x.key = Config.fusedKey && !x.images.isEmpty &&
    x.images.all fun i => i.signature.length = 2820 && Config.verifies x.key (Config.shake i.bytes) i.signature

/-- What is measured of a set that boots (R371): its images, and the repair files loaded with it. -/
def setMeasure (x : ImageSet) : List (BitVec 256) :=
  x.images.map (fun i => Config.shake i.bytes) ++ [Config.shake (x.repair.flatMap fun e => toBytes 4 e.1 ++ toBytes 4 e.2.toNat)]

/-- What a module stopped by its supply keeps (R375): its flash, what is out of use for good (log 69), and what stands on
standby power: the brake's pin, the step of the management port, quotes asked for (R370, R374). -/
def State.powerCycle (s : State) : State :=
  { State.reset with
    flash := s.flash, draw := s.draw, nextId := s.nextId, inputs := s.inputs, notices := s.notices
    brake := s.brake, mgmtStep := s.mgmtStep
    boot := { State.reset.boot with quotes := s.boot.quotes, signing := s.boot.signing }
    cores := s.cores.map fun c => { Core.reset with
      lanesFused := c.lanesFused, slicesFused := c.slicesFused
      arrays := c.arrays.map fun a => if a = .retired then a else .free } }

/-- What the supply may be (R375), in volts. -/
def supplyOk (volts : Nat) : Bool := 40 ≤ volts && volts ≤ 60

/-- The words of an image set that lie in the repair files, their reserved bits zero (R368). -/
def repairWords (l : List (Nat × Word)) : List (Nat × Word) :=
  (l.filter fun e => e.1 < 64 * 65536 && e.1 % 65536 < 4096 && e.1 % 4 = 0).map fun e => (e.1, e.2 &&& 0x800007FF#32)

/-- POWER_GOOD (R370, R375): the supply is within what the module accepts; the preferred set of the flash, or else the
other; its repair files are loaded and every part is tested; with neither, boot stops. -/
def execPowerGood (volts : Nat) (s : State) : Out :=
  if !supplyOk volts || (s.boot.booted && !s.boot.stopped) then .fault .stepNotEnabled
  else
    let s : State := if s.boot.stopped then s.powerCycle else s
    let preferred := if s.flash.preferB then s.flash.setB else s.flash.setA
    let other := if s.flash.preferB then s.flash.setA else s.flash.setB
    if !setVerifies preferred && !setVerifies other then .next (({ s with boot := { s.boot with stopped := true } }).notify .bootFailed)
    else
      let x := if setVerifies preferred then preferred else other
      let setB := if setVerifies preferred then s.flash.preferB else !s.flash.preferB
      .next (({ s with
        boot := { s.boot with booted := true, setB := setB, measurements := setMeasure x }
        repair := repairWords x.repair
        cores := s.cores.map fun (c : Core) => c.fitParts.prove }).notify (.booted setB))

/-- The next quote request is served (R372): its counter is read, and written one higher; at 2^40 every request is
refused. -/
def State.serveQuote (s : State) : State :=
  match s.boot.signing, s.boot.quotes with
  | none, n :: rest =>
    if 2 ^ 40 ≤ s.flash.counter then
      (n :: rest).foldl (fun s _ => s.notify .quoteRefused) { s with boot := { s.boot with quotes := [] } }
    else { s with
      boot := { s.boot with quotes := rest, signing := some (n, s.flash.counter) }
      flash := { s.flash with counter := s.flash.counter + 1 } }
  | _, _ => s

/-- QUOTE_REQUEST (R372). -/
def execQuoteRequest (nonce : BitVec 256) (s : State) : Out :=
  .next (({ s with boot := { s.boot with quotes := s.boot.quotes ++ [nonce] } }).serveQuote)

/-- The bank, lane and slice retirement maps of a core, as bytes. -/
def Core.retirement (c : Core) : List Byte :=
  toBytes 24 ((c.arrays.zipIdx.filter fun a => a.1 = .retired).map fun a => 2 ^ a.2).sum ++ toBytes 8 c.lanesFused.toNat ++
    toBytes 1 c.slicesFused.toNat

/-- What a quote signs (R372): the digest of the nonce, the serial, the measurements and the retirement maps. -/
def State.quoteDigest (s : State) (nonce : BitVec 256) : BitVec 256 :=
  Config.shake (toBytes 32 nonce.toNat ++ toBytes 16 Config.serial.toNat ++
    (s.boot.measurements.flatMap fun m => toBytes 32 m.toNat) ++ s.cores.flatMap Core.retirement)

/-- The signature of a quote, 9,893 bytes, with a leaf of the attestation key (R372). -/
def State.quoteSignature (s : State) (nonce : BitVec 256) (leaf : Nat) : List Byte :=
  (List.range 9893).map (Config.signatureByte leaf (s.quoteDigest nonce))

/-- QUOTE_SIGN (R372): the counter's write is complete; the block signs with its leaf, and serves the next request. -/
def execQuoteSign (s : State) : Out :=
  match s.boot.signing with
  | some (n, k) =>
    .next (({ s with boot := { s.boot with signing := none } }).notify (.quote k (s.quoteSignature n k)) |>.serveQuote)
  | none => .fault .stepNotEnabled

/-- FIRMWARE_UPDATE (R370, R374): a set of the flash is written, and the preference byte where the update says so. -/
def execFirmwareUpdate (setB : Bool) (image : ImageSet) (prefer : Bool) (s : State) : Out :=
  let f := s.flash
  .next (({ s with flash := { f with
    setA := if setB then f.setA else image
    setB := if setB then image else f.setB
    preferB := if prefer then setB else f.preferB } }).notify (.updated setB))

/-- PLDM_MONITORING (R374): read and answered. -/
def execPldmMonitoring (s : State) : Out := .next (s.notify .monitored)

/-- INPUT_UNDERVOLTAGE (R375): every workgroup is killed and the module stops. -/
def execInputUndervoltage (s : State) : Out :=
  let s : State := (List.range s.wgs.length).foldl (fun s w => s.killOpen w) s
  .next { s with boot := { s.boot with stopped := true, ready := false } }

/-! ## The host (R373) -/

/-- The host's accesses lie in the DRAM layer, or are one aligned word of BAR 0 (R357, R373). -/
def hostOk (addr : HostAddr) (n : Nat) : Bool :=
  match addr with
  | .dram a => a + n ≤ 412316860416
  | .bar0 off => off + 4 ≤ 0x2000000 && off % 4 = 0 && n = 4

/-- CXL_MEM_REQUEST (R357, R373): the host reads or writes the DRAM layer at its home, or one register of BAR 0; the
length of the data says how many bytes a read asks for. -/
def execCxlMemRequest (write : Bool) (addr : HostAddr) (data : List Byte) (s : State) : Out :=
  if !hostOk addr data.length then .fault .stepNotEnabled
  else match addr, write with
    | .dram a, false => .next (s.notify (.hostRead a (memRead s.mem a data.length)))
    | .dram a, true => .next (s.performEngine .host (fun _ => .default) (s.originOf .host) 0 (at_ a data))
    | .bar0 off, false => .next (s.notify (.hostRead off (toBytes 4 (s.hubRead off).toNat)))
    | .bar0 off, true => .next (s.writeHub off (BitVec.ofNat 32 (ofBytes data)))

end Sys2Proof.Machine
end

