-- ==== Sys2Proof/Machine/Fabric.lean ====
section
/-! DEFINITION. Fabric: links and flits (R392-R394), remote signals (R402, R408), gang slices (R403, R404). What the other
modules do is told to the model by its steps (log 14). -/

namespace Sys2Proof.Machine

/-! ## Links (R392-R394) -/

/-- A member workgroup of a reduction that fails is killed with cause ACCESS, source 1, action 2 (R401). -/
def State.killMember (s : State) (w : Nat) : State :=
  let addr : BitVec 64 := match s.drive? w with
    | some d => ((((s.reductions.find? fun r => r.wg = w).bind fun r => d.ops.find? fun o => o.id = r.op).map (·.addr)).getD
        (wordAddr d.pc)).setWidth 64
    | none => 0
  s.kill w addr 0 causeAccess 1#4 0 true

/-- What a flit's message does on this module, having come to a die (R395, R397, R401, R402, R408): a release of another
module at fabric scope releases what it has written here; a signal is on its way to its event. What a module answers this
one's copies, and what it sends of its cells in a reduction, the model takes from elsewhere (log 14). None: it waits for a
lock entry or a slot. -/
def State.takeMessage (s : State) (die : Nat) (x : FabricMessage) : Option State :=
  match x with
  | .other | .answer _ _ _ | .reduce _ _ => some s
  | .begins p va len write => s.beginPeer die p va len write
  | .access a => s.servePeer die a
  | .ends p => some (s.unlock (peerHolder p))
  | .released m => some (s.release (.peer m.toNat) [.default] .default scopeFabric s.draw [] true)
  | .fredFailed p group =>
    some (((s.reductions.filter fun r => r.group = group && s.procOf r.wg = p).map (·.wg)).foldl (fun s w => s.killMember w) s)
  | .signal d e => some (if e = 0 then s else { s with messages := s.messages ++ [⟨d, e, none, true⟩] })

/-- The fields of a flit hold what R393 allows. -/
def flitOk (f : Flit) : Bool :=
  f.dest.extractLsb' 12 4 = 0 && f.vc < 4#8 && 1#8 ≤ f.len && f.len ≤ 240#8 && f.payload.length = f.len.toNat

/-- A flit passes its CRC (R393). -/
def flitPasses (f : Flit) : Bool := f.crc = Config.flitCrc (flitBytes f)

/-- The flits that the other end has not acknowledged once it has acknowledged a sequence number (R393, R394). -/
def FLink.acked (l : FLink) (ack : BitVec 16) : FLink :=
  match l.sent.findIdx? fun f => f.seq = ack with
  | some k => { l with sent := l.sent.drop (k + 1) }
  | none => l

/-- A flit goes on over a link that carries traffic to its module (R392); with no route it is dropped, and of a signal
Worxus is told (R394, R402). -/
def State.forwardFlit (s : State) (f : Flit) : State :=
  let ls := s.linksTo f.dest.toNat
  match ls[Config.linkChoice s.draw % ls.length]? with
  | some k => s.updLink k fun l =>
      let g : Flit := { f with seq := l.seqOut, ack := l.seqIn - 1 }
      { l with seqOut := l.seqOut + 1, sent := l.sent ++ [{ g with crc := Config.flitCrc (flitBytes g) }] }
  | none => match f.message with
    | .signal d _ => s.notify (.signalDropped d)
    | _ => s

/-- A flit received in sequence: one for this module is taken, one for another goes on; one that R393 does not allow is
dropped (log 14). -/
def State.takeFlit (s : State) (link : Nat) (f : Flit) : Option State :=
  if !flitOk f then some s
  else if f.dest.toNat = s.fabricNo.toNat then (s.notify (.delivered link f.vc f.payload)).takeMessage (link / 4) f.message
  else some (s.forwardFlit f)

/-- FLIT_RECEIVE (R393, R394): a flit that passes its CRC acknowledges flits sent, and in sequence is taken; one that fails
is replayed from there on. A link that has replayed a flit 8 times carries nothing until it has retrained. Link 4i + k is of
die i (R392). `good`: the lanes' correction leaves no error. -/
def execFlitReceive (link : Nat) (good : Bool) (flit : Flit) (s : State) : Out :=
  match s.flinks[link]? with
  | none => .fault .stepNotEnabled
  | some l =>
    if !l.up || 8 ≤ l.replays then .fault .stepNotEnabled
    else if !(good && flitPasses flit) then .next (s.updLink link fun l => { l with replays := l.replays + 1 })
    else
      let s : State := s.updLink link fun l => l.acked flit.ack
      if flit.seq ≠ l.seqIn then .next s
      else match (s.updLink link fun l => { l with seqIn := l.seqIn + 1, replays := 0 }).takeFlit link flit with
        | some s => .next s
        | none => .fault .stepNotEnabled

/-- A module that no route reaches (R394). -/
def State.unreachable (s : State) (m : Nat) : Bool := m ≠ s.fabricNo.toNat && !s.routed m

/-- Members of reductions with a module that no route reaches any more (R394, R401). -/
def State.cutOff (s : State) : List Nat :=
  (s.reductions.filter fun r => r.table.any fun m => s.unreachable (m.toNat % 4096)).map (·.wg)

/-- What copies of a module that no route reaches any more hold here goes: their lock entries and parked accesses (R394). -/
def State.dropPeers (s : State) : State :=
  { s with
    cores := s.cores.map fun c => { c with locks := c.locks.filter fun k => !((holderModule k.holder).any s.unreachable) }
    hubs := s.hubs.map fun h => { h with slots := h.slots.map fun x => x.filter fun p => match p.waiter with
      | .peer a => !s.unreachable a.peer.module.toNat
      | _ => true } }

/-- The flits that a link which is down has not seen acknowledged go over others; those to a module that no route reaches are
dropped (R394). -/
def State.resend (s : State) : State :=
  let goes : FLink → Flit → Bool := fun l f => !l.up || s.unreachable f.dest.toNat
  let left := s.flinks.flatMap fun l => l.sent.filter (goes l)
  left.foldl State.forwardFlit ({ s with flinks := s.flinks.map fun l => { l with sent := l.sent.filter fun f => !goes l f } } : State)

/-- Where no route reaches a module, what is under way with it ends (R394, R401, R402): a `fred` issued since too. -/
def State.severed (s : State) : State :=
  let s : State := s.resend.dropPeers
  s.cutOff.foldl (fun s w => s.killMember w) s

/-- LINK_TRAINING (R392): the link is up at a width; Worxus gives the module its number and routes. Flits not acknowledged
before are sent afresh. -/
def execLinkTraining (link width : Nat) (number : BitVec 12) (routes : List (Nat × List Nat)) (s : State) : Out :=
  match s.flinks[link]? with
  | none => .fault .stepNotEnabled
  | some l =>
    if !(width = 16 || width = 8 || width = 4) then .fault .stepNotEnabled
    else
      let s : State := { s.updLink link (fun _ => ⟨true, width, 0, 0, 0, []⟩) with fabricNo := number, routes := routes }
      .next (l.sent.foldl State.forwardFlit s).severed

/-- LINK_RETRAIN (R394): at the next lower width, or down when that fails at width 4; Worxus is told. -/
def execLinkRetrain (link : Nat) (trains : Bool) (s : State) : Out :=
  match s.flinks[link]? with
  | none => .fault .stepNotEnabled
  | some l =>
    if !l.up then .fault .stepNotEnabled
    else
      let low := max 4 (l.width / 2)
      let s : State := s.notify (.linkRetrained link)
      if trains then .next (s.updLink link fun l => { l with width := low, replays := 0 })
      else if low ≠ 4 then .next (s.updLink link fun l => { l with width := low, replays := 8 })
      else .next (s.updLink link fun l => { l with width := 4, up := false }).severed

/-! ## fsig (R402) -/

/-- What issuing `fsig` asks. -/
def fsigIssue (g : BitVec 3) (a : BitVec 7) : Issue := ⟨true, [a], g, 1, true, g ++ 0xFE#8 ++ 0#7 ++ a ++ 0#7⟩

/-- R402, R408: a release at fabric scope, then one signal to the module named; the own module applies it here. -/
def execFsig (g : BitVec 3) (a : BitVec 7) (s : State) : Out :=
  onIssue (fsigIssue g a) s fun k th s =>
    let v := th.reg a
    let m := (v.extractLsb' 16 12).toNat
    let e := v.extractLsb' 0 16
    if e = 0 || v.extractLsb' 28 4 ≠ 0 then s.illegalWord k (fsigIssue g a).word
    else if !s.inJob th.wg m || (m ≠ s.fabricNo.toNat && !s.routed m) then s.takeTrap k causeAccess v
    else s.relThen k th .default scopeFabric fun s =>
      let d := s.domainOf th.wg
      let s : State := if m = s.fabricNo.toNat then
          let s : State := s.releaseTo (.thread k) d e
          { s with messages := s.messages ++ [⟨d, e, some (.thread k), true⟩] }
        else if s.routed m then s.sendFlit m 0#8 (.signal d e)
        else s.notify (.signalDropped d)
      s.updThread k fun th => th.advance 1

/-- FSIG_ARRIVAL (R402): a signal of another module is applied. -/
def execFsigArrival (domain : Nat) (e : BitVec 16) (s : State) : Out :=
  if e = 0 then .fault .stepNotEnabled else .next (s.signal domain e true)

/-! ## Gang slices (R403, R404) -/

/-- A gang slice under way on this module. -/
def State.gang? (s : State) (id : Nat) : Option Gang := s.gangs.find? fun x => x.id = id

/-- A gang changed. -/
def State.updGang (s : State) (id : Nat) (f : Gang → Gang) : State :=
  { s with gangs := s.gangs.map fun x => if x.id = id then f x else x }

/-- 50 µs in ac. -/
def lateAfter : Nat := 50 * acPerUs

/-- An incoming context of a slice that has not begun here issues nothing (R403). -/
def State.gangHolds (s : State) (g : Wg) : Bool :=
  s.gangs.any fun x => !x.begun && x.plan.incoming.any fun y => y.1 = g.launch && y.2 = g.team

/-- The planned end of a slice (R403, R404): a late module's slice ends then too. -/
def GangPlan.ends (p : GangPlan) : Nat := p.start + p.length

/-- GANG_SLICE_START (R403): at P, when the gang's slice before has ended, the outgoing contexts are pre-empted. -/
def execGangSliceStart (gang : Nat) (plan : GangPlan) (s : State) : Out :=
  if s.clk < plan.start || ((s.gang? gang).any fun x => decide (plan.start < GangPlan.ends x.plan)) then .fault .stepNotEnabled
  else
    let s : State := { s with gangs := (s.gangs.filter fun x => x.id ≠ gang) ++ [⟨gang, plan, [], false, []⟩] }
    .next (plan.outgoing.foldl (fun s x => s.sendDown (s.stileOf x.1 x.2) (.preempt x.1 x.2)) s)

/-- A team has left: none of its workgroups holds reservations. -/
def State.teamGone (s : State) (x : Nat × Nat) : Bool :=
  (s.teamOf x.1 x.2).all fun w => ((s.wgs[w]?).map fun g => !g.resident).getD true

/-- A team stands: every one of its workgroups is resident. -/
def State.teamStands (s : State) (x : Nat × Nat) : Bool :=
  !(s.teamOf x.1 x.2).isEmpty && (s.teamOf x.1 x.2).all fun w => ((s.wgs[w]?).map fun g => decide (g.state = .resident)).getD false

/-- The late outgoing contexts are charged: nanoseconds of lateness times the modules of the gang (R359, R404). -/
def State.chargeLate (s : State) (x : Gang) : State :=
  let ns : Rat := ((s.clk - (x.plan.start + lateAfter) : Nat) : Rat) * 10 / 21 * x.plan.modules.length
  x.late.foldl (fun s y => s.chargeLeaf (s.leafOf y.1) ns) s

/-- GANG_READY (R403): this module once its saves and placements are done, another when its report arrives. Past P + 50 µs
this module is late, and begins the slice then (R404). -/
def execGangReady (gang m : Nat) (s : State) : Out :=
  match s.gang? gang with
  | none => .fault .stepNotEnabled
  | some x =>
    let own := decide (m = s.fabricNo.toNat)
    if x.ready.contains m || !x.plan.modules.contains m ||
        (own && !(x.plan.outgoing.all s.teamGone && x.plan.incoming.all s.teamStands)) then .fault .stepNotEnabled
    else
      let s : State := s.updGang gang fun x => { x with ready := x.ready ++ [m] }
      if own && (!x.late.isEmpty || x.plan.start + lateAfter < s.clk) then
        let y : Gang := { x with late := if x.late.isEmpty then x.plan.outgoing else x.late }
        .next ((s.updGang gang fun x => { x with begun := true, late := y.late }).chargeLate y |>.notify (.lateGang gang
          (s.clk - (x.plan.start + lateAfter))))
      else .next s

/-- GANG_SLICE_BEGIN (R404): the last module has reported ready. -/
def execGangSliceBegin (gang : Nat) (s : State) : Out :=
  match s.gang? gang with
  | none => .fault .stepNotEnabled
  | some x =>
    if !x.begun && x.late.isEmpty && x.plan.modules.all x.ready.contains then
      .next (s.updGang gang fun x => { x with begun := true })
    else .fault .stepNotEnabled

/-- GANG_LATE_TIMEOUT (R404): at P + 50 µs the slice begins where the module is ready; else its outgoing contexts that
still wait take the full-save path at once. -/
def execGangLateTimeout (gang : Nat) (s : State) : Out :=
  match s.gang? gang with
  | none => .fault .stepNotEnabled
  | some x =>
    if x.begun || !x.late.isEmpty || s.clk < x.plan.start + lateAfter then .fault .stepNotEnabled
    else if x.ready.contains s.fabricNo.toNat then .next (s.updGang gang fun x => { x with begun := true })
    else
      let late := x.plan.outgoing.filter fun y => !s.teamGone y
      let ws := late.flatMap fun y => s.teamOf y.1 y.2
      let s : State := ws.foldl (fun s w => s.updWg w fun g =>
        { g with request := g.request.map fun r => { r with now := true } }) s
      .next (s.updGang gang fun x => { x with late := if late.isEmpty then x.plan.outgoing else late })

end Sys2Proof.Machine
end

