-- ==== Sys2Proof/Machine/Blink.lean ====
section
/-! DEFINITION. Blink: attaching a process (R376), resuming held streams (R378, R382), and the profiler's histogram and
samples (R384-R387). -/

namespace Sys2Proof.Machine

/-! ## Attaching (R376) -/

/-- A block within the table of R376 and the entries of R377 and R381. -/
def blockOk (block : Nat) (f : Nat → Word) : Bool :=
  let wide : Nat → Nat → Bool := fun k a => (f (k + 1)).extractLsb' 25 7 = 0 && (f k).toNat % a = 0
  let ring : Word → Bool := fun v => 6#32 ≤ v && v ≤ 15#32
  block % 512 = 0 && block + 512 ≤ 412316860416 && (f 0).extractLsb' 3 29 = 0 && 16#32 ≤ f 1 && f 1 ≤ 65535#32 &&
    wide 2 32 && ring (f 4) && f 7 = 0 && wide 8 32 && ring (f 10) && wide 14 256 &&
    (List.range 16).all (fun k => f (112 + k) = 0) &&
    (List.range 8).all (fun k =>
      let e := 16 + 8 * k
      wide e 4 && (f (e + 4)).extractLsb' 2 30 = 0 && f (e + 5) = 0 && f (e + 6) = 0 && f (e + 7) = 0) &&
    (List.range 4).all (fun k =>
      let e := 80 + 8 * k
      wide e 4 && (f (e + 4)).extractLsb' 3 29 = 0 && f (e + 5) = 0 && f (e + 6) = 0 && f (e + 7) = 0 &&
        (f (e + 4) = 0 || (4#32 ≤ f (e + 2) && f (e + 2) ≤ 0x80000000#32 && (f (e + 2)).toNat % 4 = 0)))

/-- Cores that hold a workgroup of a process. -/
def State.coresOf (s : State) (p : Nat) : List Nat :=
  (List.range s.cores.length).filter fun c => (s.residents c).any fun w => s.procOf w = p

/-- ATTACH_PROCESS (R376): refused where the block breaks its table; else every core of the process loads it. -/
def execAttachProcess (p block : Nat) (s : State) : Out :=
  if s.processes.length ≤ p then .fault .stepNotEnabled
  else if !blockOk block fun k => memWord s.mem (block + 4 * k) then .next (s.notify (.attachRefused p))
  else
    let s : State := { s with processes := s.processes.modify p fun x => { x with debug := some block } }
    .next ((s.coresOf p).foldl (fun s c => s.loadBlock c p) s)

/-- DETACH_PROCESS (R376): the cores' copies are cleared, their counts and samples written first (R384). -/
def execDetachProcess (p : Nat) (s : State) : Out :=
  if ((s.processes[p]?).bind (·.debug)).isNone then .fault .stepNotEnabled
  else
    let mine : Core → Bool := fun c => ((c.debug).map (·.proc)) = some p
    let s : State := ((List.range s.cores.length).filter fun k => (s.cores[k]?).any mine).foldl
      (fun s k => s.leaveBlock k fun _ => false) s
    .next { s with
      processes := s.processes.modify p fun x => { x with debug := none }
      cores := s.cores.map fun c => if mine c then { c with debug := none } else c }

/-! ## Holds (R378, R382) -/

/-- A hold whose record has been written may be resumed. -/
def Hold.free (h : Hold) : Bool := h.record.isNone

/-- DEBUG_HANDLER_RESUME (R378): a held word issues once without being matched again; after `brk`, or where the handler has
moved the stream's place, the word it goes on at is matched. -/
def execDebugHandlerResume (drive : Bool) (i : Nat) (s : State) : Out :=
  if drive then
    match (s.drive? i).bind (·.hold) with
    | some h => if h.free then .next (s.updDrive i fun d => { d with hold := none, unmatched := !h.brk }) else .fault .stepNotEnabled
    | none => .fault .stepNotEnabled
  else
    match (s.threads[i]?).bind (·.hold) with
    | some h =>
      if h.free then .next (s.updThread i fun th => { th with hold := none, unmatched := !h.brk }) else .fault .stepNotEnabled
    | none => .fault .stepNotEnabled

/-- A record that waits on a core for a process's queue is written, if there is room. -/
def State.pushHeld (s : State) (p block w : Nat) (h : Option Hold) (clear : State → State) : State :=
  if s.procOf w ≠ p then s
  else match h.bind (·.record) with
    | none => s
    | some r => match s.pushDebug p block r with
      | some s => clear s
      | none => s

/-- Records of holds that are over are written, the oldest first, as far as there is room. -/
def State.pushWaiting (s : State) (p block w : Nat) : List (BitVec 256) → State
  | [] => s.updWg w fun g => { g with waiting := [] }
  | r :: t => match s.pushDebug p block r with
    | some s => s.pushWaiting p block w t
    | none => s.updWg w fun g => { g with waiting := r :: t }

/-- Records that wait are written in the order of their threads, then of their drive streams, those of holds that are over
before them (R379, R382). -/
def State.pushAllHeld (s : State) (p block : Nat) : State :=
  let s : State := (List.range s.wgs.length).foldl (fun s w =>
    if s.procOf w = p then s.pushWaiting p block w (((s.wgs[w]?).map (·.waiting)).getD []) else s) s
  let s : State := (List.range s.threads.length).foldl (fun s i => match s.threads[i]? with
    | some th => s.pushHeld p block th.wg th.hold fun s => s.updThread i fun th =>
        { th with hold := th.hold.map fun h => { h with record := none } }
    | none => s) s
  (List.range s.wgs.length).foldl (fun s w => s.pushHeld p block w ((s.drive? w).bind (·.hold)) fun s => s.updDrive w fun d =>
    { d with hold := d.hold.map fun h => { h with record := none } }) s

/-- DQTAIL_WRITE (R382). -/
def execDqtailWrite (p : Nat) (v : Word) (s : State) : Out :=
  match (s.processes[p]?).bind (·.debug) with
  | none => .fault .stepNotEnabled
  | some block => .next ((s.poke (block + 24) (toBytes 4 v.toNat)).pushAllHeld p block)

/-! ## Eligibility (R180, R384) -/

/-- Live threads of a squad, by index, lowest position first. -/
def State.liveOf (s : State) (w q : Nat) : List Nat :=
  (s.squadOf w q).filter fun k => ((s.threads[k]?).map fun th => !th.exited).getD false

/-- A thread's reason in an ac, as Blink sees it at its end (R384): one that takes a header, or waits for a result's latency,
is in code 2. `heads`: the threads that have taken a header in it. -/
def State.blinkReason (s : State) (heads : List Nat) (k : Nat) (th : Thread) : Nat :=
  if s.reason k th = 0 && (th.atHeader || heads.contains k || Config.lags s.draw k) then 2 else s.reason k th

/-- A squad of a workgroup occupies its active slot: its workgroup's ac 0 has come (R384, R385). -/
def State.occupies (s : State) (w q : Nat) : Bool :=
  match s.wgs[w]? with
  | some g => g.ac0.isSome && ((g.squads[q]?).map fun x => x.slot.isSome).getD false
  | none => false

/-- A squad's reason: that of its lowest-positioned live thread (R384). -/
def State.squadReason (s : State) (heads : List Nat) (w q : Nat) : Nat :=
  match (s.liveOf w q).head? with
  | some k => if !s.occupies w q then 7 else ((s.threads[k]?).map (s.blinkReason heads k)).getD 10
  | none => 10

/-- The resident squads of a process on a core that have a live thread, oldest first (R384). -/
def State.squadsBy (s : State) (core p : Nat) : List (Nat × Nat) :=
  let ws := ((s.residents core).filter fun w => s.procOf w = p).filterMap fun w => (s.wgs[w]?).map fun g => (g.placedAt, g.slot, w)
  let sorted := ws.foldl (fun acc x => (acc.takeWhile fun y => y.1 < x.1 || (y.1 = x.1 && y.2.1 ≤ x.2.1)) ++ [x] ++
    (acc.dropWhile fun y => y.1 < x.1 || (y.1 = x.1 && y.2.1 ≤ x.2.1))) []
  sorted.flatMap fun x => ((List.range (((s.wgs[x.2.2]?).map fun g => g.squads.length).getD 0)).filter fun q =>
    !(s.liveOf x.2.2 q).isEmpty).map fun q => (x.2.2, q)

/-- What a core has issued in an ac. -/
def State.noteAt (s : State) (core t : Nat) : IssueNote :=
  match s.cores[core]? with
  | some c => if c.note.ac = t then c.note else ⟨t, 0, [], []⟩
  | none => ⟨t, 0, [], []⟩

/-- The threads of a squad that have issued in an ac. -/
def State.issuedIn (s : State) (n : IssueNote) (w q : Nat) : List Nat := (s.squadOf w q).filter n.threads.contains

/-- The threads of a squad that were eligible in an ac: those that issued, and those that could. -/
def State.eligibleIn (s : State) (n : IssueNote) (w q : Nat) : List Nat :=
  (s.liveOf w q).filter fun k =>
    n.threads.contains k || ((s.threads[k]?).map fun th => decide (s.blinkReason n.heads k th = 0)).getD false

/-- e: active squads of a process with an eligible thread (R384). -/
def State.eligibleSquads (s : State) (n : IssueNote) (core p : Nat) : Nat :=
  ((s.squadsBy core p).filter fun x => s.occupies x.1 x.2 && !(s.eligibleIn n x.1 x.2).isEmpty).length

/-- A count of a list raised. -/
def bump (l : List Nat) (k n : Nat) : List Nat := l.modify k (· + n)

/-- Blink counts n ac on a core that have this note (R384). -/
def State.blinkCore (s : State) (core : Nat) (note : IssueNote) (n : Nat) : State :=
  match (s.cores[core]?).bind (·.debug) with
  | none => s
  | some d =>
    if n = 0 || !(d.word 0).getLsbD 1 || !(s.residents core).any (fun w => s.procOf w = d.proc) then s
    else
      let e := min 8 (s.eligibleSquads note core d.proc)
      let r := match s.squadsBy core d.proc with
        | [] => 10
        | x :: _ => s.squadReason note.heads x.1 x.2
      let reasons := if e = 0 then bump d.reasons r n else d.reasons
      s.updCore core fun c => { c with debug := some { d with bins := bump d.bins e n, reasons := reasons } }

/-- Blink counts n ac on every core: the present one, and those that follow it. -/
def State.blinkTick (s : State) (n : Nat) : State :=
  if n ≠ 0 && s.cores.any fun c => (c.debug).isSome then
    (List.range s.cores.length).foldl (fun s c =>
      (s.blinkCore c (s.noteAt c s.clk) 1).blinkCore c ⟨s.clk, 0, [], []⟩ (n - 1)) s
  else s

/-! ## Samples (R385-R387) -/

/-- The next occupied active slot of a process after the one sampled last (R385). -/
def State.nextSlot (s : State) (core : Nat) (d : Debug) : Option (Nat × Nat × Nat) :=
  let first := match d.lastSlot with
    | some k => k + 1
    | none => 0
  ((List.range 8).map fun j => (first + j) % 8).findSome? fun k => match s.inSlot core k with
    | some (w, q) => if s.procOf w = d.proc && s.occupies w q then some (k, w, q) else none
    | none => none

/-- The program counter of a sample: the first word after a header that the thread takes (R386, R387). -/
def Thread.samplePc (th : Thread) : VAddr := if th.atHeader then th.pc.hdr + 4 else wordAddr th.pc

/-- The sample of a squad in an ac (R385, R387): code 0 with the bundle's place and the lowest thread of the squad that
issued; code 1 where one was eligible; else the reason of its lowest-positioned live thread. -/
def State.sample (s : State) (core : Nat) (d : Debug) (t w q : Nat) : Option (BitVec 256) :=
  let note := s.noteAt core t
  let issued := s.issuedIn note w q
  let ready := s.eligibleIn note w q
  let k := ((if issued.isEmpty then s.liveOf w q else issued).head?).getD 0
  (s.threads[k]?).map fun th =>
    let reason := if !issued.isEmpty then 0 else if !ready.isEmpty then 1 else s.squadReason note.heads w q
    let pc := if issued.isEmpty then th.samplePc else note.pc
    let active := ((List.range 8).filter fun j => ((s.inSlot core j).map fun x => s.occupies x.1 x.2).getD false).length
    sampleRecord (BitVec.ofNat 64 t) (pc.setWidth 64) (s.launchId w) (((s.wgs[w]?).map (·.wgid)).getD 0) th.tid
      (BitVec.ofNat 4 reason) (BitVec.ofNat 4 (min 8 (s.eligibleSquads note core d.proc))) (BitVec.ofNat 4 active)
      (BitVec.ofNat 8 issued.length)

/-- Blink takes the sample due on a core, if its ac comes before another (R385). -/
def State.takeSample (s : State) (core until_ : Nat) : State :=
  match (s.cores[core]?).bind (·.debug) with
  | none => s
  | some d =>
    match d.t0 with
    | none => s
    | some t =>
      if !(d.word 0).getLsbD 2 || until_ ≤ t then s
      else
        let d : Debug := { d with t0 := some (t + (d.word 1).toNat) }
        let d : Debug := match s.nextSlot core d with
          | none => d
          | some (k, w, q) => { d with lastSlot := some k, samples := d.samples ++ (s.sample core d t w q).toList }
        s.updCore core fun c => { c with debug := some d }

/-- Blink takes the samples of the next n ac on every core. -/
def State.sampleTick (s : State) (n : Nat) : State :=
  (List.range s.cores.length).foldl (fun s c =>
    match (s.cores[c]?).bind (·.debug) with
    | some d => (List.range (n / max 1 (d.word 1).toNat + 1)).foldl (fun s' _ => s'.takeSample c (s.clk + n)) s
    | none => s) s

/-- BLINK_SAMPLE (R385, R386): the oldest sample taken goes to the ring. -/
def execBlinkSample (c : Nat) (s : State) : Out :=
  match (s.cores[c]?).bind (·.debug) with
  | none => .fault .stepNotEnabled
  | some d =>
    match d.samples with
    | [] => .fault .stepNotEnabled
    | r :: t => .next ((s.pushSample d.block r).updCore c fun k => { k with debug := some { d with samples := t } })

/-- HISTOGRAM_FLUSH (R384): 65,536 ac after the last. -/
def execHistogramFlush (c : Nat) (s : State) : Out :=
  match (s.cores[c]?).bind (·.debug) with
  | some d =>
    if (d.word 0).getLsbD 1 && d.flushed + 65536 ≤ s.clk then
      .next ((s.flushHistogram c).updCore c fun k => { k with debug := (k.debug).map fun d =>
        { d with flushed := d.flushed + (s.clk - d.flushed) / 65536 * 65536 } })
    else .fault .stepNotEnabled
  | none => .fault .stepNotEnabled

end Sys2Proof.Machine
end

