-- ==== Sys2Proof/Machine/Lanes.lean ====
section
/-! DEFINITION. Lanes: collective words (R153), the lane instructions (R157-R162) and transposing fragments (R155). -/

namespace Sys2Proof.Machine

/-! ## Occurrences of a collective word -/

/-- The gathering at a place of a squad. -/
def State.gatherAt (s : State) (w q : Nat) (pc : Pc) : Option Gather :=
  ((s.wgs[w]?).bind (·.squads[q]?)).bind fun sq => sq.gathers.find? (·.pc = pc)

/-- Replacing or removing the gathering at a place. -/
def State.setGather (s : State) (w q : Nat) (pc : Pc) (g : Option Gather) : State :=
  s.updSquad w q fun sq => { sq with gathers := (sq.gathers.filter (·.pc ≠ pc)) ++ g.toList }

/-- The thread at a position of a squad. -/
def State.atPos (s : State) (w q pos : Nat) : Option Nat :=
  (s.squadOf w q).find? fun i => ((s.threads[i]?).map fun th => decide (th.pos = pos)).getD false

/-- What an executing member receives: its registers, its flags, whether a row of its own was not there, and the home of
its row. -/
structure Delivery where
  regs : List (BitVec 7 × Word)
  flags : Word
  absent : Bool
  row : Option Nat
deriving DecidableEq, Repr

/-- A delivery reaches a member: at once, or as a load (R155, R185). -/
def State.deliver (s : State) (k : Nat) (d : Delivery) (load : Bool) (slots : Nat) : State :=
  let s : State := match d.row with
    | some a => s.seeAll k a 16
    | none => s
  if load then s.sendLoad k d.regs d.absent d.flags false slots
  else s.updThread k fun th => ((th.setRegs d.regs).raise d.flags).advance slots

/-- The word executes once for all waiting members (R153): each receives what `res` gives it of the state then. -/
def State.runGather (s : State) (w q : Nat) (g : Gather) (load : Bool) (slots : Nat)
    (res : State → List Arrival → Nat → Delivery) : State :=
  let live := g.arrivals.filter (·.live)
  live.foldl (fun t a => match t.atPos w q a.pos with
    | some k => t.deliver k (res s live a.pos) load slots
    | none => t) (s.setGather w q g.pc none)

/-- The row that an arrival supplied lies in an allocation lost since (R155, R208). -/
def State.rowLost (s : State) (w : Nat) (a : Arrival) : Bool :=
  a.live && a.a.getD 2 0 = 0 && (match s.place w (a.a.getD 1 0 ++ a.a.getD 0 0).toNat with
    | .pool x off => x = w && s.lostAt x off
    | _ => false)

/-- Members whose rows have been lost issue their word again, so that their handlers run first; the others wait (R155,
R210). -/
def State.reopen (s : State) (w q : Nat) (g : Gather) (gone : List Arrival) : State :=
  gone.foldl (fun s a => match s.atPos w q a.pos with
    | some k => s.updThread k fun th => { th with park := .none }
    | none => s) (s.setGather w q g.pc (some { g with formed := false, arrivals := g.arrivals.filter fun a => !gone.contains a }))

/-- The word executes if every present member has arrived. -/
def State.tryGather (s : State) (w q : Nat) (pc : Pc) (load : Bool) (slots : Nat)
    (res : State → List Arrival → Nat → Delivery) : State :=
  match s.gatherAt w q pc with
  | some g =>
    let gone := if load then g.arrivals.filter (s.rowLost w) else []
    if !g.formed then s else if gone.isEmpty then s.runGather w q g load slots res else s.reopen w q g gone
  | none => s

/-- A member's arrival joins the occurrence, which it begins if it is the first (R153); then the test is made. A member
counted absent that comes back to the word before the occurrence executes joins that occurrence (DESIGN CHOICE, log
80). -/
def State.addArrival (s : State) (w q : Nat) (pc : Pc) (i : Instr) (mask : Word) (a : Arrival) : State :=
  let s : State := match s.gatherAt w q pc with
    | some g => s.setGather w q pc (some { g with
        mask := if g.arrivals.isEmpty then mask else g.mask
        arrivals := g.arrivals ++ [a], absent := g.absent &&& ~~~(1#32 <<< a.pos) })
    | none => s.setGather w q pc (some ⟨pc, i, mask, [a], 0, false⟩)
  s.formGathers w q

/-- An offender, or a member whose own row faults, counts as absent for the occurrence (R153, R155). -/
def State.countAbsent (s : State) (w q : Nat) (pc : Pc) (i : Instr) (mask : Word) (pos : Nat) : State :=
  let s : State := match s.gatherAt w q pc with
    | some g => s.setGather w q pc (some { g with absent := g.absent ||| (1#32 <<< pos) })
    | none => s.setGather w q pc (some ⟨pc, i, mask, [], 1#32 <<< pos, false⟩)
  s.formGathers w q

/-- A collective word issues for one member (R153); a load waits while 63 are outstanding (R185). `value` gives what it
supplies, or the step that its own row takes instead, and whether that is a fault. A thread whose guard is false and whose
own mask lacks its bit does not arrive, whatever the reference mask of the occurrence: it goes on (DESIGN CHOICE, log
80). -/
def State.collective (s : State) (k : Nat) (th : Thread) (i : Instr) (mask : Word) (load : Bool)
    (value : State → Except (Bool × State) (State × List Word)) (res : State → List Arrival → Nat → Delivery) : State :=
  let w := th.wg
  let q := th.squad
  let g := s.gatherAt w q th.pc
  let here := (g.map fun g => g.formed || g.arrivals.any (·.pos = th.pos)).getD false
  if here then
    if th.park = .collective then s.tryGather w q th.pc load i.slots res else s
  else if !th.pred i.guard then
    if mask.getLsbD th.pos then
      let s : State := (s.addArrival w q th.pc i mask ⟨th.pos, false, []⟩).tryGather w q th.pc load i.slots res
      s.updThread k fun th => th.advance i.slots
    else s.updThread k fun th => th.advance i.slots
  else if th.awaits i.regs || (load && 63 ≤ th.loads.length) then s
  else if !mask.getLsbD th.pos || ((g.map fun g => decide (g.mask ≠ mask) && !g.arrivals.isEmpty).getD false) then
    (s.countAbsent w q th.pc i mask th.pos).illegal k i
  else match value s with
    | .error (false, s) => s
    | .error (true, _) => match value (s.countAbsent w q th.pc i mask th.pos) with
      | .error (_, s) => s
      | .ok (s, _) => s
    | .ok (s, vs) =>
      ((s.updThread k fun th => { th with park := .collective }).addArrival w q th.pc i mask ⟨th.pos, true, vs⟩
        ).tryGather w q th.pc load i.slots res

/-- A collective word (R153): the checks of R41 and R48 first, whatever the guard. -/
def onCollective (i : Instr) (s : State) (mask : Thread → Word) (load : Bool)
    (value : Nat → Thread → State → Except (Bool × State) (State × List Word))
    (res : Thread → State → List Arrival → Nat → Delivery) : Out :=
  match s.issuer with
  | some (.thread k) =>
    match s.threads[k]? with
    | some th => .next (if !(i.wellFormed && th.allots i.regs) then s.illegal k i
        else s.collective k th i (mask th) load (value k th) (res th))
    | none => .fault .noIssuer
  | some (.drive w) =>
    match s.drive? w with
    | some _ => .next (s.driveFaultHere w i causeIllegal)
    | none => .fault .noIssuer
  | _ => .fault .noIssuer

/-- The values of executing members, by position. -/
def valAt (live : List Arrival) (n : Nat) (pos : Nat) : Option Word :=
  (live.find? (·.pos = pos)).map fun a => a.a.getD n 0

/-- The values of executing members in ascending position. -/
def ordered (live : List Arrival) : List (Nat × Word) :=
  (List.range 32).filterMap fun p => (valAt live 0 p).map fun v => (p, v)

/-- A result in g(d) with no flag. -/
def plain (d : BitVec 7) (v : Word) : Delivery := ⟨[(d, v)], 0, false, none⟩

/-- A lane word that supplies the registers listed. -/
def onLanes (i : Instr) (s : State) (m : BitVec 2) (vs : List (BitVec 7)) (res : List Arrival → Nat → Delivery) : Out :=
  onCollective i s (fun th => th.mask m) false (fun _ th s => .ok (s, vs.map th.reg)) fun _ _ => res

/-! ## Shuffles (R158) -/

/-- A member reads its source, or its own value where the source does not execute (R158). -/
def shuffled (d : BitVec 7) (src : Nat → Word → Option Nat) (live : List Arrival) (pos : Nat) : Delivery :=
  let own := (valAt live 0 pos).getD 0
  plain d (((src pos ((valAt live 1 pos).getD 0)).bind fun p => valAt live 0 p).getD own)

/-- R158. -/
def execShflIdx (g : BitVec 3) (k : BitVec 2) (d a b : BitVec 7) (s : State) : Out :=
  onLanes (.shflIdx g k d a b) s k [a, b] (shuffled d fun _ x => some (x.toNat % 32))
/-- R158. -/
def execShflUp (g : BitVec 3) (d a : BitVec 7) (m : BitVec 2) (n : BitVec 5) (s : State) : Out :=
  onLanes (.shflUp g d a m n) s m [a] (shuffled d fun p _ => if n.toNat ≤ p then some (p - n.toNat) else none)
/-- R158. -/
def execShflDown (g : BitVec 3) (d a : BitVec 7) (m : BitVec 2) (n : BitVec 5) (s : State) : Out :=
  onLanes (.shflDown g d a m n) s m [a] (shuffled d fun p _ => some (p + n.toNat))
/-- R158. -/
def execShflXor (g : BitVec 3) (d a : BitVec 7) (m : BitVec 2) (n : BitVec 5) (s : State) : Out :=
  onLanes (.shflXor g d a m n) s m [a] (shuffled d fun p _ => some (p ^^^ n.toNat))

/-! ## Votes and matches (R159) -/

/-- A mask of positions. -/
def maskOf (ps : List Nat) : Word := ps.foldl (fun m p => m ||| (1#32 <<< p)) 0

/-- The value `vote` writes (R159). -/
def voteValue (o : BitVec 5) (live : List Arrival) : Word :=
  let vs := ordered live
  let t := vs.filter fun x => x.2 ≠ 0
  match o.toNat with
  | 0 => if t.length = vs.length then 1 else 0
  | 1 => if t.isEmpty then 0 else 1
  | 2 => if t.isEmpty || t.length = vs.length then 1 else 0
  | 3 => maskOf (t.map (·.1))
  | 4 => BitVec.ofNat 32 t.length
  | _ => BitVec.ofNat 32 (((t.head?).map (·.1)).getD 32)

/-- R159. -/
def execVote (g : BitVec 3) (d a : BitVec 7) (m : BitVec 2) (o : BitVec 5) (s : State) : Out :=
  onLanes (.vote g d a m o) s m [a] fun live _ => plain d (voteValue o live)

/-- The value `match` writes to a member (R159): the `.d` forms compare 64 bits. -/
def matchValue (o : BitVec 5) (live : List Arrival) (pos : Nat) : Word :=
  let val : Nat → Option (Word × Word) := fun p =>
    (valAt live 0 p).map fun v => (v, if o.toNat < 2 then 0 else (valAt live 1 p).getD 0)
  let ps := (List.range 32).filter fun p => (val p).isSome
  let same := ps.filter fun p => val p = val pos
  if o.toNat % 2 = 0 then maskOf same else if same.length = ps.length then maskOf ps else 0

/-- R159. -/
def execMatchLanes (g : BitVec 3) (d a : BitVec 7) (m : BitVec 2) (o : BitVec 5) (s : State) : Out :=
  onLanes (.matchLanes g d a m o) s m (if o.toNat < 2 then [a] else [a, a + 1])
    fun live pos => plain d (matchValue o live pos)

/-! ## Reductions and scans (R160, R161) -/

/-- NV for a signalling NaN input. -/
def snanFlag (vs : List Word) : Word := flagIf (vs.any fun v => (fp32.decode v.toNat).snan) flagNV

/-- A node of the tree: both inputs added, one passed on (R160). -/
def treeNode (a b : Option Word) : Option Word × Word :=
  match a, b with
  | some x, some y =>
    let r := fp32.add 0#3 x.toNat y.toNat
    (some (BitVec.ofNat 32 r.bits), r.flags)
  | some x, none => (some x, 0)
  | none, y => (y, 0)

/-- One level of the tree. -/
def treeLevel : List (Option Word) → List (Option Word) × Word
  | a :: b :: t =>
    let (x, f) := treeNode a b
    let (r, g) := treeLevel t
    (x :: r, f ||| g)
  | l => (l, 0)

/-- The fixed tree over positions, level by level (R160). -/
def treeSum : Nat → List (Option Word) → Word → Option Word × Word
  | 0, l, f => ((l.head?).join, f)
  | n + 1, l, f =>
    let (r, g) := treeLevel l
    treeSum n r (f ||| g)

/-- A fold of the executing members' values. -/
def foldVals (f : Word → Word → Word) (vs : List Word) : Word :=
  match vs with
  | [] => 0
  | v :: t => t.foldl f v

/-- The reduction of `gred` and its flags (R160). -/
def gredValue (o : BitVec 5) (live : List Arrival) : Word × Word :=
  let vs := (ordered live).map (·.2)
  match o.toNat with
  | 0 => (foldVals (· + ·) vs, 0)
  | 1 => (foldVals minS vs, 0)
  | 2 => (foldVals maxS vs, 0)
  | 3 => (foldVals minU vs, 0)
  | 4 => (foldVals maxU vs, 0)
  | 5 => (foldVals (· &&& ·) vs, 0)
  | 6 => (foldVals (· ||| ·) vs, 0)
  | 7 => (foldVals (· ^^^ ·) vs, 0)
  | 8 =>
    let (v, f) := treeSum 5 ((List.range 32).map fun p => valAt live 0 p) 0
    (v.getD 0, f ||| snanFlag vs)
  | n => (foldVals (fun a b => BitVec.ofNat 32 (fp32.minMax (n = 10) a.toNat b.toNat).bits) vs, snanFlag vs)

/-- R160. -/
def execGred (g : BitVec 3) (d a : BitVec 7) (m : BitVec 2) (o : BitVec 5) (s : State) : Out :=
  onLanes (.gred g d a m o) s m [a] fun live _ => ⟨[(d, (gredValue o live).1)], (gredValue o live).2, false, none⟩

/-- The running sum of `gscan.add.f32` over the values up to a member (R161): the first passes unchanged. -/
def scanF32 : List Word → Word × Word
  | [] => (0, 0)
  | v :: t => t.foldl (fun (r, f) x =>
      let q := fp32.add 0#3 r.toNat x.toNat
      (BitVec.ofNat 32 q.bits, f ||| q.flags)) (v, 0)

/-- The scan's value at a member and its flags (R161). -/
def gscanValue (o : BitVec 5) (live : List Arrival) (pos : Nat) : Word × Word :=
  let upTo := ((ordered live).filter fun x => x.1 ≤ pos).map (·.2)
  match o.toNat with
  | 0 => (foldVals (· + ·) upTo, 0)
  | 1 => (foldVals (· + ·) (((ordered live).filter fun x => x.1 < pos).map (·.2)), 0)
  | 2 => (foldVals minS upTo, 0)
  | 3 => (foldVals maxS upTo, 0)
  | 4 => (foldVals (· ||| ·) upTo, 0)
  | _ => ((scanF32 upTo).1, (scanF32 upTo).2 ||| snanFlag upTo)

/-- R161. -/
def execGscan (g : BitVec 3) (d a : BitVec 7) (m : BitVec 2) (o : BitVec 5) (s : State) : Out :=
  onLanes (.gscan g d a m o) s m [a] fun live pos => ⟨[(d, (gscanValue o live pos).1)], (gscanValue o live pos).2, false, none⟩

/-! ## The issuing thread's masks (R162) -/

/-- R162. -/
def execLanesGet (g : BitVec 3) (d : BitVec 7) (m : BitVec 2) (s : State) : Out :=
  onRegs (.lanesGet g d m) s fun th => th.setReg d (th.mask m)
/-- R162. -/
def execLanesSet (g : BitVec 3) (a : BitVec 7) (m : BitVec 2) (s : State) : Out :=
  onRegs (.lanesSet g a m) s fun th => th.setMask m (th.reg a)
/-- R162: the squad's present threads are read at issue. -/
def execLanesPresent (g : BitVec 3) (d : BitVec 7) (m : BitVec 2) (s : State) : Out :=
  onThread (.lanesPresent g d m) s fun k th s =>
    s.updThread k fun t => (t.setReg d (t.mask m &&& s.presentMask th.wg th.squad)).advance 1

/-! ## Fragments (R155) -/

/-- A member's row at its arrival (R138, R155): its checks, and its address; with the second half of a fault, whether it
counts the member absent. -/
def fragRow (off : Int) (a : BitVec 7) (k : Nat) (th : Thread) (s : State) : Except (Bool × State) (State × List Word) :=
  let ea := th.pair a + BitVec.ofInt 64 off
  let aligned := ea.extractLsb' 57 7 = 0 && ea.toNat % 16 = 0
  if aligned && !(s.place th.wg ea.toNat).own th.wg then .error (true, s.takeTrap k causeAccess (low ea))
  else
    let gone : Bool := !aligned || !s.permits th.wg (s.place th.wg ea.toNat) .read ||
      s.lockMet th.wg ea.toNat 16 .read
    match s.checkAccess k th ea 16 .read false with
    | .error s => .error (gone, s)
    | .ok (s, p) => .ok (s, [low ea, ea.extractLsb' 32 32, if (s.physOf p).isSome then 0 else 1])

/-- The home of a member's row, when the word executes. -/
def State.rowHome (s : State) (w : Nat) (x : Arrival) : Option Nat :=
  if x.a.getD 2 0 = 1 then none else s.physOf (s.place w (x.a.getD 1 0 ++ x.a.getD 0 0).toNat)

/-- The rows as they stand when the word executes: four words each, with a fifth that says the row is not there (R155,
R211). -/
def State.fragRows (s : State) (w : Nat) (live : List Arrival) : List Arrival :=
  live.map fun x =>
    { x with a := match s.rowHome w x with
      | some p => [memWord s.mem p, memWord s.mem (p + 4), memWord s.mem (p + 8), memWord s.mem (p + 12), 0]
      | none => [0, 0, 0, 0, 1] }

/-- Bytes of row k: zeros for a member that does not execute (R155). -/
def rowByte (live : List Arrival) (row b : Nat) : Nat :=
  match valAt live (b / 4) row with
  | some w => w.toNat / 256 ^ (b % 4) % 256
  | none => 0

/-- Word j of the quad a member at `pos` receives from `ldfrag.t8` (R155): byte e is byte i of row 16q + e. -/
def fragT8 (live : List Arrival) (pos j : Nat) : Word :=
  BitVec.ofNat 32 ((List.range 4).foldl (fun acc x => acc + rowByte live (16 * (pos / 16) + 4 * j + x) (pos % 16) * 256 ^ x) 0)

/-- Word j of the quad from `ldfrag.t16` (R155): halfword e is bytes [2i+1:2i] of row 8q + e. -/
def fragT16 (live : List Arrival) (pos j : Nat) : Word :=
  BitVec.ofNat 32 ((List.range 2).foldl (fun acc x =>
    let row := 8 * (pos / 8) + 2 * j + x
    let i := pos % 8
    acc + (rowByte live row (2 * i) + 256 * rowByte live row (2 * i + 1)) * 65536 ^ x) 0)

/-- A fragment's delivery: the quad gD, as a load. -/
def fragment (d : BitVec 7) (f : List Arrival → Nat → Nat → Word) (th : Thread) (s : State) (live : List Arrival) (pos : Nat) :
    Delivery :=
  let rows := s.fragRows th.wg live
  ⟨(List.range 4).map fun j => (d + BitVec.ofNat 7 j, f rows pos j), 0, valAt rows 4 pos = some 1,
    (live.find? (·.pos = pos)).bind (s.rowHome th.wg)⟩

/-- R155. -/
def execLdfragT8 (g : BitVec 3) (d a o : BitVec 7) (s : State) : Out :=
  onCollective (.ldfragT8 g d a o) s (fun _ => 0xFFFFFFFF) true (fragRow (64 * o.toInt) a) (fragment d fragT8)
/-- R155. -/
def execLdfragT16 (g : BitVec 3) (d a o : BitVec 7) (s : State) : Out :=
  onCollective (.ldfragT16 g d a o) s (fun _ => 0xFFFFFFFF) true (fragRow (64 * o.toInt) a) (fragment d fragT16)

end Sys2Proof.Machine
end

