-- ==== Sys2Proof/Machine/Dispatch.lean ====
section
/-! DEFINITION. Dispatch: every row of spec/opcode_table.json and its meaning. A word of a stream is executed for the
stream that issues it; a device step is taken when its condition holds. -/

namespace Sys2Proof.Machine

/-- The meaning of every instruction and device step. -/
def exec (i : Instr) (s : State) : Host.Outcome State Fault Refusal :=
  match i with
  | .addS32 g d a b => Sys2Proof.Machine.execAddS32 g d a b s
  | .addS32Sat g d a b => Sys2Proof.Machine.execAddS32Sat g d a b s
  | .addN32Sat g d a b => Sys2Proof.Machine.execAddN32Sat g d a b s
  | .addN64 g d a b => Sys2Proof.Machine.execAddN64 g d a b s
  | .subS32 g d a b => Sys2Proof.Machine.execSubS32 g d a b s
  | .subS32Sat g d a b => Sys2Proof.Machine.execSubS32Sat g d a b s
  | .subN32Sat g d a b => Sys2Proof.Machine.execSubN32Sat g d a b s
  | .subN64 g d a b => Sys2Proof.Machine.execSubN64 g d a b s
  | .mulS32 g d a b => Sys2Proof.Machine.execMulS32 g d a b s
  | .mulS32Sat g d a b => Sys2Proof.Machine.execMulS32Sat g d a b s
  | .mulN32Sat g d a b => Sys2Proof.Machine.execMulN32Sat g d a b s
  | .mulN64 g d a b => Sys2Proof.Machine.execMulN64 g d a b s
  | .madS32 g d a b => Sys2Proof.Machine.execMadS32 g d a b s
  | .madS32Sat g d a b => Sys2Proof.Machine.execMadS32Sat g d a b s
  | .madN32Sat g d a b => Sys2Proof.Machine.execMadN32Sat g d a b s
  | .madN64 g d a b => Sys2Proof.Machine.execMadN64 g d a b s
  | .mulhS32 g d a b => Sys2Proof.Machine.execMulhS32 g d a b s
  | .mulhN32 g d a b => Sys2Proof.Machine.execMulhN32 g d a b s
  | .divS32 g d a b => Sys2Proof.Machine.execDivS32 g d a b s
  | .divN32 g d a b => Sys2Proof.Machine.execDivN32 g d a b s
  | .remS32 g d a b => Sys2Proof.Machine.execRemS32 g d a b s
  | .remN32 g d a b => Sys2Proof.Machine.execRemN32 g d a b s
  | .minS32 g d a b => Sys2Proof.Machine.execMinS32 g d a b s
  | .minN32 g d a b => Sys2Proof.Machine.execMinN32 g d a b s
  | .maxS32 g d a b => Sys2Proof.Machine.execMaxS32 g d a b s
  | .maxN32 g d a b => Sys2Proof.Machine.execMaxN32 g d a b s
  | .addminS32 g d a b => Sys2Proof.Machine.execAddminS32 g d a b s
  | .addminN32 g d a b => Sys2Proof.Machine.execAddminN32 g d a b s
  | .addmaxS32 g d a b => Sys2Proof.Machine.execAddmaxS32 g d a b s
  | .addmaxN32 g d a b => Sys2Proof.Machine.execAddmaxN32 g d a b s
  | .clampS32 g d a b => Sys2Proof.Machine.execClampS32 g d a b s
  | .clampN32 g d a b => Sys2Proof.Machine.execClampN32 g d a b s
  | .addc g d a b => Sys2Proof.Machine.execAddc g d a b s
  | .subb g d a b => Sys2Proof.Machine.execSubb g d a b s
  | .neg g d a => Sys2Proof.Machine.execNeg g d a s
  | .abs g d a => Sys2Proof.Machine.execAbs g d a s
  | .lea g d a b => Sys2Proof.Machine.execLea g d a b s
  | .and g d a b => Sys2Proof.Machine.execAnd g d a b s
  | .or g d a b => Sys2Proof.Machine.execOr g d a b s
  | .xor g d a b => Sys2Proof.Machine.execXor g d a b s
  | .andn g d a b => Sys2Proof.Machine.execAndn g d a b s
  | .not g d a => Sys2Proof.Machine.execNot g d a s
  | .shl g d a b => Sys2Proof.Machine.execShl g d a b s
  | .shr g d a b => Sys2Proof.Machine.execShr g d a b s
  | .sar g d a b => Sys2Proof.Machine.execSar g d a b s
  | .rot g d a b => Sys2Proof.Machine.execRot g d a b s
  | .bfx g d a b => Sys2Proof.Machine.execBfx g d a b s
  | .bfi g d a b => Sys2Proof.Machine.execBfi g d a b s
  | .popc g d a => Sys2Proof.Machine.execPopc g d a s
  | .clz g d a => Sys2Proof.Machine.execClz g d a s
  | .ctz g d a => Sys2Proof.Machine.execCtz g d a s
  | .brev g d a => Sys2Proof.Machine.execBrev g d a s
  | .bswap g d a => Sys2Proof.Machine.execBswap g d a s
  | .sel g d a b => Sys2Proof.Machine.execSel g d a b s
  | .mov g d a => Sys2Proof.Machine.execMov g d a s
  | .cmp g c p a b => Sys2Proof.Machine.execCmp g c p a b s
  | .plog g t d a b => Sys2Proof.Machine.execPlog g t d a b s
  | .pmovRd g d => Sys2Proof.Machine.execPmovRd g d s
  | .pmovWr g a => Sys2Proof.Machine.execPmovWr g a s
  | .movi g d imm => Sys2Proof.Machine.execMovi g d imm s
  | .movl g d lit => Sys2Proof.Machine.execMovl g d lit s
  | .cmpi g c p a imm => Sys2Proof.Machine.execCmpi g c p a imm s
  | .addImm g d a imm => Sys2Proof.Machine.execAddImm g d a imm s
  | .andImm g d a imm => Sys2Proof.Machine.execAndImm g d a imm s
  | .orImm g d a imm => Sys2Proof.Machine.execOrImm g d a imm s
  | .xorImm g d a imm => Sys2Proof.Machine.execXorImm g d a imm s
  | .shlImm g d a imm => Sys2Proof.Machine.execShlImm g d a imm s
  | .shrImm g d a imm => Sys2Proof.Machine.execShrImm g d a imm s
  | .sarImm g d a imm => Sys2Proof.Machine.execSarImm g d a imm s
  | .rotImm g d a imm => Sys2Proof.Machine.execRotImm g d a imm s
  | .fmin g d a b => Sys2Proof.Machine.execFmin g d a b s
  | .fmax g d a b => Sys2Proof.Machine.execFmax g d a b s
  | .fdiv g d a b => Sys2Proof.Machine.execFdiv g d a b s
  | .fadd g d a b => Sys2Proof.Machine.execFadd g d a b s
  | .faddRn g d a b => Sys2Proof.Machine.execFaddRn g d a b s
  | .fsub g d a b => Sys2Proof.Machine.execFsub g d a b s
  | .fsubRn g d a b => Sys2Proof.Machine.execFsubRn g d a b s
  | .fmul g d a b => Sys2Proof.Machine.execFmul g d a b s
  | .fmulRn g d a b => Sys2Proof.Machine.execFmulRn g d a b s
  | .ffma g d a b => Sys2Proof.Machine.execFfma g d a b s
  | .ffmaRn g d a b => Sys2Proof.Machine.execFfmaRn g d a b s
  | .fscale g d a b => Sys2Proof.Machine.execFscale g d a b s
  | .fcmp g c p a b => Sys2Proof.Machine.execFcmp g c p a b s
  | .fabs g d a => Sys2Proof.Machine.execFabs g d a s
  | .fneg g d a => Sys2Proof.Machine.execFneg g d a s
  | .fclass g d a => Sys2Proof.Machine.execFclass g d a s
  | .frnd g d a m => Sys2Proof.Machine.execFrnd g d a m s
  | .frcp g d a m => Sys2Proof.Machine.execFrcp g d a m s
  | .frsq g d a m => Sys2Proof.Machine.execFrsq g d a m s
  | .fsqrt g d a m => Sys2Proof.Machine.execFsqrt g d a m s
  | .fex2 g d a m => Sys2Proof.Machine.execFex2 g d a m s
  | .flg2 g d a m => Sys2Proof.Machine.execFlg2 g d a m s
  | .fsin g d a m => Sys2Proof.Machine.execFsin g d a m s
  | .fcos g d a m => Sys2Proof.Machine.execFcos g d a m s
  | .cvt g d a cs => Sys2Proof.Machine.execCvt g d a cs s
  | .cvtRn g d a cs => Sys2Proof.Machine.execCvtRn g d a cs s
  | .cvtRna g d a cs => Sys2Proof.Machine.execCvtRna g d a cs s
  | .cvtRz g d a cs => Sys2Proof.Machine.execCvtRz g d a cs s
  | .cvtRp g d a cs => Sys2Proof.Machine.execCvtRp g d a cs s
  | .cvtRm g d a cs => Sys2Proof.Machine.execCvtRm g d a cs s
  | .hadd2Bf16 g d a b => Sys2Proof.Machine.execHadd2Bf16 g d a b s
  | .hsub2Bf16 g d a b => Sys2Proof.Machine.execHsub2Bf16 g d a b s
  | .hmul2Bf16 g d a b => Sys2Proof.Machine.execHmul2Bf16 g d a b s
  | .hfma2Bf16 g d a b => Sys2Proof.Machine.execHfma2Bf16 g d a b s
  | .hmin2Bf16 g d a b => Sys2Proof.Machine.execHmin2Bf16 g d a b s
  | .hmax2Bf16 g d a b => Sys2Proof.Machine.execHmax2Bf16 g d a b s
  | .hadd2Hf16 g d a b => Sys2Proof.Machine.execHadd2Hf16 g d a b s
  | .hsub2Hf16 g d a b => Sys2Proof.Machine.execHsub2Hf16 g d a b s
  | .hmul2Hf16 g d a b => Sys2Proof.Machine.execHmul2Hf16 g d a b s
  | .hfma2Hf16 g d a b => Sys2Proof.Machine.execHfma2Hf16 g d a b s
  | .hmin2Hf16 g d a b => Sys2Proof.Machine.execHmin2Hf16 g d a b s
  | .hmax2Hf16 g d a b => Sys2Proof.Machine.execHmax2Hf16 g d a b s
  | .ldS8 g d a o => Sys2Proof.Machine.execLdS8 g d a o s
  | .ldZ8 g d a o => Sys2Proof.Machine.execLdZ8 g d a o s
  | .ldS16 g d a o => Sys2Proof.Machine.execLdS16 g d a o s
  | .ldZ16 g d a o => Sys2Proof.Machine.execLdZ16 g d a o s
  | .ldW g d a o => Sys2Proof.Machine.execLdW g d a o s
  | .ldD g d a o => Sys2Proof.Machine.execLdD g d a o s
  | .ldQ g d a o => Sys2Proof.Machine.execLdQ g d a o s
  | .ldl g d a sz adv lit => Sys2Proof.Machine.execLdl g d a sz adv lit s
  | .ldAdvW g d a o => Sys2Proof.Machine.execLdAdvW g d a o s
  | .ldAdvD g d a o => Sys2Proof.Machine.execLdAdvD g d a o s
  | .ldAdvQ g d a o => Sys2Proof.Machine.execLdAdvQ g d a o s
  | .stl g d a sz lit => Sys2Proof.Machine.execStl g d a sz lit s
  | .stB8 g d a o => Sys2Proof.Machine.execStB8 g d a o s
  | .stB16 g d a o => Sys2Proof.Machine.execStB16 g d a o s
  | .stW g d a o => Sys2Proof.Machine.execStW g d a o s
  | .stD g d a o => Sys2Proof.Machine.execStD g d a o s
  | .stQ g d a o => Sys2Proof.Machine.execStQ g d a o s
  | .shld g d a o => Sys2Proof.Machine.execShld g d a o s
  | .ldfragT8 g d a o => Sys2Proof.Machine.execLdfragT8 g d a o s
  | .ldfragT16 g d a o => Sys2Proof.Machine.execLdfragT16 g d a o s
  | .ldt g d c h => Sys2Proof.Machine.execLdt g d c h s
  | .stt g d c h => Sys2Proof.Machine.execStt g d c h s
  | .wadd g a b => Sys2Proof.Machine.execWadd g a b s
  | .wld g d a => Sys2Proof.Machine.execWld g d a s
  | .atomAdd g d a b => Sys2Proof.Machine.execAtomAdd g d a b s
  | .atomMin g d a b => Sys2Proof.Machine.execAtomMin g d a b s
  | .atomMax g d a b => Sys2Proof.Machine.execAtomMax g d a b s
  | .atomAnd g d a b => Sys2Proof.Machine.execAtomAnd g d a b s
  | .atomOr g d a b => Sys2Proof.Machine.execAtomOr g d a b s
  | .atomXor g d a b => Sys2Proof.Machine.execAtomXor g d a b s
  | .atomExch g d a b => Sys2Proof.Machine.execAtomExch g d a b s
  | .atomCas g d a b => Sys2Proof.Machine.execAtomCas g d a b s
  | .acq g a sc k => Sys2Proof.Machine.execAcq g a sc k s
  | .rel g a sc k => Sys2Proof.Machine.execRel g a sc k s
  | .fence g sc => Sys2Proof.Machine.execFence g sc s
  | .bind g d a b => Sys2Proof.Machine.execBind g d a b s
  | .unbind g d => Sys2Proof.Machine.execUnbind g d s
  | .pgreq g a o => Sys2Proof.Machine.execPgreq g a o s
  | .pgprobe g d a o => Sys2Proof.Machine.execPgprobe g d a o s
  | .br g o => Sys2Proof.Machine.execBr g o s
  | .brl g l o => Sys2Proof.Machine.execBrl g l o s
  | .jmp g a => Sys2Proof.Machine.execJmp g a s
  | .call g o => Sys2Proof.Machine.execCall g o s
  | .calli g a => Sys2Proof.Machine.execCalli g a s
  | .ret g => Sys2Proof.Machine.execRet g s
  | .enrol g j => Sys2Proof.Machine.execEnrol g j s
  | .join g j => Sys2Proof.Machine.execJoin g j s
  | .exit g => Sys2Proof.Machine.execExit g s
  | .trap g c => Sys2Proof.Machine.execTrap g c s
  | .tret g => Sys2Proof.Machine.execTret g s
  | .brk g c => Sys2Proof.Machine.execBrk g c s
  | .nop g => Sys2Proof.Machine.execNop g s
  | .wait g l st c t => Sys2Proof.Machine.execWait g l st c t s
  | .tryW g o => Sys2Proof.Machine.execTryW g o s
  | .tryL g o => Sys2Proof.Machine.execTryL g o s
  | .tcommit g => Sys2Proof.Machine.execTcommit g s
  | .tabort g c => Sys2Proof.Machine.execTabort g c s
  | .speculationConflict => Sys2Proof.Machine.execSpeculationConflict s
  | .srd g d n => Sys2Proof.Machine.execSrd g d n s
  | .swr g src n => Sys2Proof.Machine.execSwr g src n s
  | .shflIdx g k d a b => Sys2Proof.Machine.execShflIdx g k d a b s
  | .shflUp g d a m n => Sys2Proof.Machine.execShflUp g d a m n s
  | .shflDown g d a m n => Sys2Proof.Machine.execShflDown g d a m n s
  | .shflXor g d a m n => Sys2Proof.Machine.execShflXor g d a m n s
  | .vote g d a m o => Sys2Proof.Machine.execVote g d a m o s
  | .matchLanes g d a m o => Sys2Proof.Machine.execMatchLanes g d a m o s
  | .gred g d a m o => Sys2Proof.Machine.execGred g d a m o s
  | .gscan g d a m o => Sys2Proof.Machine.execGscan g d a m o s
  | .lanesGet g d m => Sys2Proof.Machine.execLanesGet g d m s
  | .lanesSet g a m => Sys2Proof.Machine.execLanesSet g a m s
  | .lanesPresent g d m => Sys2Proof.Machine.execLanesPresent g d m s
  | .breserve u r => Sys2Proof.Machine.execBreserve u r s
  | .brelease u => Sys2Proof.Machine.execBrelease u s
  | .bfill u r x => Sys2Proof.Machine.execBfill u r x s
  | .bgather u r x => Sys2Proof.Machine.execBgather u r x s
  | .mma t a b l m n z => Sys2Proof.Machine.execMma t a b l m n z s
  | .mmaw t a b l m n z => Sys2Proof.Machine.execMmaw t a b l m n z s
  | .talloc t r => Sys2Proof.Machine.execTalloc t r s
  | .tfree t => Sys2Proof.Machine.execTfree t s
  | .tzero t => Sys2Proof.Machine.execTzero t s
  | .tld t r x => Sys2Proof.Machine.execTld t r x s
  | .tst t r x => Sys2Proof.Machine.execTst t r x s
  | .tpost t l => Sys2Proof.Machine.execTpost t l s
  | .tfinal t => Sys2Proof.Machine.execTfinal t s
  | .tsettle l r => Sys2Proof.Machine.execTsettle l r s
  | .tcvtBuffer t u n z => Sys2Proof.Machine.execTcvtBuffer t u n z s
  | .tcvtMemory t r n z => Sys2Proof.Machine.execTcvtMemory t r n z s
  | .fred t r => Sys2Proof.Machine.execFred t r s
  | .tadd t u l => Sys2Proof.Machine.execTadd t u l s
  | .tsub t u l => Sys2Proof.Machine.execTsub t u l s
  | .tneg t u l => Sys2Proof.Machine.execTneg t u l s
  | .tshift t u l r => Sys2Proof.Machine.execTshift t u l r s
  | .tmuli t u l r => Sys2Proof.Machine.execTmuli t u l r s
  | .trsum t u l => Sys2Proof.Machine.execTrsum t u l s
  | .tcsum t u l => Sys2Proof.Machine.execTcsum t u l s
  | .ttrans t u l => Sys2Proof.Machine.execTtrans t u l s
  | .tslice t u l r => Sys2Proof.Machine.execTslice t u l r s
  | .tcopy t u l => Sys2Proof.Machine.execTcopy t u l s
  | .dmov d a => Sys2Proof.Machine.execDmov d a s
  | .dmovImm d imm => Sys2Proof.Machine.execDmovImm d imm s
  | .dmovRdstat d => Sys2Proof.Machine.execDmovRdstat d s
  | .dmovWrstat a => Sys2Proof.Machine.execDmovWrstat a s
  | .dmovRdrm d => Sys2Proof.Machine.execDmovRdrm d s
  | .dmovWrrm a => Sys2Proof.Machine.execDmovWrrm a s
  | .dmovRdcnt d => Sys2Proof.Machine.execDmovRdcnt d s
  | .dmovRdwg d => Sys2Proof.Machine.execDmovRdwg d s
  | .dmovRdclk d => Sys2Proof.Machine.execDmovRdclk d s
  | .dmovRdclkh d => Sys2Proof.Machine.execDmovRdclkh d s
  | .dmovl d lit => Sys2Proof.Machine.execDmovl d lit s
  | .dadd d a b => Sys2Proof.Machine.execDadd d a b s
  | .daddSub d a b => Sys2Proof.Machine.execDaddSub d a b s
  | .daddImm d a imm => Sys2Proof.Machine.execDaddImm d a imm s
  | .daddD d a b => Sys2Proof.Machine.execDaddD d a b s
  | .dmul d a b => Sys2Proof.Machine.execDmul d a b s
  | .dcmp d a b c => Sys2Proof.Machine.execDcmp d a b c s
  | .dbr a o => Sys2Proof.Machine.execDbr a o s
  | .dloop a o => Sys2Proof.Machine.execDloop a o s
  | .dnext d => Sys2Proof.Machine.execDnext d s
  | .dhalt => Sys2Proof.Machine.execDhalt s
  | .dsync c t => Sys2Proof.Machine.execDsync c t s
  | .xcopy g r t b e => Sys2Proof.Machine.execXcopy g r t b e s
  | .xcopyAdd g r t b e => Sys2Proof.Machine.execXcopyAdd g r t b e s
  | .xcopyDetach g r => Sys2Proof.Machine.execXcopyDetach g r s
  | .xcopyFabric g r t b e => Sys2Proof.Machine.execXcopyFabric g r t b e s
  | .xwaitany g r => Sys2Proof.Machine.execXwaitany g r s
  | .xwaitall g r => Sys2Proof.Machine.execXwaitall g r s
  | .xffr g r => Sys2Proof.Machine.execXffr g r s
  | .xtags g r => Sys2Proof.Machine.execXtags g r s
  | .barInit g r b => Sys2Proof.Machine.execBarInit g r b s
  | .barArv g r b => Sys2Proof.Machine.execBarArv g r b s
  | .barSync g r b => Sys2Proof.Machine.execBarSync g r b s
  | .barInval g b => Sys2Proof.Machine.execBarInval g b s
  | .ckpt g => Sys2Proof.Machine.execCkpt g s
  | .salloc g d a => Sys2Proof.Machine.execSalloc g d a s
  | .sfree g a => Sys2Proof.Machine.execSfree g a s
  | .srelight g d a => Sys2Proof.Machine.execSrelight g d a s
  | .sret g => Sys2Proof.Machine.execSret g s
  | .sinfoAlloc g d a => Sys2Proof.Machine.execSinfoAlloc g d a s
  | .sinfoEntry g d => Sys2Proof.Machine.execSinfoEntry g d s
  | .sinfoCore g d => Sys2Proof.Machine.execSinfoCore g d s
  | .bdgt g a => Sys2Proof.Machine.execBdgt g a s
  | .cjoin g d a => Sys2Proof.Machine.execCjoin g d a s
  | .cjoinInfo g d => Sys2Proof.Machine.execCjoinInfo g d s
  | .cleave g d => Sys2Proof.Machine.execCleave g d s
  | .tmbarSync g a => Sys2Proof.Machine.execTmbarSync g a s
  | .tmbarArv g a => Sys2Proof.Machine.execTmbarArv g a s
  | .evsig g a => Sys2Proof.Machine.execEvsig g a s
  | .evwait g a => Sys2Proof.Machine.execEvwait g a s
  | .evclr g a => Sys2Proof.Machine.execEvclr g a s
  | .evarm g a => Sys2Proof.Machine.execEvarm g a s
  | .lnch g d a => Sys2Proof.Machine.execLnch g d a s
  | .wgdone g => Sys2Proof.Machine.execWgdone g s
  | .ptsyncPage g a => Sys2Proof.Machine.execPtsyncPage g a s
  | .ptsyncAll g => Sys2Proof.Machine.execPtsyncAll g s
  | .icinv g a sc => Sys2Proof.Machine.execIcinv g a sc s
  | .fsig g a => Sys2Proof.Machine.execFsig g a s
  | .clauseHeaderTake => Sys2Proof.Machine.execClauseHeaderTake s
  | .pcComparatorHold k => Sys2Proof.Machine.execPcComparatorHold k s
  | .loadComplete t k => Sys2Proof.Machine.execLoadComplete t k s
  | .hayrickEntryDrain w => Sys2Proof.Machine.execHayrickEntryDrain w s
  | .squadSwapBegin c slot w q => Sys2Proof.Machine.execSquadSwapBegin c slot w q s
  | .squadSwapEnd c => Sys2Proof.Machine.execSquadSwapEnd c s
  | .teamPlacement l cores tvec csb => Sys2Proof.Machine.execTeamPlacement l cores tvec csb s
  | .workgroupEnd w => Sys2Proof.Machine.execWorkgroupEnd w s
  | .launchReady l => Sys2Proof.Machine.execLaunchReady l s
  | .lnchAnswer r sys => Sys2Proof.Machine.execLnchAnswer r sys s
  | .copyTakesEffect c => Sys2Proof.Machine.execCopyTakesEffect c s
  | .copyComplete c => Sys2Proof.Machine.execCopyComplete c s
  | .engineOpExecute w k => Sys2Proof.Machine.execEngineOpExecute w k s
  | .engineOpComplete w k => Sys2Proof.Machine.execEngineOpComplete w k s
  | .preemptTeam l t => Sys2Proof.Machine.execPreemptTeam l t s
  | .fullSave w => Sys2Proof.Machine.execFullSave w s
  | .contextWritten w => Sys2Proof.Machine.execContextWritten w s
  | .resumeTeam team edits => Sys2Proof.Machine.execResumeTeam team edits s
  | .workgroupResume w core => Sys2Proof.Machine.execWorkgroupResume w core s
  | .killWorkgroup w => Sys2Proof.Machine.execKillWorkgroup w s
  | .uncorrectableErrorConsumed w source site addr => Sys2Proof.Machine.execUncorrectableErrorConsumed w source site addr s
  | .workgroupRelaunch w core => Sys2Proof.Machine.execWorkgroupRelaunch w core s
  | .withdrawCore c => Sys2Proof.Machine.execWithdrawCore c s
  | .returnCore c => Sys2Proof.Machine.execReturnCore c s
  | .commandAck stile up => Sys2Proof.Machine.execCommandAck stile up s
  | .chargeReport stile => Sys2Proof.Machine.execChargeReport stile s
  | .budgetHostWrite v => Sys2Proof.Machine.execBudgetHostWrite v s
  | .budgetMgmtSet v => Sys2Proof.Machine.execBudgetMgmtSet v s
  | .pwrbrkNAssert => Sys2Proof.Machine.execPwrbrkNAssert s
  | .pwrbrkNDeassert => Sys2Proof.Machine.execPwrbrkNDeassert s
  | .powerMeasurement watts => Sys2Proof.Machine.execPowerMeasurement watts s
  | .budgetApply c => Sys2Proof.Machine.execBudgetApply c s
  | .inFieldTestComplete c part n pass => Sys2Proof.Machine.execInFieldTestComplete c part n pass s
  | .uncorrectableArrayError c array bank => Sys2Proof.Machine.execUncorrectableArrayError c array bank s
  | .sensorSample c raw power => Sys2Proof.Machine.execSensorSample c raw power s
  | .tringCtlWrite v => Sys2Proof.Machine.execTringCtlWrite v s
  | .tringTailWrite v => Sys2Proof.Machine.execTringTailWrite v s
  | .replayDoorbell die slot => Sys2Proof.Machine.execReplayDoorbell die slot s
  | .frameRingSupply die frames => Sys2Proof.Machine.execFrameRingSupply die frames s
  | .hubPtsync p va => Sys2Proof.Machine.execHubPtsync p va s
  | .expansion die k => Sys2Proof.Machine.execExpansion die k s
  | .expansionComplete die k => Sys2Proof.Machine.execExpansionComplete die k s
  | .eventSignalApply k => Sys2Proof.Machine.execEventSignalApply k s
  | .almanacError domain e => Sys2Proof.Machine.execAlmanacError domain e s
  | .dieHubFailure die => Sys2Proof.Machine.execDieHubFailure die s
  | .linkTraining link width number routes => Sys2Proof.Machine.execLinkTraining link width number routes s
  | .flitReceive link good flit => Sys2Proof.Machine.execFlitReceive link good flit s
  | .linkRetrain link trains => Sys2Proof.Machine.execLinkRetrain link trains s
  | .fredReductionBegin group others => Sys2Proof.Machine.execFredReductionBegin group others s
  | .fsigArrival domain e => Sys2Proof.Machine.execFsigArrival domain e s
  | .gangSliceStart gang plan => Sys2Proof.Machine.execGangSliceStart gang plan s
  | .gangReady gang m => Sys2Proof.Machine.execGangReady gang m s
  | .gangSliceBegin gang => Sys2Proof.Machine.execGangSliceBegin gang s
  | .gangLateTimeout gang => Sys2Proof.Machine.execGangLateTimeout gang s
  | .powerGood volts => Sys2Proof.Machine.execPowerGood volts s
  | .inputUndervoltage => Sys2Proof.Machine.execInputUndervoltage s
  | .quoteRequest nonce => Sys2Proof.Machine.execQuoteRequest nonce s
  | .quoteSign => Sys2Proof.Machine.execQuoteSign s
  | .firmwareUpdate setB image prefer => Sys2Proof.Machine.execFirmwareUpdate setB image prefer s
  | .pldmMonitoring => Sys2Proof.Machine.execPldmMonitoring s
  | .attachProcess p block => Sys2Proof.Machine.execAttachProcess p block s
  | .detachProcess p => Sys2Proof.Machine.execDetachProcess p s
  | .blinkSample c => Sys2Proof.Machine.execBlinkSample c s
  | .histogramFlush c => Sys2Proof.Machine.execHistogramFlush c s
  | .registerWrite off x => Sys2Proof.Machine.execRegisterWrite off x s
  | .waddPerformed w k => Sys2Proof.Machine.execWaddPerformed w k s
  | .debugHandlerResume drive imm => Sys2Proof.Machine.execDebugHandlerResume drive imm s
  | .dqtailWrite p v => Sys2Proof.Machine.execDqtailWrite p v s
  | .dataPoisoned addr => Sys2Proof.Machine.execDataPoisoned addr s
  | .cxlMemRequest write addr data => Sys2Proof.Machine.execCxlMemRequest write addr data s
  | .worxusEndsLaunch l => Sys2Proof.Machine.execWorxusEndsLaunch l s

end Sys2Proof.Machine
end

