-- ==== Sys2Proof/Machine/Run.lean ====
section
/-! DEFINITION. Run: how a stream's next word is found (R33, R36, R37, R43, R45, R378), whose step comes next (R179-R183,
R403; log 1), and the passing of time (R57, R359, R384). -/

namespace Sys2Proof.Machine

/-! ## The next word of a stream -/

/-- A stream's next word position: an instruction; a word that is none, or not of its clause's class, or a literal form
whose literal lies past the clause (R37, R43, R48); a position outside the header's mapping (R36). -/
inductive NextWord where
  | instr (i : Instr)
  | illegal (w : Word)
  | missing (addr : VAddr)
deriving DecidableEq, Repr

/-- A word decoded. -/
noncomputable def decoded (w : Word) (lit : Option Word) : NextWord :=
  match decodeWord w lit with
  | .ok i => .instr i
  | .error _ => .illegal w

/-- The word at a place of a clause. A literal position outside the mapping raises FETCH before every check of the word but
that of its class (DESIGN CHOICE, log 78). -/
noncomputable def nextWord (pc : Pc) (c : Clause) : NextWord :=
  match c.words[pc.idx.toNat - 1]? with
  | some (some w) =>
    if opcodeClass w ≠ some (headerClass c.header) then .illegal w
    else if isLiteralForm w then
      match c.words[pc.idx.toNat]? with
      | some (some v) => decoded w (some v)
      | some none => .missing (wordAddr pc + 4)
      | none => .illegal w
    else decoded w none
  | _ => .missing (wordAddr pc)

/-- A pre-emption request is pending for a workgroup. -/
def State.requested (s : State) (w : Nat) : Bool := ((s.wgs[w]?).map fun g => g.request.isSome).getD false

/-- The comparator that holds a thread's next word (R378). -/
def State.threadHold (s : State) (th : Thread) : Option Nat :=
  if th.unmatched then none else s.comparator th.wg false th.squad (wordAddr th.pc)

/-- The comparator that holds a drive stream's next word. -/
def State.driveHold (s : State) (w : Nat) (d : Drive) : Option Nat :=
  if d.unmatched then none else s.comparator w true 0 (wordAddr d.pc)

/-- A thread's turn: an abort condition raised is taken for its group (R132); a conflict or a pending request ends its
speculation (R129, R137); else it takes a header, is held at a comparator, or executes its next word. -/
noncomputable def State.runThread (s : State) (k : Nat) (th : Thread) : Out :=
  if th.doom.isSome then .next (s.abortGroup th.wg th.squad)
  else if th.spec.isSome && th.conflict && th.hold.isNone then exec .speculationConflict s
  else if th.spec.isSome && s.requested th.wg then .next (s.abortRequest k)
  else if th.pc.idx = 0 || th.recheck then exec .clauseHeaderTake s
  else match s.threadHold th with
    | some c => exec (.pcComparatorHold c) s
    | none =>
      match nextWord th.pc th.clause with
      | .instr i => exec i s
      | .illegal w => .next (s.illegalWord k w)
      | .missing a => .next (s.takeTrap k causeFetch (a.setWidth 32))

/-- A drive stream's turn. -/
noncomputable def State.runDrive (s : State) (w : Nat) (d : Drive) : Out :=
  if d.pc.idx = 0 || d.recheck then exec .clauseHeaderTake s
  else match s.driveHold w d with
    | some c => exec (.pcComparatorHold c) s
    | none =>
      match nextWord d.pc d.clause with
      | .instr i => exec i s
      | .illegal v => .next (s.driveFault w (wordAddr d.pc) v causeIllegal)
      | .missing a => .next (s.driveFault w a (BitVec.ofNat 32 (Config.unstated s.draw w)) causeFetch)

/-- A stream's turn. -/
noncomputable def State.runStream (s : State) (a : Agent) : Out :=
  match a with
  | .thread k => match s.threads[k]? with
    | some th => s.runThread k th
    | none => .next s
  | .drive w => match s.drive? w with
    | some d => s.runDrive w d
    | none => .next s
  | .host | .peer _ => .next s

/-- A device step, if its condition holds. -/
noncomputable def State.runEvent (s : State) (i : Instr) : Out :=
  match exec i s with
  | .next t => .next t
  | _ => .next s

/-! ## Who may issue -/

/-- A parked word tries again at its stream's turn; the others wait for what releases them. -/
def Park.tries (p : Park) : Bool :=
  match p with
  | .none | .drain _ | .acquire _ _ | .released | .collective | .tryGroup _ | .commitGroup | .ckpt | .cleave _ | .tryWait => true
  | .join _ | .phase _ | .parity _ _ | .event _ _ | .copy | .array _ | .handler _ | .page | .launch => false

/-- The workgroup's words issued may complete (R178, R294, R403). -/
def State.runs_ (s : State) (g : Wg) : Bool := g.state = .resident && !s.gangHolds g

/-- The workgroup's streams may issue: not past the bound of a pre-emption (R178, R294, R319, R403). -/
def State.issues (s : State) (w : Nat) (g : Wg) : Bool := s.runs_ g && !s.boundOver w g

/-- The thread's squad stands in an active slot. -/
def Wg.active (g : Wg) (q : Nat) : Bool := ((g.squads[q]?).map fun x => x.slot.isSome).getD false

/-- A thread of an active squad may issue its next word or take its next header: alive, not held, not parked, no abort to
be taken first (R129, R132, R137, R180). -/
def State.mayIssue (s : State) (th : Thread) : Bool :=
  match s.wgs[th.wg]? with
  | none => false
  | some g => s.issues th.wg g && g.active th.squad && !th.exited && th.hold.isNone && th.park = .none && th.doom.isNone &&
      !(th.spec.isSome && (th.conflict || g.request.isSome))

/-- A parked word that begins speculation tries again only while its workgroup may issue (R132, R294). -/
def Park.starts (p : Park) : Bool :=
  match p with
  | .tryWait | .tryGroup _ => true
  | _ => false

/-- A thread has a turn of its own, apart from the bundle: a parked word tries again, whatever set its squad is in, or its
speculation is to end. -/
def State.aloneTurn (s : State) (th : Thread) : Bool :=
  match s.wgs[th.wg]? with
  | none => false
  | some g => s.runs_ g && !th.exited && th.doom.isNone &&
      ((th.hold.isNone && th.park ≠ .none && th.park.tries && !(th.park.starts && s.boundOver th.wg g)) ||
        (th.spec.isSome && (g.request.isSome || (th.conflict && th.hold.isNone))))

/-- A thread is eligible (R180): where its word waits for a latency alone, that is left open (log 5). -/
def State.eligible (s : State) (k : Nat) : Bool :=
  match s.threads[k]? with
  | some th => s.mayIssue th && s.reason k th = 0 && !Config.lags s.draw k
  | none => false

/-- The threads of the workgroups on a core, by index. -/
def State.threadsOn (s : State) (core : Nat) : List Nat :=
  (List.range s.threads.length).filter fun k => match s.threads[k]? with
    | some th => s.coreOf th.wg = core
    | none => false

/-! ## The picker (R183) -/

/-- L: the lanes neither fused, nor dark, nor under test (R191, R304). -/
def Core.lanes (c : Core) : Nat :=
  ((List.range 64).filter fun k =>
    c.groupsLit.getLsbD (k / 16) && !c.lanesFused.getLsbD k && !c.lanesTesting.getLsbD k).length

/-- The eligible threads of a squad that stand before a word, in position order. -/
def State.readyIn (s : State) (x : Nat × Nat) : List Nat :=
  (s.squadOf x.1 x.2).filter fun k => s.eligible k && ((s.threads[k]?).map fun th => !th.atHeader).getD false

/-- A squad by the ac of its last issue; one that has never issued comes first. -/
def State.issueRank (s : State) (x : Nat × Nat) : Nat × Nat × Nat :=
  s.rankOf x (match (s.wgs[x.1]?).bind fun g => (g.squads[x.2]?).bind (·.last) with
    | some a => a + 1
    | none => 0)

/-- The place of a thread. -/
def State.pcOf (s : State) (k : Nat) : Option Pc := (s.threads[k]?).map (·.pc)

/-- The bundle a core forms now (R183): the first-ranked squad's eligible threads at the place of the lowest of them, then
those of the next-ranked squad that has any there, at most L; they issue in ascending s.tid (R140). -/
def State.formBundle (s : State) (core : Nat) : List Nat :=
  let xs := (s.squadsOn core).filter fun x => !(s.readyIn x).isEmpty
  match firstBy s.issueRank xs with
  | none => []
  | some x =>
    let pc := ((s.readyIn x).head?).bind s.pcOf
    let here : Nat × Nat → List Nat := fun y => (s.readyIn y).filter fun k => s.pcOf k = pc
    let more := match firstBy s.issueRank (xs.filter fun y => y ≠ x && !(here y).isEmpty) with
      | some y => here y
      | none => []
    let picked := (here x ++ more).take (((s.cores[core]?).map Core.lanes).getD 0)
    (List.range s.threads.length).filter picked.contains

/-- What is left of a core's bundle. -/
def State.bundleLeft (s : State) (c : Core) : List Nat :=
  c.bundle.dropWhile fun k => match s.threads[k]? with
    | some th => !s.mayIssue th
    | none => true

/-- The threads with an abort condition to be taken for their group, once the bundle of that ac has issued (R132). -/
def State.doomed (s : State) : List Nat :=
  (List.range s.threads.length).filter fun k => ((s.threads[k]?).map fun th => th.doom.isSome && !th.exited).getD false

/-- The threads that may act on a core in this ac. -/
def State.threadTurns (s : State) (core : Nat) : List Nat :=
  let ks := s.threadsOn core
  let alone := ks.filter fun k => ((s.threads[k]?).map s.aloneTurn).getD false
  let heads := ks.filter fun k => s.eligible k && ((s.threads[k]?).map Thread.atHeader).getD false
  let fresh := ((s.cores[core]?).map fun c => decide (c.issued ≠ some s.clk)).getD false
  alone ++ heads ++ (if heads.isEmpty && fresh then ((s.formBundle core).head?).toList else [])

/-! ## Clockdrive (R245) -/

/-- A drive stream may issue: not halted, held or parked. -/
def State.driveMay (s : State) (w : Nat) : Bool :=
  match s.wgs[w]? with
  | none => false
  | some g => s.issues w g && ((g.drive.map fun d => !d.halted && d.hold.isNone && d.park = .none).getD false)

/-- A drive stream's parked word tries again. -/
def State.driveTries (s : State) (w : Nat) : Bool :=
  match s.wgs[w]? with
  | none => false
  | some g => s.runs_ g && ((g.drive.map fun d => !d.halted && d.hold.isNone && d.park ≠ .none && d.park.tries).getD false)

/-- A drive stream stands before a header. -/
def State.driveAtHeader (s : State) (w : Nat) : Bool := ((s.drive? w).map fun d => d.pc.idx = 0 || d.recheck).getD false

/-- The drive stream a core serves next: in rotation by workgroup slot, after the slot served last, one word in an ac. -/
def State.nextDrive (s : State) (core : Nat) : Option Nat :=
  match s.cores[core]? with
  | none => none
  | some c =>
    if (c.served.map (·.2)) = some s.clk then none
    else
      let last := (c.served.map (·.1)).getD 15
      firstBy (fun w => ((((s.wgs[w]?).map (·.slot)).getD 0 + 16 - (last + 1)) % 16, 0, 0))
        ((s.residents core).filter fun w => s.driveMay w && !s.driveAtHeader w && !Config.lags s.draw (2 ^ 32 + w))

/-- The drive streams that may act on a core. -/
def State.driveTurns (s : State) (core : Nat) : List Nat :=
  ((s.residents core).filter fun w => s.driveTries w || (s.driveMay w && s.driveAtHeader w)) ++ (s.nextDrive core).toList

/-! ## Whose step is next (log 1) -/

/-- The streams that have a turn: in the middle of a bundle its next thread alone, then an abort that a thread of it has
raised; else the threads and drive streams of every core. -/
def State.streams (s : State) : List Agent :=
  let bundles := s.cores.filterMap fun c => (s.bundleLeft c).head?
  if !bundles.isEmpty then bundles.map Agent.thread
  else if !s.doomed.isEmpty then s.doomed.map Agent.thread
  else (List.range s.cores.length).flatMap fun c => (s.threadTurns c).map Agent.thread ++ (s.driveTurns c).map Agent.drive

/-- An ac is over: no bundle and no abort is in progress. -/
def State.between (s : State) : Bool := (s.cores.all fun c => (s.bundleLeft c).isEmpty) && s.doomed.isEmpty

/-- The device's own steps, whether or not their conditions hold. -/
noncomputable def State.ownSteps (s : State) : List Instr :=
  let ts := List.range s.threads.length
  let ws := List.range s.wgs.length
  let cs := List.range s.cores.length
  let hs := List.range s.hubs.length
  let ls := List.range s.launches.length
  let opsOf : Nat → Nat := fun w => ((s.drive? w).map fun d => d.ops.length).getD 0
  (ts.flatMap fun t => (List.range (((s.threads[t]?).map fun th => th.loads.length).getD 0)).map fun k => .loadComplete t k) ++
  (ws.map .hayrickEntryDrain) ++
  (ws.flatMap fun w => (List.range (((s.wgs[w]?).map fun g => g.wadds.length).getD 0)).map fun k => .waddPerformed w k) ++
  (ws.map .workgroupEnd) ++ (ls.map .launchReady) ++
  (s.copies.map fun c => .copyTakesEffect c.id) ++ (s.copies.map fun c => .copyComplete c.id) ++
  (ws.flatMap fun w => (List.range (opsOf w)).flatMap fun k => [.engineOpExecute w k, .engineOpComplete w k]) ++
  (ws.map .fullSave) ++ (ws.map .contextWritten) ++
  (ws.flatMap fun w => cs.flatMap fun c => [.workgroupResume w c, .workgroupRelaunch w c]) ++
  ((List.range s.links.length).flatMap fun k => [.commandAck k true, .commandAck k false, .chargeReport k]) ++
  (cs.map .budgetApply) ++ (cs.map .blinkSample) ++ (cs.map .histogramFlush) ++
  (hs.flatMap fun d => (List.range (((s.hubs[d]?).map fun h => h.expands.length).getD 0)).flatMap fun k =>
    [.expansion d k, .expansionComplete d k]) ++
  ((List.range s.messages.length).map .eventSignalApply) ++
  (s.gangs.flatMap fun g => [.gangReady g.id s.fabricNo.toNat, .gangSliceBegin g.id, .gangLateTimeout g.id]) ++ [.quoteSign]

/-- A device step's condition holds. -/
def State.can (s : State) (i : Instr) : Bool :=
  match exec i s with
  | .next _ => true
  | _ => false

/-- The swaps that begin or end now (R181): neither waits. -/
noncomputable def State.swapSteps (s : State) : List Instr :=
  (List.range s.cores.length).flatMap fun c =>
    let begin_ : Option Instr := match s.swapSlot c, s.incoming c with
      | some k, some x => if s.swapEnabled c k x.1 x.2 then some (.squadSwapBegin c k x.1 x.2) else none
      | _, _ => none
    let end_ : Option Instr := match (s.cores[c]?).bind (·.swap) with
      | some x => if x.at_ + swapTime ≤ s.clk then some (.squadSwapEnd c) else none
      | none => none
    begin_.toList ++ end_.toList

/-- Supply, and what the management port carries, quotes too: it works on standby power (R370, R372, R374, R375). -/
noncomputable def onStandby (i : Instr) : Bool :=
  match i with
  | .powerGood _ | .budgetMgmtSet _ | .firmwareUpdate _ _ _ | .pldmMonitoring | .quoteRequest _ | .pwrbrkNAssert
  | .pwrbrkNDeassert | .quoteSign => true
  | _ => false

/-- Everything that may happen next; a stopped module takes what standby power serves alone. -/
noncomputable def State.turns (s : State) : List Turn :=
  if s.boot.stopped then (((s.inputs.head?).toList ++ [Instr.quoteSign]).filter fun i => onStandby i && { s with issuer := none }.can i).map Turn.event
  else if !s.between then s.streams.map Turn.stream
  else if !s.swapSteps.isEmpty then s.swapSteps.map Turn.event
  else (s.streams.map Turn.stream) ++
    (((s.inputs.head?).toList ++ s.ownSteps).filter fun i => { s with issuer := none }.can i).map Turn.event

/-! ## Time -/

/-- Since when each squad is blocked long, or ready (R181). -/
def State.note (s : State) : State :=
  let seen (w q : Nat) (x : Squad) : Squad :=
    { x with since := if (if x.slot.isSome then s.blockedLong w q else s.squadReady w q) then x.since.or (some s.clk) else none }
  { s with wgs := s.wgs.zipIdx.map fun (g, w) =>
      if g.state = .resident then { g with squads := g.squads.zipIdx.map fun (x, q) => seen w q x } else g }

/-- Workgroups asked to leave whose members all wait at their `ckpt`s take the checkpoint path (R293). -/
def State.testRequests (s : State) : State :=
  (List.range s.wgs.length).foldl (fun s w => match s.wgs[w]? with
    | some g => if g.state = .resident && g.request.isSome && !g.byCkpt then (s.ckptTest w).getD s else s
    | none => s) s

/-- Copies in flight take the entries of other cores that were not free for them before (R328). -/
def State.lockAgain (s : State) : State :=
  (s.copies.filter fun c => c.inFlight && !c.squashed && c.cast.isSome).foldl State.lockFar s

/-- What follows at once from where things stand: words that ended work had begun to write are left as they are (R45), what
is under way with modules out of reach ends (R394), Meridian hears of a queued team that fits nowhere (R318), banks above the
budget darken once `bdgt`'s offset has gone (R194, R206). -/
def State.tidy (s : State) : State :=
  let s : State := s.leaveRemnants.severed.testRequests.lockAgain.reportStuck
  (List.range s.cores.length).foldl (fun s c =>
    if ((s.cores[c]?).map (·.refit)).getD false then (s.updCore c fun k => { k with refit := false }).fitBudget c else s) s

/-- The first ac in which a squad started can take its first header is its workgroup's ac 0 (R179). -/
def State.startAcs (s : State) : State :=
  (List.range s.wgs.length).foldl (fun s w => match s.wgs[w]? with
    | some g => if g.ac0.isNone && s.issues w g && g.squads.any (·.slot.isSome) then s.begun w else s
    | none => s) s

/-- Time passes: Blink samples and counts the ac that end (R384, R385), residence and the running of resident-core threads
are charged (R359). -/
def State.pass (s : State) : State :=
  let n := Config.stepTime s.draw
  let s : State := (s.tidy.sampleTick n).blinkTick n
  let s : State := { s with
    clk := s.clk + n, draw := s.draw + 1, issuer := none
    rcores := s.rcores.map fun r => if r.leaf.isSome then { r with charge := r.charge + n } else r
    wgs := s.wgs.map fun g => if g.resident then { g with charge := g.charge + g.squads.length * n } else g }
  (if n = 0 then s else s.startAcs).note

/-- A thread issues its word of the bundle, or takes a header, in this ac (R183, R385). -/
def IssueNote.add (n : IssueNote) (clk k : Nat) (th : Thread) : IssueNote :=
  let n : IssueNote := if n.ac = clk then n else ⟨clk, 0, [], []⟩
  if th.atHeader then { n with heads := k :: n.heads }
  else { n with pc := if n.threads.isEmpty then wordAddr th.pc else n.pc, threads := n.threads ++ [k] }

/-- What a core issues in this ac is noted. -/
def State.noteIssue (s : State) (core k : Nat) : State :=
  match s.threads[k]? with
  | some th => s.updCore core fun c => { c with note := c.note.add s.clk k th }
  | none => s

/-- The picker marks what a turn takes (R183, R245): the bundle begins or goes on, the drive stream has been served. -/
def State.take (s : State) (t : Turn) : State :=
  match t with
  | .stream (.thread k) =>
    let core := s.coreOf (((s.threads[k]?).map (·.wg)).getD 0)
    match s.cores[core]? with
    | none => s
    | some c =>
      if !(s.bundleLeft c).isEmpty then (s.noteIssue core k).updCore core fun c => { c with bundle := (s.bundleLeft c).tail }
      else
        let b := s.formBundle core
        if (s.threads[k]?).any Thread.atHeader then (if s.eligible k then s.noteIssue core k else s)
        else if b.head? ≠ some k then s
        else
          let s : State := b.foldl (fun s j => match s.threads[j]? with
            | some th => s.updSquad th.wg th.squad fun x => { x with last := some s.clk }
            | none => s) s
          (s.noteIssue core k).updCore core fun c => { c with bundle := b.tail, issued := some s.clk }
  | .stream (.drive w) =>
    if s.driveMay w && !s.driveAtHeader w then
      s.updCore (s.coreOf w) fun c => { c with served := some (((s.wgs[w]?).map (·.slot)).getD 0, s.clk) }
    else s
  | _ => s

/-- What comes next is chosen, time passing before it but not within a bundle; an input chosen has then happened. -/
noncomputable def State.choose (s : State) : State :=
  let s : State := if s.between then s.pass else s
  let ts := s.turns
  match ts[Config.pick s.draw % ts.length]? with
  | some t =>
    let left := match t, s.inputs with
      | .event i, j :: rest => if i = j then rest else s.inputs
      | _, _ => s.inputs
    { s.take t with turn := some t, inputs := left }
  | none => s

/-- A turn begins: a fresh draw, and whose it is. -/
def State.begins (s : State) (a : Option Agent) : State := { s with turn := none, issuer := a, draw := s.draw + 1 }

end Sys2Proof.Machine
end

