-- ==== Sys2Proof/Machine/Step.lean ====
section
/-! DEFINITION. Step: one step of the machine (log 1), and the state in which the next step runs a given word (log 2). -/

namespace Sys2Proof.Machine

/-- One step: while nothing is chosen, what comes next is chosen; then the chosen stream takes its turn, or the chosen
device step is taken. -/
noncomputable def step (s : State) : Host.Outcome State Fault Refusal :=
  match s.turn with
  | none => .next s.choose
  | some (.stream a) => (s.begins (some a)).runStream a
  | some (.event i) => (s.begins none).runEvent i

/-! ## A word placed where the next step takes it -/

/-- A header of two words of a class, with no waits (R33). -/
def plainHeader (c : BitVec 3) : Word := 2#4 ++ c ++ 15#4 ++ 15#4 ++ 15#4 ++ 15#4 ++ 0#3 ++ 0b101101#6

/-- Where the header of the placed words stands. -/
def placedAt : VAddr := 0x20000

/-- A launch of one workgroup of one squad, with a drive stream. -/
def placedDesc : Descriptor where
  priv := true
  tb := true
  pre := false
  rst := false
  drv := true
  two := false
  ckbound := 20
  team := 1
  grid := 1
  squads0 := 1
  squads1 := 0
  regs0 := 128
  regs1 := 0
  entry0 := placedAt
  entry1 := 0
  dentry := placedAt
  scratch := 65536
  tags := 4
  copyq := 4
  spill := 0x100000
  spillsz := 16
  restsz := 0
  rest := 0x200000
  ranges := 0
  nranges := 0
  domain := 0
  done := 0
  waits := [0, 0, 0, 0]
  wgev := 0
  shapes := List.replicate 8 none

/-- Page tables that map the lowest 1 GiB of a process onto itself, readable, writable, executable (R339, R340), and the
placed words. -/
def placedMem (m : List Host.Cell) (header w0 w1 : Word) : List Host.Cell :=
  let m := memPut m 0x10000 (toBytes 8 0x11001)
  let m := memPut m 0x11000 (toBytes 8 0x12001)
  let m := memPut m 0x12000 (toBytes 8 0x3B)
  memPut m placedAt.toNat (toBytes 4 header.toNat ++ toBytes 4 w0.toNat ++ toBytes 4 w1.toNat)

/-- The state with a launched workgroup whose thread 0, or whose drive stream for its opcodes, stands before the word and
has the next turn. -/
def State.withFetchWord (s : State) (nbits w : Nat) : State :=
  let v := w % 2 ^ nbits
  let w0 : Word := BitVec.ofNat 32 v
  let w1 : Word := BitVec.ofNat 32 (v / 2 ^ 32)
  let header := plainHeader ((opcodeClass w0).getD 0)
  let clause : Clause := ⟨header, [some w0, some w1]⟩
  let x := s.wgs.length
  let l := s.launches.length
  let p := s.processes.length
  let base := freshWg l placedDesc 0 0 placedAt 0x300000 (List.replicate 8 (List.replicate 32 0))
  let g : Wg := { base with
    state := .resident, squads := [{ freshSquad with slot := some 0 }]
    drive := base.drive.map fun d => { d with pc := ⟨placedAt, 1⟩, clause := clause } }
  let ts := (freshThreads x placedDesc placedAt 0x300000).map fun th => { th with pc := ⟨placedAt, 1⟩, clause := clause }
  let op := (bits w0 21 8).toNat
  let a : Agent := if 0xC0 ≤ op && op ≤ 0xE9 then .drive x else .thread s.threads.length
  { s with
    mem := placedMem s.mem header w0 w1
    processes := s.processes ++ [⟨0x10000, 0, 0, none, none, [0], 0⟩]
    launches := s.launches ++ [⟨1, p, placedDesc, .placing, 0x2000000000, 0x3000000000, placedAt, placedAt,
      [freshTeam placedDesc 0], false, none⟩]
    wgs := s.wgs ++ [g]
    threads := s.threads ++ ts
    boot := { s.boot with booted := true, ready := true, stopped := false }
    turn := some (.stream a) }

end Sys2Proof.Machine
end

