-- ==== Sys2Proof/Safety.lean ====
section
/-! DEFINITION. Safety: what counts as a safe run: every step answers a next state, and what every state of a run keeps. -/

namespace Sys2Proof

open Sys2Proof.Machine

/-- An outcome is a next state. -/
def Safety.isNext (o : Out) : Prop := ∃ t, o = .next t

/-- A state that steps lead to from a state. -/
inductive Safety.Reaches : State → State → Prop
  | refl (s : State) : Safety.Reaches s s
  | step {s t u : State} (h : Safety.Reaches s t) (e : Machine.step t = .next u) : Safety.Reaches s u

/-- A run is safe from a state: no state it reaches stops. -/
def Safety.safe (s : State) : Prop := ∀ t, Safety.Reaches s t → Safety.isNext (Machine.step t)

/-- Memory keeps its canonical form. -/
def Safety.memoryOk (s : State) : Prop := Memory.wf s.mem = true

/-! ## When a word takes its own effect -/

/-- Thread `k` issues word `i` and nothing of the issue rules stops it: its fields and registers pass the checks of R41
and R48, its guard holds (R38), no register it names is awaited (R184), and where R136 forbids it no speculation runs. -/
structure Safety.Issues (s : State) (k : Nat) (th : Thread) (i : Instr) : Prop where
  issuer : s.issuer = some (.thread k)
  thread : s.threads[k]? = some th
  formed : i.wellFormed = true
  allotted : th.allots i.regs = true
  guarded : th.pred i.guard = true
  ready : th.awaits i.regs = false
  allowed : i.noSpec = true → th.spec = none

/-- The drive stream of workgroup `w` issues word `i`, which passes the checks of R41 and R48. -/
structure Safety.Drives (s : State) (w : Nat) (d : Drive) (i : Instr) : Prop where
  issuer : s.issuer = some (.drive w)
  drive : s.drive? w = some d
  formed : i.wellFormed = true

/-- The drive stream of workgroup `w` issues word `i` of both streams: its guard is 7 and its register field names a
register of the drive stream (R45). -/
structure Safety.DrivesBoth (s : State) (w : Nat) (d : Drive) (i : Instr) (r : BitVec 7) : Prop where
  issuer : s.issuer = some (.drive w)
  drive : s.drive? w = some d
  formed : i.wellFormed = true
  always : i.guard = 7#3
  low : r.toNat < 32

/-- An instruction of the thread streams: it has words, and its opcode is none of the drive stream's (R46). -/
def Safety.threadWord (i : Instr) : Bool :=
  !(encode i).isEmpty && !(0xC0#8 ≤ (wordOf i).extractLsb' 21 8 && (wordOf i).extractLsb' 21 8 ≤ 0xE9#8)

/-- An instruction of the drive stream alone. -/
def Safety.driveWord (i : Instr) : Bool :=
  !(encode i).isEmpty && 0xC0#8 ≤ (wordOf i).extractLsb' 21 8 && (wordOf i).extractLsb' 21 8 ≤ 0xE9#8

/-! ## What a step leaves alone -/

/-- Everything but thread `k` is as it was: every byte of memory, every other thread, every other part of the machine. -/
structure Safety.OnlyThread (s t : State) (k : Nat) : Prop where
  rest : t = { s with threads := t.threads }
  others : ∀ j, j ≠ k → t.threads[j]? = s.threads[j]?
  memory : ∀ a, memGet t.mem a = memGet s.mem a

/-- The thread after a word that changes nothing but register `d`, the flags it raises, and its place. -/
def Safety.wrote (th : Thread) (d : BitVec 7) (v flags : Word) (n : Nat) : Thread :=
  { th with
    g := th.g.set d.toNat v d.isLt
    flags := th.flags ||| flags
    pc := pcAfter th.pc th.clause n
    park := .none
    unmatched := false }

/-- Saturation of an exact result to a range, and the flag SAT where the clamp changes it (R63). -/
def Safety.clamped (x lo hi : Int) : Word × Word :=
  (BitVec.ofInt 32 (max lo (min hi x)), if lo ≤ x ∧ x ≤ hi then 0 else flagSAT)

/-- The thread after a word that changes nothing but the pair at `d`, the even or lower register first (R51). -/
def Safety.wrotePair (th : Thread) (d : BitVec 7) (v : BitVec 64) (n : Nat) : Thread :=
  { th with
    g := (th.g.set d.toNat (v.extractLsb' 0 32) d.isLt).set (d + 1).toNat (v.extractLsb' 32 32) (d + 1).isLt
    pc := pcAfter th.pc th.clause n
    park := .none
    unmatched := false }

/-- The thread after a word that changes nothing but predicate `p`, the flags it raises, and its place. -/
def Safety.wrotePred (th : Thread) (p : BitVec 3) (v : Bool) (flags : Word) : Thread :=
  { th with
    p := (th.p &&& ~~~(1#7 <<< p.toNat)) ||| ((if v then 1#7 else 0#7) <<< p.toNat)
    flags := th.flags ||| flags
    pc := pcAfter th.pc th.clause 1
    park := .none
    unmatched := false }

/-- Wherever nothing of the issue rules stops it, the word answers the state in which its thread has written register
`d` and raised the flags given, and nothing else has changed. -/
def Safety.Writes (s : State) (k : Nat) (th : Thread) (i : Instr) (d : BitVec 7) (v flags : Word) : Prop :=
  Safety.Issues s k th i → Machine.exec i s = .next (s.updThread k fun _ => Safety.wrote th d v flags 1)

/-- The same of a word that writes a pair and raises no flag. -/
def Safety.WritesPair (s : State) (k : Nat) (th : Thread) (i : Instr) (d : BitVec 7) (v : BitVec 64) : Prop :=
  Safety.Issues s k th i → Machine.exec i s = .next (s.updThread k fun _ => Safety.wrotePair th d v 1)

/-- The same of a word that writes a predicate. -/
def Safety.WritesPred (s : State) (k : Nat) (th : Thread) (i : Instr) (p : BitVec 3) (v : Bool) (flags : Word) : Prop :=
  Safety.Issues s k th i → Machine.exec i s = .next (s.updThread k fun _ => Safety.wrotePred th p v flags)

/-- Thread `k` issues word `i`, which passes the checks of R41 and R48, whatever its guard. -/
structure Safety.Stands (s : State) (k : Nat) (th : Thread) (i : Instr) : Prop where
  issuer : s.issuer = some (.thread k)
  thread : s.threads[k]? = some th
  formed : i.wellFormed = true
  allotted : th.allots i.regs = true

/-- Wherever nothing of the issue rules stops it, the word answers the state given. -/
def Safety.Leads (s : State) (k : Nat) (th : Thread) (i : Instr) (t : State) : Prop :=
  Safety.Issues s k th i → Machine.exec i s = .next t

/-- Wherever nothing of the issue rules stops it, the word answers a state with the properties given. -/
def Safety.Reads (s : State) (k : Nat) (th : Thread) (i : Instr) (P : State → Prop) : Prop :=
  Safety.Issues s k th i → ∃ t, Machine.exec i s = .next t ∧ P t

/-- The thread `n` word positions further on (R36), waiting for nothing. -/
def Safety.moved (th : Thread) (n : Nat) : Thread :=
  { th with pc := pcAfter th.pc th.clause n, park := .none, unmatched := false }

/-- The thread before the header at `t`, waiting for nothing. -/
def Safety.jumped (th : Thread) (t : VAddr) : Thread := { th with pc := ⟨t, 0⟩, park := .none, unmatched := false }

/-- The next word of a place is the instruction (R37, R43): the word there is of its clause's class, and a literal form
has its literal word after it. -/
def Safety.NextIs (pc : Pc) (c : Clause) (i : Instr) : Prop :=
  ∃ w, c.words[pc.idx.toNat - 1]? = some (some w) ∧ opcodeClass w = some (headerClass c.header) ∧
    ((isLiteralForm w = false ∧ decodeWord w none = .ok i) ∨
     (isLiteralForm w = true ∧ ∃ v, c.words[pc.idx.toNat]? = some (some v) ∧ decodeWord w (some v) = .ok i))

/-- The state in which the stream whose turn it is executes its word: nothing is chosen, and the draw is fresh. -/
def Safety.turned (s : State) (a : Agent) : State := { s with turn := none, issuer := some a, draw := s.draw + 1 }

/-! ## FP32 encodings by their bits (R64) -/

/-- A NaN. -/
def Safety.isNan (w : Word) : Bool := w.extractLsb' 23 8 == 255#8 && w.extractLsb' 0 23 != 0

/-- A signalling NaN. -/
def Safety.isSnan (w : Word) : Bool := Safety.isNan w && !w.getLsbD 22

/-- NV for a signalling operand. -/
def Safety.snanFlag (a b : Word) : Word := if Safety.isSnan a || Safety.isSnan b then flagNV else 0

/-- The order of the encodings that are not NaNs, with -0 below +0. -/
def Safety.rank (w : Word) : Int := if w.msb then -1 - ((w &&& 0x7FFFFFFF).toNat : Int) else (w.toNat : Int)

/-- The order of the values: the zeros are equal. -/
def Safety.worth (w : Word) : Int := if w.msb then -((w &&& 0x7FFFFFFF).toNat : Int) else (w.toNat : Int)

/-- The exact real of a finite value. -/
def Safety.real (v : FVal) : Option Rat :=
  match v with
  | .fin neg m e => some ((if neg then -1 else 1) * (m : Rat) * (2 : Rat) ^ e)
  | _ => none

/-- An exact real rounded once to a format (R67); an exact zero has the sign given. -/
def Safety.exactly (f : Fmt) (mode : BitVec 3) (zero : Bool) (x : Rat) : Rounded :=
  if x = 0 then ⟨f.signed zero 0, 0⟩ else f.round mode false (decide (x < 0)) x.num.natAbs x.den 0

/-- The exact real of a value; zero where it has none. -/
def Safety.realOf (v : FVal) : Rat := (Safety.real v).getD 0

/-! ## Rounding said of exact reals (R67, R68, R73, R76) -/

/-- The exact real of an encoding; zero where it has none. -/
def Safety.valueOf (f : Fmt) (x : Nat) : ℝ := ((Safety.realOf (f.decode x) : Rat) : ℝ)

/-- An encoding of a finite value. -/
def Safety.finite (f : Fmt) (x : Nat) : Prop := (Safety.real (f.decode x)).isSome = true

/-- A mode rounds magnitudes of a sign away from zero. -/
def Safety.outward (mode : BitVec 3) (neg : Bool) : Bool := (mode = 3 && !neg) || (mode = 4 && neg)

/-- A magnitude y above `lo` rounds to `hi` or past it, `hi` the next value after `lo`; `even`: a tie goes to `hi`. -/
def Safety.reaches (mode : BitVec 3) (neg even : Bool) (lo hi y : ℝ) : Prop :=
  if mode = 0 then (lo + hi) / 2 < y ∨ (even = true ∧ y = (lo + hi) / 2)
  else if mode = 1 then (lo + hi) / 2 ≤ y
  else if Safety.outward mode neg then lo < y else hi ≤ y

/-- The rounded magnitude exceeds the largest finite value (R67). -/
def Safety.overflows (f : Fmt) (mode : BitVec 3) (neg : Bool) (y : ℝ) : Prop :=
  let top := Safety.valueOf f f.max
  Safety.reaches mode neg (f.max % 2 = 1) top (2 * top - Safety.valueOf f (f.max - 1)) y

/-- The magnitude, rounded as though the exponent range were unbounded, lies below the smallest normal (R67). -/
def Safety.tiny (f : Fmt) (mode : BitVec 3) (neg : Bool) (y : ℝ) : Prop :=
  let n := Safety.valueOf f (2 ^ f.fbits)
  ¬ Safety.reaches mode neg true (n - Safety.valueOf f 1 / 2) n y

/-- What an overflow delivers (R67): an infinity, for E4M3 the largest finite value or under `.nan` the default NaN; the
largest finite value for a mode that rounds toward zero on that side. -/
def Safety.overflowed (f : Fmt) (mode : BitVec 3) (nan neg : Bool) : Nat :=
  if 2 ≤ mode.toNat ∧ Safety.outward mode neg = false then f.signed neg f.max
  else if f.e4m3 then (if nan then f.nan else f.signed neg f.max) else f.signed neg f.inf

/-- The exact real x, of a sign, rounded once to a format in a mode of R68 (R67): the nearest value, a tie to the even code or
away from zero, or the neighbour toward zero, above or below; the sign; NX where the value changed, UF where it is tiny as
well; and what an overflow delivers. -/
structure Safety.Rounds (f : Fmt) (mode : BitVec 3) (nan neg : Bool) (x : ℝ) (r : Rounded) : Prop where
  beyond : Safety.overflows f mode neg |x| → r = ⟨Safety.overflowed f mode nan neg, flagOF ||| flagNX⟩
  isFinite : ¬ Safety.overflows f mode neg |x| → Safety.finite f r.bits
  signBit : ¬ Safety.overflows f mode neg |x| → r.bits / 2 ^ (f.fbits + f.ebits) = if neg then 1 else 0
  unchanged : ¬ Safety.overflows f mode neg |x| → Safety.valueOf f r.bits = x → r.flags = 0
  changed : ¬ Safety.overflows f mode neg |x| → Safety.valueOf f r.bits ≠ x →
    (Safety.tiny f mode neg |x| → r.flags = flagNX ||| flagUF) ∧ (¬ Safety.tiny f mode neg |x| → r.flags = flagNX)
  nearest : ¬ Safety.overflows f mode neg |x| → ∀ y, Safety.finite f y →
    let q := Safety.valueOf f r.bits
    let v := Safety.valueOf f y
    (mode = 0 → |x - q| ≤ |x - v| ∧ (v ≠ q → |x - q| = |x - v| → r.bits % 2 = 0)) ∧
    (mode = 1 → |x - q| ≤ |x - v| ∧ (v ≠ q → |x - q| = |x - v| → |v| < |q|)) ∧
    (mode = 2 → |q| ≤ |x| ∧ (|v| ≤ |x| → |v| ≤ |q|)) ∧
    (mode = 3 → x ≤ q ∧ (x ≤ v → q ≤ v)) ∧
    (mode = 4 → q ≤ x ∧ (v ≤ x → v ≤ q))

/-- The integer nearest x in the sense of a mode (R76). -/
def Safety.integral (mode : BitVec 3) (x : ℝ) (n : Int) : Prop :=
  (mode = 0 → |x - n| ≤ 1 / 2 ∧ (|x - n| = 1 / 2 → n % 2 = 0)) ∧
  (mode = 1 → |x - n| ≤ 1 / 2 ∧ (|x - n| = 1 / 2 → |x| < |(n : ℝ)|)) ∧
  (mode = 2 → |(n : ℝ)| ≤ |x| ∧ |x| < |(n : ℝ)| + 1 ∧ 0 ≤ n * x) ∧
  (mode = 3 → x ≤ n ∧ n < x + 1) ∧
  (mode = 4 → n ≤ x ∧ x < n + 1)

/-- A decoded value narrowed to a format (R67, R106): NaNs and infinities as the rules give, a finite value rounded. -/
def Safety.narrows (f : Fmt) (mode : BitVec 3) (nan : Bool) (v : FVal) (r : Rounded) : Prop :=
  match v with
  | .nan s => r = ⟨f.nan, if s then flagNV else 0⟩
  | .inf n => r = if f.e4m3 then ⟨if nan then f.nan else f.signed n f.max, flagNX⟩ else ⟨f.signed n f.inf, 0⟩
  | .fin n m e => Safety.Rounds f mode nan n ((Safety.realOf (.fin n m e) : Rat) : ℝ) r

/-- A decoded value as an integer of a range (R105, R108): zero for a NaN, else the rounded integer clamped; NV outside the
range, NX where the value changed. -/
def Safety.integerOf (v : FVal) (mode : BitVec 3) (lo hi : Int) (w fl : Word) : Prop :=
  match v with
  | .nan _ => w = 0 ∧ fl = flagNV
  | .inf n => w = BitVec.ofInt 32 (if n then lo else hi) ∧ fl = flagNV
  | .fin n m e => ∃ k : Int, Safety.integral mode ((Safety.realOf (.fin n m e) : Rat) : ℝ) k ∧
      (k < lo ∨ hi < k → w = BitVec.ofInt 32 (max lo (min hi k)) ∧ fl = flagNV) ∧
      (lo ≤ k → k ≤ hi → w = BitVec.ofInt 32 k ∧ fl = if (k : Rat) = Safety.realOf (.fin n m e) then 0 else flagNX)

/-- RoundToGrid of an exact real (R73): its place on the grid of 2^E, and whether that left 96 bits. -/
def Safety.gridded (x : Rat) (E : Int) (mode : BitVec 3) (n : Int) (o : Bool) : Prop :=
  ∃ k : Int, Safety.integral mode ((x * (2 : Rat) ^ (-E) : Rat) : ℝ) k ∧
    n = max (-2 ^ 95) (min (2 ^ 95 - 1) k) ∧ o = decide (k < -2 ^ 95 ∨ 2 ^ 95 - 1 < k)

/-- RoundToGrid (R73): a value on the grid of 2^E, and whether it left 96 bits. -/
def Safety.onGrid (v : FVal) (E : Int) (mode : BitVec 3) (n : Int) (o : Bool) : Prop :=
  match v with
  | .nan _ => n = 0 ∧ o = true
  | .inf p => n = (if p then -2 ^ 95 else 2 ^ 95 - 1) ∧ o = true
  | .fin p m e => Safety.gridded (Safety.realOf (.fin p m e)) E mode n o

/-- WideAdd (R73): the cell after a value on its grid and its overflow. -/
def Safety.wideAdded (c : WCell) (n : Int) (o : Bool) : WCell :=
  let x := c.v.toInt + n
  ⟨BitVec.ofInt 96 (max (-2 ^ 95) (min (2 ^ 95 - 1) x)), c.sov || o || decide (x < -2 ^ 95 ∨ 2 ^ 95 - 1 < x)⟩

/-- DecodeIO4 from slot i on, with off 0 (R71). -/
inductive Safety.Decoded (w : Word) : Nat → List Rat → Bool → Prop
  | done : Safety.Decoded w 8 [] false
  | value {i : Nat} {vs : List Rat} {f : Bool} (h : i < 8) (n : w.extractLsb' (4 * i) 4 ≠ 8) (t : Safety.Decoded w (i + 1) vs f) :
      Safety.Decoded w i (((w.extractLsb' (4 * i) 4).toInt : Rat) :: vs) f
  | late {i : Nat} {vs : List Rat} {f : Bool} (h : 6 ≤ i ∧ i < 8) (n : w.extractLsb' (4 * i) 4 = 8)
      (t : Safety.Decoded w (i + 1) vs f) : Safety.Decoded w i (0 :: vs) true
  | outlier {i : Nat} {vs : List Rat} {f : Bool} (h : i < 6) (n : w.extractLsb' (4 * i) 4 = 8)
      (t : Safety.Decoded w (i + 3) vs f) :
      Safety.Decoded w i ((if w.extractLsb' (4 * i + 4) 7 = 127 then 0
        else Safety.realOf (e4m3.decode (w.extractLsb' (4 * i + 4) 8).toNat)) :: 0 :: 0 :: vs)
        (f || w.extractLsb' (4 * i + 4) 7 == 127)

/-- An FP32 operand is out of the reach of one IO4 slot in a mode (R107). -/
def Safety.tooBig (mode : BitVec 3) (x : Word) : Prop :=
  (∃ p, fp32.decode x.toNat = .inf p) ∨ ∃ (v : Rat) (n : Int), Safety.real (fp32.decode x.toNat) = some v ∧
    Safety.integral mode (v : ℝ) n ∧ (n < -7 ∨ 7 < n)

/-- The slots of an IO4 word filled greedily from slot i on, and the flags (R107). -/
inductive Safety.Filled (mode : BitVec 3) : Nat → List Word → List (BitVec 4) → Word → Prop
  | done : Safety.Filled mode 8 [] [] 0
  | nan {i : Nat} {x : Word} {xs : List Word} {sl : List (BitVec 4)} {fl : Word} {q : Bool} (h : fp32.decode x.toNat = .nan q)
      (t : Safety.Filled mode (i + 1) xs sl fl) : Safety.Filled mode i (x :: xs) (0 :: sl) (flagNV ||| fl)
  | small {i : Nat} {x : Word} {xs : List Word} {sl : List (BitVec 4)} {fl : Word} {v : Rat} {n : Int}
      (h : Safety.real (fp32.decode x.toNat) = some v) (r : Safety.integral mode (v : ℝ) n) (lo : -7 ≤ n) (hi : n ≤ 7)
      (t : Safety.Filled mode (i + 1) xs sl fl) :
      Safety.Filled mode i (x :: xs) (BitVec.ofInt 4 n :: sl) ((if (n : Rat) = v then 0 else flagNX) ||| fl)
  | outlier {i : Nat} {x y z : Word} {xs : List Word} {sl : List (BitVec 4)} {fl : Word} {r : Rounded} (h : i ≤ 5)
      (b : Safety.tooBig mode x) (e : Safety.narrows e4m3 mode false (fp32.decode x.toNat) r)
      (t : Safety.Filled mode (i + 3) xs sl fl) :
      Safety.Filled mode i (x :: y :: z :: xs) (8 :: BitVec.ofNat 4 r.bits :: BitVec.ofNat 4 (r.bits / 16) :: sl)
        (r.flags ||| (if Safety.real (fp32.decode y.toNat) = some 0 ∧ Safety.real (fp32.decode z.toNat) = some 0 then 0
          else flagNX) ||| fl)
  | clamp {i : Nat} {x : Word} {xs : List Word} {sl : List (BitVec 4)} {fl : Word} (h : 6 ≤ i) (b : Safety.tooBig mode x)
      (t : Safety.Filled mode (i + 1) xs sl fl) :
      Safety.Filled mode i (x :: xs) (BitVec.ofInt 4 (if x.msb then -7 else 7) :: sl) (flagOF ||| flagNX ||| fl)

/-- A real lies within 2^-760 of a multiple of 2^-160, finer than every point at which a rounding to FP32 turns: there the
enclosures that the model computes need not decide (log 13). -/
def Safety.close (y : ℝ) : Prop := ∃ n : Int, |y * 2 ^ 160 - n| ≤ 1 / 2 ^ 600

/-- The default NaN of an operation, with NV where it is invalid (R66). -/
def Safety.nanOf (f : Fmt) (invalid : Bool) : Rounded := ⟨f.nan, if invalid then flagNV else 0⟩

/-- a + b (R95). -/
def Safety.sumOf (f : Fmt) (mode : BitVec 3) : FVal → FVal → Rounded
  | .fin na ma ea, .fin nb mb eb => Safety.exactly f mode (if na = nb then na else decide (mode = 4#3))
      (Safety.realOf (.fin na ma ea) + Safety.realOf (.fin nb mb eb))
  | .inf p, .inf q => if p = q then ⟨f.signed p f.inf, 0⟩ else Safety.nanOf f true
  | .inf p, .fin _ _ _ => ⟨f.signed p f.inf, 0⟩
  | .fin _ _ _, .inf q => ⟨f.signed q f.inf, 0⟩
  | a, b => Safety.nanOf f (a.snan || b.snan)

/-- a × b (R95). -/
def Safety.productOf (f : Fmt) (mode : BitVec 3) : FVal → FVal → Rounded
  | .fin na ma ea, .fin nb mb eb => Safety.exactly f mode (na != nb)
      (Safety.realOf (.fin na ma ea) * Safety.realOf (.fin nb mb eb))
  | .inf p, .inf q => ⟨f.signed (p != q) f.inf, 0⟩
  | .inf p, .fin n m _ => if m = 0 then Safety.nanOf f true else ⟨f.signed (p != n) f.inf, 0⟩
  | .fin n m _, .inf q => if m = 0 then Safety.nanOf f true else ⟨f.signed (n != q) f.inf, 0⟩
  | a, b => Safety.nanOf f (a.snan || b.snan)

/-- A zero times an infinity. -/
def Safety.zeroInf : FVal → FVal → Bool
  | .fin _ m _, .inf _ => m = 0
  | .inf _, .fin _ m _ => m = 0
  | _, _ => false

/-- a × b + c, one rounding (R95). -/
def Safety.fusedOf (f : Fmt) (mode : BitVec 3) (a b c : FVal) : Rounded :=
  if a.isNan || b.isNan || c.isNan then Safety.nanOf f (Safety.zeroInf a b || a.snan || b.snan || c.snan)
  else if Safety.zeroInf a b then Safety.nanOf f true
  else
    let p := a.sign != b.sign
    match a, b, c with
    | .fin _ _ _, .fin _ _ _, .fin n m e => Safety.exactly f mode (if p = n then p else decide (mode = 4#3))
        (Safety.realOf a * Safety.realOf b + Safety.realOf (.fin n m e))
    | .fin _ _ _, .fin _ _ _, _ => ⟨f.signed c.sign f.inf, 0⟩
    | _, _, .inf q => if p = q then ⟨f.signed p f.inf, 0⟩ else Safety.nanOf f true
    | _, _, _ => ⟨f.signed p f.inf, 0⟩

/-- a ÷ b (R97). -/
def Safety.quotientOf (f : Fmt) (mode : BitVec 3) : FVal → FVal → Rounded
  | .fin na ma ea, .fin nb mb eb =>
    if mb = 0 then (if ma = 0 then Safety.nanOf f true else ⟨f.signed (na != nb) f.inf, flagDZ⟩)
    else Safety.exactly f mode (na != nb) (Safety.realOf (.fin na ma ea) / Safety.realOf (.fin nb mb eb))
  | .inf _, .inf _ => Safety.nanOf f true
  | .inf p, .fin n _ _ => ⟨f.signed (p != n) f.inf, 0⟩
  | .fin n _ _, .inf q => ⟨f.signed (n != q) 0, 0⟩
  | a, b => Safety.nanOf f (a.snan || b.snan)

/-- The lesser or the greater of two 16-bit encodings (R96): by sign and magnitude, which puts -0 below +0. -/
def Safety.pickOf (f : Fmt) (max : Bool) (a b : Nat) : Rounded :=
  let rank := fun x : Nat => if 32768 ≤ x then -1 - ((x : Int) - 32768) else (x : Int)
  let x := f.decode a
  let y := f.decode b
  ⟨if x.isNan && y.isNan then f.nan else if x.isNan then b else if y.isNan then a
    else if decide (rank a ≤ rank b) = max then b else a, if x.snan || y.snan then flagNV else 0⟩

/-- The collective words: those of R153 that execute once for all members. -/
def Safety.collective : Instr → Bool
  | .shflIdx .. | .shflUp .. | .shflDown .. | .shflXor .. | .vote .. | .matchLanes .. | .gred .. | .gscan ..
  | .ldfragT8 .. | .ldfragT16 .. => true
  | _ => false

/-- The words of both streams (R45, R259). -/
def Safety.bothStreams (i : Instr) : Bool := 0xEA#8 ≤ (wordOf i).extractLsb' 21 8 && (wordOf i).extractLsb' 21 8 ≤ 0xEF#8

/-! ## Threads of a squad, and the frame of a thread that only waits or moves on -/

/-- Thread `x` is of squad `q` of workgroup `w`. -/
def Safety.ofSquad (x : Thread) (w q : Nat) : Prop := x.wg = w ∧ x.squad = q

/-- A join register of a squad. -/
def Safety.joinAt (s : State) (w q : Nat) (j : BitVec 3) (r : Join) : Prop :=
  ∃ g sq, s.wgs[w]? = some g ∧ g.squads[q]? = some sq ∧ sq.joins[j.toNat]? = some r

/-- Memory reads as before, byte by byte, and so does every thread but those named. -/
def Safety.kept (s t : State) (but : Nat → Prop) : Prop :=
  (∀ a, memGet t.mem a = memGet s.mem a) ∧ ∀ j, ¬ but j → t.threads[j]? = s.threads[j]?

/-- Memory reads as before, byte by byte, and of every thread but those named nothing has changed but what it has seen of
memory (an acquire at commons scope or wider discards copies held for its workgroup, a page that comes has no former
contents: R167, R330, R405; the model's own record, log 6). -/
def Safety.aged (s t : State) (but : Nat → Prop) : Prop :=
  (∀ a, memGet t.mem a = memGet s.mem a) ∧
    ∀ (j : Nat) (x : Thread), ¬ but j → s.threads[j]? = some x → ∃ y, t.threads[j]? = some y ∧ y = { x with floors := y.floors }

/-- A workgroup has left its core: the bytes of its pool are gone and read zero, every other byte reads as before (R193). -/
def Safety.poolGone (s t : State) (u : Wg) : Prop :=
  let first := 2 ^ 50 + u.core * 2 ^ 24 + u.poolFirst * 65536
  ∀ a, memGet t.mem a = if first ≤ a ∧ a < first + 65536 * u.poolBanks then 0 else memGet s.mem a

/-- No store is on its way to its home: no drain is in progress (R406). -/
def Safety.undrained (s : State) : Prop := ∀ g ∈ s.wgs, ∀ e ∈ g.hay, e.committed = false

/-! ## Memory accesses that meet nothing in their way -/

/-- An access of `n` bytes at `ea` passes the checks of R138 and finds its bytes at physical address `phys`: address and
alignment, a place with the permission, no range lock, no watch range, no lost allocation, no `wadd` of the thread's own
still on its way there. -/
structure Safety.Clear (s : State) (k : Nat) (th : Thread) (ea : BitVec 64) (n : Nat) (kind : Kind) (p : Place)
    (phys : Nat) : Prop where
  range : ea.extractLsb' 57 7 = 0
  aligned : ea.toNat % n = 0
  place : s.place th.wg ea.toNat = p
  permitted : s.permits th.wg p kind = true
  home : s.physOf p = some phys
  alive : s.dead p = false
  unlocked : (s.look th.wg ea.toNat).lockMet th.wg ea.toNat n kind = false
  unwatched : th.unmatched = true ∨ s.watch th.wg ea.toNat n (if kind = .read then 0 else 1) = none
  settled : kind = .write ∨ (s.look th.wg ea.toNat).waddWaits th.wg k ea.toNat n = false

/-- The thread `k` has no store in the Hayrick. -/
def Safety.noStores (s : State) (k w : Nat) : Prop := ∀ g, s.wgs[w]? = some g → ∀ e ∈ g.hay, e.thread ≠ k

/-- A Stile's link has a permit for a report, and none waits before it (R358). -/
def Safety.permits (s : State) (stile : Nat) : Prop := ∀ k : CmdLink, s.links[stile]? = some k → k.up ≠ 0 ∧ k.upHeld = []

/-- Threads but `k` are as before, but that they may have observed a conflict. -/
def Safety.othersRun (s t : State) (k : Nat) : Prop :=
  ∀ (j : Nat) (x : Thread), j ≠ k → s.threads[j]? = some x → ∃ y, t.threads[j]? = some y ∧ y = { x with conflict := y.conflict }

/-- The same at a place of any kind: what they have seen of memory may change too, with a page that comes (R167; log 6). -/
def Safety.othersSee (s t : State) (k : Nat) : Prop :=
  ∀ (j : Nat) (x : Thread), j ≠ k → s.threads[j]? = some x →
    ∃ y, t.threads[j]? = some y ∧ y = { x with conflict := y.conflict, floors := y.floors }

/-- The bytes from `phys` read as given, every other byte as before. -/
def Safety.stored (s t : State) (phys : Nat) (bs : List Byte) : Prop :=
  ∀ a, memGet t.mem a = if phys ≤ a ∧ a < phys + bs.length then bs.getD (a - phys) 0 else memGet s.mem a

/-- The bytes a `wadd` of a value leaves in the slot at `phys` (R72, R73, R148): the value rounded onto the region's grid and
added to the cell, its overflow sticky, the reserved bits as they were. -/
def Safety.waddLeaves (s : State) (phys : Nat) (v : Word) (mode : BitVec 3) (bs : List Byte) : Prop :=
  let old := BitVec.ofNat 128 (ofBytes (memRead s.mem phys 16))
  let E := ((memWord s.mem (phys / 65536 * 65536)).extractLsb' 0 10).toInt
  ∃ (n : Int) (o : Bool), Safety.onGrid (fp32.decode v.toNat) E mode n o ∧
    let c := Safety.wideAdded ⟨old.extractLsb' 0 96, old.getLsbD 96⟩ n o
    bs = (List.range 16).map fun j => (old.extractLsb' 97 31 ++ BitVec.ofBool c.sov ++ c.v : BitVec 128).extractLsb' (8 * j) 8

/-- A byte as its home holds it, or as a write since performed there found it (R289; log 6). -/
def Safety.heldByte (s : State) (a : Nat) (b : Byte) : Prop :=
  b = memGet s.mem a ∨ ∃ w ∈ s.writes, w.word = s.keyOf (a / 4 * 4) ∧ b = byteOf w.old (a % 4)

/-- The thread `n` word positions further on, with one load more outstanding. -/
def Safety.sent (th : Thread) (n : Nat) (l : Pending) : Thread := { Safety.moved th n with loads := th.loads ++ [l] }

/-- The word sends a load of `n` bytes from `ea` whose bytes `write` turns into registers and flags (R138-R141, R185):
the thread moves on with the load outstanding and nothing else changes. The bytes are such as their home has held, in a page
where the thread has no store in the Hayrick; in the own scratchpad they are those there where none but the own workgroup
has written them; from a page that is not resident the registers are written zero and the residency bit is set (R139). -/
def Safety.SendsLoad (s : State) (k : Nat) (th : Thread) (i : Instr) (ea : BitVec 64) (n : Nat)
    (write : List Byte → List (BitVec 7 × Word) × Word) : Prop :=
  Safety.Issues s k th i → th.loads.length < 63 → s.threads[k]? = some th →
    (∀ (off phys : Nat), Safety.Clear s k th ea n .read (.pool th.wg off) phys →
      ∃ (t : State) (bs : List Byte) (y : Thread), Machine.exec i s = .next t ∧ bs.length = n ∧
        (∀ j < n, Safety.heldByte s (phys + j) (bs.getD j 0)) ∧
        ((∀ x ∈ s.writes, (∃ j < n, x.word = s.keyOf ((phys + j) / 4 * 4)) → s.wgOf? x.agent = some th.wg) →
          bs = memRead s.mem phys n) ∧
        t = { s with nextId := s.nextId + 1, threads := t.threads } ∧ Safety.kept s t (· = k) ∧
        t.threads[k]? = some y ∧
        y = { Safety.sent th i.slots ⟨s.nextId, (write bs).1, (write bs).2, false⟩ with floors := y.floors }) ∧
    (∀ (x : Nat) (perm : BitVec 3) (phys : Nat), Safety.Clear s k th ea n .read (.page x perm) phys →
      Safety.noStores s k th.wg →
      ∃ (t : State) (bs : List Byte) (y : Thread), Machine.exec i s = .next t ∧ bs.length = n ∧
        (∀ j < n, Safety.heldByte s (phys + j) (bs.getD j 0)) ∧
        t.threads[k]? = some y ∧
        y = { Safety.sent th i.slots ⟨s.nextId, (write bs).1, (write bs).2, true⟩ with floors := y.floors } ∧
        Safety.aged s t (· = k)) ∧
    (∀ (st : BitVec 2) (perm : BitVec 3), ea.extractLsb' 57 7 = 0 → ea.toNat % n = 0 → s.place th.wg ea.toNat = .absent st perm →
      s.permits th.wg (.absent st perm) .read = true → (s.look th.wg ea.toNat).lockMet th.wg ea.toNat n .read = false → th.unmatched = true ∨ s.watch th.wg ea.toNat n 0 = none →
      (s.look th.wg ea.toNat).waddWaits th.wg k ea.toNat n = false → Safety.noStores s k th.wg →
      ∃ t : State, Machine.exec i s = .next t ∧ Safety.kept s t (· = k) ∧
        t.threads[k]? = some { Safety.sent th i.slots ⟨s.nextId, (write (List.replicate n 0)).1.map fun x => (x.1, 0), 0, true⟩ with
          m := th.m.set 3 ((th.m[3]) ||| 1#32 <<< th.pos) })

/-- The word stores bytes at `ea` (R138-R141): in the own scratchpad, with its bank lit, they land at once; to a page, with
room in the Hayrick and outside speculation, they enter it and memory stays. -/
def Safety.Stores (s : State) (k : Nat) (th : Thread) (i : Instr) (ea : BitVec 64) (bs : List Byte) : Prop :=
  Safety.memoryOk s → Safety.Issues s k th i → s.threads[k]? = some th → th.spec = none →
    s.storesOf th.wg k < 2 ^ 20 - 1 →
    (∀ (off phys : Nat), Safety.Clear s k th ea bs.length .write (.pool th.wg off) phys →
      (∀ j < bs.length, s.litByte (phys + j) = true) →
      ∃ (t : State) (y : Thread), Machine.exec i s = .next t ∧ Safety.stored s t phys bs ∧ Safety.othersRun s t k ∧
        t.threads[k]? = some y ∧ y = { Safety.moved th i.slots with floors := y.floors }) ∧
    (∀ (x : Nat) (perm : BitVec 3) (phys : Nat) (g : Wg), Safety.Clear s k th ea bs.length .write (.page x perm) phys →
      s.wgs[th.wg]? = some g → g.full = false →
      ∃ (t : State) (y : Thread) (g' : Wg) (e : Entry), Machine.exec i s = .next t ∧ Safety.aged s t (· = k) ∧
        t.threads[k]? = some y ∧ y = { Safety.moved th i.slots with floors := y.floors } ∧ t.wgs[th.wg]? = some g' ∧ g'.hay = g.hay ++ [e] ∧ e.thread = k ∧ e.tid = th.tid ∧ e.va = ea ∧ e.bytes = bs ∧
        e.spec = false ∧ e.committed = false)

/-- Bytes as a number of registers from g(d) hold them, little-endian (R141). -/
def Safety.bytesFrom (th : Thread) (d : BitVec 7) (n : Nat) : List Byte :=
  (List.range n).map fun j => (th.reg (d + BitVec.ofNat 7 (j / 4))).extractLsb' (8 * (j % 4)) 8

/-- `n` registers from g(d), each from four bytes (R141). -/
def Safety.wordsTo (d : BitVec 7) (n : Nat) (bs : List Byte) : List (BitVec 7 × Word) :=
  (List.range n).map fun i => (d + BitVec.ofNat 7 i,
    bs.getD (4 * i + 3) 0 ++ bs.getD (4 * i + 2) 0 ++ bs.getD (4 * i + 1) 0 ++ bs.getD (4 * i) 0)

/-- One register from one or two bytes, zero-extended or sign-extended (R141). -/
def Safety.narrowTo (d : BitVec 7) (n : Nat) (signed : Bool) (bs : List Byte) : List (BitVec 7 × Word) :=
  if n = 1 then [(d, if signed then (bs.getD 0 0).signExtend 32 else (bs.getD 0 0).setWidth 32)]
  else [(d, if signed then (bs.getD 1 0 ++ bs.getD 0 0).signExtend 32 else (bs.getD 1 0 ++ bs.getD 0 0).setWidth 32)]

/-! ## Collective words (R153) -/

/-- The n-th value that the member at a position supplies: the thread itself its own, an executing member what its arrival
holds, every other position none. -/
def Safety.supplied (th : Thread) (own : List Word) (prior : List Arrival) (n p : Nat) : Option Word :=
  if p = th.pos then some (own.getD n 0) else (prior.find? fun a => a.pos = p && a.live).map fun a => a.a.getD n 0

/-- The occurrence of a collective word at the thread's place: its mask is the thread's, its arrivals are those given. -/
def Safety.occurs (s : State) (th : Thread) (mask : Word) (prior : List Arrival) : Prop :=
  (∃ (u : Wg) (sq : Squad), s.wgs[th.wg]? = some u ∧ u.squads[th.squad]? = some sq) ∧
  ((s.gatherAt th.wg th.squad th.pc = none ∧ prior = []) ∨
    ∃ x : Gather, s.gatherAt th.wg th.squad th.pc = some x ∧ x.mask = mask ∧ x.arrivals = prior ∧ x.absent = 0 ∧
      x.formed = false) ∧
  ∀ a ∈ prior, a.pos ≠ th.pos

/-- Thread `k` is the last of the present members of the mask to arrive. -/
structure Safety.Completes (s : State) (k : Nat) (th : Thread) (mask : Word) (prior : List Arrival) : Prop where
  occurs : Safety.occurs s th mask prior
  own : mask.getLsbD th.pos = true
  once : (prior.map (·.pos)).Nodup
  known : ∀ a ∈ prior, ∃ (i : Nat) (x : Thread), s.threads[i]? = some x ∧ Safety.ofSquad x th.wg th.squad ∧ x.pos = a.pos
  apart : ∀ (i j : Nat) (x y : Thread), s.threads[i]? = some x → s.threads[j]? = some y → Safety.ofSquad x th.wg th.squad →
    Safety.ofSquad y th.wg th.squad → x.pos = y.pos → i = j
  all : ∀ (i : Nat) (x : Thread), s.threads[i]? = some x → Safety.ofSquad x th.wg th.squad → x.exited = false →
    x.handler = none → mask.getLsbD x.pos = true → i ≠ k → ∃ a ∈ prior, a.pos = x.pos

/-- At the last arrival the word executes once: every executing member has register `d` and the flags of its position
written and moves on, and nothing else of the threads and memory changes. -/
def Safety.Gathers (s : State) (k : Nat) (th : Thread) (i : Instr) (mask : Word) (d : BitVec 7) (own : List Word)
    (res : (Nat → Nat → Option Word) → Nat → Word × Word) : Prop :=
  ∀ prior : List Arrival, Safety.Issues s k th i → Safety.Completes s k th mask prior →
    let v := Safety.supplied th own prior
    ∃ t, Machine.exec i s = .next t ∧ t.gatherAt th.wg th.squad th.pc = none ∧
      Safety.kept s t (fun j => ∃ x : Thread, s.threads[j]? = some x ∧ Safety.ofSquad x th.wg th.squad ∧
        (v 0 x.pos).isSome = true) ∧
      ∀ (j : Nat) (x : Thread), s.threads[j]? = some x → Safety.ofSquad x th.wg th.squad → (v 0 x.pos).isSome = true →
        t.threads[j]? = some (Safety.wrote x d (res v x.pos).1 (res v x.pos).2 1)

/-- The word whose bit p is a test of p. -/
def Safety.bitsOf (f : Nat → Bool) : Word := BitVec.ofNat 32 (((List.range 32).map fun p => if f p then 2 ^ p else 0).sum)

/-- Minimum or maximum of two FP32 encodings (R96). -/
def Safety.floatPick (max : Bool) (a b : Word) : Word :=
  if Safety.isNan a && Safety.isNan b then 0x7FC00000 else if Safety.isNan a then b else if Safety.isNan b then a
  else if decide (Safety.rank a ≤ Safety.rank b) = max then b else a

/-- Node i of level n of R160's tree, and the flags of the nodes under it. -/
def Safety.tree (v : Nat → Option Word) : Nat → Nat → Option Word × Word
  | 0, i => (v i, 0)
  | n + 1, i =>
    let a := Safety.tree v n (2 * i)
    let b := Safety.tree v n (2 * i + 1)
    match a.1, b.1 with
    | some x, some y =>
      let r := fp32.add 0 x.toNat y.toNat
      (some (BitVec.ofNat 32 r.bits), a.2 ||| b.2 ||| r.flags)
    | some x, none => (some x, a.2 ||| b.2)
    | none, y => (y, a.2 ||| b.2)

/-! ## The drive stream and the engine (R216-R257) -/

/-- The drive stream `n` word positions further on, waiting for nothing. -/
def Safety.driven (d : Drive) (n : Nat) : Drive := { d with pc := pcAfter d.pc d.clause n, park := .none, unmatched := false }

/-- A `tsettle` queued will write the drive register (R234). -/
def Safety.awaited (d : Drive) (r : BitVec 5) : Prop := ∃ o ∈ d.ops, ∃ l, o.word = .tsettle l r

/-- The word waits while a register it names is awaited, and else answers the state given. -/
def Safety.DrivesTo (s : State) (w : Nat) (d : Drive) (i : Instr) (rs : List (BitVec 5)) (t : State) : Prop :=
  Safety.Drives s w d i → ((∀ r ∈ rs, ¬ Safety.awaited d r) → Machine.exec i s = .next t) ∧
    ((∃ r ∈ rs, Safety.awaited d r) → Machine.exec i s = .next s)

/-- The same of a word that changes the drive stream alone. -/
def Safety.Turns (s : State) (w : Nat) (d : Drive) (i : Instr) (rs : List (BitVec 5)) (x : Drive) : Prop :=
  Safety.DrivesTo s w d i rs (s.updDrive w fun _ => x)

/-- The drive stream fails at its word (R45). -/
def Safety.driveFailed (s : State) (w : Nat) (d : Drive) (i : Instr) (cause : BitVec 8) : State :=
  s.failWg w ((wordAddr d.pc).setWidth 64) (wordOf i) cause 1 0

/-- The word enters the engine's queue with the drive registers and the mode as they stand (R216, R223, R246), and nothing
else of the workgroup's engine state, of memory and of the threads changes; with 32 words queued it waits. Only what threads have
seen of a page may change with a word that names memory, whose lookup may find the page come (R167; log 6). -/
def Safety.Queues (s : State) (w : Nat) (u : Wg) (d : Drive) (i : Instr) (rs : List (BitVec 5)) (locks : Nat) (good : Prop) : Prop :=
  Safety.Drives s w d i → s.wgs[w]? = some u → (∀ r ∈ rs, ¬ Safety.awaited d r) → good → s.spaceHold w d i = false →
    locks ≤ s.locksFree u.core →
    (32 ≤ d.ops.length → Machine.exec i s = .next s) ∧
    (d.ops.length < 32 → ∃ (t : State) (u' : Wg) (d' : Drive) (o : Op), Machine.exec i s = .next t ∧
      Safety.aged s t (fun _ => False) ∧ (locks = 0 → t.threads = s.threads) ∧ t.wgs[w]? = some u' ∧ u'.drive = some d' ∧
      d' = { Safety.driven d 1 with ops := d.ops ++ [o] } ∧ o.word = i ∧ o.id = s.nextId ∧ o.addr = wordAddr d.pc ∧
      o.dregs = d.d ∧ o.mode = d.mode ∧ o.iter = d.iter ∧ o.running = false ∧ o.parked = false ∧ o.correction = none ∧
      u' = { u with drive := some d', lineage := u'.lineage })

/-- The first queued word of the drive stream begins and leaves the workgroup and itself so. -/
def Safety.Runs (s : State) (w : Nat) (rest : List Op) (d : Drive) (u' : Wg) (o' : Op) : Prop :=
  Machine.exec (.engineOpExecute w 0) s =
    .next (s.updWg w fun _ => { u' with drive := some { d with ops := { o' with running := true } :: rest } })

/-- A queued word's turn: it is the first of a resident workgroup's queue and has not begun. -/
structure Safety.First (s : State) (w : Nat) (u : Wg) (d : Drive) (o : Op) (rest : List Op) : Prop where
  wg : s.wgs[w]? = some u
  resident : u.state = .resident
  drive : u.drive = some d
  first : d.ops = o :: rest
  apart : ∀ x ∈ rest, x.id ≠ o.id

/-- An exact integer as a cell: clamped to 96 bits, its overflow sticky (R73, R229). -/
def Safety.cellOf (x : Int) (sov : Bool) : WCell :=
  ⟨BitVec.ofInt 96 (max (-2 ^ 95) (min (2 ^ 95 - 1) x)), sov || decide (x < -2 ^ 95 ∨ 2 ^ 95 - 1 < x)⟩

/-- Cells hold what is given for each row and column. -/
def Safety.cellsAre (cells : List WCell) (rows cols : Nat) (f : Nat → Nat → WCell) : Prop :=
  cells.length = rows * cols ∧ ∀ i < rows, ∀ j < cols, cells[i * cols + j]? = some (f i j)

/-- Products entering the cells of a tile, a cell and k products at a time (R73, R74, R226): each exact real is rounded onto the grid once
and added; where the terms' magnitudes stay below 2^95 the cell holds their exact sum, and its sticky bit that of a term; where
the sum itself leaves 96 bits the bit is set. The status bits: SOV where a term left 96 bits, or an addition set a bit; none of
the others but FMT. -/
def Safety.accumulates (old : Nat → Nat → WCell) (rows cols K : Nat) (E : Int) (mode : BitVec 3) (x : Nat → Nat → Nat → Rat)
    (cells : List WCell) (f : Word) : Prop :=
  ∃ (n : Nat → Nat → Nat → Int) (o : Nat → Nat → Nat → Bool),
    (∀ i < rows, ∀ j < cols, ∀ k < K, Safety.gridded (x i j k) E mode (n i j k) (o i j k)) ∧ cells.length = rows * cols ∧
    (∀ i < rows, ∀ j < cols, ∃ c, cells[i * cols + j]? = some c ∧
      (|(old i j).v.toInt| + ((List.range K).map fun k => |n i j k|).sum < 2 ^ 95 →
        c = ⟨BitVec.ofInt 96 ((old i j).v.toInt + ((List.range K).map (n i j)).sum), (old i j).sov || (List.range K).any (o i j)⟩) ∧
      ((old i j).v.toInt + ((List.range K).map (n i j)).sum < -2 ^ 95 ∨
        2 ^ 95 - 1 < (old i j).v.toInt + ((List.range K).map (n i j)).sum → c.sov = true)) ∧
    (f &&& ~~~(0x400 ||| flagFMT) = 0) ∧
    ((∃ i < rows, ∃ j < cols, ∃ k < K, o i j k = true) → f &&& 0x400 ≠ 0) ∧
    ((∀ i < rows, ∀ j < cols, |(old i j).v.toInt| + ((List.range K).map fun k => |n i j k|).sum < 2 ^ 95 ∧ ∀ k < K, o i j k = false) →
      f &&& 0x400 = 0)

/-- The first queued word completes: the workgroup is as given, without the word; the status bits given are set. -/
def Safety.Ends (s : State) (w : Nat) (rest : List Op) (u' : Wg) (d' : Drive) (f : Word) (mem : State → Prop) : Prop :=
  ∃ t, Machine.exec (.engineOpComplete w 0) s = .next t ∧ mem t ∧
    t.wgs[w]? = some { u' with drive := some { d' with ops := rest }, tstat := u'.tstat ||| f }

/-- Everything but the given thread's place and what it has seen: memory and the other threads are as before; it stands
where it is given, having acquired what the word lets it acquire (log 6). -/
def Safety.Passes (s : State) (k : Nat) (i : Instr) (x : Thread) (P : State → Prop) : Prop :=
  ∃ (t : State) (y : Thread), Machine.exec i s = .next t ∧ Safety.kept s t (· = k) ∧ t.threads[k]? = some y ∧
    y = { x with floors := y.floors, lastAcq := y.lastAcq, related := y.related } ∧ P t

/-- The same of a word that acquires at commons scope or wider: of the other threads what they have seen may change too. -/
def Safety.Acquires (s : State) (k : Nat) (i : Instr) (x : Thread) (P : State → Prop) : Prop :=
  ∃ (t : State) (y : Thread), Machine.exec i s = .next t ∧ Safety.aged s t (· = k) ∧ t.threads[k]? = some y ∧
    y = { x with floors := y.floors, lastAcq := y.lastAcq, related := y.related } ∧ P t

/-- A word of both streams in the drive stream changes that stream alone. -/
def Safety.DriveTurns (s : State) (w : Nat) (v : Drive) (i : Instr) (r : BitVec 7) (rs : List (BitVec 5)) (x : Drive) : Prop :=
  Safety.DrivesBoth s w v i r → (∀ q ∈ rs, ¬ Safety.awaited v q) → Machine.exec i s = .next (s.updDrive w fun _ => x)

end Sys2Proof
end

