-- ==== Sys2Proof/Certificates/Slice0/Obligations.lean ====
section
/-! DEFINITION. Obligations: the statements, from the numbered rules of spec/. -/

open Sys2Proof Sys2Proof.Machine

/-! ## Integer words (R81-R94) -/

/-- R82-R85: the high halves of products; `div` and `rem`, with the values for a zero divisor and for the one quotient that does not
fit; the lesser and the greater of two, and min(max(d, a), b), which is b where a exceeds b; and a saturated sum combined with d,
with SAT whenever the sum saturates, even where it loses the comparison. The word of R85's example is the instruction it names. -/
def Obligations.ProductsQuotientsExtremes : Prop :=
  (∀ (s : State) (k : Nat) (th : Thread) (g : BitVec 3) (d a b : BitVec 7),
    Safety.Writes s k th (.mulhS32 g d a b) d (((th.reg a).signExtend 64 * (th.reg b).signExtend 64).extractLsb' 32 32) 0 ∧
    Safety.Writes s k th (.mulhN32 g d a b) d (((th.reg a).setWidth 64 * (th.reg b).setWidth 64).extractLsb' 32 32) 0) ∧
  (∀ (s : State) (k : Nat) (th : Thread) (g : BitVec 3) (d a b : BitVec 7),
    (th.reg b = 0 →
      Safety.Writes s k th (.divS32 g d a b) d (if 0 ≤ (th.reg a).toInt then 0x7FFFFFFF else 0x80000000) flagIDZ ∧
      Safety.Writes s k th (.divN32 g d a b) d 0xFFFFFFFF flagIDZ ∧
      Safety.Writes s k th (.remS32 g d a b) d (th.reg a) flagIDZ ∧
      Safety.Writes s k th (.remN32 g d a b) d (th.reg a) flagIDZ) ∧
    (th.reg b ≠ 0 →
      Safety.Writes s k th (.divS32 g d a b) d ((th.reg a).sdiv (th.reg b)) 0 ∧
      Safety.Writes s k th (.remS32 g d a b) d ((th.reg a).srem (th.reg b)) 0 ∧
      Safety.Writes s k th (.divN32 g d a b) d ((th.reg a).udiv (th.reg b)) 0 ∧
      Safety.Writes s k th (.remN32 g d a b) d ((th.reg a).umod (th.reg b)) 0) ∧
    (th.reg a = 0x80000000 → th.reg b = 0xFFFFFFFF →
      Safety.Writes s k th (.divS32 g d a b) d 0x80000000 0 ∧ Safety.Writes s k th (.remS32 g d a b) d 0 0)) ∧
  (∀ (s : State) (k : Nat) (th : Thread) (g : BitVec 3) (d a b : BitVec 7),
    let A := th.reg a; let B := th.reg b; let D := th.reg d
    let up := if D.slt A then A else D
    let upU := if D.ult A then A else D
    Safety.Writes s k th (.minS32 g d a b) d (if A.slt B then A else B) 0 ∧
    Safety.Writes s k th (.maxS32 g d a b) d (if A.slt B then B else A) 0 ∧
    Safety.Writes s k th (.minN32 g d a b) d (if A.ult B then A else B) 0 ∧
    Safety.Writes s k th (.maxN32 g d a b) d (if A.ult B then B else A) 0 ∧
    Safety.Writes s k th (.clampS32 g d a b) d (if up.slt B then up else B) 0 ∧
    Safety.Writes s k th (.clampN32 g d a b) d (if upU.ult B then upU else B) 0 ∧
    (B.slt A = true → Safety.Writes s k th (.clampS32 g d a b) d B 0) ∧
    (B.ult A = true → Safety.Writes s k th (.clampN32 g d a b) d B 0)) ∧
  ((∀ (s : State) (k : Nat) (th : Thread) (g : BitVec 3) (d a b : BitVec 7),
    let x := Safety.clamped ((th.reg a).toInt + (th.reg b).toInt) (-2 ^ 31) (2 ^ 31 - 1)
    let y := Safety.clamped ((th.reg a).toNat + (th.reg b).toNat) 0 (2 ^ 32 - 1)
    let D := th.reg d
    Safety.Writes s k th (.addminS32 g d a b) d (if x.1.slt D then x.1 else D) x.2 ∧
    Safety.Writes s k th (.addmaxS32 g d a b) d (if D.slt x.1 then x.1 else D) x.2 ∧
    Safety.Writes s k th (.addminN32 g d a b) d (if y.1.ult D then y.1 else D) y.2 ∧
    Safety.Writes s k th (.addmaxN32 g d a b) d (if D.ult y.1 then y.1 else D) y.2) ∧
  decodeWord 0xE3410286 none = .ok (.addminS32 7 4 5 6))

/-- R81, R86, R87: `add`, `sub`, `mul` and `mad` modulo 2^32, saturated with SAT where the clamp changes the value, or modulo 2^64
into a pair; `addc` and `subb` take the carry or borrow from bit 0 of g(d) and leave the next one in g(d+1); negation, absolute
value modulo 2^32 and the 64-bit sum of `lea`. -/
def Obligations.SumsAndProducts : Prop :=
  (∀ (s : State) (k : Nat) (th : Thread) (g : BitVec 3) (d a b : BitVec 7),
    let sat := fun x => Safety.clamped x (-2 ^ 31) (2 ^ 31 - 1)
    let satU := fun x => Safety.clamped x 0 (2 ^ 32 - 1)
    let S := fun r => (th.reg r).toInt
    let U := fun r => ((th.reg r).toNat : Int)
    Safety.Writes s k th (.addS32 g d a b) d (th.reg a + th.reg b) 0 ∧
    Safety.Writes s k th (.subS32 g d a b) d (th.reg a - th.reg b) 0 ∧
    Safety.Writes s k th (.mulS32 g d a b) d (th.reg a * th.reg b) 0 ∧
    Safety.Writes s k th (.madS32 g d a b) d (th.reg d + th.reg a * th.reg b) 0 ∧
    Safety.Writes s k th (.addS32Sat g d a b) d (sat (S a + S b)).1 (sat (S a + S b)).2 ∧
    Safety.Writes s k th (.subS32Sat g d a b) d (sat (S a - S b)).1 (sat (S a - S b)).2 ∧
    Safety.Writes s k th (.mulS32Sat g d a b) d (sat (S a * S b)).1 (sat (S a * S b)).2 ∧
    Safety.Writes s k th (.madS32Sat g d a b) d (sat (S d + S a * S b)).1 (sat (S d + S a * S b)).2 ∧
    Safety.Writes s k th (.addN32Sat g d a b) d (satU (U a + U b)).1 (satU (U a + U b)).2 ∧
    Safety.Writes s k th (.subN32Sat g d a b) d (satU (U a - U b)).1 (satU (U a - U b)).2 ∧
    Safety.Writes s k th (.mulN32Sat g d a b) d (satU (U a * U b)).1 (satU (U a * U b)).2 ∧
    Safety.Writes s k th (.madN32Sat g d a b) d (satU (U d + U a * U b)).1 (satU (U d + U a * U b)).2) ∧
  (∀ (s : State) (k : Nat) (th : Thread) (g : BitVec 3) (d a b : BitVec 7),
    let P := fun r : BitVec 7 => th.reg (r + 1) ++ th.reg r
    let X := (th.reg a).setWidth 64 * (th.reg b).setWidth 64
    Safety.WritesPair s k th (.addN64 g d a b) d (P a + P b) ∧
    Safety.WritesPair s k th (.subN64 g d a b) d (P a - P b) ∧
    Safety.WritesPair s k th (.mulN64 g d a b) d X ∧
    Safety.WritesPair s k th (.madN64 g d a b) d (P d + X)) ∧
  (∀ (s : State) (k : Nat) (th : Thread) (g : BitVec 3) (d a b : BitVec 7),
    let A := (th.reg a).setWidth 33; let B := (th.reg b).setWidth 33; let c := ((th.reg d).extractLsb' 0 1).setWidth 33
    Safety.WritesPair s k th (.addc g d a b) d ((A + B + c).setWidth 64) ∧
    Safety.WritesPair s k th (.subb g d a b) d ((A - B - c).setWidth 64)) ∧
  (∀ (s : State) (k : Nat) (th : Thread) (g : BitVec 3) (d a b : BitVec 7),
    Safety.Writes s k th (.neg g d a) d (-th.reg a) 0 ∧
    Safety.Writes s k th (.abs g d a) d (if (th.reg a).msb then -th.reg a else th.reg a) 0 ∧
    (th.reg a = 0x80000000 → Safety.Writes s k th (.abs g d a) d 0x80000000 0) ∧
    Safety.WritesPair s k th (.lea g d a b) d (th.reg (a + 1) ++ th.reg a + (th.reg b).signExtend 64))

/-- R88-R90: the bitwise words and the shifts, a register count taken whole, an immediate sign-extended or a count below 32; bit
fields at a position and of a length that a register gives; counts of ones and zeros, 32 for a zero operand, and reversals. -/
def Obligations.BitWords : Prop :=
  (∀ (s : State) (k : Nat) (th : Thread) (g : BitVec 3) (d a b : BitVec 7) (i : BitVec 7) (c : BitVec 5),
    let A := th.reg a; let B := th.reg b; let x : Word := i.signExtend 32
    Safety.Writes s k th (.and g d a b) d (A &&& B) 0 ∧
    Safety.Writes s k th (.or g d a b) d (A ||| B) 0 ∧
    Safety.Writes s k th (.xor g d a b) d (A ^^^ B) 0 ∧
    Safety.Writes s k th (.andn g d a b) d (A &&& ~~~B) 0 ∧
    Safety.Writes s k th (.not g d a) d (~~~A) 0 ∧
    Safety.Writes s k th (.andImm g d a i) d (A &&& x) 0 ∧
    Safety.Writes s k th (.orImm g d a i) d (A ||| x) 0 ∧
    Safety.Writes s k th (.xorImm g d a i) d (A ^^^ x) 0 ∧
    Safety.Writes s k th (.shl g d a b) d (if 32 ≤ B.toNat then 0 else A <<< B.toNat) 0 ∧
    Safety.Writes s k th (.shr g d a b) d (if 32 ≤ B.toNat then 0 else A >>> B.toNat) 0 ∧
    Safety.Writes s k th (.sar g d a b) d
      (if 32 ≤ B.toNat then (if A.msb then BitVec.allOnes 32 else 0) else A.sshiftRight B.toNat) 0 ∧
    Safety.Writes s k th (.rot g d a b) d (A <<< (B.toNat % 32) ||| A >>> ((32 - B.toNat % 32) % 32)) 0 ∧
    Safety.Writes s k th (.shlImm g d a c) d (A <<< c.toNat) 0 ∧
    Safety.Writes s k th (.shrImm g d a c) d (A >>> c.toNat) 0 ∧
    Safety.Writes s k th (.sarImm g d a c) d (A.sshiftRight c.toNat) 0 ∧
    Safety.Writes s k th (.rotImm g d a c) d (A <<< c.toNat ||| A >>> ((32 - c.toNat) % 32)) 0) ∧
  (∀ (s : State) (k : Nat) (th : Thread) (g : BitVec 3) (d a b : BitVec 7),
    let A := th.reg a; let B := th.reg b; let D := th.reg d
    let pos := (B.extractLsb' 0 5).toNat
    let len := min (min (B.extractLsb' 8 6).toNat 32) (32 - pos)
    (∃ v : Word, Safety.Writes s k th (.bfx g d a b) d v 0 ∧ ∀ i < 32, v.getLsbD i =
      if i < len then A.getLsbD (pos + i) else 0 < len && B.getLsbD 16 && A.getLsbD (pos + len - 1)) ∧
    (∃ v : Word, Safety.Writes s k th (.bfi g d a b) d v 0 ∧ ∀ i < 32, v.getLsbD i =
      if pos ≤ i ∧ i < pos + len then A.getLsbD (i - pos) else D.getLsbD i)) ∧
  (∀ (s : State) (k : Nat) (th : Thread) (g : BitVec 3) (d a : BitVec 7),
    let A := th.reg a
    (∃ n, Safety.Writes s k th (.popc g d a) d (BitVec.ofNat 32 n) 0 ∧ n = ((List.finRange 32).countP fun i => A.getLsbD i)) ∧
    (∃ n ≤ 32, Safety.Writes s k th (.clz g d a) d (BitVec.ofNat 32 n) 0 ∧ (∀ i < n, A.getLsbD (31 - i) = false) ∧
      (n < 32 → A.getLsbD (31 - n) = true)) ∧
    (∃ n ≤ 32, Safety.Writes s k th (.ctz g d a) d (BitVec.ofNat 32 n) 0 ∧ (∀ i < n, A.getLsbD i = false) ∧
      (n < 32 → A.getLsbD n = true)) ∧
    (∃ v : Word, Safety.Writes s k th (.brev g d a) d v 0 ∧ ∀ i < 32, v.getLsbD i = A.getLsbD (31 - i)) ∧
    (∃ v : Word, Safety.Writes s k th (.bswap g d a) d v 0 ∧ ∀ i < 32, v.getLsbD i = A.getLsbD (8 * (3 - i / 8) + i % 8)))

/-- R91-R94, R40: `sel` always executes and chooses by its guard; the moves, and the immediate sum; each condition of `cmp` and
`cmpi`, whose immediate is sign-extended and then compared; `plog` looks up its table with two predicates, p7 reading true;
`pmov` moves p0-p6. -/
def Obligations.MovesAndComparisons : Prop :=
  (∀ (s : State) (k : Nat) (th : Thread) (g : BitVec 3) (d a b i : BitVec 7) (j : BitVec 14) (lit : Word),
    Safety.Writes s k th (.sel g d a b) d (if g = 7#3 ∨ th.p.getLsbD g.toNat = true then th.reg a else th.reg b) 0 ∧
    Safety.Writes s k th (.mov g d a) d (th.reg a) 0 ∧
    Safety.Writes s k th (.movi g d j) d (j.signExtend 32) 0 ∧
    Safety.Writes s k th (.addImm g d a i) d (th.reg a + i.signExtend 32) 0 ∧
    (Safety.Issues s k th (.movl g d lit) →
      exec (.movl g d lit) s = .next (s.updThread k fun _ => Safety.wrote th d lit 0 2))) ∧
  (∀ (s : State) (k : Nat) (th : Thread) (g : BitVec 3) (p : BitVec 3) (a b i : BitVec 7),
    let A := th.reg a; let B := th.reg b; let x : Word := i.signExtend 32
    (∀ cf ∈ [((0#4, fun u v : Word => u == v) : BitVec 4 × (Word → Word → Bool)), (1#4, fun u v => u != v), (2#4, fun u v => u.slt v),
        (3#4, fun u v => u.sle v), (4#4, fun u v => v.slt u), (5#4, fun u v => v.sle u), (6#4, fun u v => u.ult v),
        (7#4, fun u v => u.ule v), (8#4, fun u v => v.ult u), (9#4, fun u v => v.ule u)],
      Safety.WritesPred s k th (.cmp g cf.1 p a b) p (cf.2 A B) 0 ∧ Safety.WritesPred s k th (.cmpi g cf.1 p a i) p (cf.2 A x) 0)) ∧
  (∀ (s : State) (k : Nat) (th : Thread) (g : BitVec 3) (t : BitVec 4) (p q r : BitVec 3) (d a : BitVec 7),
    let val := fun x : BitVec 3 => x == 7#3 || th.p.getLsbD x.toNat
    Safety.WritesPred s k th (.plog g t p q r) p (t.getLsbD ((if val q then 2 else 0) + if val r then 1 else 0)) 0 ∧
    Safety.Writes s k th (.pmovRd g d) d (0#24 ++ 1#1 ++ th.p) 0 ∧
    (Safety.Issues s k th (.pmovWr g a) → exec (.pmovWr g a) s = .next (s.updThread k fun _ =>
      { th with p := (th.reg a).extractLsb' 0 7, pc := pcAfter th.pc th.clause 1, park := .none, unmatched := false })))

/-! ## Floating point (R64-R105) -/

/-- R102: the seven unary functions from the exact reals: 1/a, 1/√a and √a of every finite operand they are defined for, 2^a of every
integer and log₂ a of every power of two, rounded once in the mode of the field; 2^a, log₂ a, sin a and cos a of every other finite
nonzero operand so too, unless the exact real lies so near a point where the rounding turns that the model's enclosures need not
decide (the model's choice, log 13). -/
def Obligations.ElementaryFunctions : Prop :=
  ∀ (s : State) (k : Nat) (th : Thread) (g : BitVec 3) (d a m : BitVec 7),
    let mode : BitVec 3 := if m = 0 then th.rm.extractLsb' 0 3 else BitVec.ofNat 3 (m.toNat - 1)
    let A := th.reg a
    let x : ℝ := Safety.valueOf fp32 A.toNat
    let gives := fun (i : Instr) (y : ℝ) (undecided : Prop) => ∃ (r : Rounded) (neg : Bool),
      Safety.Writes s k th i d (BitVec.ofNat 32 r.bits) r.flags ∧ (neg = true ↔ y < 0) ∧ (Safety.Rounds fp32 mode false neg y r ∨ undecided)
    mode.toNat ≤ 4 → Safety.finite fp32 A.toNat → x ≠ 0 →
      gives (.frcp g d a m) (1 / x) False ∧
      (0 < x → gives (.frsq g d a m) (1 / Real.sqrt x) False ∧ gives (.fsqrt g d a m) (Real.sqrt x) False ∧
        gives (.flg2 g d a m) (Real.logb 2 x) (Safety.close (Real.logb 2 x))) ∧
      gives (.fex2 g d a m) ((2 : ℝ) ^ x) (1 / 2 ^ 200 ≤ (2 : ℝ) ^ x ∧ Safety.close ((2 : ℝ) ^ x)) ∧
      gives (.fsin g d a m) (Real.sin x) (Safety.close (Real.sin x)) ∧
      gives (.fcos g d a m) (Real.cos x) (Safety.close (Real.cos x)) ∧
      (∀ n : Int, (x = n → gives (.fex2 g d a m) ((2 : ℝ) ^ n) False) ∧ (x = (2 : ℝ) ^ n → gives (.flg2 g d a m) n False))

/-- R66, R67, R95-R98, R103: the value each of the 22 arithmetic words delivers, from the exact reals of its operands: the exact sum,
difference, product, fused product or quotient rounded once, the sign of an exact zero, and infinities, NaNs and flags as the rules
give them; a scaling past every exponent overflows or underflows; the two halves of a packed word each on their own. -/
def Obligations.FloatResults : Prop :=
  (∀ (s : State) (k : Nat) (th : Thread) (g : BitVec 3) (d a b : BitVec 7),
    let m := th.rm.extractLsb' 0 3
    let v := fun r : BitVec 7 => fp32.decode (th.reg r).toNat
    let n := (th.reg b).toInt
    let gives := fun (i : Instr) (r : Rounded) => Safety.Writes s k th i d (BitVec.ofNat 32 r.bits) r.flags
    gives (.fadd g d a b) (Safety.sumOf fp32 m (v a) (v b)) ∧ gives (.faddRn g d a b) (Safety.sumOf fp32 0 (v a) (v b)) ∧
    gives (.fsub g d a b) (Safety.sumOf fp32 m (v a) (v b).neg) ∧ gives (.fsubRn g d a b) (Safety.sumOf fp32 0 (v a) (v b).neg) ∧
    gives (.fmul g d a b) (Safety.productOf fp32 m (v a) (v b)) ∧ gives (.fmulRn g d a b) (Safety.productOf fp32 0 (v a) (v b)) ∧
    gives (.ffma g d a b) (Safety.fusedOf fp32 m (v a) (v b) (v d)) ∧ gives (.ffmaRn g d a b) (Safety.fusedOf fp32 0 (v a) (v b) (v d)) ∧
    gives (.fdiv g d a b) (Safety.quotientOf fp32 m (v a) (v b)) ∧
    (∀ q, v a = .nan q → gives (.fscale g d a b) ⟨fp32.nan, if q then flagNV else 0⟩) ∧
    (∀ q, v a = .inf q → gives (.fscale g d a b) ⟨(th.reg a).toNat, 0⟩) ∧
    (∀ neg x e, v a = .fin neg x e →
      (x = 0 → gives (.fscale g d a b) ⟨(th.reg a).toNat, 0⟩) ∧
      (-1024 ≤ n → n ≤ 1024 → gives (.fscale g d a b) (Safety.exactly fp32 m neg (Safety.realOf (v a) * (2 : Rat) ^ n))) ∧
      (x ≠ 0 → 1024 < n → gives (.fscale g d a b) ⟨fp32.signed neg
        (if m.toNat < 2 ∨ (m = 3 ∧ neg = false) ∨ (m = 4 ∧ neg = true) then fp32.inf else fp32.max), flagOF ||| flagNX⟩) ∧
      (x ≠ 0 → n < -1024 → gives (.fscale g d a b) ⟨fp32.signed neg (if (m = 3 ∧ neg = false) ∨ (m = 4 ∧ neg = true) then 1 else 0),
        flagUF ||| flagNX⟩))) ∧
  (∀ (s : State) (k : Nat) (th : Thread) (g : BitVec 3) (d a b : BitVec 7),
    let m := th.rm.extractLsb' 0 3
    let el := fun (r : BitVec 7) (i : Nat) => ((th.reg r).extractLsb' (16 * i) 16).toNat
    let both := fun (i : Instr) (f : Nat → Rounded) => Safety.Writes s k th i d
      (BitVec.ofNat 16 (f 1).bits ++ BitVec.ofNat 16 (f 0).bits) ((f 0).flags ||| (f 1).flags)
    let B := fun (r : BitVec 7) (i : Nat) => bf16.decode (el r i); let H := fun (r : BitVec 7) (i : Nat) => fp16.decode (el r i)
    both (.hadd2Bf16 g d a b) (fun i => Safety.sumOf bf16 m (B a i) (B b i)) ∧ both (.hadd2Hf16 g d a b) (fun i => Safety.sumOf fp16 m (H a i) (H b i)) ∧
    both (.hsub2Bf16 g d a b) (fun i => Safety.sumOf bf16 m (B a i) (B b i).neg) ∧
    both (.hsub2Hf16 g d a b) (fun i => Safety.sumOf fp16 m (H a i) (H b i).neg) ∧
    both (.hmul2Bf16 g d a b) (fun i => Safety.productOf bf16 m (B a i) (B b i)) ∧
    both (.hmul2Hf16 g d a b) (fun i => Safety.productOf fp16 m (H a i) (H b i)) ∧
    both (.hfma2Bf16 g d a b) (fun i => Safety.fusedOf bf16 m (B a i) (B b i) (B d i)) ∧
    both (.hfma2Hf16 g d a b) (fun i => Safety.fusedOf fp16 m (H a i) (H b i) (H d i)) ∧
    both (.hmin2Bf16 g d a b) (fun i => Safety.pickOf bf16 false (el a i) (el b i)) ∧
    both (.hmax2Bf16 g d a b) (fun i => Safety.pickOf bf16 true (el a i) (el b i)) ∧
    both (.hmin2Hf16 g d a b) (fun i => Safety.pickOf fp16 false (el a i) (el b i)) ∧
    both (.hmax2Hf16 g d a b) (fun i => Safety.pickOf fp16 true (el a i) (el b i)))

/-- R67, R95, R97, R98, R103: rounding delivers of any exact real, a quotient too, the value the mode asks for with its sign, NX where it
changed, UF where it is tiny as well, and what an overflow delivers; and the arithmetic words deliver of finite operands the exact sum,
difference, product, fused product, quotient or scaling so rounded, a zero with the sign of its rule, in s.rm or to nearest-even; a
packed word each half on its own, with the flags of both. -/
def Obligations.RoundedOnce : Prop :=
  (∀ f ∈ [fp32, bf16, fp16, e4m3, e5m2], ∀ (mode : BitVec 3) (nan neg : Bool) (num den : Nat) (e : Int), mode.toNat ≤ 4 → den ≠ 0 →
    Safety.Rounds f mode nan neg ((if neg then -1 else 1) * ((num : ℝ) / den) * (2 : ℝ) ^ e) (f.round mode nan neg num den e)) ∧
  (∀ (s : State) (k : Nat) (th : Thread) (g : BitVec 3) (d a b : BitVec 7),
    let m := th.rm.extractLsb' 0 3
    let v := fun r : BitVec 7 => Safety.valueOf fp32 (th.reg r).toNat
    let neg := fun r : BitVec 7 => (th.reg r).msb
    let ok := fun r : BitVec 7 => Safety.finite fp32 (th.reg r).toNat
    let zero := fun (mode : BitVec 3) (p q : Bool) => if p = q then p else mode == 4
    let gives := fun (i : Instr) (mode : BitVec 3) (sign : Bool) (y : ℝ) => ∃ (r : Rounded) (n : Bool),
      Safety.Writes s k th i d (BitVec.ofNat 32 r.bits) r.flags ∧ (y = 0 → n = sign) ∧ (y ≠ 0 → (n = true ↔ y < 0)) ∧
        Safety.Rounds fp32 mode false n y r
    m.toNat ≤ 4 → ok a →
      (ok b →
        gives (.fadd g d a b) m (zero m (neg a) (neg b)) (v a + v b) ∧ gives (.faddRn g d a b) 0 (zero 0 (neg a) (neg b)) (v a + v b) ∧
        gives (.fsub g d a b) m (zero m (neg a) !(neg b)) (v a - v b) ∧ gives (.fsubRn g d a b) 0 (zero 0 (neg a) !(neg b)) (v a - v b) ∧
        gives (.fmul g d a b) m (neg a ^^ neg b) (v a * v b) ∧ gives (.fmulRn g d a b) 0 (neg a ^^ neg b) (v a * v b) ∧
        (v b ≠ 0 → gives (.fdiv g d a b) m (neg a ^^ neg b) (v a / v b)) ∧
        (ok d → gives (.ffma g d a b) m (zero m (neg a ^^ neg b) (neg d)) (v a * v b + v d) ∧
          gives (.ffmaRn g d a b) 0 (zero 0 (neg a ^^ neg b) (neg d)) (v a * v b + v d))) ∧
      gives (.fscale g d a b) m (neg a) (v a * (2 : ℝ) ^ (th.reg b).toInt)) ∧
  (∀ (s : State) (k : Nat) (th : Thread) (g : BitVec 3) (d a b : BitVec 7), (th.rm.extractLsb' 0 3).toNat ≤ 4 →
    ∀ x ∈ [((bf16, Instr.hadd2Bf16 g d a b, Instr.hsub2Bf16 g d a b, Instr.hmul2Bf16 g d a b, Instr.hfma2Bf16 g d a b) :
        Fmt × Instr × Instr × Instr × Instr),
      (fp16, .hadd2Hf16 g d a b, .hsub2Hf16 g d a b, .hmul2Hf16 g d a b, .hfma2Hf16 g d a b)],
      let m := th.rm.extractLsb' 0 3
      let el := fun (r : BitVec 7) (i : Nat) => ((th.reg r).extractLsb' (16 * i) 16).toNat
      let v := fun (r : BitVec 7) (i : Nat) => Safety.valueOf x.1 (el r i)
      let neg := fun (r : BitVec 7) (i : Nat) => decide (2 ^ 15 ≤ el r i)
      let ok := fun r : BitVec 7 => ∀ i < 2, Safety.finite x.1 (el r i)
      let zero := fun p q : Bool => if p = q then p else m == 4
      let gives := fun (i : Instr) (sign : Nat → Bool) (y : Nat → ℝ) => ∃ (r : Nat → Rounded) (n : Nat → Bool),
        Safety.Writes s k th i d (BitVec.ofNat 16 (r 1).bits ++ BitVec.ofNat 16 (r 0).bits) ((r 0).flags ||| (r 1).flags) ∧
        ∀ j < 2, (y j = 0 → n j = sign j) ∧ (y j ≠ 0 → (n j = true ↔ y j < 0)) ∧ Safety.Rounds x.1 m false (n j) (y j) (r j)
      ok a → ok b →
        gives x.2.1 (fun j => zero (neg a j) (neg b j)) (fun j => v a j + v b j) ∧
        gives x.2.2.1 (fun j => zero (neg a j) !(neg b j)) (fun j => v a j - v b j) ∧
        gives x.2.2.2.1 (fun j => neg a j ^^ neg b j) (fun j => v a j * v b j) ∧
        (ok d → gives x.2.2.2.2 (fun j => zero (neg a j ^^ neg b j) (neg d j)) (fun j => v a j * v b j + v d j)))

/-- R96, R99-R102: minimum and maximum by the order of the encodings, comparisons by that of the values, signs and classes, with NV
for the NaNs each rule names; `frnd` delivers the integer nearest in its mode, with its operand's sign, and NX where it changed; the seven unary functions
in the mode of their rounding field, with the special cases of the table of R102; `frcp` is the quotient of 1. The word of R99's example decodes to the instruction it names. -/
def Obligations.FloatSelectAndFunctions : Prop :=
  ((∀ (s : State) (k : Nat) (th : Thread) (g : BitVec 3) (p : BitVec 3) (d a b : BitVec 7),
    let A := th.reg a; let B := th.reg b
    let pick := fun w : Word =>
      if Safety.isNan A && Safety.isNan B then 0x7FC00000 else if Safety.isNan A then B else if Safety.isNan B then A else w
    let un := Safety.isNan A || Safety.isNan B
    let all := if un then flagNV else 0
    let x := Safety.worth A; let y := Safety.worth B
    Safety.Writes s k th (.fmin g d a b) d (pick (if Safety.rank A ≤ Safety.rank B then A else B)) (Safety.snanFlag A B) ∧
    Safety.Writes s k th (.fmax g d a b) d (pick (if Safety.rank A ≤ Safety.rank B then B else A)) (Safety.snanFlag A B) ∧
    Safety.Writes s k th (.fabs g d a) d (if Safety.isNan A then 0x7FC00000 else A &&& 0x7FFFFFFF) (Safety.snanFlag A A) ∧
    Safety.Writes s k th (.fneg g d a) d (if Safety.isNan A then 0x7FC00000 else A ^^^ 0x80000000) (Safety.snanFlag A A) ∧
    Safety.Writes s k th (.fclass g d a) d
      (let E := A.extractLsb' 23 8; let F := A.extractLsb' 0 23
       if Safety.isSnan A then 0x100 else if Safety.isNan A then 0x200
       else if E = 255 then (if A.msb then 0x001 else 0x080)
       else if E ≠ 0 then (if A.msb then 0x002 else 0x040)
       else if F ≠ 0 then (if A.msb then 0x004 else 0x020)
       else if A.msb then 0x008 else 0x010) 0 ∧
    Safety.WritesPred s k th (.fcmp g 0 p a b) p (!un && x == y) (Safety.snanFlag A B) ∧
    Safety.WritesPred s k th (.fcmp g 1 p a b) p (un || x != y) (Safety.snanFlag A B) ∧
    Safety.WritesPred s k th (.fcmp g 2 p a b) p (!un && decide (x < y)) all ∧
    Safety.WritesPred s k th (.fcmp g 3 p a b) p (!un && decide (x ≤ y)) all ∧
    Safety.WritesPred s k th (.fcmp g 4 p a b) p (!un && decide (y < x)) all ∧
    Safety.WritesPred s k th (.fcmp g 5 p a b) p (!un && decide (y ≤ x)) all ∧
    Safety.WritesPred s k th (.fcmp g 6 p a b) p un (Safety.snanFlag A B) ∧
    Safety.WritesPred s k th (.fcmp g 7 p a b) p (!un) (Safety.snanFlag A B)) ∧
  decodeWord 0xEA248184 none = .ok (.fcmp 7 2 2 3 4)) ∧
  (∀ (s : State) (k : Nat) (th : Thread) (g : BitVec 3) (d a m : BitVec 7),
    let mode : BitVec 3 := if m = 0 then th.rm.extractLsb' 0 3 else BitVec.ofNat 3 (m.toNat - 1)
    let A := th.reg a
    let gives := fun (i : Instr) (r : Rounded) => Safety.Writes s k th i d (BitVec.ofNat 32 r.bits) r.flags
    let fs : List (BitVec 3 → BitVec 7 → BitVec 7 → BitVec 7 → Instr) := [.frcp, .frsq, .fsqrt, .fex2, .flg2, .fsin, .fcos]
    let row := fun vs : List (Word × Word) => ∀ x ∈ fs.zip vs, Safety.Writes s k th (x.1 g d a m) d x.2.1 x.2.2
    let nv : Word × Word := (0x7FC00000, flagNV)
    (∀ x ∈ fs.zipIdx, gives (x.1 g d a m) (elementary x.2 mode A)) ∧
    (A = 0x00000000 → row [(0x7F800000, flagDZ), (0x7F800000, flagDZ), (0, 0), (0x3F800000, 0), (0xFF800000, flagDZ), (0, 0),
      (0x3F800000, 0)]) ∧
    (A = 0x80000000 → row [(0xFF800000, flagDZ), (0xFF800000, flagDZ), (0x80000000, 0), (0x3F800000, 0),
      (0xFF800000, flagDZ), (0x80000000, 0), (0x3F800000, 0)]) ∧
    (A = 0x7F800000 → row [(0, 0), (0, 0), (0x7F800000, 0), (0x7F800000, 0), (0x7F800000, 0), nv, nv]) ∧
    (A = 0xFF800000 → row [(0x80000000, 0), nv, nv, (0, 0), nv, nv, nv]) ∧
    (Safety.isNan A = true → row (List.replicate 7 (0x7FC00000, Safety.snanFlag A A))) ∧
    (A.msb = true → A.extractLsb' 23 8 ≠ 255 → A ≠ 0x80000000 →
      Safety.Writes s k th (.frsq g d a m) d nv.1 nv.2 ∧ Safety.Writes s k th (.fsqrt g d a m) d nv.1 nv.2 ∧
      Safety.Writes s k th (.flg2 g d a m) d nv.1 nv.2) ∧
    gives (.frcp g d a m) (fp32.div mode 0x3F800000 A.toNat) ∧
    gives (.frnd g d a m) (fp32.integral mode A.toNat) ∧
    (mode.toNat ≤ 4 → Safety.finite fp32 A.toNat → ∃ (w : Word) (n : Int),
      Safety.Writes s k th (.frnd g d a m) d w (if (n : ℝ) = Safety.valueOf fp32 A.toNat then 0 else flagNX) ∧
      Safety.integral mode (Safety.valueOf fp32 A.toNat) n ∧ Safety.finite fp32 w.toNat ∧ Safety.valueOf fp32 w.toNat = n ∧ w.msb = A.msb) ∧
    (Safety.isNan A = true → Safety.Writes s k th (.frnd g d a m) d 0x7FC00000 (Safety.snanFlag A A)) ∧
    (Safety.isNan A = false → 150 ≤ (A.extractLsb' 23 8).toNat ∨ (A &&& 0x7FFFFFFF) = 0 →
      Safety.Writes s k th (.frnd g d a m) d A 0) ∧
    (m = 3 → A = 0xBF000000 → Safety.Writes s k th (.frnd g d a m) d 0x80000000 flagNX))

/-- R104-R108: `cvt` writes the registers its selector names with the conversion of those it reads, in its mode, and nothing else;
R105's examples; an integer of 24 bits, a BF16 and an FP16 element go to FP32 and back unchanged; and what each selector converts: an
integer rounded to FP32, an FP32 value to an integer of its range, with NV outside it; elements widened exactly, and narrowed and
packed with the flags of all; IO4 words decoded slot by slot and filled greedily; wide images read out and rounded onto their grid. -/
def Obligations.Conversions : Prop :=
  (∀ (s : State) (k : Nat) (th : Thread) (g : BitVec 3) (d a cs : BitVec 7),
    let way := fun (i : Instr) (mode : BitVec 3) => Safety.Issues s k th i →
      let r := Machine.convert cs mode ((cvtSrc a cs).map th.reg) (th.reg (d + 3))
      ∃ th', exec i s = .next (s.updThread k fun _ => th') ∧
        th' = { Safety.moved th 1 with g := th'.g, flags := th.flags ||| r.2 } ∧
        (∀ q, q ∉ cvtDst d cs → th'.reg q = th.reg q) ∧
        ∀ j < (cvtDst d cs).length, th'.reg (d + BitVec.ofNat 7 j) = r.1.getD j 0
    way (.cvt g d a cs) (th.rm.extractLsb' 0 3) ∧ way (.cvtRn g d a cs) 0 ∧ way (.cvtRna g d a cs) 1 ∧
    way (.cvtRz g d a cs) 2 ∧ way (.cvtRp g d a cs) 3 ∧ way (.cvtRm g d a cs) 4) ∧
  (convert 0x03 2 [0xBF333333] 0 = ([0], flagNX) ∧ convert 0x03 2 [0xBFC00000] 0 = ([0], flagNV)) ∧
  (∀ (mode : BitVec 3) (w z : Word), mode.toNat ≤ 4 →
    (-2 ^ 24 ≤ w.toInt → w.toInt ≤ 2 ^ 24 → (convert 0x00 mode [w] z).2 = 0 ∧ convert 0x02 mode (convert 0x00 mode [w] z).1 z = ([w], 0)) ∧
    ((∀ i < 2, w.extractLsb' (16 * i + 7) 8 ≠ 255 ∨ w.extractLsb' (16 * i) 7 = 0) →
      convert 0x08 mode ((convert 0x04 mode [w] z).1 ++ (convert 0x05 mode [w] z).1) z = ([w], 0)) ∧
    ((∀ i < 2, w.extractLsb' (16 * i + 10) 5 ≠ 31 ∨ w.extractLsb' (16 * i) 10 = 0) →
      convert 0x09 mode ((convert 0x06 mode [w] z).1 ++ (convert 0x07 mode [w] z).1) z = ([w], 0))) ∧
  (∀ (mode : BitVec 3) (w z : Word), mode.toNat ≤ 4 →
    let v := fp32.decode w.toNat
    let one := fun (sel : BitVec 7) (P : Rounded → Prop) => ∃ r, P r ∧ convert sel mode [w] z = ([BitVec.ofNat 32 r.bits], r.flags)
    one 0x00 (Safety.Rounds fp32 mode false w.msb w.toInt) ∧ one 0x01 (Safety.Rounds fp32 mode false false w.toNat) ∧
    (∃ x fl, Safety.integerOf v mode (-2 ^ 31) (2 ^ 31 - 1) x fl ∧ convert 0x02 mode [w] z = ([x], fl)) ∧
    (∃ x fl, Safety.integerOf v mode 0 (2 ^ 32 - 1) x fl ∧ convert 0x03 mode [w] z = ([x], fl)) ∧
    (∀ i < 2, one (4 + BitVec.ofNat 7 i) (Safety.narrows fp32 0 false (bf16.decode (w.extractLsb' (16 * i) 16).toNat)) ∧
      one (6 + BitVec.ofNat 7 i) (Safety.narrows fp32 0 false (fp16.decode (w.extractLsb' (16 * i) 16).toNat))) ∧
    (∀ i < 4, one (16 + BitVec.ofNat 7 i) (Safety.narrows fp32 0 false (e4m3.decode (w.extractLsb' (8 * i) 8).toNat)) ∧
      one (20 + BitVec.ofNat 7 i) (Safety.narrows fp32 0 false (e5m2.decode (w.extractLsb' (8 * i) 8).toNat))) ∧
    (∃ vs f, Safety.Decoded w 0 vs f ∧ (convert 0x20 mode [w] z).2 = (if f then flagFMT else 0) ∧
      (convert 0x20 mode [w] z).1.length = 8 ∧ vs.length = 8 ∧ ∀ j < 8,
        Safety.real (fp32.decode ((convert 0x20 mode [w] z).1.getD j 0).toNat) = some (vs.getD j 0)) ∧
    (let E := z.extractLsb' 16 10
      let image := fun (n : Int) (o : Bool) => let V := BitVec.ofInt 96 n
        [V.extractLsb' 0 32, V.extractLsb' 32 32, V.extractLsb' 64 32, 0#6 ++ E ++ 0#15 ++ BitVec.ofBool o]
      (∃ n o, Safety.onGrid v E.toInt mode n o ∧ convert 0x2A mode [w] z = (image n o, 0)) ∧
      ∃ n o, Safety.onGrid (.fin (decide (w.toInt < 0)) w.toInt.natAbs 0) E.toInt mode n o ∧ convert 0x2B mode [w] z = (image n o, 0))) ∧
  (∀ (mode : BitVec 3) (src : List Word) (z : Word), mode.toNat ≤ 4 →
    (∀ x ∈ [((0x08, bf16, 2, false) : BitVec 7 × Fmt × Nat × Bool), (0x09, fp16, 2, false), (0x18, e4m3, 4, false), (0x19, e4m3, 4, true),
        (0x1A, e5m2, 4, false)], src.length = x.2.2.1 → ∃ (rs : List Rounded) (w : Word), rs.length = src.length ∧
      (∀ (j : Nat) (u : Word) (r : Rounded), src[j]? = some u → rs[j]? = some r →
        Safety.narrows x.2.1 mode x.2.2.2 (fp32.decode u.toNat) r ∧ ∀ b < 32 / x.2.2.1, w.getLsbD (32 / x.2.2.1 * j + b) = r.bits.testBit b) ∧
      convert x.1 mode src z = ([w], rs.foldl (fun fl r => fl ||| r.flags) 0)) ∧
    (src.length = 8 → ∃ (sl : List (BitVec 4)) (fl w : Word), Safety.Filled mode 0 src sl fl ∧ sl.length = 8 ∧
      (∀ j < 8, w.extractLsb' (4 * j) 4 = sl.getD j 0) ∧ convert 0x21 mode src z = ([w], fl)) ∧
    (∀ p q r t : Word, src = [p, q, r, t] →
      let V := (r ++ q ++ p).toInt
      let E := (t.extractLsb' 16 10).toInt
      let wov : Word := if t.getLsbD 0 then flagWOV else 0
      (∃ x, Safety.Rounds fp32 mode false (decide (V < 0)) ((V : ℝ) * (2 : ℝ) ^ E) x ∧
        convert 0x28 mode src z = ([BitVec.ofNat 32 x.bits], x.flags ||| wov)) ∧
      ∃ x fl, Safety.integerOf (.fin (decide (V < 0)) V.natAbs E) mode (-2 ^ 31) (2 ^ 31 - 1) x fl ∧
        convert 0x29 mode src z = ([x], fl ||| wov)))

/-! ## Encodings and steps (R36-R48; log 1) -/

/-- Words written out bit by bit from the encodings of the rules decode to the instructions they stand for. -/
def Obligations.DecodeWords : Prop :=
  decodeWord (0b111#3 ++ 0x00#8 ++ 1#7 ++ 2#7 ++ 3#7) none = .ok (.addS32 7 1 2 3) ∧
  decodeWord 0xE3410286 none = .ok (.addminS32 7 4 5 6) ∧
  decodeWord 0xEA248184 none = .ok (.fcmp 7 2 2 3 4) ∧
  decodeWord 0xF0E30300 none = .ok (.wld 7 12 6)

/-- An instruction's words decode to it, with every operand its encoding admits, whatever follows; and what decodes is well formed and
has the bytes it was read from: no bit of a word is dropped. -/
def Obligations.EncodingRoundTrips : Prop :=
  (∀ (i : Instr) (rest : List Byte), i.wellFormed = true → encode i ≠ [] →
    decode ((encode i).flatMap bytesOfWord ++ rest) = .ok (i, rest)) ∧
  (∀ (bs rest : List Byte) (i : Instr), decode bs = .ok (i, rest) →
    i.wellFormed = true ∧ encode i ≠ [] ∧ (encode i).flatMap bytesOfWord ++ rest = bs)

/-- A stream's turn executes the word it stands before: of a thread, where nothing of R129, R132 or R137 is pending; its header is
taken, and no comparator holds it (R378).
That one step is one word of one stream is the model's choice (log 1). -/
def Obligations.StepRunsWord : Prop :=
  (∀ (s : State) (k : Nat) (th : Thread) (i : Instr),
    let t := Safety.turned s (.thread k)
    s.turn = some (.stream (.thread k)) → t.threads[k]? = some th → th.doom = none →
    (th.spec = none ∨ th.conflict = false ∧ t.requested th.wg = false) → th.pc.idx ≠ 0 → th.recheck = false →
    t.threadHold th = none → Safety.NextIs th.pc th.clause i → step s = exec i t) ∧
  (∀ (s : State) (w : Nat) (d : Drive) (i : Instr),
    let t := Safety.turned s (.drive w)
    s.turn = some (.stream (.drive w)) → t.drive? w = some d → d.pc.idx ≠ 0 →
    d.recheck = false → t.driveHold w d = none → Safety.NextIs d.pc d.clause i → step s = exec i t)

/-- No run stops: from every state, every step answers a next state.
That a step always has an answer is the model's choice of steps (log 1). -/
def Obligations.RunsNeverStop : Prop := ∀ s : State, Safety.safe s

/-- Every step keeps memory in its canonical form.
The form is the model's way of holding memory (log 4). -/
def Obligations.StepKeepsMemoryForm : Prop :=
  ∀ s t : State, Safety.memoryOk s → step s = .next t → Safety.memoryOk t

/-- A byte written reads as written, every other byte as before, and the canonical form stays.
The form is the model's way of holding memory (log 4). -/
def Obligations.MemoryReadAfterWrite : Prop :=
  ∀ (m : List Host.Cell) (a x : Nat) (b : Byte), Memory.wf m = true →
    Memory.wf (memSet m a b) = true ∧ memGet (memSet m a b) x = (if x = a then b else memGet m x)

/-- R38, R41, R45, R48, R136, R184: a word with an operand its encoding does not allow, or a register past its role's allotment,
raises ILLEGAL whatever its guard, with the word in s.tval; one whose guard is false has no effect but its thread's advance
(collective words apart, R153); one that names a register a load has still to write waits, and nothing changes; one forbidden
in speculation aborts it with code 5; a word of the other stream alone is a drive fault in the drive stream and ILLEGAL in a
thread stream. -/
def Obligations.IssueRules : Prop :=
  (∀ (s : State) (k : Nat) (th : Thread) (i : Instr), Safety.threadWord i = true → Safety.collective i = false →
    Safety.Stands s k th i → th.pred i.guard = false →
    exec i s = .next (s.updThread k fun _ => Safety.moved th i.slots)) ∧
  (∀ (s : State) (k : Nat) (th : Thread) (i : Instr), Safety.threadWord i = true → s.issuer = some (.thread k) →
    s.threads[k]? = some th → (i.wellFormed && th.allots i.regs) = false →
    exec i s = .next (s.takeTrap k 0x01 (wordOf i))) ∧
  (∀ (s : State) (k : Nat) (th : Thread) (i : Instr), Safety.threadWord i = true → Safety.collective i = false →
    Safety.Stands s k th i → th.pred i.guard = true →
    (th.awaits i.regs = true → exec i s = .next s) ∧
    (th.awaits i.regs = false → i.noSpec = true → th.spec.isSome = true → exec i s = .next (s.abort k 5 0 0))) ∧
  ((∀ (s : State) (w : Nat) (d : Drive) (i : Instr), Safety.threadWord i = true → Safety.bothStreams i = false →
    s.issuer = some (.drive w) → s.drive? w = some d →
    exec i s = .next (s.failWg w ((wordAddr d.pc).setWidth 64) (wordOf i) 0x01 1 0)) ∧
  (∀ (s : State) (k : Nat) (th : Thread) (i : Instr), Safety.driveWord i = true → s.issuer = some (.thread k) →
    s.threads[k]? = some th → exec i s = .next (s.takeTrap k 0x01 (wordOf i))))

/-! ## Control (R54-R62, R112-R137, R162) -/

/-- R54, R113, R114, R117-R119, R162: `br` and `brl` go to the word's own address plus four times the offset; jumps to a checked target,
calls and returns through the call stack, whose seventeenth on-core entry sends the oldest to memory at s.csb + 8 × its position, where a return that finds
none on core reads it; a bad target raises TARGET before the push, a call at depth 4,096 and a return at depth 0 raise STACK with the depth; `nop` only moves on, `wait` once its limits are met; the mask words read and write the
thread's own masks; `exit`, with no store of the thread outstanding, ends it, and it leaves every enrolment. -/
def Obligations.ControlTransfers : Prop :=
  (∀ (s : State) (k : Nat) (th : Thread) (g : BitVec 3) (l : BitVec 7) (o : BitVec 21) (p : BitVec 14),
    Safety.Leads s k th (.br g o)
      (s.updThread k fun _ => Safety.jumped th (wordAddr th.pc + 4 * o.signExtend 57)) ∧
    Safety.Leads s k th (.brl g l p) (s.updThread k fun _ =>
      { Safety.jumped th (wordAddr th.pc + 4 * p.signExtend 57) with
        g := (Safety.wrotePair th l ((nextHeader th.pc th.clause).setWidth 64) 1).g })) ∧
  (∀ (s : State) (k : Nat) (th : Thread) (g : BitVec 3) (a : BitVec 7) (o : BitVec 21),
    let t := th.reg (a + 1) ++ th.reg a
    let bad := t.extractLsb' 57 7 ≠ 0 ∨ t.extractLsb' 0 2 ≠ 0
    let goes := fun (i : Instr) (x : Thread) => Safety.Leads s k th i (s.updThread k fun _ => x)
    let stops := fun (i : Instr) (cause : BitVec 8) (v : Word) => Safety.Leads s k th i (s.takeTrap k cause v)
    let pushed := { th with stack := nextHeader th.pc th.clause :: th.stack, depth := th.depth + 1 }
    (bad → stops (.jmp g a) 0x06 (th.reg a) ∧ stops (.calli g a) 0x06 (th.reg a)) ∧
    (¬ bad → goes (.jmp g a) (Safety.jumped th (t.setWidth 57)) ∧
      (4096 ≤ th.depth.toNat → stops (.calli g a) 0x03 (th.depth.setWidth 32)) ∧
      (th.depth.toNat < 4096 → th.stack.length < 16 → goes (.calli g a) (Safety.jumped pushed (t.setWidth 57)))) ∧
    (4096 ≤ th.depth.toNat → stops (.call g o) 0x03 (th.depth.setWidth 32)) ∧
    (th.depth.toNat < 4096 → th.stack.length < 16 →
      goes (.call g o) (Safety.jumped pushed (wordAddr th.pc + 4 * o.signExtend 57))) ∧
    (th.depth = 0 → stops (.ret g) 0x03 0) ∧
    (∀ x rest, th.depth ≠ 0 → th.stack = x :: rest →
      goes (.ret g) (Safety.jumped { th with stack := rest, depth := th.depth - 1 } x)) ∧
    (let slot := fun pos : Nat => th.csb.setWidth 64 + BitVec.ofNat 64 (8 * pos)
      let stands := fun (ea : BitVec 64) (kind : Kind) (phys : Nat) => ea.extractLsb' 57 7 = 0 ∧
        s.permits th.wg (s.place th.wg ea.toNat) kind = true ∧ s.physOf (s.place th.wg ea.toNat) = some phys
      (∀ (front : List VAddr) (oldest : VAddr) (phys : Nat), Safety.memoryOk s → Safety.Issues s k th (.call g o) →
        16 ≤ th.depth.toNat → th.depth.toNat < 4096 → th.stack = front ++ [oldest] → front.length = 15 →
        stands (slot (th.depth.toNat - 16)) .write phys → (∀ j < 8, s.litByte (phys + j) = true) →
        ∃ (t : State) (y : Thread), exec (.call g o) s = .next t ∧
          Safety.stored s t phys ((List.range 8).map fun j => ((0#7 ++ oldest) : BitVec 64).extractLsb' (8 * j) 8) ∧ t.threads[k]? = some y ∧
          y = { Safety.jumped th (wordAddr th.pc + 4 * o.signExtend 57) with
            stack := nextHeader th.pc th.clause :: front, depth := th.depth + 1, floors := y.floors }) ∧
      ∀ phys : Nat, Safety.Issues s k th (.ret g) → th.depth ≠ 0 → th.stack = [] → th.spec = none → stands (slot (th.depth.toNat - 1)) .read phys →
        ∃ (t : State) (y : Thread) (x : VAddr), exec (.ret g) s = .next t ∧ (∀ a, memGet t.mem a = memGet s.mem a) ∧ t.threads[k]? = some y ∧
          y = { Safety.jumped th x with stack := [], depth := th.depth - 1, floors := y.floors } ∧ x.extractLsb' 0 2 = 0 ∧
          ∀ j < 57, 2 ≤ j → x.getLsbD j = (memGet s.mem (phys + j / 8)).getLsbD (j % 8))) ∧
  (∀ (s : State) (k : Nat) (th : Thread) (g : BitVec 3) (l st c t : BitVec 4) (d : BitVec 7) (m : BitVec 2),
    let next := s.updThread k fun _ => Safety.moved th 1
    let met := fun (n : Nat) (f : BitVec 4) => f = 15 ∨ n ≤ f.toNat
    let all := met th.loads.length l ∧ met (s.storesLimited th.wg k) st ∧ met (s.copiesOf (.thread k)) c
    Safety.Leads s k th (.nop g) next ∧
    (all → Safety.Leads s k th (.wait g l st c t) next) ∧
    (¬ all → Safety.Leads s k th (.wait g l st c t) s) ∧
    Safety.Writes s k th (.lanesGet g d m) d (th.m[m.toNat]'m.isLt) 0 ∧
    Safety.Leads s k th (.lanesSet g d m)
      (s.updThread k fun _ => { Safety.moved th 1 with m := th.m.set m.toNat (th.reg d) m.isLt }) ∧
    (∀ u : Wg, s.wgs[th.wg]? = some u → (∀ l, th.park ≠ .drain l) → Safety.noStores s k th.wg → (∀ x ∈ u.wadds, x.thread ≠ k) →
      s.recordsHeld u.core ≤ 1024 → Safety.Reads s k th (.exit g) fun t => (∀ a, memGet t.mem a = memGet s.mem a) ∧
        t.threads[k]? = some { th with exited := true, park := .none, loss := none, handler := none } ∧
        (∀ (i : Nat) (y : Thread), s.threads[i]? = some y → y.wg ≠ th.wg → t.threads[i]? = some y) ∧
        ∀ (j : BitVec 3) (r : Join), Safety.joinAt t th.wg th.squad j r → r.arrived.getLsbD th.pos = false ∧ r.enrolled.getLsbD th.pos = false) ∧
    (∃ x : Word, Safety.Writes s k th (.lanesPresent g d m) d ((th.m[m.toNat]'m.isLt) &&& x) 0 ∧
      ∀ p < 32, x.getLsbD p = true ↔ ∃ (i : Nat) (y : Thread), s.threads[i]? = some y ∧ Safety.ofSquad y th.wg th.squad ∧ y.pos = p ∧
        y.exited = false ∧ y.handler = none))

/-- R116: `enrol` sets the thread's bit; `join` passes an unenrolled thread, parks an enrolled one, and, when the last
enrolled thread arrives, releases every parked thread of the register and clears it. -/
def Obligations.EnrolAndJoin : Prop :=
  ∀ (s : State) (k : Nat) (th : Thread) (g : BitVec 3) (j : BitVec 3) (r : Join),
    let bit := 1#32 <<< th.pos
    Safety.joinAt s th.wg th.squad j r → th.park ≠ .join j →
    (Safety.Reads s k th (.enrol g j) fun t =>
      t.threads[k]? = some (Safety.moved th 1) ∧ Safety.kept s t (· = k) ∧
      Safety.joinAt t th.wg th.squad j ⟨r.arrived, r.enrolled ||| bit⟩) ∧
    (r.enrolled &&& bit = 0 → Safety.Leads s k th (.join g j) (s.updThread k fun _ => Safety.moved th 1)) ∧
    (r.enrolled &&& bit ≠ 0 → r.arrived ||| bit ≠ r.enrolled →
      Safety.Reads s k th (.join g j) fun t =>
        t.threads[k]? = some { th with park := .join j } ∧ Safety.kept s t (· = k) ∧
        Safety.joinAt t th.wg th.squad j ⟨r.arrived ||| bit, r.enrolled⟩) ∧
    (r.enrolled &&& bit ≠ 0 → r.arrived ||| bit = r.enrolled →
      Safety.Reads s k th (.join g j) fun t =>
        Safety.joinAt t th.wg th.squad j ⟨0, 0⟩ ∧
        Safety.kept s t (fun i => ∃ x : Thread, s.threads[i]? = some x ∧ (i = k ∨ Safety.ofSquad x th.wg th.squad ∧ x.park = .join j)) ∧
        ∀ (i : Nat) (x : Thread), s.threads[i]? = some x → (i = k ∨ Safety.ofSquad x th.wg th.squad ∧ x.park = .join j) →
          t.threads[i]? = some (Safety.moved x 1))

/-- R117, R122-R125, R131: taking a trap outside speculation and outside a handler saves cause, value and return point (the next
header for TRAP and BRK, else the word), enters handler mode at s.tvec and clears the thread's join bits; in a handler it fails
the workgroup with a record, in a lone speculation it aborts it with code 4; `trap` and `brk` raise theirs with the code in
s.tval, and `tret` returns to the resume point where s.tpc still names it, else to the header at s.tpc, and raises ILLEGAL
outside a handler. -/
def Obligations.Traps : Prop :=
  (∀ (s : State) (k : Nat) (th : Thread) (cause : BitVec 8) (val : Word) (after : Bool),
    s.threads[k]? = some th → th.spec = none → th.handler = none →
    let t := s.takeTrap k cause val after
    let back := if after then nextHeader th.pc th.clause else wordAddr th.pc
    t.threads[k]? = some { th with
      tcause := cause.setWidth 32, tval := val, tpc := back
      handler := some (if after then ⟨back, 0⟩ else th.pc)
      pc := ⟨th.tvec, 0⟩, park := .none, unmatched := false, recheck := false } ∧
    Safety.kept s t (fun i => i = k ∨ ∃ (x : Thread) (j : BitVec 3), s.threads[i]? = some x ∧ Safety.ofSquad x th.wg th.squad ∧
      (x.park = .join j ∨ x.park = .tryGroup false)) ∧
    ∀ j r, Safety.joinAt t th.wg th.squad j r → r.enrolled.getLsbD th.pos = false ∧ r.arrived.getLsbD th.pos = false) ∧
  (∀ (s : State) (k : Nat) (th : Thread) (cause : BitVec 8) (val : Word) (after : Bool), s.threads[k]? = some th →
    (th.spec = none → th.handler.isSome = true →
      s.takeTrap k cause val after = s.failWg th.wg ((wordAddr th.pc).setWidth 64) val cause 0 th.tid ∧
      (∀ g, s.wgs[th.wg]? = some g → ∃ g', (s.takeTrap k cause val after).wgs[th.wg]? = some g' ∧ g'.state = .failed ∧
        ∀ e ∈ g'.hay, e.committed = true) ∧
      (∀ l, s.links[s.coreOf th.wg / 4]? = some l → l.up ≠ 0 → l.upHeld = [] →
        (s.takeTrap k cause val after).failures = s.failures ++ [failureRecord ((wordAddr th.pc).setWidth 64) val cause 0 2
          th.tid (s.wgidOf th.wg) (s.launchId th.wg)])) ∧
    (∀ sp, th.spec = some sp → sp.kind = .lone →
      s.takeTrap k cause val after = s.rollback k 4 cause val ∧
      ∃ x, (s.takeTrap k cause val after).threads[k]? = some x ∧ x.tcause = 0x100 ||| cause.setWidth 32 ∧ x.tval = val ∧
        x.tac = 4 ∧ x.pc = ⟨sp.target, 0⟩ ∧ ((∀ l ∈ th.loads, sp.since ≤ l.id) → x.g = sp.check.g) ∧ x.spec = none)) ∧
  (∀ (s : State) (k : Nat) (th : Thread) (g : BitVec 3) (c : BitVec 8),
    Safety.Leads s k th (.trap g c) (s.takeTrap k 0x04 (c.setWidth 32) true) ∧
    (s.handled th.wg = false → Safety.Leads s k th (.brk g c) (s.takeTrap k 0x05 (c.setWidth 32) true)) ∧
    (s.handled th.wg = true → Safety.Reads s k th (.brk g c) fun t => ∃ x, t.threads[k]? = some x ∧ x.hold.isSome = true ∧
      x = { Safety.jumped th (nextHeader th.pc th.clause) with hold := x.hold }) ∧
    (th.handler = none → Safety.Leads s k th (.tret g) (s.takeTrap k 0x01 (wordOf (.tret g)))) ∧
    (∀ r, th.handler = some r →
      (th.tpc = wordAddr r → Safety.Leads s k th (.tret g) (s.updThread k fun _ =>
        { th with handler := none, pc := r, recheck := r.idx ≠ 0, park := .none, unmatched := false })) ∧
      (th.tpc ≠ wordAddr r → Safety.Leads s k th (.tret g)
        (s.updThread k fun _ => { Safety.jumped th th.tpc with handler := none }))))

/-- R56-R61, R120: `srd` reads each readable number and `swr` writes each writable one, whole; an unassigned number, a
read-only one and a nonzero reserved field raise ILLEGAL and leave the register; reading s.clklo latches the upper
half. -/
def Obligations.SpecialRegisters : Prop :=
  ∀ (s : State) (k : Nat) (th : Thread) (g : BitVec 3) (r : BitVec 7), (∀ l ∈ th.loads, l.flags = 0) →
    let v := th.reg r
    let reads := fun (n : BitVec 12) (x : Word) => Safety.Writes s k th (.srd g r n) r x 0
    let sets := fun (n : BitVec 12) (ok : Prop) (x : Thread) =>
      (ok → Safety.Leads s k th (.swr g r n) (s.updThread k fun _ => Safety.moved x 1)) ∧
      (¬ ok → Safety.Leads s k th (.swr g r n) (s.takeTrap k 0x01 (wordOf (.swr g r n))))
    let lo := fun a : VAddr => (a.extractLsb' 0 32 : Word)
    let hi := fun a : VAddr => (0#7 ++ a.extractLsb' 32 25 : Word)
    let lows := fun a : VAddr => (a.extractLsb' 32 25 ++ v : VAddr)
    let highs := fun a : VAddr => (v.extractLsb' 0 25 ++ a.extractLsb' 0 32 : VAddr)
    reads 0x000 (th.tid.setWidth 32) ∧ reads 0x001 (s.wgidOf th.wg) ∧ reads 0x002 (s.launchId th.wg) ∧
    reads 0x003 (if th.role then 1 else 0) ∧ reads 0x004 (BitVec.ofNat 32 (s.coreOf th.wg)) ∧ reads 0x008 th.rm ∧
    reads 0x009 th.flags ∧ reads 0x010 th.tcause ∧ reads 0x011 th.tval ∧ reads 0x012 (lo th.tpc) ∧ reads 0x013 (hi th.tpc) ∧
    reads 0x014 (lo th.tvec) ∧ reads 0x015 (hi th.tvec) ∧ reads 0x016 th.tac ∧ reads 0x018 (th.depth.setWidth 32) ∧
    reads 0x019 (lo th.csb) ∧ reads 0x01A (hi th.csb) ∧
    reads 0x020 (BitVec.ofNat 8 (min th.loads.length 255) ++ BitVec.ofNat 8 (min (s.storesOf th.wg k) 255) ++
      BitVec.ofNat 8 (min (s.copiesOf (.thread k)) 255) ++ 0#8) ∧
    (Safety.Leads s k th (.srd g r 0x021) (s.updThread k fun _ =>
      { Safety.wrote th r (BitVec.ofNat 32 s.clk) 0 1 with clkLatch := some (BitVec.ofNat 32 (s.clk / 2 ^ 32)) })) ∧
    (Safety.Leads s k th (.srd g r 0x022) (s.updThread k fun _ =>
      { Safety.wrote th r (th.clkLatch.getD (BitVec.ofNat 32 (s.clk / 2 ^ 32))) 0 1 with clkLatch := none })) ∧
    sets 0x008 (v.toNat ≤ 4) { th with rm := v } ∧
    sets 0x009 (v.extractLsb' 9 23 = 0) { th with flags := v } ∧
    sets 0x012 (v.extractLsb' 0 2 = 0) { th with tpc := lows th.tpc } ∧
    sets 0x013 (v.extractLsb' 25 7 = 0) { th with tpc := highs th.tpc } ∧
    sets 0x014 (v.extractLsb' 0 2 = 0) { th with tvec := lows th.tvec } ∧
    sets 0x015 (v.extractLsb' 25 7 = 0) { th with tvec := highs th.tvec } ∧
    sets 0x019 (v.extractLsb' 0 3 = 0) { th with csb := lows th.csb } ∧
    sets 0x01A (v.extractLsb' 25 7 = 0) { th with csb := highs th.csb } ∧
    (∀ n ∈ [0x000#12, 0x001, 0x002, 0x003, 0x004, 0x010, 0x011, 0x016, 0x018, 0x020, 0x021, 0x022], sets n False th) ∧
    (∀ n : BitVec 12, n ∉ [0x000#12, 0x001, 0x002, 0x003, 0x004, 0x008, 0x009, 0x010, 0x011, 0x012, 0x013, 0x014, 0x015, 0x016,
        0x018, 0x019, 0x01A, 0x020, 0x021, 0x022] →
      sets n False th ∧ Safety.Leads s k th (.srd g r n) (s.takeTrap k 0x01 (wordOf (.srd g r n))))

/-- R126, R131-R135: `try.l` checkpoints the thread and goes on at once, `try.w` once every present thread of the squad waits at it; a
nested `try` aborts with code 7; `tcommit` ends a lone speculation and keeps what it did, and `tabort` rolls it back; outside
speculation both only move on. A thread that rolls back has its checkpoint's registers, stands before the abort target with the
code in s.tac, and has none of its speculative entries left; memory is as it was. The stack comes back as it stood at the `try`: a `ret`
that refills an entry which then stood at D - 16 or above adds it to the checkpoint, one that would refill one below aborts with code 5.
The model's choices: results of loads issued before the `try` survive (log 29), entries below the 16 on core at `try` stay where they
are (log 65), threads in handler mode that wait at the word enter with the group (log 66). -/
def Obligations.Speculation : Prop :=
  (∀ (s : State) (k : Nat) (th : Thread) (g : BitVec 3) (o : BitVec 21) (c : BitVec 8),
    let begun := fun (x : Thread) (kind : SpecKind) => { Safety.moved x 1 with
      tac := 0, conflict := false
      spec := some ⟨kind, s.nextId, ⟨x.stack, [], x.depth, x.g, x.p, x.m, x.rm, x.flags, x.tvec, x.csb⟩,
        wordAddr x.pc + 4 * o.signExtend 57, [], []⟩ }
    let enters := fun (i : Nat) (x : Thread) => Safety.ofSquad x th.wg th.squad ∧ (i = k ∨ x.park = .tryGroup false)
    (∀ sp, th.spec = some sp → sp.kind = .lone → th.depth ≠ 0 → th.stack = [] →
      let ea := th.csb.setWidth 64 + BitVec.ofNat 64 (8 * (th.depth.toNat - 1))
      (th.depth.toNat + 15 < sp.check.depth.toNat → Safety.Leads s k th (.ret g) (s.rollback k 5 0 0)) ∧
      ∀ phys : Nat, Safety.Issues s k th (.ret g) → sp.check.depth.toNat ≤ th.depth.toNat + 15 → ea.extractLsb' 57 7 = 0 →
        s.permits th.wg (s.place th.wg ea.toNat) .read = true → s.physOf (s.place th.wg ea.toNat) = some phys →
        ∃ (t : State) (y : Thread) (x : VAddr), exec (.ret g) s = .next t ∧ t.threads[k]? = some y ∧ y.pc = ⟨x, 0⟩ ∧
          y.depth = th.depth - 1 ∧ y.stack = [] ∧ ∃ sp', y.spec = some sp' ∧
          sp' = { sp with check := { sp.check with refilled := sp'.check.refilled } } ∧
          sp'.check.refilled = if th.depth.toNat + sp.check.stack.length + sp.check.refilled.length = sp.check.depth.toNat
            then sp.check.refilled ++ [x] else sp.check.refilled) ∧
    (th.spec = none →
      ((∀ (i : Nat) (x : Thread), s.threads[i]? = some x → Safety.ofSquad x th.wg th.squad → x.park ≠ .tryGroup false ∧
          x.park ≠ .tryGroup true ∧ (x.spec.map (·.kind)) ≠ some .squad) →
        Safety.Leads s k th (.tryL g o) (s.updThread k fun _ => begun th .lone)) ∧
      ((∀ (i : Nat) (x : Thread), s.threads[i]? = some x → Safety.ofSquad x th.wg th.squad → x.spec = none ∧
          x.park ≠ .tryGroup true ∧ (x.park = .tryGroup false → x.pc = th.pc) ∧
          (x.exited = false → x.handler = none → enters i x)) →
        Safety.Reads s k th (.tryW g o) fun t => Safety.kept s t (fun i => ∃ x : Thread, s.threads[i]? = some x ∧ enters i x) ∧
          ∀ (i : Nat) (x : Thread), s.threads[i]? = some x → enters i x → t.threads[i]? = some (begun x .squad)) ∧
      Safety.Leads s k th (.tcommit g) (s.updThread k fun _ => Safety.moved th 1) ∧
      Safety.Leads s k th (.tabort g c) (s.updThread k fun _ => Safety.moved th 1)) ∧
    (∀ sp, th.spec = some sp → sp.kind = .lone →
      Safety.Leads s k th (.tryL g o) (s.rollback k 7 0 0) ∧ Safety.Leads s k th (.tryW g o) (s.rollback k 7 0 0) ∧
      Safety.Leads s k th (.tabort g c) (s.rollback k c 0 0) ∧
      (th.conflict = true → s.issuer = some (.thread k) → s.threads[k]? = some th →
        ∃ t x, exec .speculationConflict s = .next t ∧ t.threads[k]? = some x ∧ x.tac = 1 ∧ x.spec = none ∧
          x.pc = ⟨sp.target, 0⟩ ∧ ((∀ l ∈ th.loads, sp.since ≤ l.id) → x.g = sp.check.g)) ∧
      Safety.Reads s k th (.tcommit g) fun t =>
        t.threads[k]? = some { Safety.moved th 1 with spec := none, conflict := false } ∧ Safety.kept s t (· = k) ∧
        ∀ (w : Nat) (u u' : Wg), s.wgs[w]? = some u → t.wgs[w]? = some u' →
          u'.hay = u.hay.map fun e => if w = th.wg ∧ e.thread = k then { e with spec := false } else e)) ∧
  (∀ (s : State) (k : Nat) (th : Thread) (sp : Spec) (code cause : BitVec 8) (val : Word),
    s.threads[k]? = some th → th.spec = some sp →
    let t := s.rollback k code cause val
    let older := fun l : Pending => l ∈ th.loads ∧ l.id < sp.since
    (∃ x, t.threads[k]? = some x ∧
      (∀ r : BitVec 7, (∀ l, older l → r ∉ l.writes.map (·.1)) → x.reg r = sp.check.g[r.toNat]'r.isLt) ∧
      (∀ l r v, older l → (l.writes.map (·.1)).Nodup → (r, v) ∈ l.writes →
        (∀ l', older l' → l' ≠ l → r ∉ l'.writes.map (·.1)) → x.reg r = v) ∧
      ((∀ l, older l → l.flags = 0) → x.flags = sp.check.flags) ∧ x.loads = [] ∧
      x.p = sp.check.p ∧ x.m = sp.check.m ∧ x.rm = sp.check.rm ∧ x.tvec = sp.check.tvec ∧ x.csb = sp.check.csb ∧ x.stack = sp.check.stack ++ sp.check.refilled ∧
      x.depth = sp.check.depth ∧ x.pc = ⟨sp.target, 0⟩ ∧ x.tac = code.setWidth 32 ∧ x.spec = none ∧
      (code = 4 → x.tcause = 0x100 ||| cause.setWidth 32 ∧ x.tval = val) ∧
      (code ≠ 4 → x.tcause = th.tcause ∧ x.tval = th.tval)) ∧
    Safety.kept s t (· = k) ∧
    ∀ g, t.wgs[th.wg]? = some g → ∀ e ∈ g.hay, e.thread = k → e.spec = false)

/-! ## Memory words (R108, R138-R152) -/

/-- R127, R138-R142: the loads, at the address and in the size each form names, extended or spread over its registers; an advanced
load outside speculation is an ordinary one, and in speculation it enters the bytes it reads into the read set, and aborts with
code 2 where that would take a thirty-third fragment.
When a value is read and which older one may be seen are the model's (logs 6, 7). -/
def Obligations.Loads : Prop :=
  (∀ (s : State) (k : Nat) (th : Thread) (g : BitVec 3) (d a o : BitVec 7) (lit : Word) (adv : BitVec 1),
    let ea := fun off : BitVec 64 => th.reg (a + 1) ++ th.reg a + off
    let x := o.signExtend 64
    let loads := fun (i : Instr) (off : BitVec 64) (n : Nat) (w : List Byte → List (BitVec 7 × Word)) =>
      Safety.SendsLoad s k th i (ea off) n fun b => (w b, 0)
    let words := fun n => Safety.wordsTo d n
    let narrow := fun n signed => Safety.narrowTo d n signed
    loads (.ldS8 g d a o) x 1 (narrow 1 true) ∧ loads (.ldZ8 g d a o) x 1 (narrow 1 false) ∧
    loads (.ldS16 g d a o) (2 * x) 2 (narrow 2 true) ∧ loads (.ldZ16 g d a o) (2 * x) 2 (narrow 2 false) ∧
    loads (.ldW g d a o) (4 * x) 4 (words 1) ∧ loads (.ldD g d a o) (8 * x) 8 (words 2) ∧
    loads (.ldQ g d a o) (16 * x) 16 (words 4) ∧
    (th.spec = none →
      loads (.ldAdvW g d a o) (4 * x) 4 (words 1) ∧ loads (.ldAdvD g d a o) (8 * x) 8 (words 2) ∧
      loads (.ldAdvQ g d a o) (16 * x) 16 (words 4)) ∧
    (th.spec = none ∨ adv = 0 → let y := lit.signExtend 64
      loads (.ldl g d a 0 adv lit) y 1 (narrow 1 true) ∧ loads (.ldl g d a 1 adv lit) y 1 (narrow 1 false) ∧
      loads (.ldl g d a 2 adv lit) y 2 (narrow 2 true) ∧ loads (.ldl g d a 3 adv lit) y 2 (narrow 2 false) ∧
      loads (.ldl g d a 4 adv lit) y 4 (words 1) ∧ loads (.ldl g d a 5 adv lit) y 8 (words 2) ∧
      loads (.ldl g d a 6 adv lit) y 16 (words 4))) ∧
  (∀ (s : State) (k : Nat) (th : Thread) (g : BitVec 3) (d a o : BitVec 7) (sp : Spec) (off phys : Nat),
    let ea := th.reg (a + 1) ++ th.reg a + 4 * o.signExtend 64
    let set := ((List.range 4).map (ea.toNat + ·) ++ sp.reads).dedup
    let fragments := (set.map (· / 32)).dedup.length
    let i := Instr.ldAdvW g d a o
    th.spec = some sp → th.loads.length < 63 → Safety.Clear s k th ea 4 .read (.pool th.wg off) phys →
    (fragments ≤ 32 → Safety.Reads s k th i fun t => ∃ (bs : List Byte) (y : Thread), bs.length = 4 ∧
      (∀ j < 4, Safety.heldByte s (phys + j) (bs.getD j 0)) ∧ Safety.kept s t (· = k) ∧ t.threads[k]? = some y ∧
      y = { Safety.sent th 1 ⟨s.nextId, Safety.wordsTo d 1 bs, 0, false⟩ with
        floors := y.floors, spec := some { sp with reads := set } }) ∧
    (32 < fragments → Safety.Leads s k th i (s.abort k 2 0 0)))

/-- R138-R142, R185, R284, R285: the stores, at the address and in the size each form names; LOAD_COMPLETE writes the registers and
raises the flags of one load outstanding and takes it off the thread's loads; HAYRICK_ENTRY_DRAIN performs the first committed
entry of a share at its home and takes it out.
That a load's value waits from its issue is the model's (log 7). -/
def Obligations.Stores : Prop :=
  (∀ (s : State) (k : Nat) (th : Thread) (g : BitVec 3) (d a o : BitVec 7) (lit : Word),
    let ea := fun off : BitVec 64 => th.reg (a + 1) ++ th.reg a + off
    let x := o.signExtend 64; let y := lit.signExtend 64
    let stores := fun (i : Instr) (off : BitVec 64) (n : Nat) => Safety.Stores s k th i (ea off) (Safety.bytesFrom th d n)
    stores (.stB8 g d a o) x 1 ∧ stores (.stB16 g d a o) (2 * x) 2 ∧ stores (.stW g d a o) (4 * x) 4 ∧
    stores (.stD g d a o) (8 * x) 8 ∧ stores (.stQ g d a o) (16 * x) 16 ∧
    stores (.stl g d a 0 lit) y 1 ∧ stores (.stl g d a 2 lit) y 2 ∧ stores (.stl g d a 4 lit) y 4 ∧
    stores (.stl g d a 5 lit) y 8 ∧ stores (.stl g d a 6 lit) y 16) ∧
  ((∀ (s : State) (k n : Nat) (th : Thread) (l : Pending), s.threads[k]? = some th → th.loads[n]? = some l → th.spec = none →
    (l.writes.map (·.1)).Nodup →
    ∃ y : Thread, exec (.loadComplete k n) s = .next (s.updThread k fun _ => y) ∧
      y = { th with g := y.g, flags := th.flags ||| l.flags, loads := th.loads.filter fun x => x.id ≠ l.id } ∧
      (∀ r v, (r, v) ∈ l.writes → y.reg r = v) ∧ ∀ r, r ∉ l.writes.map (·.1) → y.reg r = th.reg r) ∧
  (∀ (s : State) (w : Nat) (g : Wg) (e : Entry) (x : Nat) (perm : BitVec 3), Safety.memoryOk s → s.wgs[w]? = some g → g.nextDrain = some e →
    e.parked = false → e.held = false → e.gone = false → e.target = none → g.saved = false →
    (∀ a ∈ g.wadds, a.thread ≠ e.thread) → s.place w e.va.toNat = .page x perm → perm.getLsbD 1 = true →
    (s.locked g.core (s.byteKey w e.va.toNat) (s.byteKey w e.va.toNat + e.bytes.length) true = false) → g.records = [] → g.due = [] →
    (∀ j < e.bytes.length, s.litByte (x + j) = true) →
    ∃ (t : State) (g' : Wg), exec (.hayrickEntryDrain w) s = .next t ∧ Safety.stored s t x e.bytes ∧ t.wgs[w]? = some g' ∧
      g'.hay = g.hay.filter fun y => y.id ≠ e.id))

/-- R138: the checks in their order. An address with bits above 57 raises ACCESS, a misaligned one MISALIGN, a place
without a mapping or its permission ACCESS, bytes that a range lock names, a read's those of a destination alone, RANGE_LOCK,
wherever their page or pool has moved since it was taken; s.tval holds the low word of the address and nothing is loaded or stored. -/
def Obligations.AccessTraps : Prop :=
  ∀ (s : State) (k : Nat) (th : Thread) (g : BitVec 3) (d a o : BitVec 7),
    let base := th.reg (a + 1) ++ th.reg a
    let x := o.signExtend 64
    th.loads.length < 63 → th.spec = none →
    ∀ f ∈ [((Instr.ldW g d a o, base + 4 * x, 4, Kind.read) : Instr × BitVec 64 × Nat × Kind),
        (.ldQ g d a o, base + 16 * x, 16, .read), (.ldZ16 g d a o, base + 2 * x, 2, .read),
        (.stW g d a o, base + 4 * x, 4, .write), (.stQ g d a o, base + 16 * x, 16, .write),
        (.stB16 g d a o, base + 2 * x, 2, .write), (.atomAdd g d a o, base, 4, .atomic)],
      let ea := f.2.1; let n := f.2.2.1; let kind := f.2.2.2
      let p := s.place th.wg ea.toNat
      let seen := s.look th.wg ea.toNat
      (ea.extractLsb' 57 7 ≠ 0 → Safety.Leads s k th f.1 (s.takeTrap k 0x08 (ea.setWidth 32))) ∧
      (ea.extractLsb' 57 7 = 0 → ea.toNat % n ≠ 0 → Safety.Leads s k th f.1 (s.takeTrap k 0x09 (ea.setWidth 32))) ∧
      (ea.extractLsb' 57 7 = 0 → ea.toNat % n = 0 → s.permits th.wg p kind = false →
        Safety.Leads s k th f.1 (seen.takeTrap k 0x08 (ea.setWidth 32))) ∧
      (ea.extractLsb' 57 7 = 0 → ea.toNat % n = 0 → s.permits th.wg p kind = true →
        (∃ (c : Core) (l : Lock) (run : Nat × Nat), seen.cores[seen.coreOf th.wg]? = some c ∧ l ∈ c.locks ∧ (l.dst = true ∨ kind ≠ .read) ∧
          run ∈ seen.lockRuns (seen.coreOf th.wg) l ∧ run.1 < seen.byteKey th.wg ea.toNat + n ∧ seen.byteKey th.wg ea.toNat < run.2) →
        Safety.Leads s k th f.1 (seen.takeTrap k 0x0A (ea.setWidth 32)))

/-- R143-R145: `shld` loads a word of the own scratchpad and raises ACCESS elsewhere; the tensor words reach the element at
the sum of base and coordinates times strides, and out of bounds a load writes the fill and a store stores nothing.
That a load's value is fixed at its issue is the model's choice (log 7). -/
def Obligations.SharedAndTensorWords : Prop :=
  ∀ (s : State) (k : Nat) (th : Thread) (g : BitVec 3) (d a c : BitVec 7) (h : BitVec 3) (o : BitVec 7),
    let ea := th.reg (a + 1) ++ th.reg a + 4 * o.signExtend 64
    let rec0 := s.shape th.wg h 0
    let rank := (rec0.extractLsb' 0 3).toNat
    let size := 2 ^ (rec0.extractLsb' 4 2).toNat
    let at_ := fun j => (th.reg (c + BitVec.ofNat 7 j)).toInt
    let inside := ∀ j < rank, 0 ≤ at_ j ∧ at_ j < (s.shape th.wg h (4 + j)).toNat
    let el := BitVec.ofInt 64 ((s.shape th.wg h 3 ++ s.shape th.wg h 2).toNat +
      ((List.range rank).map fun j => at_ j * (s.shape th.wg h (11 + j)).toInt).sum)
    let fill := s.shape th.wg h 1
    let named := (List.range rank).map (fun j => c + BitVec.ofNat 7 j) ++ (if size = 8 then [d, d + 1] else [d])
    let fits := rank ≠ 0 ∧ c.toNat + rank ≤ 128 ∧ th.allots named = true ∧ (size = 8 → d.toNat % 2 = 0)
    (∀ (off phys : Nat), Safety.Clear s k th ea 4 .read (.pool th.wg off) phys →
      Safety.SendsLoad s k th (.shld g d a o) ea 4 fun b => (Safety.wordsTo d 1 b, 0)) ∧
    (th.loads.length < 63 → ea.extractLsb' 57 7 = 0 → ea.toNat % 4 = 0 → (∀ off, s.place th.wg ea.toNat ≠ .pool th.wg off) →
      Safety.Leads s k th (.shld g d a o) (s.takeTrap k 0x08 (ea.setWidth 32))) ∧
    (¬ fits → Safety.Leads s k th (.ldt g d c h) (s.takeTrap k 0x01 (wordOf (.ldt g d c h))) ∧
      Safety.Leads s k th (.stt g d c h) (s.takeTrap k 0x01 (wordOf (.stt g d c h)))) ∧
    (fits → th.awaits named = false → inside →
      Safety.SendsLoad s k th (.ldt g d c h) el size (fun b =>
        (if size = 8 then Safety.wordsTo d 2 b else if size = 4 then Safety.wordsTo d 1 b else Safety.narrowTo d size false b, 0)) ∧
      Safety.Stores s k th (.stt g d c h) el (Safety.bytesFrom th d size)) ∧
    (fits → th.awaits named = false → ¬ inside →
      Safety.Leads s k th (.stt g d c h) (s.updThread k fun _ => Safety.moved th 1) ∧
      (size ≠ 8 → Safety.Writes s k th (.ldt g d c h) d (BitVec.ofNat 32 (fill.toNat % 2 ^ (8 * size))) 0) ∧
      (size = 8 → Safety.WritesPair s k th (.ldt g d c h) d (fill.setWidth 64)))

/-- R108, R146, R148, R149: each atomic leaves its operation's value in the word at its address, at once, sends the old value to its
register, and changes no other byte; `wadd` adds to a cell of the own scratchpad at once and otherwise waits in its workgroup,
and WADD_PERFORMED then adds it at its home, rounded onto the region's grid, clamped with its overflow sticky, the reserved bits left;
`wld` sends the image of the cell with its region's exponent; either at a region header raises ACCESS.
That an atomic acts at once at every home, and that what it and `wld` send is fixed at their issue, is the model's choice (log 7). -/
def Obligations.AtomicsAndWideCells : Prop :=
  (∀ (s : State) (k : Nat) (th : Thread) (g : BitVec 3) (d a b : BitVec 7) (p : Place) (phys : Nat),
    let ea := th.reg (a + 1) ++ th.reg a
    let old := memWord s.mem phys
    let B := th.reg b
    Safety.memoryOk s → s.threads[k]? = some th → th.loads.length < 63 → th.spec = none → Safety.Clear s k th ea 4 .atomic p phys →
    (∀ j < 4, s.litByte (phys + j) = true) →
    ∀ f ∈ [((Instr.atomAdd g d a b, old + B) : Instr × Word), (.atomMin g d a b, if B.slt old then B else old),
        (.atomMax g d a b, if old.slt B then B else old), (.atomAnd g d a b, old &&& B), (.atomOr g d a b, old ||| B),
        (.atomXor g d a b, old ^^^ B), (.atomExch g d a b, B), (.atomCas g d a b, if old = B then th.reg (b + 1) else old)],
      Safety.Issues s k th f.1 → ∃ (t : State) (y : Thread) (far : Bool), exec f.1 s = .next t ∧
        Safety.stored s t phys [f.2.extractLsb' 0 8, f.2.extractLsb' 8 8, f.2.extractLsb' 16 8, f.2.extractLsb' 24 8] ∧
        memWord t.mem phys = f.2 ∧ Safety.othersSee s t k ∧ t.threads[k]? = some y ∧
        y = { Safety.sent th 1 ⟨s.nextId, [(d, old)], 0, far⟩ with floors := y.floors }) ∧
  (∀ (s : State) (k : Nat) (th : Thread) (g : BitVec 3) (d a b : BitVec 7),
    let ea := th.reg (a + 1) ++ th.reg a
    let header := ea.extractLsb' 57 7 = 0 ∧ ea.toNat % 65536 = 0
    let sum := fun (phys : Nat) (bs : List Byte) => Safety.waddLeaves s phys (th.reg b) (th.rm.extractLsb' 0 3) bs
    Safety.memoryOk s → s.threads[k]? = some th →
    (header → Safety.Leads s k th (.wadd g a b) (s.takeTrap k 0x08 (th.reg a)) ∧
      Safety.Leads s k th (.wld g d a) (s.takeTrap k 0x08 (th.reg a))) ∧
    (¬ header → th.spec = none → s.storesOf th.wg k < 2 ^ 20 - 1 → (th.rm.extractLsb' 0 3).toNat ≤ 4 →
      (∀ (off phys : Nat), Safety.Clear s k th ea 16 .write (.pool th.wg off) phys → (∀ j < 16, s.litByte (phys + j) = true) →
        Safety.Reads s k th (.wadd g a b) fun t => ∃ (y : Thread) (bs : List Byte), sum phys bs ∧ Safety.stored s t phys bs ∧ Safety.othersRun s t k ∧
          t.threads[k]? = some y ∧ y = { Safety.moved th 1 with floors := y.floors }) ∧
      (∀ (x : Nat) (perm : BitVec 3) (phys : Nat) (u : Wg), Safety.Clear s k th ea 16 .write (.page x perm) phys → s.wgs[th.wg]? = some u →
        Safety.Reads s k th (.wadd g a b) fun t => ∃ (y : Thread) (u' : Wg) (z : Wadd), Safety.aged s t (· = k) ∧
          t.threads[k]? = some y ∧ y = { Safety.moved th 1 with floors := y.floors } ∧ t.wgs[th.wg]? = some u' ∧ u'.wadds = u.wadds ++ [z] ∧ z.thread = k ∧
          z.va = ea ∧ z.value = th.reg b ∧ z.mode = th.rm.extractLsb' 0 3 ∧ z.parked = false)) ∧
    (¬ header → ∀ (off phys : Nat), Safety.Clear s k th ea 16 .read (.pool th.wg off) phys → th.loads.length < 63 →
      s.place th.wg (ea.toNat / 65536 * 65536) = .pool th.wg (off / 65536 * 65536) →
      let c := ofBytes (memRead s.mem phys 16)
      let e := (memWord s.mem (phys / 65536 * 65536)).extractLsb' 0 10
      Safety.Reads s k th (.wld g d a) fun t => ∃ y : Thread, Safety.kept s t (· = k) ∧ t.threads[k]? = some y ∧
        y = { Safety.sent th 1
        ⟨s.nextId, [(d, BitVec.ofNat 32 c), (d + 1, BitVec.ofNat 32 (c / 2 ^ 32)),
          (d + 2, BitVec.ofNat 32 (c / 2 ^ 64)), (d + 3, 0#6 ++ e ++ 0#15 ++ BitVec.ofNat 1 (c / 2 ^ 96))],
          if c / 2 ^ 96 % 2 = 1 then flagWOV else 0, false⟩ with floors := y.floors }) ∧
    (∀ (w n : Nat) (u : Wg) (z : Wadd) (x : Nat) (perm : BitVec 3), s.wgs[w]? = some u → u.wadds[n]? = some z → z.parked = false →
      z.gone = false → z.target = none → u.saved = false →
      (∀ y ∈ u.wadds, y.thread = z.thread → z.id ≤ y.id) → s.place w z.va.toNat = .page x perm →
      perm.getLsbD 1 = true → u.due = [] → Safety.memoryOk s → z.mode.toNat ≤ 4 → (∀ j < 16, s.litByte (x + j) = true) →
      ∃ (t : State) (u' : Wg) (bs : List Byte), exec (.waddPerformed w n) s = .next t ∧ Safety.waddLeaves s x z.value z.mode bs ∧
        Safety.stored s t x bs ∧
        t.wgs[w]? = some u' ∧ u'.wadds = u.wadds.filter fun y => y.id ≠ z.id))

/-- R150-R152: with nothing of the thread's own outstanding, `rel`, `acq` and `fence` complete at once and change no byte
and no register; `bind` adds a binding and `unbind` removes those of its object; `pgreq` and `pgprobe` change nothing but
what is asked for. -/
def Obligations.OrderingAndResidencyWords : Prop :=
  ∀ (s : State) (k : Nat) (th : Thread) (u : Wg) (g : BitVec 3) (d a b o : BitVec 7) (sc : BitVec 4) (kind : BitVec 3),
    s.threads[k]? = some th → s.wgs[th.wg]? = some u →
    let ea := th.reg (a + 1) ++ th.reg a + 65536 * o.signExtend 64
    let p := s.place th.wg ea.toNat
    let flagOk := kind = 3 → (th.reg (a + 1)).extractLsb' 25 7 = 0 ∧ (th.reg a).extractLsb' 0 2 = 0 ∧
      s.permits th.wg (s.place th.wg (th.reg (a + 1) ++ th.reg a).toNat) .read = true
    let still := (∀ l, th.park ≠ .drain l) ∧ Safety.noStores s k th.wg ∧ (∀ x ∈ u.wadds, x.thread ≠ k) ∧
      (∀ c ∈ s.copies, c.agent ≠ .thread k) ∧ s.recordsHeld u.core ≤ 1024
    let idle := (∀ l, th.park ≠ .drain l) ∧ ∀ v ∈ s.wgs, ∀ e ∈ v.hay, e.committed = false
    let goes := fun (i : Instr) => Safety.Reads s k th i fun t => ∃ y : Thread, Safety.aged s t (· = k) ∧ t.threads[k]? = some y ∧
      y = { Safety.moved th 1 with floors := y.floors, lastAcq := y.lastAcq, related := y.related }
    let flag := th.reg (d + 3) ++ th.reg (d + 2)
    let x : Binding := ⟨th.reg d, flag, th.reg (a + 1) ++ th.reg a, th.reg b⟩
    (flagOk → still → Safety.Reads s k th (.rel g a sc kind) fun t =>
      Safety.kept s t (· = k) ∧ t.threads[k]? = some (Safety.moved th 1)) ∧
    (flagOk → idle → goes (.acq g a sc kind)) ∧
    (still → idle → goes (.fence g sc)) ∧
    (descBad (th.reg d) (th.reg (d + 1)) flag = false → x.base.toNat % 4 = 0 → x.len ≠ 0 → x.len.toNat % 4 = 0 →
      x ∉ u.bindings → (∀ y ∈ u.bindings, s.sameObj (s.objOf th.wg y.desc y.flag) (s.objOf th.wg x.desc flag) = false →
        s.bindOverlap th.wg x y = false) →
      u.bindings.length < 16 → Safety.Reads s k th (.bind g d a b) fun t => ∃ u' : Wg, Safety.kept s t (· = k) ∧
        t.threads[k]? = some (Safety.moved th 1) ∧ t.wgs[th.wg]? = some u' ∧ u'.bindings = u.bindings ++ [x]) ∧
    (descBad (th.reg d) (th.reg (d + 1)) flag = false → Safety.Reads s k th (.unbind g d) fun t => ∃ u' : Wg, Safety.kept s t (· = k) ∧
      t.threads[k]? = some (Safety.moved th 1) ∧ t.wgs[th.wg]? = some u' ∧
      u'.bindings = u.bindings.filter fun y => !s.sameObj (s.objOf th.wg y.desc y.flag) (s.objOf th.wg x.desc flag)) ∧
    (ea.extractLsb' 57 7 = 0 → s.permits th.wg p .read = true →
      Safety.Reads s k th (.pgreq g a o) fun t => ∃ y : Thread, Safety.aged s t (· = k) ∧ t.threads[k]? = some y ∧
        y = { Safety.moved th 1 with floors := y.floors }) ∧
    (th.loads.length < 63 → Safety.Reads s k th (.pgprobe g d a o) fun t => ∃ y : Thread, Safety.aged s t (· = k) ∧
      t.threads[k]? = some y ∧ y = { Safety.sent th 1 ⟨s.nextId,
        [(d, if ea.extractLsb' 57 7 ≠ 0#7 then 8#32 else match p with
          | .bad => 8#32
          | .away => 16#32
          | .absent st _ => if st = 1 then 4#32 else if st = 3 then 2#32 else 0#32
          | _ => 1#32)], 0, false⟩ with floors := y.floors })

/-! ## Collective words (R153-R161) -/

/-- R153: at a lane word a thread outside its mask, or whose mask is not that of the occurrence, raises ILLEGAL; while a
present member is still to arrive the thread waits with the values of its registers; one whose guard is false goes on at
once. -/
def Obligations.CollectiveArrival : Prop :=
  ∀ (s : State) (k : Nat) (th : Thread) (g : BitVec 3) (d a b : BitVec 7) (m : BitVec 2) (n o : BitVec 5),
    let mask := th.m[m.toNat]'m.isLt
    let offends := fun i : Instr => (s.countAbsent th.wg th.squad th.pc i mask th.pos).takeTrap k 0x01 (wordOf i)
    ∀ f ∈ [((Instr.shflIdx g m d a b, [th.reg a, th.reg b]) : Instr × List Word), (.shflUp g d a m n, [th.reg a]),
        (.shflDown g d a m n, [th.reg a]), (.shflXor g d a m n, [th.reg a]), (.vote g d a m o, [th.reg a]),
        (.matchLanes g d a m 0, [th.reg a]), (.matchLanes g d a m 3, [th.reg a, th.reg (a + 1)]), (.gred g d a m o, [th.reg a]),
        (.gscan g d a m o, [th.reg a])],
      (s.gatherAt th.wg th.squad th.pc = none → mask.getLsbD th.pos = false →
        Safety.Leads s k th f.1 (offends f.1)) ∧
      (∀ x : Gather, s.gatherAt th.wg th.squad th.pc = some x → (∀ y ∈ x.arrivals, y.pos ≠ th.pos) → x.formed = false →
        x.arrivals ≠ [] → x.mask ≠ mask → Safety.Leads s k th f.1 (offends f.1)) ∧
      (∀ prior : List Arrival, Safety.occurs s th mask prior → mask.getLsbD th.pos = true →
        (∃ (j : Nat) (x : Thread), s.threads[j]? = some x ∧ Safety.ofSquad x th.wg th.squad ∧ x.exited = false ∧ x.handler = none ∧
          mask.getLsbD x.pos = true ∧ x.pos ≠ th.pos ∧ ∀ y ∈ prior, y.pos ≠ x.pos) →
        Safety.Reads s k th f.1 fun t => t.threads[k]? = some { th with park := .collective } ∧ Safety.kept s t (· = k) ∧
          ∃ x : Gather, t.gatherAt th.wg th.squad th.pc = some x ∧ x.mask = mask ∧
            x.arrivals = prior ++ [⟨th.pos, true, f.2⟩]) ∧
      (∀ prior : List Arrival, Safety.occurs s th mask prior → Safety.Stands s k th f.1 → th.pred f.1.guard = false →
        ∃ t, exec f.1 s = .next t ∧ (∀ a, memGet t.mem a = memGet s.mem a) ∧ t.threads[k]? = some (Safety.moved th 1))

/-- R158-R161: each executing member reads its source, or its own value where the source does not execute; the votes and matches
give every executing member what the members' values say; the reductions of the members' values, FP32 sums by the fixed tree,
and the scans over the positions up to each member. -/
def Obligations.LaneOperations : Prop :=
  (∀ (s : State) (k : Nat) (th : Thread) (g : BitVec 3) (d a b : BitVec 7) (m : BitVec 2) (n : BitVec 5),
    let mask := th.m[m.toNat]'m.isLt
    let from_ := fun (v : Nat → Nat → Option Word) (p : Nat) (src : Option Nat) =>
      ((src.bind (v 0)).getD ((v 0 p).getD 0), (0 : Word))
    let lane := fun (i : Instr) (own : List Word) (res : (Nat → Nat → Option Word) → Nat → Word × Word) =>
      Safety.Gathers s k th i mask d own res
    let vote := fun (o : BitVec 5) (val : (Nat → Bool) → (Nat → Bool) → Word) =>
      lane (.vote g d a m o) [th.reg a] fun v _ =>
        (val (fun p => (v 0 p).isSome && v 0 p ≠ some 0) (fun p => v 0 p = some 0), 0)
    let some_ := fun f : Nat → Bool => (List.range 32).any f
    let bit := fun b : Bool => if b then (1 : Word) else 0
    let agree := fun (wide : Bool) (v : Nat → Nat → Option Word) (p q : Nat) =>
      (v 0 q).isSome && v 0 p = v 0 q && (!wide || v 1 p = v 1 q)
    let any_ := fun (o : BitVec 5) (own : List Word) (wide : Bool) =>
      lane (.matchLanes g d a m o) own fun v p => (Safety.bitsOf (agree wide v p), 0)
    let all_ := fun (o : BitVec 5) (own : List Word) (wide : Bool) =>
      lane (.matchLanes g d a m o) own fun v p =>
        (if (List.range 32).all fun q => !(v 0 q).isSome || agree wide v p q then Safety.bitsOf fun q => (v 0 q).isSome else 0, 0)
    lane (.shflIdx g m d a b) [th.reg a, th.reg b] (fun v p => from_ v p (some (((v 1 p).getD 0).toNat % 32))) ∧
    lane (.shflUp g d a m n) [th.reg a] (fun v p => from_ v p (if n.toNat ≤ p then some (p - n.toNat) else none)) ∧
    lane (.shflDown g d a m n) [th.reg a] (fun v p => from_ v p (some (p + n.toNat))) ∧
    lane (.shflXor g d a m n) [th.reg a] (fun v p => from_ v p (some (p ^^^ n.toNat))) ∧
    vote 0 (fun _ no => bit (!some_ no)) ∧ vote 1 (fun yes _ => bit (some_ yes)) ∧
    vote 2 (fun yes no => bit !(some_ yes && some_ no)) ∧ vote 3 (fun yes _ => Safety.bitsOf yes) ∧
    vote 4 (fun yes _ => BitVec.ofNat 32 ((List.range 32).filter yes).length) ∧
    vote 5 (fun yes _ => BitVec.ofNat 32 (((List.range 32).find? yes).getD 32)) ∧
    any_ 0 [th.reg a] false ∧ all_ 1 [th.reg a] false ∧
    any_ 2 [th.reg a, th.reg (a + 1)] true ∧ all_ 3 [th.reg a, th.reg (a + 1)] true) ∧
  (∀ (s : State) (k : Nat) (th : Thread) (g : BitVec 3) (d a : BitVec 7) (m : BitVec 2),
    let mask := th.m[m.toNat]'m.isLt
    let vals := fun (v : Nat → Nat → Option Word) (n : Nat) => (List.range n).filterMap (v 0)
    let sum := fun l : List Word => BitVec.ofNat 32 (l.map (·.toNat)).sum
    let least := fun (lt : Word → Word → Bool) (l : List Word) => l.foldl (fun x y => if lt y x then y else x) (l.headD 0)
    let nv := fun l : List Word => if l.any Safety.isSnan then flagNV else 0
    let float := fun (max : Bool) (l : List Word) => (l.tail.foldl (Safety.floatPick max) (l.headD 0), nv l)
    let running := fun l : List Word => l.tail.foldl (fun (r : Word × Word) x =>
      (BitVec.ofNat 32 (fp32.add 0 r.1.toNat x.toNat).bits, r.2 ||| (fp32.add 0 r.1.toNat x.toNat).flags)) (l.headD 0, 0)
    let red := fun (o : BitVec 5) (f : List Word → Word × Word) =>
      Safety.Gathers s k th (.gred g d a m o) mask d [th.reg a] fun v _ => f (vals v 32)
    let scan := fun (o : BitVec 5) (f : List Word → Word × Word) =>
      Safety.Gathers s k th (.gscan g d a m o) mask d [th.reg a] fun v p => f (vals v (p + 1))
    red 0 (fun l => (sum l, 0)) ∧ red 1 (fun l => (least BitVec.slt l, 0)) ∧
    red 2 (fun l => (least (fun x y => BitVec.slt y x) l, 0)) ∧ red 3 (fun l => (least BitVec.ult l, 0)) ∧
    red 4 (fun l => (least (fun x y => BitVec.ult y x) l, 0)) ∧ red 5 (fun l => (l.foldl (· &&& ·) (BitVec.allOnes 32), 0)) ∧
    red 6 (fun l => (l.foldl (· ||| ·) 0, 0)) ∧ red 7 (fun l => (l.foldl (· ^^^ ·) 0, 0)) ∧
    (Safety.Gathers s k th (.gred g d a m 8) mask d [th.reg a] fun v _ =>
      let t := Safety.tree (v 0) 5 0
      (t.1.getD 0, t.2 ||| nv (vals v 32))) ∧
    red 9 (float false) ∧ red 10 (float true) ∧
    scan 0 (fun l => (sum l, 0)) ∧
    (Safety.Gathers s k th (.gscan g d a m 1) mask d [th.reg a] fun v p => (sum (vals v p), 0)) ∧
    scan 2 (fun l => (least BitVec.slt l, 0)) ∧ scan 3 (fun l => (least (fun x y => BitVec.slt y x) l, 0)) ∧
    scan 4 (fun l => (l.foldl (· ||| ·) 0, 0)) ∧
    scan 5 (fun l => ((running l).1, (running l).2 ||| nv l)))

/-- R155: at the last arrival every executing member is sent the quad of its position, formed from the members' rows, a
row of zeros for a member that does not execute; a row outside the own scratchpad raises ACCESS and a misaligned one
MISALIGN.
That the quad is fixed when the word executes and waits in the load outstanding is the model's choice (log 7). -/
def Obligations.Fragments : Prop :=
  ∀ (s : State) (k : Nat) (th : Thread) (g : BitVec 3) (d a o : BitVec 7) (off phys : Nat) (prior : List Arrival),
    let ea := th.reg (a + 1) ++ th.reg a + 64 * o.signExtend 64
    let addr := fun p => if p = th.pos then some ea else
      (prior.find? fun x => x.pos = p && x.live).map fun x => x.a.getD 1 0 ++ x.a.getD 0 0
    let home := fun p => (addr p).bind fun e => s.physOf (s.place th.wg e.toNat)
    let byte := fun r b => match home r with
      | some x => memGet s.mem (x + b)
      | none => 0#8
    let absent := s.countAbsent th.wg th.squad th.pc
    let t8 := fun pos => (List.range 16).map fun e => byte (16 * (pos / 16) + e) (pos % 16)
    let t16 := fun pos => (List.range 16).map fun e => byte (8 * (pos / 8) + e / 2) (2 * (pos % 8) + e % 2)
    th.loads.length < 63 → s.gatherAt th.wg th.squad th.pc = none ∨ Safety.occurs s th 0xFFFFFFFF prior →
    ∀ f ∈ [((Instr.ldfragT8 g d a o, t8) : Instr × (Nat → List Byte)), (.ldfragT16 g d a o, t16)],
      (ea.extractLsb' 57 7 = 0 → ea.toNat % 16 ≠ 0 → Safety.Leads s k th f.1
        ((absent f.1 0xFFFFFFFF th.pos).takeTrap k 0x09 (ea.setWidth 32))) ∧
      (ea.extractLsb' 57 7 = 0 → ea.toNat % 16 = 0 → (∀ x, s.place th.wg ea.toNat ≠ .pool th.wg x) →
        Safety.Leads s k th f.1 ((absent f.1 0xFFFFFFFF th.pos).takeTrap k 0x08 (ea.setWidth 32))) ∧
      (Safety.Clear s k th ea 16 .read (.pool th.wg off) phys → Safety.Completes s k th 0xFFFFFFFF prior → Safety.Issues s k th f.1 →
        (∀ x ∈ prior, x.live = true → let y := s.place th.wg (x.a.getD 1 0 ++ x.a.getD 0 0).toNat
          x.a.getD 2 0 = 0 ∧ (s.physOf y).isSome = true ∧ s.dead y = false) →
        ∃ t, exec f.1 s = .next t ∧ t.gatherAt th.wg th.squad th.pc = none ∧
          Safety.kept s t (fun j => ∃ x : Thread, s.threads[j]? = some x ∧ Safety.ofSquad x th.wg th.squad ∧
            (addr x.pos).isSome = true) ∧
          ∀ (j : Nat) (x : Thread), s.threads[j]? = some x → Safety.ofSquad x th.wg th.squad → (addr x.pos).isSome = true →
            ∃ (y : Thread) (id : Nat), t.threads[j]? = some y ∧
              y = { Safety.sent x 1 ⟨id, Safety.wordsTo d 4 (f.2 x.pos), 0, false⟩ with floors := y.floors })

/-! ## The drive stream and the matrix engine (R216-R258) -/

/-- R249-R257: moves and arithmetic of drive registers; branches and loops, iterations, the stream's end, and `dsync`. A word waits
while a `tsettle` is to write a register it names. -/
def Obligations.DriveWords : Prop :=
  (∀ (s : State) (w : Nat) (v : Drive) (u : Wg) (d a b i : BitVec 5) (imm : BitVec 10) (lit : Word), s.wgs[w]? = some u →
    let A := v.reg a; let B := v.reg b
    let put := fun (x : Word) (n : Nat) => { Safety.driven v n with d := v.d.set d.toNat x d.isLt }
    let gives := fun (i : Instr) (rs : List (BitVec 5)) (x : Word) => Safety.Turns s w v i rs (put x 1)
    let sum : VAddr := ((v.reg (a + 1)).extractLsb' 0 25 ++ A : VAddr) + B.signExtend 57
    let count := fun n : Nat => BitVec.ofNat 8 (min n 255)
    gives (.dmov d a) [d, a] A ∧ gives (.dmovImm d imm) [d] (imm.signExtend 32) ∧
    Safety.Turns s w v (.dmovl d lit) [d] (put lit 2) ∧
    gives (.dadd d a b) [d, a, b] (A + B) ∧ gives (.daddSub d a b) [d, a, b] (A - B) ∧
    gives (.daddImm d a i) [d, a] (A + i.signExtend 32) ∧ gives (.dmul d a b) [d, a, b] (A * B) ∧
    Safety.Turns s w v (.daddD d a b) [d, d + 1, a, a + 1, b]
      { put (sum.extractLsb' 0 32) 1 with
        d := (v.d.set d.toNat (sum.extractLsb' 0 32) d.isLt).set (d + 1).toNat (0#7 ++ sum.extractLsb' 32 25) (d + 1).isLt } ∧
    (∀ f ∈ [((0#4, A == B) : BitVec 4 × Bool), (1, A != B), (2, A.slt B), (3, A.sle B), (4, B.slt A), (5, B.sle A), (6, A.ult B),
        (7, A.ule B), (8, B.ult A), (9, B.ule A)], gives (.dcmp d a b f.1) [d, a, b] (if f.2 then 1 else 0)) ∧
    gives (.dmovRdstat d) [d] u.tstat ∧ gives (.dmovRdrm d) [d] (v.mode.setWidth 32) ∧
    gives (.dmovRdcnt d) [d] (0#16 ++ count (s.copiesOf (.drive w)) ++ count v.ops.length) ∧
    gives (.dmovRdwg d) [d] (s.wgidOf w) ∧
    Safety.Turns s w v (.dmovRdclk d) [d]
      { put (BitVec.ofNat 32 s.clk) 1 with clkLatch := some (BitVec.ofNat 32 (s.clk / 2 ^ 32)) } ∧
    Safety.Turns s w v (.dmovRdclkh d) [d]
      { put (v.clkLatch.getD (BitVec.ofNat 32 (s.clk / 2 ^ 32))) 1 with clkLatch := none } ∧
    (A &&& 0xFFFFF068 = 0 → Safety.DrivesTo s w v (.dmovWrstat a) [a]
      ((s.updWg w fun x => { x with tstat := A }).updDrive w fun _ => Safety.driven v 1)) ∧
    (A &&& 0xFFFFF068 ≠ 0 → Safety.DrivesTo s w v (.dmovWrstat a) [a] (Safety.driveFailed s w v (.dmovWrstat a) 0x01)) ∧
    (A.toNat ≤ 4 → Safety.Turns s w v (.dmovWrrm a) [a] { Safety.driven v 1 with mode := A.extractLsb' 0 3 }) ∧
    (4 < A.toNat → Safety.DrivesTo s w v (.dmovWrrm a) [a] (Safety.driveFailed s w v (.dmovWrrm a) 0x01))) ∧
  (∀ (s : State) (w : Nat) (v : Drive) (u : Wg) (d a : BitVec 5) (o : BitVec 16) (c t : BitVec 4), s.wgs[w]? = some u →
    let A := v.reg a
    let there := { v with pc := ⟨wordAddr v.pc + 4 * o.signExtend 57, 0⟩, park := .none, unmatched := false }
    let on := Safety.driven v 1
    let isOpen := (v.ops.map (·.iter) ++
      ((s.copies.filter fun x => x.agent = .drive w && x.form ≠ .detach).map (·.iter))).dedup.length
    let met := fun (n : Nat) (f : BitVec 4) => f = 15 ∨ n ≤ f.toNat
    let all := met (s.copiesOf (.drive w)) c ∧ met v.ops.length t
    Safety.Turns s w v (.dbr a o) [a] (if A = 0 then on else there) ∧
    Safety.Turns s w v (.dloop a o) [a] (if A = 0 then on else
      if A = 1 then { on with d := v.d.set a.toNat 0 a.isLt } else { there with d := v.d.set a.toNat (A - 1) a.isLt }) ∧
    (isOpen ≤ 3 → Safety.Turns s w v (.dnext d) [d] { on with d := v.d.set d.toNat (v.iter + 1) d.isLt, iter := v.iter + 1 }) ∧
    (3 < isOpen → Safety.DrivesTo s w v (.dnext d) [d] s) ∧
    ((∀ x, some x ∉ u.lineage) → (∀ o ∈ v.ops, ∀ r k, o.word ≠ .tpost r k) → Safety.Turns s w v .dhalt [] { on with halted := true }) ∧
    (∀ (l : Nat) (x : TagUse) (y : Tile), l < 32 → u.lineage[l]? = some (some x) → u.tiles[x.root.toNat]? = some (some y) →
      y.state = .provisional → (∀ o ∈ v.ops, o.word ≠ .tfinal x.root ∧ ∀ r k, o.word = .tpost r k → k.toNat ≠ l) →
      Safety.DrivesTo s w v .dhalt [] (Safety.driveFailed s w v .dhalt 0x01)) ∧
    (all → Safety.Turns s w v (.dsync c t) [] on) ∧ (¬ all → Safety.DrivesTo s w v (.dsync c t) [] s))

/-- R216, R217, R219-R224, R230, R234, R246: every engine word whose registers keep its entry's limits enters the queue, and one whose
registers break them is a drive fault: ILLEGAL for a breach of a field, MISALIGN for an address or a stride.
That a `bgather` whose index list is misaligned has cause MISALIGN is the model's choice (log 68). -/
def Obligations.EngineWordsQueue : Prop :=
  ∀ (s : State) (w : Nat) (v : Drive) (x : Wg) (t u : BitVec 4) (b p : BitVec 3) (l r : BitVec 5) (m n : BitVec 2) (y z : BitVec 1)
      (k3 : BitVec 3) (k2 : BitVec 2),
    let D := fun j : BitVec 5 => v.reg (r + j)
    let f := fun (j : BitVec 5) (lo len : Nat) => (D j).extractLsb' lo len |>.toNat
    let from_ := fun n : Nat => (List.range n).map fun k => r + BitVec.ofNat 5 k
    let base := fun j : BitVec 5 => ((D (j + 1)).extractLsb' 0 25 ++ D j : VAddr).toNat
    let high := fun j : BitVec 5 => (D (j + 1)).extractLsb' 25 7 = 0
    let at_ := fun e : Nat => base 0 % e = 0 ∧ (D 2).toInt % (e : Int) = 0
    let source := fun k : BitVec 2 => if k = 1 then at_ 4 else if k = 2 then at_ 2 else True
    let cell := at_ (if k3 = 0 then 16 else 4)
    let enters := fun (i : Instr) (rs : List (BitVec 5)) (locks : Nat) (good : Prop) => Safety.Queues s w x v i rs locks good
    let fails := fun (i : Instr) (rs : List (BitVec 5)) (bad : Prop) (cause : BitVec 8) =>
      bad → Safety.DrivesTo s w v i rs (Safety.driveFailed s w v i cause)
    let record := 32 ≤ f 0 16 16 ∧ f 0 16 16 ≤ 1024 ∧ f 0 16 16 % 32 = 0 ∧ f 0 12 4 = 0 ∧ f 0 0 12 ≠ 0 ∧ f 1 16 16 = 0 ∧ f 1 5 3 = 0 ∧
      f 1 4 1 = 0 ∧ (f 1 3 1 = 1 → f 1 0 3 = 2) ∧ f 1 0 3 ≤ 4
    let shape := 1 ≤ f 0 0 16 ∧ f 0 0 16 ≤ 256 ∧ 1 ≤ f 0 16 16 ∧ f 0 16 16 ≤ 1024 ∧ f 0 0 16 * f 0 16 16 ≤ 32768 ∧ f 1 10 22 = 0
    let format := (D 3).toNat ≤ 5 ∧ D 3 ≠ 2 ∧ (y = 1 → D 3 = 0)
    let narrow := at_ (if D 3 = 5 then 4 else if D 3 = 3 ∨ D 3 = 4 then 2 else 1)
    let open_ := ∃ (g : TagUse) (q : Tile), x.lineage[l.toNat]? = some (some g) ∧ x.tiles[g.root.toNat]? = some (some q) ∧
      q.state = .provisional ∧ ∀ o ∈ v.ops, o.word ≠ .tfinal g.root ∧ ∀ a k, o.word = .tpost a k → k.toNat ≠ l.toNat
    enters (.breserve b r) (from_ 2) 0 record ∧ fails (.breserve b r) (from_ 2) (¬ record) 0x01 ∧
    enters (.brelease b) [] 0 True ∧
    enters (.bfill b r k3) (from_ 4) 1 (high 0 ∧ f 3 16 16 ≠ 0 ∧ source (k3.extractLsb' 0 2)) ∧
    fails (.bfill b r k3) (from_ 4) (¬ (high 0 ∧ f 3 16 16 ≠ 0)) 0x01 ∧
    fails (.bfill b r k3) (from_ 4) ((high 0 ∧ f 3 16 16 ≠ 0) ∧ ¬ source (k3.extractLsb' 0 2)) 0x09 ∧
    enters (.bgather b r k2) (from_ 6) 2 (high 0 ∧ high 4 ∧ f 3 16 16 ≠ 0 ∧ f 3 0 16 ≠ 0 ∧ base 4 % 4 = 0 ∧ source k2) ∧
    fails (.bgather b r k2) (from_ 6) (¬ (high 0 ∧ high 4 ∧ f 3 16 16 ≠ 0 ∧ f 3 0 16 ≠ 0)) 0x01 ∧
    fails (.bgather b r k2) (from_ 6) ((high 0 ∧ high 4 ∧ f 3 16 16 ≠ 0 ∧ f 3 0 16 ≠ 0) ∧ ¬ (base 4 % 4 = 0 ∧ source k2)) 0x09 ∧
    enters (.mma t b p l m n z) [] 0 True ∧ enters (.mmaw t b p l m n z) [] 0 True ∧
    enters (.talloc t r) (from_ 2) 0 shape ∧ fails (.talloc t r) (from_ 2) (¬ shape) 0x01 ∧
    enters (.tfree t) [] 0 True ∧ enters (.tzero t) [] 0 True ∧
    enters (.tld t r k3) (from_ 3) 1 (high 0 ∧ cell) ∧ enters (.tst t r k3) (from_ 3) 1 (high 0 ∧ cell) ∧
    fails (.tld t r k3) (from_ 3) (¬ high 0) 0x01 ∧ fails (.tst t r k3) (from_ 3) (¬ high 0) 0x01 ∧
    fails (.tld t r k3) (from_ 3) (high 0 ∧ ¬ cell) 0x09 ∧ fails (.tst t r k3) (from_ 3) (high 0 ∧ ¬ cell) 0x09 ∧
    enters (.tpost t l) [] 0 True ∧ enters (.tfinal t) [] 0 True ∧
    enters (.tsettle l r) [r] 0 ((∀ g, x.lineage[l.toNat]? ≠ some (some g)) ∧ ∀ o ∈ v.ops, ∀ a k, o.word = .tpost a k → k.toNat ≠ l.toNat) ∧ (s.wgs[w]? = some x → fails (.tsettle l r) [r] open_ 0x01) ∧
    enters (.tcvtBuffer t b y z) [] 0 True ∧
    enters (.tcvtMemory t r y z) (from_ 4) 1 (high 0 ∧ format ∧ narrow) ∧
    fails (.tcvtMemory t r y z) (from_ 4) (¬ (high 0 ∧ format)) 0x01 ∧
    fails (.tcvtMemory t r y z) (from_ 4) ((high 0 ∧ format) ∧ ¬ narrow) 0x09 ∧
    (∀ i ∈ [Instr.tadd t u l, .tsub t u l, .tneg t u l, .trsum t u l, .tcsum t u l, .ttrans t u l, .tcopy t u l], enters i [] 0 True) ∧
    (∀ i ∈ [Instr.tshift t u l r, .tmuli t u l r, .tslice t u l r], enters i [r] 0 True)

/-- R219, R221, R229, R231-R233, R400: what execution does to buffers and tiles: a reservation or a tile comes to be, with its cells
zero, goes, is zeroed, posted under a tag not in use, made final; the units that a `fred` sends give its tile's cells back; a handle in the wrong state is a drive fault; a linear tile word on untagged tiles of its shapes leaves
in every cell of its destination the exact integer of its row of the table, clamped to 96 bits with the overflow sticky, and sets SOV
where an overflow sets a bit. -/
def Obligations.EngineExecution : Prop :=
  (∀ (s : State) (w : Nat) (g : Wg) (d : Drive) (o : Op) (rest : List Op) (t : BitVec 4) (u : BitVec 3) (r l : BitVec 5) (x : Tile)
      (b : Buffer), Safety.First s w g d o rest → o.running = false →
    let D := fun j : BitVec 5 => o.dregs[(r + j).toNat]'(r + j).isLt
    let runs := fun (i : Instr) (g' : Wg) => o.word = i → Safety.Runs s w rest d g' o
    let fails := fun (i : Instr) => o.word = i →
      exec (.engineOpExecute w 0) s = .next (s.failWg w (o.addr.setWidth 64) (wordOf i) 0x01 1 0)
    let tile := fun y : Option Tile => { g with tiles := g.tiles.set t.toNat y }
    let rows := ((D 0).extractLsb' 0 16).toNat; let cols := ((D 0).extractLsb' 16 16).toNat
    let units := (rows * cols + 63) / 64
    let held := g.tiles[t.toNat]? = some (some x); let free := g.tiles[t.toNat]? = some none
    let kept := g.buffers[u.toNat]? = some (some b); let none_ := g.buffers[u.toNat]? = some none
    let zero := List.replicate x.cells.length (⟨0, false⟩ : WCell)
    let size := (((D 0).extractLsb' 0 12).toNat * rawBytes (D 0) (D 1) + 255) / 256 * 256
    (free → units + g.units ≤ 682 → units + s.onCore g.core Wg.units ≤ 682 → runs (.talloc t r)
      (tile (some ⟨rows, cols, (D 1).extractLsb' 0 10, List.replicate (rows * cols) ⟨0, false⟩, .plain, none, none⟩))) ∧
    (held → fails (.talloc t r)) ∧
    (held → x.tag = none → runs (.tfree t) (tile none) ∧ runs (.tzero t) (tile (some { x with cells := zero }))) ∧
    (free → fails (.tfree t) ∧ fails (.tzero t) ∧ fails (.tfinal t) ∧ fails (.tpost t l)) ∧
    (held → x.tag = none → x.shadow = none → g.lineage[l.toNat]? = some none →
      s.onCore g.core Wg.units + (x.rows * x.cols + 63) / 64 ≤ 682 →
      runs (.tpost t l) { tile (some { x with state := .provisional, tag := some l, shadow := some zero }) with
        lineage := g.lineage.set l.toNat (some ⟨t⟩) }) ∧
    (held → x.tag ≠ none ∨ (∃ y, g.lineage[l.toNat]? = some (some y)) → fails (.tpost t l)) ∧
    (held → x.state = .provisional → runs (.tfinal t) (tile (some { x with state := .final }))) ∧
    (held → x.state ≠ .provisional → fails (.tfinal t)) ∧
    (none_ → size + g.bufferBytes ≤ 2 ^ 20 → size + s.onCore g.core Wg.bufferBytes ≤ 2 ^ 20 → o.word = .breserve u r →
      ∃ y : Buffer, Safety.Runs s w rest d { g with buffers := g.buffers.set u.toNat (some y) } o ∧ y.rec0 = D 0 ∧ y.rec1 = D 1 ∧
        y.data.length = ((D 0).extractLsb' 0 12).toNat) ∧
    (kept → fails (.breserve u r)) ∧ (none_ → fails (.brelease u)) ∧
    (kept → (∀ e ∈ g.log, e.buf ≠ some u) → runs (.brelease u) { g with buffers := g.buffers.set u.toNat none }) ∧
    (∀ a, o.settled = some a → runs (.tsettle l r) g) ∧
    (held → x.tag = none → (o.word = .fred t r → ∃ (sent : List Byte) (links : List FLink), unpackCells x.cells.length sent = some x.cells ∧ exec (.engineOpExecute w 0) s = .next
        ({ s with flinks := links, reductions := s.reductions.map fun (y : Reduction) => if y.op = o.id then { y with sent := sent } else y }.updWg w fun _ =>
          { g with drive := some { d with ops := { o with running := true } :: rest } })) ∧ (s.rangeFault w g [] o = none → ∀ (k : BitVec 3) (y z : BitVec 1),
      runs (.tld t r k) g ∧ runs (.tst t r k) g ∧ runs (.tcvtMemory t r y z) g)) ∧
    (kept → (∀ e ∈ g.log, e.buf ≠ some u) → s.rangeFault w g [] o = none → ((b.rec1).extractLsb' 0 3) ≠ 2 →
      (((D 3).extractLsb' 0 16).toNat + ((D 3).extractLsb' 16 16).toNat ≤ ((b.rec0).extractLsb' 0 12).toNat →
        ∀ k : BitVec 3, runs (.bfill u r k) g) ∧
      (((D 3).extractLsb' 0 16).toNat ≤ ((b.rec0).extractLsb' 0 12).toNat → ∀ k : BitVec 2, runs (.bgather u r k) g))) ∧
  (∀ (s : State) (w : Nat) (g : Wg) (d : Drive) (o : Op) (rest : List Op) (t u : BitVec 4) (r : BitVec 5) (x y : Tile),
    Safety.First s w g d o rest → o.running = false → g.tiles[t.toNat]? = some (some x) → g.tiles[u.toNat]? = some (some y) →
    x.tag = none → y.tag = none → x.cells.length = x.rows * x.cols → y.cells.length = y.rows * y.cols →
    let D := o.dregs[r.toNat]'r.isLt
    let X := fun i j => x.cells.getD (i * x.cols + j) ⟨0, false⟩
    let Y := fun i j => y.cells.getD (i * y.cols + j) ⟨0, false⟩
    let U := fun i j => (Y i j).v.toInt * 2 ^ (y.exp.toInt - x.exp.toInt).toNat
    let same := x.rows = y.rows ∧ x.cols = y.cols
    let grid := x.exp.toInt ≤ y.exp.toInt
    let gives := fun (i : Instr) (ok : Prop) (v : Nat → Nat → Int) (sov : Nat → Nat → Bool) => o.word = i →
      (ok → ∃ (cells : List WCell) (f : Word),
        Safety.Runs s w rest d { g with tiles := g.tiles.set t.toNat (some { x with cells := cells }) } { o with flags := f } ∧
        Safety.cellsAre cells x.rows x.cols (fun a b => Safety.cellOf (v a b) (sov a b)) ∧
        (f = 0x400 ∨ f = 0) ∧ (f = 0x400 ↔ ∃ a < x.rows, ∃ b < x.cols, v a b < -2 ^ 95 ∨ 2 ^ 95 - 1 < v a b)) ∧
      (¬ ok → exec (.engineOpExecute w 0) s = .next (s.failWg w (o.addr.setWidth 64) (wordOf i) 0x01 1 0))
    gives (.tadd t u 0) (same ∧ grid) (fun i j => (X i j).v.toInt + U i j) (fun i j => (X i j).sov || (Y i j).sov) ∧
    gives (.tsub t u 0) (same ∧ grid) (fun i j => (X i j).v.toInt - U i j) (fun i j => (X i j).sov || (Y i j).sov) ∧
    gives (.tneg t u 0) (same ∧ grid) (fun i j => - U i j) (fun i j => (Y i j).sov) ∧
    gives (.tshift t u 0 r) (same ∧ x.exp.toInt ≤ y.exp.toInt + D.toInt)
      (fun i j => (Y i j).v.toInt * 2 ^ (y.exp.toInt + D.toInt - x.exp.toInt).toNat) (fun i j => (Y i j).sov) ∧
    gives (.tmuli t u 0 r) (same ∧ grid) (fun i j => D.toInt * U i j) (fun i j => (Y i j).sov) ∧
    gives (.trsum t u 0) (x.rows = y.rows ∧ x.cols = 1 ∧ grid) (fun i _ => ((List.range y.cols).map (U i)).sum)
      (fun i _ => (List.range y.cols).any fun j => (Y i j).sov) ∧
    gives (.tcsum t u 0) (x.rows = 1 ∧ x.cols = y.cols ∧ grid) (fun _ j => ((List.range y.rows).map fun i => U i j).sum)
      (fun _ j => (List.range y.rows).any fun i => (Y i j).sov) ∧
    gives (.ttrans t u 0) (x.rows = y.cols ∧ x.cols = y.rows ∧ grid) (fun i j => U j i) (fun i j => (Y j i).sov) ∧
    gives (.tslice t u 0 r) ((D.extractLsb' 0 16).toNat + x.rows ≤ y.rows ∧ (D.extractLsb' 16 16).toNat + x.cols ≤ y.cols ∧ grid)
      (fun i j => U ((D.extractLsb' 0 16).toNat + i) ((D.extractLsb' 16 16).toNat + j))
      (fun i j => (Y ((D.extractLsb' 0 16).toNat + i) ((D.extractLsb' 16 16).toNat + j)).sov) ∧
    gives (.tcopy t u 0) (same ∧ grid) U (fun i j => (Y i j).sov))

/-- R73, R74, R226, R227: `mma` and `mmaw` on untagged tiles add to every cell the products of finite elements, each exact product rounded
once onto the destination's grid, to zero with the `.z` bit: their exact sum where no sum leaves the range of a cell, the sticky
bit and SOV where one does; where every product lies on the grid, the exact sum of the products. Shapes or formats that do not
match are a drive fault. An `mmaw` that accumulates into its own source reads the cells as they stood (the model's choice, log 84). -/
def Obligations.TileProducts : Prop :=
  ∀ (s : State) (w : Nat) (g : Wg) (d : Drive) (o : Op) (rest : List Op) (t : BitVec 4) (a b : BitVec 3) (m n : BitVec 2) (z : BitVec 1)
      (x y : Tile) (p q : Buffer) (P : Nat → Nat → Nat → Int) (B : Nat → Nat → Rat),
    Safety.First s w g d o rest → o.running = false → g.tiles[t.toNat]? = some (some x) → x.tag = none → x.state = .plain →
    x.cells.length = x.rows * x.cols → g.buffers[b.toNat]? = some (some q) →
    let K := ((q.rec0).extractLsb' 16 16).toNat
    let fmt := fun c : Buffer => (c.rec1).extractLsb' 0 3
    let rows := fun c : Buffer => ((c.rec0).extractLsb' 0 12).toNat
    let grid := (2 : Rat) ^ x.exp.toInt
    let old := fun i j => if z = 1 then (⟨0, false⟩ : WCell) else x.cells.getD (i * x.cols + j) ⟨0, false⟩
    let small := ∀ i < x.rows, ∀ j < x.cols,
      |(old i j).v.toInt| + ((List.range K).map fun k => |P i j k|).sum < 2 ^ 95
    let sized := x.rows = (if m = 0 then 16 else if m = 1 then 32 else if m = 2 then 64 else 128) ∧ x.cols = 64 * (n.toNat + 1) ∧
      rows q = x.cols
    let adds := ∃ (cells : List WCell) (f : Word),
      Safety.Runs s w rest d { g with tiles := g.tiles.set t.toNat (some { x with cells := cells }) } { o with flags := f } ∧
      Safety.cellsAre cells x.rows x.cols (fun i j =>
        ⟨BitVec.ofInt 96 ((old i j).v.toInt + ((List.range K).map (P i j)).sum), (old i j).sov⟩)
    let fails := fun i : Instr => exec (.engineOpExecute w 0) s = .next (s.failWg w (o.addr.setWidth 64) (wordOf i) 0x01 1 0)
    let rounds := fun A : Nat → Nat → Rat => ∃ (cells : List WCell) (f : Word),
      Safety.Runs s w rest d { g with tiles := g.tiles.set t.toNat (some { x with cells := cells }) } { o with flags := f } ∧
      Safety.accumulates old x.rows x.cols K x.exp.toInt o.mode (fun i j k => A i k * B j k) cells f
    (∀ j < x.cols, ∀ k < K, Safety.real (q.elem j k).1 = some (B j k)) →
    (g.buffers[a.toNat]? = some (some p) → o.word = .mma t a b 0 m n z →
      let ok := sized ∧ rows p = x.rows ∧ ((p.rec0).extractLsb' 16 16).toNat = K ∧
        (fmt p = fmt q ∨ (fmt p).toNat ≤ 1 ∧ (fmt q).toNat ≤ 1)
      (ok → small → (∀ i < x.rows, ∀ j < x.cols, ∀ k < K, ∃ v : Rat, Safety.real (p.elem i k).1 = some v ∧ v * B j k = P i j k * grid) →
        adds) ∧
      (∀ A : Nat → Nat → Rat, ok → o.mode.toNat ≤ 4 → (∀ i < x.rows, ∀ k < K, Safety.real (p.elem i k).1 = some (A i k)) → rounds A) ∧
      (¬ ok → fails (.mma t a b 0 m n z))) ∧
    (g.tiles[a.toNat]? = some (some y) → y.tag = none → y.cells.length = y.rows * y.cols → o.word = .mmaw t a b 0 m n z →
      let ok := sized ∧ y.rows = x.rows ∧ y.cols = K
      (ok → small → (∀ i < x.rows, ∀ j < x.cols, ∀ k < K,
        (if z = 1 ∧ a.toNat = t.toNat then 0 else ((y.cells.getD (i * y.cols + k) ⟨0, false⟩).v.toInt : Rat)) *
          (2 : Rat) ^ y.exp.toInt * B j k = P i j k * grid) → adds) ∧
      (ok → o.mode.toNat ≤ 4 → rounds fun i k =>
        (if z = 1 ∧ a.toNat = t.toNat then 0 else ((y.cells.getD (i * y.cols + k) ⟨0, false⟩).v.toInt : Rat)) * (2 : Rat) ^ y.exp.toInt) ∧
      (¬ ok → fails (.mmaw t a b 0 m n z)))

/-- R220, R222-R225, R230, R234, R399: a word's completion sets its status bits and takes it off the queue; a load of a tile
or a fill leaves what its source held, a store writes its elements, `tsettle` writes its register, `fred` its tile.
That the words read and write memory whole at their completion is the model's choice (log 8). -/
def Obligations.EngineCompletion : Prop :=
  ∀ (s : State) (w : Nat) (g : Wg) (d : Drive) (o : Op) (rest : List Op) (t : BitVec 4) (u : BitVec 3) (r l : BitVec 5) (x : Tile)
      (b : Buffer), Safety.First s w g d o rest → o.running = true → o.parked = false → o.lost = false → o.dark = false →
    (∀ y, some y ∉ g.lineage) → g.due = [] → s.engineBlock (s.coreOf w) (s.procOf w) = none →
    let D := fun j : BitVec 5 => o.dregs[(r + j).toNat]'(r + j).isLt
    let base := ((D 1).extractLsb' 0 25 ++ D 0 : VAddr).toNat
    let addr := fun (i j : Nat) => ((base : Int) + i * (D 2).toInt + j).toNat
    let still := fun t : State => (∀ a, memGet t.mem a = memGet s.mem a) ∧ t.threads = s.threads
    let held := g.tiles[t.toNat]? = some (some x) ∧ x.cells.length = x.rows * x.cols
    let tile := fun cells => { g with tiles := g.tiles.set t.toNat (some { x with cells := cells }) }
    let readable := fun (rows cols size : Nat) => ∀ i < rows, ∀ j < cols, s.judge w (addr i (j * size)) false = .ok
    (∀ i ∈ [Instr.breserve u r, .brelease u, .talloc t r, .tfree t, .tzero t, .tpost t l, .tfinal t], o.word = i → o.correction = none →
      Safety.Ends s w rest g d o.flags still) ∧
    (∀ i, (i = o.word ∧ ((linearOf i).isSome = true ∨ (mmaTarget i).isSome = true ∨ ∃ n z, i = .tcvtBuffer t u n z)) →
      o.correction = none → Safety.Ends s w rest g d o.flags still) ∧
    (∀ a, o.word = .tsettle l r → o.settled = some a →
      Safety.Ends s w rest g { d with d := d.d.set r.toNat a r.isLt } 0 still) ∧
    (held → o.word = .tld t r 0 → readable x.rows x.cols 16 → ∃ cells,
      Safety.Ends s w rest (tile cells) d (if cells.any (·.sov) then 0x400 else 0) still ∧ Safety.cellsAre cells x.rows x.cols fun i j =>
        let v := ofBytes (s.readAt w (addr i (16 * j)) 16)
        ⟨BitVec.ofNat 96 v, v / 2 ^ 96 % 2 = 1⟩) ∧
    (held → o.word = .tld t r 2 → readable x.rows x.cols 4 → 0 ≤ -x.exp.toInt → -x.exp.toInt ≤ 63 → ∃ cells,
      Safety.Ends s w rest (tile cells) d 0 still ∧ Safety.cellsAre cells x.rows x.cols fun i j =>
        ⟨BitVec.ofInt 96 ((BitVec.ofNat 32 (ofBytes (s.readAt w (addr i (4 * j)) 4))).toInt * 2 ^ (-x.exp.toInt).toNat), false⟩) ∧
    (g.buffers[u.toNat]? = some (some b) → o.word = .bfill u r 0 →
      let first := ((D 3).extractLsb' 0 16).toNat; let n := ((D 3).extractLsb' 16 16).toNat
      let size := rawBytes b.rec0 b.rec1
      first + n ≤ b.data.length → (∀ i < n, 0 ≤ (base : Int) + i * (D 2).toInt) → readable n size 1 → (b.rec1).extractLsb' 0 3 = 0 →
        ∃ data,
        Safety.Ends s w rest { g with buffers := g.buffers.set u.toNat (some { b with data := data }) } d 0 still ∧
        data.length = b.data.length ∧ ∀ i < b.data.length, data[i]? = (if first ≤ i ∧ i < first + n then
          some ((List.range size).flatMap fun k => s.readAt w (addr (i - first) k) 1) else b.data[i]?)) ∧
    (held → ∀ y : Reduction, s.reductions.find? (fun c => c.op = o.id) = some y → o.word = .fred t r → ∀ cells, y.result = some cells →
      Safety.Ends s w rest (tile cells) d (if cells.any (·.sov) then 0x400 else 0) fun t =>
        still t ∧ t.reductions = s.reductions.filter fun c => c.op ≠ o.id) ∧
    (held → o.word = .tst t r 0 → ∀ phys : Nat → Nat → Nat,
      (∀ i < x.rows, ∀ j < x.cols, ∃ off, s.place w (addr i (16 * j)) = .pool w off ∧ s.judge w (addr i (16 * j)) true = .ok ∧
        s.physOf (.pool w off) = some (phys i j) ∧ ∀ k < 16, s.litByte (phys i j + k) = true) →
      (∀ i < x.rows, ∀ j < x.cols, ∀ i' < x.rows, ∀ j' < x.cols, (i, j) ≠ (i', j') →
        phys i j + 16 ≤ phys i' j' ∨ phys i' j' + 16 ≤ phys i j) → Safety.memoryOk s →
      Safety.Ends s w rest g d 0 fun t' =>
        (∀ i < x.rows, ∀ j < x.cols, let c := x.cells.getD (i * x.cols + j) ⟨0, false⟩
          ofBytes (memRead t'.mem (phys i j) 16) = c.v.toNat + if c.sov then 2 ^ 96 else 0) ∧
        ∀ a, (∀ i < x.rows, ∀ j < x.cols, ¬ (phys i j ≤ a ∧ a < phys i j + 16)) → memGet t'.mem a = memGet s.mem a)

/-! ## Copies, tags and barriers (R259-R283, R320) -/

/-- R261-R263: `xcopy` in its four forms and in both streams: a descriptor that breaks step 1 raises ILLEGAL; one that
passes steps 1 to 3 is in flight at once where its tag, a queue entry and lock entries are free, its tag not done, and its
agent goes on; else the agent waits with it. What threads have seen of a page that comes may change with its lookup (log 6). -/
def Obligations.CopyIssue : Prop :=
  ∀ (s : State) (k w : Nat) (th : Thread) (v : Drive) (u : Wg) (l : Launch) (g : BitVec 3) (r : BitVec 7) (t : BitVec 6) (b : BitVec 4)
      (e : BitVec 1), s.wgs[w]? = some u → s.launches[u.launch]? = some l →
    let bar := if e = 1 then some b else none
    let words := (List.range 8).map fun j => th.reg (r + BitVec.ofNat 7 j)
    let dwords := (List.range 8).map fun j => v.reg (r.extractLsb' 0 5 + BitVec.ofNat 5 j)
    let sent := fun (t' : State) (a : Agent) (form : CopyForm) (tag : Nat) (bar : Option (BitVec 4)) (ws : List Word) (mode : BitVec 3)
        (flying : Bool) => ∃ c ∈ t'.copies, c.id = s.nextId ∧ c.agent = a ∧ c.wg = w ∧ c.form = form ∧ c.tag = tag ∧ c.bar = bar ∧
          c.desc = ws ∧ c.inFlight = flying ∧ (flying = true → c.mode = mode)
    let posted := fun (t' : State) (form : CopyForm) (tag : Nat) => form ≠ .detach → tag < u.tags.length →
      ∃ u' : Wg, t'.wgs[w]? = some u' ∧ u'.tags = u.tags.set tag ⟨false, 0, s.nextId⟩
    ∀ f ∈ [((Instr.xcopy g r t b e, .plain, t.toNat, bar) : Instr × CopyForm × Nat × Option (BitVec 4)),
        (.xcopyAdd g r t b e, .add, t.toNat, bar), (.xcopyDetach g r, .detach, 0, none), (.xcopyFabric g r t b e, .fabric, t.toNat, bar)],
      let i := f.1; let form := f.2.1; let tag := f.2.2.1; let bar := f.2.2.2
      let bad := fun ws : List Word =>
        let n := ((ws.getD 4 0).extractLsb' 0 24).toNat; let kind := ((ws.getD 4 0).extractLsb' 24 8).toNat
        let event := (ws.getD 5 0).extractLsb' 16 16
        n = 0 ∨ (ws.getD 5 0).extractLsb' 0 16 = 0 ∨ n % (if kind = 6 ∨ kind = 7 then 2 else 4) ≠ 0 ∨ l.desc.copyq = 0 ∨ l.desc.tags = 0 ∨
          (form ≠ .detach ∧ (l.desc.tags ≤ tag ∨ event ≠ 0)) ∨ (form = .detach ∧ event = 0) ∨
          (if form = .add then kind ≠ 0x10 ∧ kind ≠ 0x11 ∧ kind ≠ 0x12 else 7 < kind) ∨ (form = .add ∧ l.desc.pre = true)
      (th.wg = w → r.toNat % 8 ≠ 0 → Safety.Leads s k th i (s.takeTrap k 0x01 (wordOf i))) ∧
      (th.wg = w → bad words → Safety.Leads s k th i (s.takeTrap k 0x01 (wordOf i))) ∧
      (th.wg = w → r.toNat % 8 = 0 → s.copyIllegal w form tag bar (copyDesc words) (s.copyMembers w (copyDesc words)) = false →
        s.copyFault w form (copyDesc words) = none → s.watchCopy k th (copyDesc words) = none →
        s.lostSide w form (copyDesc words).srcSpan false = none → s.lostSide w form (copyDesc words).dstSpan true = none →
        let ready := s.copyReady (s.newCopy (.thread k) w form tag bar words 0 false)
        (ready = true → Safety.Reads s k th i fun t' => ∃ y : Thread, Safety.aged s t' (· = k) ∧ t'.threads[k]? = some y ∧
          y = { Safety.moved th 1 with floors := y.floors } ∧
          sent t' (.thread k) form tag bar words (th.rm.extractLsb' 0 3) true ∧ posted t' form tag) ∧
        (ready = false → Safety.Reads s k th i fun t' => Safety.kept s t' (· = k) ∧ t'.threads[k]? = some { th with park := .copy } ∧
          sent t' (.thread k) form tag bar words 0 false)) ∧
      (Safety.DrivesBoth s w v i r → (∀ j < 8, ¬ Safety.awaited v (r.extractLsb' 0 5 + BitVec.ofNat 5 j)) → r.toNat % 2 = 0 → r.toNat ≤ 24 →
        (bad dwords → exec i s = .next (Safety.driveFailed s w v i 0x01)) ∧
        (s.copyIllegal w form tag bar (copyDesc dwords) (s.copyMembers w (copyDesc dwords)) = false →
          s.copyFault w form (copyDesc dwords) = none → s.copyReady (s.newCopy (.drive w) w form tag bar dwords v.iter false) = true →
          ∃ t', exec i s = .next t' ∧ Safety.aged s t' (fun _ => False) ∧
            t'.drive? w = some (Safety.driven v 1) ∧ sent t' (.drive w) form tag bar dwords v.mode true ∧ posted t' form tag))

/-- R263 step 5, R264-R267, R328: a waiting copy takes effect once it can, and no byte changes yet; where an allocation of its
thread's own has been lost meanwhile (R209) the word issues again. A copy in flight that nothing holds completes, off the
list and with its tag done, FAULT or LOST in the status where its source or a destination meets it, and a raw copy between
scratchpad ranges leaves every element of its source in its destination and no other byte changed. That a copy reads and writes
whole at its completion, and nothing before, is the model's choice (log 8), where R264 lets each word move at its own moment. -/
def Obligations.CopyEffects : Prop :=
  ∀ (s : State) (c : Copy) (u : Wg), s.copies.find? (fun x => x.id = c.id) = some c → s.wgs[c.wg]? = some u →
    let d := copyDesc c.desc
    let gone := fun t : State => ∀ x ∈ t.copies, x.id ≠ c.id
    let tag := fun (t : State) (ok : BitVec 8 → Prop) => c.form ≠ .detach → c.tag < u.tags.length →
      ∃ (u' : Wg) (status : BitVec 8), t.wgs[c.wg]? = some u' ∧ u'.tags[c.tag]? = some ⟨true, status, c.id⟩ ∧ ok status
    let here := fun va : Nat => ∀ st perm, s.place c.wg va ≠ .absent st perm
    let fault := fun (e : Nat) (write : Bool) (x : Side) => s.judgeSide c e write x = .fault
    let el := fun (base : Nat) (stride : Int) (i j : Nat) => ((base : Int) + i * stride + 4 * j).toNat
    (c.inFlight = false → s.lostSince c = false → s.copyReady c = true →
      ∃ (t : State) (x : Copy), exec (.copyTakesEffect c.id) s = .next t ∧ (∀ a, memGet t.mem a = memGet s.mem a) ∧
        x ∈ t.copies ∧ x = { c with inFlight := true, mode := x.mode, lost := x.lost } ∧ (c.lost = true → x.lost = true) ∧
        (∀ (k : Nat) (th : Thread), c.agent = .thread k → s.threads[k]? = some th → ∃ y : Thread, t.threads[k]? = some y ∧
          y = { Safety.moved th 1 with floors := y.floors } ∧ x.mode = th.rm.extractLsb' 0 3)) ∧
    (c.inFlight = false → s.lostSince c = true → ∀ (k : Nat) (th : Thread), c.agent = .thread k → s.threads[k]? = some th →
      exec (.copyTakesEffect c.id) s = .next (({ s with copies := s.copies.filter fun x => x.id ≠ c.id } : State).updThread k fun _ =>
        { th with park := .none })) ∧
    (s.copyHeld c = false → (∀ va, here va) → ∃ t, exec (.copyComplete c.id) s = .next t ∧ gone t ∧ tag t fun _ => True) ∧
    (s.copyHeld c = false →
      (fault (copySe d.kind) false (s.side c.form d.srcSpan) ∨ (c.cast = none ∧ fault (copyDe d.kind) true (s.side c.form d.dstSpan)) ∨
        (c.cast ≠ none ∧ ∃ m ∈ c.members, fault (copyDe d.kind) true (.here (s.portion m d.dstSpan)))) →
      ∃ t, exec (.copyComplete c.id) s = .next t ∧ gone t ∧ tag t fun st => st &&& 3 = 2) ∧
    (s.copyHeld c = false → c.lost = true → c.cast = none → c.bar = none → u.due = [] →
      ¬ fault (copySe d.kind) false (s.side c.form d.srcSpan) → ¬ fault (copyDe d.kind) true (s.side c.form d.dstSpan) →
      ∃ t, exec (.copyComplete c.id) s = .next t ∧ gone t ∧ (tag t fun st => st = 1) ∧ ∀ a, memGet t.mem a = memGet s.mem a) ∧
    (s.copyHeld c = false → c.form = .plain → d.kind = 0 → c.cast = none → c.lost = false → c.dark = false →
      s.engineBlock c.core (s.procOf c.wg) = none → Safety.memoryOk s → ∀ src dst : Nat → Nat → Nat,
      (∀ i < d.rows, ∀ j < d.len / 4, ∃ m a n b, s.copyPlace c (el d.src d.ss i j) = some (.pool m a) ∧
        s.copyPlace c (el d.dst d.ds i j) = some (.pool n b) ∧ s.judgeAt c false (el d.src d.ss i j) = .ok ∧
        s.judgeAt c true (el d.dst d.ds i j) = .ok ∧ s.physOf (.pool m a) = some (src i j) ∧
        s.physOf (.pool n b) = some (dst i j) ∧ ∀ n < 4, s.litByte (dst i j + n) = true) →
      (∀ i < d.rows, ∀ j < d.len / 4, ∀ i' < d.rows, ∀ j' < d.len / 4,
        (src i j + 4 ≤ dst i' j' ∨ dst i' j' + 4 ≤ src i j) ∧
        ((i, j) ≠ (i', j') → dst i j + 4 ≤ dst i' j' ∨ dst i' j' + 4 ≤ dst i j)) →
      ∃ t, exec (.copyComplete c.id) s = .next t ∧ gone t ∧ (tag t fun st => st = 0) ∧
        (∀ i < d.rows, ∀ j < d.len / 4, memRead t.mem (dst i j) 4 = memRead s.mem (src i j) 4) ∧
        ∀ a, (∀ i < d.rows, ∀ j < d.len / 4, ¬ (dst i j ≤ a ∧ a < dst i j + 4)) → memGet t.mem a = memGet s.mem a)

/-- R272-R275: the tag words in both streams: a mask that is zero or names a tag past the launch's raises ILLEGAL; the
waits pass when any, or all, of its tags are done; `xffr` gives the lowest done tag with its status, `xtags` the mask of
the done tags. -/
def Obligations.TagWords : Prop :=
  ∀ (s : State) (k w : Nat) (th : Thread) (v : Drive) (u : Wg) (g : BitVec 3) (r : BitVec 7) (D : BitVec 64), s.wgs[w]? = some u →
    u.tags.length ≤ 64 → (∀ p < 64, D.getLsbD p = true ↔ ∃ x : Tag, u.tags[p]? = some x ∧ x.done = true) →
    let q := r.extractLsb' 0 5
    let bad := fun m : BitVec 64 => m = 0 ∨ ∃ p < 64, m.getLsbD p = true ∧ u.tags.length ≤ p
    let first := fun (m : BitVec 64) (lo hi : Word) =>
      (m &&& D = 0 → lo = 0xFFFFFFFF ∧ hi = 0) ∧
      (∀ p < 64, ∀ x : Tag, m.getLsbD p = true → u.tags[p]? = some x → x.done = true → (∀ n < p, ¬ (m &&& D).getLsbD n) →
        lo = BitVec.ofNat 32 p ∧ hi = x.status.setWidth 32)
    (s.threads[k]? = some th → th.wg = w →
      let m := th.reg (r + 1) ++ th.reg r
      (∀ i ∈ [Instr.xwaitany g r, .xwaitall g r, .xffr g r], bad m → Safety.Leads s k th i (s.takeTrap k 0x01 (wordOf i))) ∧
      (¬ bad m → ∀ f ∈ [((Instr.xwaitany g r, m &&& D ≠ 0) : Instr × Prop), (.xwaitall g r, m &&& D = m)],
        Safety.Issues s k th f.1 → (f.2 → Safety.Passes s k f.1 (Safety.moved th 1) fun _ => True) ∧
          (¬ f.2 → exec f.1 s = .next (s.updThread k fun _ => { th with park := .copy }))) ∧
      (¬ bad m → Safety.Issues s k th (.xffr g r) → ∃ lo hi, first m lo hi ∧
        Safety.Passes s k (.xffr g r) { Safety.moved th 1 with g := (th.g.set r.toNat lo r.isLt).set (r + 1).toNat hi (r + 1).isLt } fun _ => True) ∧
      (Safety.Issues s k th (.xtags g r) → Safety.Passes s k (.xtags g r) { Safety.moved th 1 with
        g := (th.g.set r.toNat (D.extractLsb' 0 32) r.isLt).set (r + 1).toNat (D.extractLsb' 32 32) (r + 1).isLt } fun _ => True)) ∧
    (let m := v.reg (q + 1) ++ v.reg q
      let turns := fun (i : Instr) (x : Drive) => Safety.DriveTurns s w v i r [q, q + 1] x
      (∀ i ∈ [Instr.xwaitany g r, .xwaitall g r, .xffr g r], bad m → Safety.DrivesBoth s w v i r → (∀ y ∈ [q, q + 1], ¬ Safety.awaited v y) →
        exec i s = .next (Safety.driveFailed s w v i 0x01)) ∧
      (¬ bad m → ∀ f ∈ [((Instr.xwaitany g r, m &&& D ≠ 0) : Instr × Prop), (.xwaitall g r, m &&& D = m)],
        (f.2 → turns f.1 (Safety.driven v 1)) ∧ (¬ f.2 → turns f.1 { v with park := .copy })) ∧
      (¬ bad m → ∃ lo hi, first m lo hi ∧
        turns (.xffr g r) { Safety.driven v 1 with d := (v.d.set q.toNat lo q.isLt).set (q + 1).toNat hi (q + 1).isLt }) ∧
      turns (.xtags g r) { Safety.driven v 1 with
        d := (v.d.set q.toNat (D.extractLsb' 0 32) q.isLt).set (q + 1).toNat (D.extractLsb' 32 32) (q + 1).isLt })

/-- R277-R280, R320: `bar.init` and `bar.inval` change an idle barrier, in both streams, and raise ILLEGAL at a busy one; with nothing
of the agent's own outstanding, an arrival at a named or team barrier counts at once: short of the expected weight it is added,
`arv` going on and `sync` waiting; reaching it the phase advances and every waiter goes on, at a team barrier where no drain is in
progress (R406). Weight 0 arrives nothing: `sync` waits for the parity it names. A register outside its layout, or a barrier not initialised, raises ILLEGAL. -/
def Obligations.BarrierWords : Prop :=
  (∀ (s : State) (k w : Nat) (th : Thread) (v : Drive) (u : Wg) (x : Barrier) (g : BitVec 3) (r : BitVec 7) (b : BitVec 4),
    s.wgs[w]? = some u → u.barriers[b.toNat]? = some x →
    let ok := fun n : Word => n.extractLsb' 16 16 = 0 ∧ n ≠ 0
    let init := fun n : Word => (⟨true, if x.init then x.phase else 0, 0, n.extractLsb' 0 16, x.came, x.past⟩ : Barrier)
    let set := fun y : Barrier => s.updWg w fun a => { a with barriers := u.barriers.set b.toNat y }
    let q := r.extractLsb' 0 5
    (s.threads[k]? = some th → th.wg = w →
      (ok (th.reg r) → s.barBusy w b = false → Safety.Leads s k th (.barInit g r b) ((set (init (th.reg r))).updThread k fun _ => Safety.moved th 1)) ∧
      (¬ ok (th.reg r) ∨ s.barBusy w b = true → Safety.Leads s k th (.barInit g r b) (s.takeTrap k 0x01 (wordOf (.barInit g r b)))) ∧
      (s.barBusy w b = false → Safety.Leads s k th (.barInval g b) ((set ⟨false, 0, 0, 0, [], []⟩).updThread k fun _ => Safety.moved th 1)) ∧
      (s.barBusy w b = true → Safety.Leads s k th (.barInval g b) (s.takeTrap k 0x01 (wordOf (.barInval g b))))) ∧
    (Safety.DrivesBoth s w v (.barInit g r b) r → ¬ Safety.awaited v q →
      (ok (v.reg q) → s.barBusy w b = false →
        exec (.barInit g r b) s = .next ((set (init (v.reg q))).updDrive w fun _ => Safety.driven v 1)) ∧
      (¬ ok (v.reg q) ∨ s.barBusy w b = true → exec (.barInit g r b) s = .next (Safety.driveFailed s w v (.barInit g r b) 0x01))) ∧
    (Safety.DrivesBoth s w v (.barInval g b) 0 →
      (s.barBusy w b = false → exec (.barInval g b) s = .next ((set ⟨false, 0, 0, 0, [], []⟩).updDrive w fun _ => Safety.driven v 1)) ∧
      (s.barBusy w b = true → exec (.barInval g b) s = .next (Safety.driveFailed s w v (.barInval g b) 0x01)))) ∧
  (∀ (s : State) (k w : Nat) (th : Thread) (v : Drive) (u : Wg) (x : Barrier) (g : BitVec 3) (r : BitVec 7) (b : BitVec 4),
    s.wgs[w]? = some u → Safety.noStores s k w → (∀ y ∈ u.wadds, y.thread ≠ k) → u.due = [] → s.recordsHeld u.core ≤ 1024 →
    s.threads[k]? = some th → th.wg = w → th.park = .none → x.init = true →
    let layout := fun n : Word => n.extractLsb' 17 15 = 0 ∧ n.extractLsb' 12 4 = 0
    let q := r.extractLsb' 0 5
    ∀ f ∈ [((Instr.barArv g r b, some b, false) : Instr × Option (BitVec 4) × Bool), (.barSync g r b, some b, true),
        (.tmbarArv g r, none, false), (.tmbarSync g r, none, true)],
      let i := f.1; let bar := f.2.1; let sync := f.2.2
      let R := th.reg r
      let weight := (R.extractLsb' 0 12).toNat
      let total := x.count.toNat + weight
      let after := { x with count := BitVec.ofNat 16 (total % x.expected.toNat), phase := x.phase + BitVec.ofNat 16 (total / x.expected.toNat), came := [] }
      let added := fun (n : Nat) (a : Agent) => { x with count := BitVec.ofNat 16 n, came := x.came ++ [(a, s.draw)] }
      let waits := fun y : Thread => y.park.atBar bar = true ∧ y.wg ∈ s.barWgs w bar
      let drained := bar = none → Safety.undrained s
      (s.barrier? w bar = some x →
        (¬ layout R → Safety.Leads s k th i (s.takeTrap k 0x01 (wordOf i))) ∧
        (layout R → 0 < weight → total < x.expected.toNat → Safety.Reads s k th i fun t =>
          Safety.kept s t (· = k) ∧ t.barrier? w bar = some (added total (.thread k)) ∧
          t.threads[k]? = some (if sync then { th with park := .phase bar } else Safety.moved th 1)) ∧
        (layout R → 0 < weight → 0 < x.expected.toNat → x.expected.toNat ≤ total → drained → Safety.Reads s k th i fun t =>
          let go := fun j => j = k ∨ ∃ y : Thread, s.threads[j]? = some y ∧ waits y
          Safety.aged s t go ∧ (bar ≠ none → Safety.kept s t go) ∧ (∃ p, t.barrier? w bar = some { after with past := p }) ∧
          ∀ (j : Nat) (y : Thread), s.threads[j]? = some y → j = k ∨ waits y → ∃ z : Thread, t.threads[j]? = some z ∧
            z = { Safety.moved y 1 with floors := z.floors, lastAcq := z.lastAcq, related := z.related }) ∧
        (layout R → weight = 0 → sync = false → Safety.Leads s k th i (s.updThread k fun _ => Safety.moved th 1)) ∧
        (layout R → weight = 0 → sync = true → x.phase.getLsbD 0 ≠ R.getLsbD 16 → Safety.Issues s k th i → drained →
          Safety.Acquires s k i (Safety.moved th 1) (fun t => t.barrier? w bar = some x) ∧
          (bar ≠ none → Safety.Passes s k i (Safety.moved th 1) fun t => t.barrier? w bar = some x)) ∧
        (layout R → weight = 0 → sync = true → x.phase.getLsbD 0 = R.getLsbD 16 →
          Safety.Leads s k th i (s.updThread k fun _ => { th with park := .parity bar (R.getLsbD 16) }))) ∧
      (∀ y, s.barrier? w bar = some y → y.init = false → Safety.Leads s k th i (s.takeTrap k 0x01 (wordOf i))) ∧
      (s.barrier? w (some b) = some x → bar = some b → Safety.DrivesBoth s w v i r → v.ops = [] → v.park = .none →
        (∀ c ∈ s.copies, c.agent ≠ .drive w) → layout (v.reg q) →
        let n := ((v.reg q).extractLsb' 0 12).toNat
        0 < n → x.count.toNat + n < x.expected.toNat → ∃ t, exec i s = .next t ∧ (∀ a, memGet t.mem a = memGet s.mem a) ∧
          t.threads = s.threads ∧ t.barrier? w bar = some (added (x.count.toNat + n) (.drive w)) ∧
          t.drive? w = some (if sync then { v with park := .phase bar } else Safety.driven v 1)))

/-- R281: `ckpt` waits for its thread's copies and loads, or for the drive stream's words; with every other present member
parked at a `ckpt`, nothing left in the share and no request pending, the last member releases all, and in a launch without
restart records no byte of memory changes. -/
def Obligations.CheckpointWord : Prop :=
  ∀ (s : State) (k w : Nat) (th : Thread) (v : Drive) (u : Wg) (g : BitVec 3), s.threads[k]? = some th → th.wg = w → s.wgs[w]? = some u →
    let i := Instr.ckpt g
    let others := (∀ (j : Nat) (x : Thread), s.threads[j]? = some x → x.wg = w → j ≠ k → x.exited = true ∨ x.handler ≠ none ∨ x.park = .ckpt) ∧
      (∀ d, u.drive = some d → d.halted = true ∨ d.park = .ckpt)
    let quiet := u.hay = [] ∧ u.wadds = [] ∧ u.request = none ∧ s.recordsHeld u.core ≤ 1024
    (s.copiesOf (.thread k) ≠ 0 ∨ th.loads ≠ [] → Safety.Leads s k th i s) ∧
    (s.copiesOf (.thread k) = 0 → th.loads = [] → th.exited = false → th.handler = none → ∀ (j : Nat) (x : Thread), s.threads[j]? = some x →
      x.wg = w → j ≠ k → x.exited = false → x.handler = none → x.park ≠ .ckpt → u.request = none →
      Safety.Reads s k th i fun t => t.threads[k]? = some { th with park := .ckpt } ∧
        (s.restartable w = false → t = s.updThread k fun _ => { th with park := .ckpt })) ∧
    (s.copiesOf (.thread k) = 0 → th.loads = [] → others → quiet → Safety.Reads s k th i fun t =>
      (s.restartable w = false → ∀ a, memGet t.mem a = memGet s.mem a) ∧
      (∀ (j : Nat) (x : Thread), s.threads[j]? = some x → x.wg = w → j = k ∨ x.park = .ckpt → ∃ y : Thread, t.threads[j]? = some y ∧
        y = { Safety.moved x 1 with floors := y.floors, lastAcq := y.lastAcq, related := y.related, conflict := y.conflict })) ∧
    (Safety.DrivesBoth s w v i 0 → (s.copiesOf (.drive w) ≠ 0 ∨ v.ops ≠ [] → exec i s = .next s) ∧
      (s.copiesOf (.drive w) = 0 → v.ops = [] →
        (∀ (j : Nat) (x : Thread), s.threads[j]? = some x → x.wg = w → x.exited = true ∨ x.handler ≠ none ∨ x.park = .ckpt) → quiet →
        ∃ t, exec i s = .next t ∧ t.drive? w = some (Safety.driven v 1) ∧
          (s.restartable w = false → ∀ a, memGet t.mem a = memGet s.mem a)))

/-! ## Scratchpad allocations and commons (R193-R213, R322-R326) -/

/-- R198-R202: `salloc` refuses a descriptor outside its table with ILLEGAL, a sixty-fifth allocation with status 3 and one
with no place with status 1; placed in lit banks it succeeds at once, its bytes zero and no other byte changed; a dark bank
has an array put under test while the thread waits, and with none to be had the status is 2. The places that waiting `salloc`s
have chosen count among the 64 (log 82), and arrays under test count with the lit ones against the budget (log 47): the model's
reading. -/
def Obligations.ScratchAllocation : Prop :=
  ∀ (s : State) (k : Nat) (th : Thread) (u : Wg) (c : Core) (g : BitVec 3) (d a : BitVec 7), s.threads[k]? = some th →
    s.wgs[th.wg]? = some u → s.cores[u.core]? = some c → (∀ p, th.park ≠ .array p) →
    let i := Instr.salloc g d a
    let size := (th.reg a).toNat; let rank := th.reg (a + 1); let h := th.reg (a + 2 + 1) ++ th.reg (a + 2)
    let bad := size < 32 ∨ 12582912 < size ∨ size % 32 ≠ 0 ∨ 7 < rank.toNat ∨ rank = 0 ∨ 2 ^ 57 ≤ h.toNat ∨ h.toNat % 4 ≠ 0 ∨
      (h = 0 ∧ rank ≠ 7)
    let full := 64 ≤ (s.taken th.wg).length
    let status := fun n : Nat => Safety.wrotePair th d (0x80000000#32 ++ BitVec.ofNat 32 n) 1
    let first := s.poolPhys th.wg 0
    let fits := fun base : Nat => ¬ bad ∧ ¬ full ∧ s.placeAlloc th.wg size rank.toNat = some base
    let dark := fun base : Nat => (s.banksOf th.wg base size).filter fun b => !s.bankLit u.core b
    (bad → Safety.Leads s k th i (s.takeTrap k 0x01 (wordOf i))) ∧
    (¬ bad → full → Safety.Leads s k th i (s.updThread k fun _ => status 3)) ∧
    (¬ bad → ¬ full → s.placeAlloc th.wg size rank.toNat = none → Safety.Leads s k th i (s.updThread k fun _ => status 1)) ∧
    (∀ base, fits base → dark base = [] → Safety.Reads s k th i fun t => ∃ u' : Wg,
      t.threads = (s.updThread k fun _ => Safety.wrotePair th d (s.poolVa th.wg base) 1).threads ∧
      t.wgs[th.wg]? = some u' ∧ u' = { u with allocs := u.allocs ++ [⟨base, size, rank.extractLsb' 0 3, h, false⟩] } ∧
      ∀ x, memGet t.mem x = if first + base ≤ x ∧ x < first + base + size then 0 else memGet s.mem x) ∧
    (∀ base b, fits base → dark base = [b] → s.bankTesting u.core b = false → c.taken < c.budget → .free ∈ c.arrays →
      Safety.Reads s k th i fun t => Safety.kept s t (· = k) ∧
        t.threads[k]? = some { th with park := .array ⟨true, d, base, size, rank.extractLsb' 0 3, h, [b], [b]⟩ } ∧
        ∃ j : Nat, c.arrays[j]? = some .free ∧ t.cores[u.core]? = some { c with arrays := c.arrays.set j (.testing b) }) ∧
    (∀ base b, fits base → dark base = [b] → s.bankTesting u.core b = false → c.budget ≤ c.taken →
      (∀ x, .lit x ∈ c.arrays → rank.toNat ≤ s.bankRank u.core x) →
      Safety.Reads s k th i fun t => t.threads = (s.updThread k fun _ => status 2).threads)

/-- R194, R200, R204-R207, R212: `sfree` takes the allocation at its base out, and no byte of a bank the allocation does not touch
changes (that a thread waiting in `srelight` for it issues its word again is the model's, log 71); `srelight` answers 0 for an allocation that stands, 1 where the budget forbids it, and clears the mark of a lost one whose
banks are all lit; `sret` ends the loss entry at its resume point; what `sinfo` writes of an allocation, of the loss entry and of
the core; `bdgt` moves the core's budget of a `.test budget` launch. A base that names no allocation, an allocation under a range
lock, a missing loss entry, and `bdgt` in any other launch raise ILLEGAL. -/
def Obligations.ScratchWords : Prop :=
  (∀ (s : State) (k : Nat) (th : Thread) (u : Wg) (c : Core) (g : BitVec 3) (d a : BitVec 7), s.threads[k]? = some th →
    s.wgs[th.wg]? = some u → s.cores[u.core]? = some c → th.park = .none →
    let found := s.allocOf th.wg (th.reg (a + 1) ++ th.reg a)
    let stops := fun i : Instr => Safety.Leads s k th i (s.takeTrap k 0x01 (wordOf i))
    let others := fun (t : State) (base : Nat) (freed : Bool) => ∀ (j : Nat) (x : Thread), j ≠ k → s.threads[j]? = some x →
      let relights := ∃ p : Lighting, x.park = .array p ∧ p.fresh = false ∧ p.base = base
      (x.wg = th.wg ∧ (x.park = .handler base ∨ freed = true ∧ relights) → t.threads[j]? = some { x with park := .none }) ∧
      (¬ (x.wg = th.wg ∧ (x.park = .handler base ∨ freed = true ∧ relights)) → t.threads[j]? = some x)
    (found = none → stops (.sfree g a) ∧ stops (.srelight g d a)) ∧
    (∀ x, found = some x →
      let locked := s.locked u.core (poolKey th.wg x.base) (poolKey th.wg (x.base + x.size)) true
      let banks := s.banksOf th.wg x.base x.size
      let dark := (banks.filter fun b => !s.bankLit u.core b).length
      let rest := fun l : List Alloc => l.map fun y => if y.base = x.base then { y with lost := false } else y
      (locked = true → stops (.sfree g a)) ∧
      (locked = false → Safety.Reads s k th (.sfree g a) fun t => ∃ u' : Wg,
        t.threads[k]? = some (Safety.moved th 1) ∧ others t x.base true ∧ t.wgs[th.wg]? = some u' ∧
        u' = { u with allocs := u.allocs.filter fun y => y.base ≠ x.base } ∧
        ∀ y, (∀ b ∈ banks, y / 65536 ≠ 2 ^ 34 + u.core * 256 + b) → memGet t.mem y = memGet s.mem y) ∧
      (x.lost = false → Safety.Writes s k th (.srelight g d a) d 0 0) ∧
      (x.lost = true → c.budget < s.rankedLit u.core x.rank.toNat banks + dark → Safety.Writes s k th (.srelight g d a) d 1 0) ∧
      (x.lost = true → s.rankedLit u.core x.rank.toNat banks ≤ c.budget → dark = 0 → Safety.Reads s k th (.srelight g d a) fun t =>
        ∃ u' : Wg, (∀ y, memGet t.mem y = memGet s.mem y) ∧ t.threads = (s.updThread k fun _ => Safety.wrote th d 0 0 1).threads ∧
          t.wgs[th.wg]? = some u' ∧ u' = { u with allocs := rest u.allocs })) ∧
    (th.loss = none → stops (.sret g)) ∧
    (∀ e, th.loss = some e → Safety.Reads s k th (.sret g) fun t => (∀ y, memGet t.mem y = memGet s.mem y) ∧ others t e.alloc false ∧
      t.threads[k]? = some { th with loss := none, pc := e.resume, recheck := e.resume.idx ≠ 0, unmatched := false })) ∧
  (∀ (s : State) (k : Nat) (th : Thread) (u : Wg) (c : Core) (l : Launch) (g : BitVec 3) (d a : BitVec 7), s.threads[k]? = some th →
    s.wgs[th.wg]? = some u → s.cores[u.core]? = some c → s.launches[u.launch]? = some l →
    let quad := fun (x y z w : Word) => s.updThread k fun _ => { Safety.moved th 1 with
      g := (((th.g.set d.toNat x d.isLt).set (d + 1).toNat y (d + 1).isLt).set (d + 2).toNat z (d + 2).isLt).set
        (d + 3).toNat w (d + 3).isLt }
    let stops := fun i : Instr => Safety.Leads s k th i (s.takeTrap k 0x01 (wordOf i))
    let lo := fun x : BitVec 64 => x.extractLsb' 0 32; let hi := fun x : BitVec 64 => x.extractLsb' 32 32
    let base := s.poolVa th.wg 0
    let dead := (c.arrays.filter fun x => x = .retired).length
    let lit := (c.arrays.filter ArrayState.isLit).length
    let budget := fun offset : Int => max 0 (min ((192 - dead : Nat) : Int) (64 + 2 * (c.scol : Int) + offset))
    let f := fun n : Nat => BitVec.ofNat 8 n
    let found := s.allocOf th.wg (th.reg (a + 1) ++ th.reg a)
    let moved := max (-2 ^ 31) (min (2 ^ 31 - 1) (c.offset + (th.reg a).toInt))
    (found = none → stops (.sinfoAlloc g d a)) ∧
    (∀ x, found = some x → let banks := s.banksOf th.wg x.base x.size
      Safety.Leads s k th (.sinfoAlloc g d a) (quad (BitVec.ofNat 32 x.size)
        (BitVec.ofNat 16 (banks.headD 0) ++ f banks.length ++ 0#3 ++ (if x.lost then 1#1 else 0#1) ++ 0#1 ++ x.rank)
        (lo x.handler) (hi x.handler))) ∧
    (th.loss = none → stops (.sinfoEntry g d)) ∧
    (∀ e, th.loss = some e → Safety.Leads s k th (.sinfoEntry g d) (quad (lo (s.poolVa th.wg e.alloc)) (hi (s.poolVa th.wg e.alloc))
      (lo e.ea) (if e.nested then 1 else 0))) ∧
    Safety.Leads s k th (.sinfoCore g d) (quad (lo base) (hi base)
      (f (budget c.offset).toNat ++ f lit ++ f dead ++ f u.poolBanks) 0) ∧
    (l.desc.tb = false → stops (.bdgt g a)) ∧
    (l.desc.tb = true → (lit : Int) ≤ budget moved → Safety.Reads s k th (.bdgt g a) fun t => Safety.kept s t (· = k) ∧
      t.threads[k]? = some (Safety.moved th 1) ∧ t.cores[u.core]? = some { c with offset := moved }))

/-- R317, R322-R325: `cjoin` maps the workgroup's pool into a free slot of its team's commons and gives the region's base;
a member answers 2, a taken slot 1, a reserved bit raises ILLEGAL; `cjoin.info` tells pool, place and members; `cleave` of a
workgroup in no commons answers 1, and with nothing of its own to wait for unmaps its slot and answers 0. Where in the launch's
area the region of a team and a commons lies is the model's choice (log 15). -/
def Obligations.CommonsWords : Prop :=
  ∀ (s : State) (k : Nat) (th : Thread) (u : Wg) (l : Launch) (m : Team) (g : BitVec 3) (d a : BitVec 7), s.threads[k]? = some th →
    s.wgs[th.wg]? = some u → s.launches[u.launch]? = some l → l.teams[u.team]? = some m →
    let v := th.reg a
    let cid := v.extractLsb' 8 3; let slot := v.extractLsb' 0 4
    let holder := fun (x : State) (c n : Nat) => ∃ (l' : Launch) (m' : Team) (ms : List (Option Nat)) (o : Nat), x.launches[u.launch]? = some l' ∧
      l'.teams[u.team]? = some m' ∧ m'.commons[c]? = some ms ∧ ms[n]? = some (some o)
    let free := fun (x : State) (c n : Nat) => ∃ (l' : Launch) (m' : Team) (ms : List (Option Nat)), x.launches[u.launch]? = some l' ∧
      l'.teams[u.team]? = some m' ∧ m'.commons[c]? = some ms ∧ ms[n]? = some none
    let pair := fun x : BitVec 64 => s.updThread k fun _ => Safety.wrotePair th d x 1
    let reserved := v.extractLsb' 11 21 ≠ 0 ∨ v.extractLsb' 4 4 ≠ 0
    let join := Instr.cjoin g d a
    let region := l.commons.toNat + (8 * u.team + cid.toNat) * 2 ^ 29
    (reserved → Safety.Leads s k th join (s.takeTrap k 0x01 (wordOf join))) ∧
    (¬ reserved → u.commons ≠ none → Safety.Leads s k th join (pair 0x8000000000000002#64)) ∧
    (¬ reserved → u.commons = none → holder s cid.toNat slot.toNat → Safety.Leads s k th join (pair 0x8000000000000001#64)) ∧
    (¬ reserved → u.commons = none → free s cid.toNat slot.toNat → Safety.Reads s k th join fun t => ∃ u' : Wg,
      Safety.kept s t (· = k) ∧ t.threads[k]? = some (Safety.wrotePair th d (BitVec.ofNat 64 region) 1) ∧ t.wgs[th.wg]? = some u' ∧
      u' = { u with commons := some (cid, slot), dropped := 0 } ∧ holder t cid.toNat slot.toNat) ∧
    (∃ y : Word, Safety.Leads s k th (.cjoinInfo g d) (s.updThread k fun _ => { Safety.moved th 1 with
        g := (((th.g.set d.toNat ((s.poolVa th.wg 0).extractLsb' 0 32) d.isLt).set (d + 1).toNat ((s.poolVa th.wg 0).extractLsb' 32 32)
          (d + 1).isLt).set (d + 2).toNat y (d + 2).isLt).set (d + 3).toNat (u.dropped.setWidth 32) (d + 3).isLt }) ∧
      (u.commons = none → y = 0) ∧
      ∀ c n, u.commons = some (c, n) → y.extractLsb' 16 4 = n ∧ y.extractLsb' 20 3 = c ∧ y.extractLsb' 23 8 = 0 ∧
        y.getLsbD 31 = true ∧ ∀ j < 16, y.getLsbD j = true ↔ holder s c.toNat j) ∧
    (u.commons = none → Safety.Writes s k th (.cleave g d) d 1 0) ∧
    (∀ c n, u.commons = some (c, n) → th.park = .none → u.hay = [] → u.wadds = [] → s.recordsHeld u.core ≤ 1024 →
      s.slotUsers th.wg c.toNat n.toNat = [] → (∀ (j : Nat) (x : Thread), s.threads[j]? = some x → x.wg = th.wg → x.spec = none) →
      holder s c.toNat n.toNat → Safety.Reads s k th (.cleave g d) fun t => ∃ (y : Thread) (u' : Wg), Safety.aged s t (· = k) ∧
        t.threads[k]? = some y ∧ y = { Safety.wrote th d 0 0 1 with floors := y.floors, lastAcq := y.lastAcq, related := y.related } ∧
        t.wgs[th.wg]? = some u' ∧ u'.commons = none ∧ free t c.toNat n.toNat)

/-! ## Events, launches and the die (R174-R178, R317-R318, R341-R356, R359, R402) -/

/-- R352-R354, R402: the event words. A zero event number or a nonzero upper half raises ILLEGAL (of `evarm` a zero
target); `evsig`, with nothing of the thread's own outstanding, sends one signal; `evwait` passes a set event where no drain is
in progress (R406) and else waits on its list; `evclr` and `evarm` wait for the thread's own signals (log 44, DEDUCED) and write the
event and its table, at a physical address (log 34, the model's choice); `fsig` raises ACCESS for a module outside the job or without
a route, sends its own module a signal of another kind, and another module one flit. -/
def Obligations.EventWords : Prop :=
  ∀ (s : State) (k : Nat) (th : Thread) (u : Wg) (l : Launch) (g : BitVec 3) (a : BitVec 7), Safety.memoryOk s →
    s.threads[k]? = some th → s.wgs[th.wg]? = some u → s.launches[u.launch]? = some l →
    let v := th.reg a
    let e := v.extractLsb' 0 16; let high := v.extractLsb' 16 16; let d := l.desc.domain
    let x := s.event d e
    let m := (v.extractLsb' 16 12).toNat
    let stops := fun i : Instr => Safety.Leads s k th i (s.takeTrap k 0x01 (wordOf i))
    let still := (∀ l, th.park ≠ .drain l) ∧ Safety.noStores s k th.wg ∧ (∀ x ∈ u.wadds, x.thread ≠ k) ∧
      (∀ c ∈ s.copies, c.agent ≠ .thread k) ∧ s.recordsHeld u.core ≤ 1024
    let sends := fun (i : Instr) (ms : List EventMsg) => Safety.Reads s k th i fun t =>
      Safety.kept s t (· = k) ∧ t.threads[k]? = some (Safety.moved th 1) ∧ t.messages = s.messages ++ ms
    let own := ∃ y ∈ s.messages, y.domain = d ∧ y.num = e ∧ y.from_ = some (.thread k)
    let becomes := fun (i : Instr) (target : BitVec 16) => Safety.Reads s k th i fun t =>
      t.threads = (s.updThread k fun _ => Safety.moved th 1).threads ∧
      t.event d e = { x with target := target, count := 0, set := false, remote := false } ∧
      (s.eventTable d = none → t.mem = s.mem) ∧
      ∀ base, s.eventTable d = some base → Safety.stored s t (base + 8 * e.toNat)
        [0, 0, 0, 0, target.extractLsb' 0 8, target.extractLsb' 8 8, 0, 0]
    (e = 0 ∨ high ≠ 0 → ∀ i ∈ [Instr.evsig g a, .evwait g a, .evclr g a], stops i) ∧
    (e = 0 ∨ high = 0 → stops (.evarm g a)) ∧
    (e ≠ 0 → high = 0 →
      (still → sends (.evsig g a) [⟨d, e, some (.thread k), false⟩]) ∧
      (x.set = true → th.park.acquires = false → Safety.undrained s → Safety.Issues s k th (.evwait g a) →
        Safety.Acquires s k (.evwait g a) (Safety.moved th 1) fun _ => True) ∧
      (x.set = false → th.park.acquires = false → Safety.Reads s k th (.evwait g a) fun t =>
        t.threads = (s.updThread k fun _ => { th with park := .event d e }).threads ∧
        .squad th.wg th.squad ∈ (t.event d e).waiters ∧ (t.event d e).set = false ∧ (t.event d e).count = x.count ∧
        (s.eventTable d = none → t.mem = s.mem)) ∧
      (own → Safety.Leads s k th (.evclr g a) s) ∧ (¬ own → becomes (.evclr g a) x.target)) ∧
    (e ≠ 0 → high ≠ 0 → (own → Safety.Leads s k th (.evarm g a) s) ∧ (¬ own → becomes (.evarm g a) high)) ∧
    (e = 0 ∨ v.extractLsb' 28 4 ≠ 0 → stops (.fsig g a)) ∧
    (e ≠ 0 → v.extractLsb' 28 4 = 0 →
      (s.inJob th.wg m = false ∨ (m ≠ s.fabricNo.toNat ∧ s.routed m = false) → Safety.Leads s k th (.fsig g a) (s.takeTrap k 0x08 v)) ∧
      (s.inJob th.wg m = true → m = s.fabricNo.toNat → still → sends (.fsig g a) [⟨d, e, some (.thread k), true⟩]) ∧
      (s.inJob th.wg m = true → m ≠ s.fabricNo.toNat → s.routed m = true → still → sends (.fsig g a) [] ∧
        Safety.Reads s k th (.fsig g a) fun t => ∃ (n : Nat) (y : FLink) (f : Flit), s.flinks[n]? = some y ∧ y.up = true ∧
          f.message = .signal d e ∧ f.dest.toNat = m ∧ f.seq = y.seqOut ∧
          t.flinks = s.flinks.set n { y with seqOut := y.seqOut + 1, sent := y.sent ++ [f] }))

/-- R350, R352-R354, R356, R402: a signal that arrives at a set event does nothing; short of the target it is counted; at
the target the event is set, every thread parked on it goes on where no drain is in progress (R406), and a queued launch whose
events are then all set is ready, and stays so (log 44, DEDUCED). ALMANAC_ERROR puts the event back from its table, read at a
physical address (log 34, the model's choice) and a target of zero there as 1 (log 74), and kills a workgroup that waits among the
hardware's eight. -/
def Obligations.EventSignals : Prop :=
  ∀ (s : State) (d : Nat) (e : BitVec 16) (remote : Bool),
    let x := s.event d e
    let arrives := fun (i : Instr) (left : List EventMsg) =>
      (x.set = true → exec i s = .next { s with messages := left }) ∧
      (x.set = false → x.count + 1 ≠ x.target → ∃ t, exec i s = .next t ∧ t.threads = s.threads ∧ t.messages = left ∧
        t.event d e = { x with count := x.count + 1, remote := x.remote || remote }) ∧
      (x.set = false → x.count + 1 = x.target → Safety.undrained s → ∃ t, exec i s = .next t ∧ t.messages = left ∧
        (t.event d e).set = true ∧ (t.event d e).count = 0 ∧ (t.event d e).target = x.target ∧
        (∀ (j : Nat) (y : Thread), s.threads[j]? = some y →
          (y.park ≠ .event d e → ∃ z : Thread, t.threads[j]? = some z ∧ z = { y with floors := z.floors }) ∧
          (y.park = .event d e → ∃ z : Thread, t.threads[j]? = some z ∧ z = { Safety.moved y 1 with
            floors := z.floors, lastAcq := z.lastAcq, related := z.related })) ∧
        ∀ (l : Nat) (y : Launch), s.launches[l]? = some y → t.launches[l]? = some
          (if y.state = .queued ∧ ∀ w ∈ y.desc.waits, w = 0 ∨ (t.event y.desc.domain w).set = true then { y with state := .ready } else y))
    (∀ (n : Nat) (from_ : Option Agent), s.messages[n]? = some ⟨d, e, from_, remote⟩ →
      arrives (.eventSignalApply n) (s.messages.eraseIdx n)) ∧
    (remote = true → e ≠ 0 → arrives (.fsigArrival d e) s.messages) ∧
    (∀ base, s.eventTable d = some base → (∀ y ∈ x.waiters, s.waiting d e y = false) →
      let v := memDouble s.mem (base + 8 * e.toNat)
      ∃ t, exec (.almanacError d e) s = .next t ∧ t.threads = s.threads ∧ t.wgs = s.wgs ∧
        t.event d e = { x with
          target := if v.extractLsb' 32 16 = 0 then 1 else v.extractLsb' 32 16
          count := v.extractLsb' 16 16, set := v.getLsbD 0, waiters := [] }) ∧
    (∀ (w q : Nat) (u : Wg), x.waiters.length ≤ 8 → .squad w q ∈ x.waiters → s.waiting d e (.squad w q) = true → s.wgs[w]? = some u →
      u.state = .resident → ∃ (t : State) (u' : Wg), exec (.almanacError d e) s = .next t ∧ t.wgs[w]? = some u' ∧
        (u'.state = .killed ∨ u'.state = .failed))

/-- R348, R349, R351: `lnch` asks Meridian and waits; LNCH_ANSWER gives status 1 for a full queue, 2 for a descriptor or a
shape record outside its limits, 3 for a team that fits no cluster, and else the launch joins the queue, ready if its
events are all set, and the pair is its number. The low 29 bits of the commons base that Worxus gives are dropped (log 15), and
launches queued and ready count against the queue's 256 (log 45): the model's reading. `wgdone`, with nothing of the thread's own
outstanding, signals the workgroup's event once. -/
def Obligations.LaunchWords : Prop :=
  ∀ (s : State) (k : Nat) (th : Thread) (u : Wg) (l : Launch) (g : BitVec 3) (d a : BitVec 7), Safety.memoryOk s → s.threads[k]? = some th →
    s.wgs[th.wg]? = some u → s.launches[u.launch]? = some l →
    let still := (∀ l, th.park ≠ .drain l) ∧ Safety.noStores s k th.wg ∧ (∀ x ∈ u.wadds, x.thread ≠ k) ∧
      (∀ c ∈ s.copies, c.agent ≠ .thread k) ∧ s.recordsHeld u.core ≤ 1024
    let signals := u.published = false ∧ l.desc.wgev ≠ 0
    Safety.Leads s k th (.lnch g d a)
      ({ s with requests := s.requests ++ [(⟨th.wg, some k, (th.reg (a + 1) ++ th.reg a).setWidth 57, d, (.thread k, s.draw)⟩ : LaunchRequest)] }.updThread k fun _ =>
        { th with park := .launch }) ∧
    (still → Safety.Reads s k th (.wgdone g) fun t => ∃ u' : Wg, Safety.kept s t (· = k) ∧ t.threads[k]? = some (Safety.moved th 1) ∧
      t.wgs[th.wg]? = some u' ∧ (signals → u'.published = true ∧
        t.messages = s.messages ++ [⟨l.desc.domain, l.desc.wgev, some (.thread k), false⟩]) ∧ (¬ signals → t.messages = s.messages)) ∧
    (∀ (r : Nat) (sys : WorxusLaunch) (by_ : Agent × Nat), th.park = .launch →
      s.requests[r]? = some ⟨th.wg, some k, (th.reg (a + 1) ++ th.reg a).setWidth 57, d, by_⟩ →
      let va := ((th.reg (a + 1) ++ th.reg a).setWidth 57 : VAddr).toNat
      let f := s.wordsVa th.wg va
      let desc := descOf f l.desc.priv l.desc.domain sys
      let broken := va % 256 ≠ 0 ∨ descOk f = false ∨ (badShape (s.wordsVa th.wg) desc).isSome = true
      let answers := fun (v : BitVec 64) (P : State → Prop) => ∃ t, exec (.lnchAnswer r sys) s = .next t ∧ P t ∧
        t.requests = s.requests.eraseIdx r ∧ t.threads = (s.updThread k fun _ => Safety.wrotePair th d v 1).threads
      let turned := fun t : State => t.launches = s.launches
      (256 ≤ s.queueOf l.proc → answers 0x8000000000000001 turned) ∧
      (s.queueOf l.proc < 256 → broken → answers 0x8000000000000002 turned) ∧
      (s.queueOf l.proc < 256 → ¬ broken → s.fitsSomewhere desc = false → answers 0x8000000000000003 turned) ∧
      (s.queueOf l.proc < 256 → ¬ broken → s.fitsSomewhere desc = true → answers (sys.id.setWidth 64) fun t =>
        ∃ y : Launch, t.launches[s.launches.length]? = some y ∧ y.id = sys.id ∧ y.proc = l.proc ∧ y.desc = desc ∧ y.by_ = some by_ ∧
          y.pool = sys.pool ∧ y.commons = (sys.commons &&& ~~~0x1FFFFFFF#57) ∧
          y.state = if ∀ w ∈ desc.waits, w = 0 ∨ (s.event desc.domain w).set = true then .ready else .queued))

/-- R175-R178, R317, R318, R350, R359: a ready launch at the head of its queue, and of the queue served next, begins placement;
a team of one whose core has room is placed, its threads at their roles' entries with every register zero, and one that finds
no room waits at its Stile; a workgroup whose work is done ends, its pool's bytes gone, and its launch with the last, each with its signal; Worxus
ends a launch that fits nowhere; a charge report charges and clears what its workgroups have run up. -/
def Obligations.LaunchLife : Prop :=
  ∀ (s : State) (l : Nat) (x : Launch), s.launches[l]? = some x →
    let put := fun st : LaunchState => { s with launches := s.launches.modify l fun x => { x with state := st } }
    (x.state = .ready → (∀ (n : Nat) (y : Launch), n < l → s.launches[n]? = some y → y.proc = x.proc → y.state ≠ .ready) →
      s.servedNext l = true → exec (.launchReady l) s = .next (put .placing)) ∧
    (x.state ≠ .ended → (x.teams.length * x.desc.team < x.desc.grid ∨ ∃ q ∈ s.placements, ∃ n, (l, n) ∈ q) →
      s.fitsSomewhere x.desc = false → ∃ t, exec (.worxusEndsLaunch l) s = .next t ∧ t.threads = s.threads ∧ t.wgs = s.wgs ∧
        t.mem = s.mem ∧ t.placements = s.placements.map (fun q => q.filter fun y => y.1 ≠ l) ∧
        t.launches[l]? = some { x with state := .ended, reported := true } ∧
        ∀ (n : Nat) (y : Launch), n ≠ l → s.launches[n]? = some y → ∃ z : Launch, t.launches[n]? = some z ∧
          z = { y with reported := z.reported }) ∧
    (∀ (core : Nat) (tvec csb : VAddr) (link : CmdLink) (q : List (Nat × Nat)), s.boot.ready = true → x.state = .placing →
      x.desc.team = 1 → x.teams.length < x.desc.grid → s.links[core / 4]? = some link → link.down ≠ 0 → link.held = [] →
      s.placements[core / 4]? = some q → (∀ y ∈ q, y.1 ≠ l) → s.fitsCluster (core / 4) x.desc = true → x.desc.squads ≤ 32 →
      (s.fits core x.proc x.desc = false → ∃ t, exec (.teamPlacement l [core] tvec csb) s = .next t ∧ t.wgs = s.wgs ∧
        t.threads = s.threads ∧ t.mem = s.mem ∧ t.placements = s.placements.set (core / 4) (q ++ [(l, x.teams.length)])) ∧
      (s.fits core x.proc x.desc = true → ∃ (t : State) (u : Wg), exec (.teamPlacement l [core] tvec csb) s = .next t ∧ t.wgs.length = s.wgs.length + 1 ∧
        t.wgs[s.wgs.length]? = some u ∧ u.state = .resident ∧ u.core = core ∧ u.launch = l ∧ u.wgid = BitVec.ofNat 24 x.teams.length ∧
        u.poolBanks = x.desc.banks ∧ u.allocs = [] ∧ u.hay = [] ∧ u.squads.length = x.desc.squads ∧
        t.threads.length = s.threads.length + 32 * x.desc.squads ∧
        ∀ n < 32 * x.desc.squads, ∃ y : Thread, t.threads[s.threads.length + n]? = some y ∧ y.wg = s.wgs.length ∧ y.tid.toNat = n ∧
          y.pc = ⟨if n < 32 * x.desc.squads0 then x.desc.entry0 else x.desc.entry1, 0⟩ ∧ (∀ r, y.reg r = 0) ∧ y.tvec = tvec ∧
          y.exited = false ∧ y.handler = none ∧ y.spec = none ∧ y.loads = [])) ∧
    (∀ (w : Nat) (u : Wg), s.wgs[w]? = some u → u.launch = l → u.state = .resident →
      (∀ (i : Nat) (y : Thread), s.threads[i]? = some y → y.wg = w → y.exited = true) →
      (∀ d, u.drive = some d → d.halted = true ∧ d.ops = []) → (∀ c ∈ s.copies, c.wg = w → c.form = .detach) →
      u.hay = [] → u.wadds = [] →
      let last := ((s.wgs.zipIdx.filter fun y => y.1.launch = l).length = x.desc.grid) ∧ x.state ≠ .ended ∧
        ∀ y ∈ s.wgs.zipIdx, y.1.launch = l → y.2 ≠ w → y.1.state = .ended
      ∃ (t : State) (u' : Wg), exec (.workgroupEnd w) s = .next t ∧ Safety.poolGone s t u ∧ t.threads = s.threads ∧
        t.wgs[w]? = some u' ∧ u'.state = .ended ∧ u'.commons = none ∧ (∀ q ∈ u'.squads, q.slot = none) ∧
        (last → ∃ y : Launch, t.launches[l]? = some y ∧ y.state = .ended) ∧
        (¬ last → ∃ y : Launch, t.launches[l]? = some y ∧ y.state = x.state) ∧
        t.messages = s.messages ++ (if u.published = false ∧ x.desc.wgev ≠ 0 then ([⟨x.desc.domain, x.desc.wgev, none, false⟩] : List EventMsg) else []) ++
          (if last ∧ x.desc.done ≠ 0 then ([⟨x.desc.domain, x.desc.done, none, false⟩] : List EventMsg) else [])) ∧
    (∀ (stile w : Nat) (u : Wg) (p : Process) (n : Node), Safety.permits s stile → stile < s.links.length → s.wgs[w]? = some u → u.core / 4 = stile →
      (∀ r ∈ s.rcores, r.leaf = none) → (∀ (j : Nat) (y : Wg), s.wgs[j]? = some y → j ≠ w → y.core / 4 ≠ stile) → u.launch = l → s.processes[x.proc]? = some p →
      s.tree[p.leaf]? = some n → n.parent = none → ∃ t, exec (.chargeReport stile) s = .next t ∧ t.threads = s.threads ∧ t.mem = s.mem ∧
        t.wgs = s.wgs.set w { u with charge := 0 } ∧
        t.tree = s.tree.set p.leaf { n with v := n.v + (u.charge : Rat) / 64 * 10 / 21 / n.weight })

/-- R341-R347: `ptsync` of an unprivileged launch raises ILLEGAL; of a privileged one, and of a resident core, it takes the translations
of the page, or of the process, out of every buffer, and `icinv` takes the line of its address out of the instruction caches within
its scope. The doorbell replays a parked access: where its page has come, the slot is free and the thread tries again; where it has
not, the count rises and a record is posted. An expansion takes a frame, fills it with the image and marks the page's entry; its
completion points the entry at the frame. Frames supplied join the ring, which holds 1,024. What an image of 64 KiB gives is open
(log 12), and the record of an expansion that finds no frame is the model's reading (log 46). -/
def Obligations.TranslationsAndPages : Prop :=
  (∀ (s : State) (k : Nat) (th : Thread) (u : Wg) (l : Launch) (g : BitVec 3) (a : BitVec 7) (sc : BitVec 4), s.threads[k]? = some th →
    s.wgs[th.wg]? = some u → s.launches[u.launch]? = some l → (∀ h ∈ s.hubs, ∀ x ∈ h.slots, x = none) →
    let va := th.reg (a + 1) ++ th.reg a
    let dropped := fun (t : State) (p : Nat) (f : Cached → Bool) =>
      t.cores = (s.cores.map fun c => { c with tlb := c.tlb.filter fun x => !(x.proc = p && f x) }) ∧
      t.hubs = (s.hubs.map fun h => { h with walk := h.walk.filter fun x => !(x.proc = p && f x) })
    let holds := fun (n : Nat) (x : Cached) => decide (x.base ≤ n ∧ n < x.base + x.size)
    let stops := fun i : Instr => Safety.Leads s k th i (s.takeTrap k 0x01 (wordOf i))
    let syncs := fun (i : Instr) (f : Cached → Bool) => Safety.Reads s k th i fun t => ∃ y : Thread,
      dropped t l.proc f ∧ Safety.aged s t (· = k) ∧ t.threads[k]? = some y ∧ y = { Safety.moved th 1 with floors := y.floors }
    let near := fun c : Nat => if sc = 3 then c = u.core else if sc = 5 then c / 4 = u.core / 4 else if sc = 6 then c / 16 = u.core / 16 else True
    (l.desc.priv = false → stops (.ptsyncPage g a) ∧ stops (.ptsyncAll g)) ∧
    (l.desc.priv = true → syncs (.ptsyncPage g a) (holds va.toNat) ∧ syncs (.ptsyncAll g) fun _ => true) ∧
    (∀ p < s.processes.length, (∀ n : VAddr, ∃ t, exec (.hubPtsync p (some n)) s = .next t ∧ dropped t p (holds n.toNat) ∧
      Safety.aged s t fun _ => False) ∧ ∃ t, exec (.hubPtsync p none) s = .next t ∧ (dropped t p fun _ => true) ∧ Safety.aged s t fun _ => False) ∧
    (∀ phys : Option Nat, s.physVa th.wg va.toNat = phys → Safety.Reads s k th (.icinv g a sc) fun t =>
      Safety.kept s t (· = k) ∧ t.threads[k]? = some (Safety.moved th 1) ∧ ∀ (c : Nat) (x : Core), s.cores[c]? = some x →
        (near c → ∀ n, phys = some n → t.cores[c]? = some { x with icache := x.icache.filter fun y => y.line ≠ n / 128 }) ∧
        (¬ near c ∨ phys = none → t.cores[c]? = some x))) ∧
  (∀ (s : State) (die : Nat) (h : Hub), s.hubs[die]? = some h → Safety.memoryOk s →
    (∀ fs : List (BitVec 52), exec (.frameRingSupply die fs) s =
      .next { s with hubs := s.hubs.set die { h with frames := (h.frames ++ fs).take 1024 } }) ∧
    (∀ (n j : Nat) (p : ParkedAccess) (y : Thread) (x : Nat) (perm : BitVec 3), h.expands = [] → h.slots[n]? = some (some p) →
      p.waiter = .thread j → s.threads[j]? = some y → y.park = .page → (s.lookParked die p).placeParked die p = .page x perm →
      ∃ (t : State) (h' : Hub) (z : Thread), exec (.replayDoorbell die n) s = .next t ∧ t.hubs[die]? = some h' ∧ h'.slots = h.slots.set n none ∧
        Safety.aged s t (· = j) ∧ t.threads[j]? = some z ∧ z = { y with park := .none, floors := z.floors }) ∧
    (∀ (n : Nat) (p : ParkedAccess) (perm : BitVec 3), h.expands = [] → h.slots[n]? = some (some p) → p.count < 3 → Safety.permits s (p.core / 4) →
      (s.lookParked die p).placeParked die p = .absent 2 perm →
      ∃ (t : State) (h' : Hub), exec (.replayDoorbell die n) s = .next t ∧ t.hubs[die]? = some h' ∧
        h'.slots = h.slots.set n (some { p with count := p.count + 1 }) ∧ t.faults.length = s.faults.length + 1 ∧
        Safety.aged s t fun _ => False) ∧
    (∀ (n a : Nat) (e : Expand), h.expands[n]? = some e → s.leafHome e.proc e.va.toNat = some a →
      let pte := memDouble s.mem a
      let same := fun (q : BitVec 64) (st : BitVec 2) => q.extractLsb' 0 6 = pte.extractLsb' 0 6 ∧ q.extractLsb' 6 2 = st ∧
        q.extractLsb' 52 12 = pte.extractLsb' 52 12
      (e.frame = none → e.waits = false → (pte.extractLsb' 6 2 = 1 ∨ pte.extractLsb' 6 2 = 3) →
        (pte.extractLsb' 8 44).toNat * 256 = e.image →
        (∀ (f : BitVec 52) (rest : List (BitVec 52)), h.frames = f :: rest →
          let first := f.toNat / 65536 * 65536
          (a + 8 ≤ first ∨ first + 65536 ≤ a) → (a + 8 ≤ e.image ∨ e.image + 65536 ≤ a) →
          ∃ (t : State) (h' : Hub), exec (.expansion die n) s = .next t ∧ (∀ (j : Nat) (y : Thread), s.threads[j]? = some y →
            ∃ z : Thread, t.threads[j]? = some z ∧ z = { y with floors := z.floors }) ∧ t.hubs[die]? = some h' ∧ h' = { h with frames := rest, expands := h.expands.set n { e with frame := some f } } ∧
            (∀ j < 65536, memGet t.mem (first + j) = Config.expandedByte (memRead s.mem e.image 65536) j) ∧ same (memDouble t.mem a) 3 ∧
            (memDouble t.mem a).extractLsb' 8 44 = pte.extractLsb' 8 44 ∧
            ∀ b, b < a ∨ a + 8 ≤ b → b < first ∨ first + 65536 ≤ b → memGet t.mem b = memGet s.mem b) ∧
        (h.frames = [] → Safety.permits s (e.core / 4) → ∃ (t : State) (h' : Hub), exec (.expansion die n) s = .next t ∧ t.threads = s.threads ∧ t.hubs[die]? = some h' ∧
          h' = { h with expands := h.expands.set n { e with waits := true } } ∧ t.faults.length = s.faults.length + 1)) ∧
      (∀ f : BitVec 52, e.frame = some f → (∀ x ∈ s.hubs, ∀ y ∈ x.slots, y = none) →
        ∃ (t : State) (h' : Hub), exec (.expansionComplete die n) s = .next t ∧ t.threads = s.threads ∧ t.hubs[die]? = some h' ∧
          h'.expands = h.expands.eraseIdx n ∧ h'.frames = h.frames ∧ same (memDouble t.mem a) 0 ∧
          (memDouble t.mem a).extractLsb' 16 36 = f.extractLsb' 16 36 ∧ t.notices = s.notices ++ [.imageReturned e.image] ∧
          ∀ b, b < a ∨ a + 8 ≤ b → memGet t.mem b = memGet s.mem b)))

/-! ## Streams, cores and recovery (R33-R36, R179-R182, R215, R292-R305, R331, R356, R358, R377-R379) -/

/-- R33-R36, R45, R245: a stream takes the header it stands before: a clause is fetched from an executable mapping, word by
word; with a valid header and its limits met the stream stands at its first word, or at the word it was to return to; with
limits unmet it stays; an invalid header raises ILLEGAL_CLAUSE, and no executable mapping raises FETCH. The fetch's lookup may find a
page come, of which nothing has been seen yet (log 6). -/
def Obligations.ClauseHeaders : Prop :=
  ∀ (s : State) (k w : Nat) (th : Thread) (d : Drive) (c : Clause) (q : Cached) (phys : Nat) (perm : BitVec 3) (x : Core),
    let h := c.header
    let valid := h.extractLsb' 0 6 = 0b101101#6 ∧ h.extractLsb' 6 3 = 0 ∧ h.extractLsb' 28 4 ≠ 0 ∧ (h.extractLsb' 25 3).toNat < 6
    let met := fun (n : Nat) (f : BitVec 4) => f = 15 ∨ n ≤ f.toNat
    let all := met th.loads.length (h.extractLsb' 21 4) ∧ met (s.storesLimited th.wg k) (h.extractLsb' 17 4) ∧
      met (s.copiesOf (.thread k)) (h.extractLsb' 13 4)
    let driveAll := met (s.copiesOf (.drive w)) (h.extractLsb' 13 4) ∧ met d.ops.length (h.extractLsb' 9 4)
    let at_ := fun (pc : Pc) => (⟨pc.hdr, if pc.idx = 0 then 1 else pc.idx⟩ : Pc)
    let goes := fun (P : State → Prop) => ∃ t, exec .clauseHeaderTake s = .next t ∧ P t
    let first := memWord s.mem phys
    (∀ (v : Nat) (hdr : VAddr), s.leaf (s.coreOf v) (s.procOf v) hdr.toNat = some q → q.place hdr.toNat = .page phys perm →
      perm.getLsbD 2 = true → s.cores[s.coreOf v]? = some x → x.icache = [] →
      s.fetchClause v hdr = .clause ⟨first, (List.range (first.extractLsb' 28 4).toNat).map fun n =>
        if hdr.toNat + 4 * (n + 1) < q.base + q.size then some (memWord s.mem (phys + 4 * (n + 1))) else none⟩) ∧
    (s.issuer = some (.thread k) → s.threads[k]? = some th → th.pc.idx = 0 ∨ th.recheck = true →
      (s.fetchClause th.wg th.pc.hdr = .fault → exec .clauseHeaderTake s = .next (s.takeTrap k 0x07 (th.pc.hdr.setWidth 32))) ∧
      (s.fetchClause th.wg th.pc.hdr = .clause c →
        (valid → all → goes fun t => ∃ y : Thread, Safety.aged s t (· = k) ∧ t.threads[k]? = some y ∧
          y = { th with clause := c, recheck := false, pc := at_ th.pc, floors := y.floors }) ∧
        (valid → ¬ all → goes fun t => Safety.aged s t fun _ => False) ∧
        (¬ valid → th.spec = none → th.handler = none → goes fun t => ∃ y : Thread, t.threads[k]? = some y ∧ y.tcause = 2 ∧ y.tval = h ∧
          y.tpc = th.pc.hdr ∧ y.pc = ⟨th.tvec, 0⟩ ∧ y.g = th.g ∧ y.handler = some ⟨th.pc.hdr, 0⟩))) ∧
    (s.issuer = some (.drive w) → s.drive? w = some d → d.pc.idx = 0 ∨ d.recheck = true → s.fetchClause w d.pc.hdr = .clause c →
      (valid → h.extractLsb' 25 3 = 4 → driveAll → goes fun t => Safety.aged s t (fun _ => False) ∧
        t.drive? w = some { d with clause := c, recheck := false, pc := at_ d.pc }) ∧
      (valid → h.extractLsb' 25 3 = 4 → ¬ driveAll → goes fun t => Safety.aged s t (fun _ => False) ∧ t.drive? w = some d) ∧
      (¬ valid ∨ h.extractLsb' 25 3 ≠ 4 → goes fun t => ∃ u : Wg, t.wgs[w]? = some u ∧ u.state = .failed))

/-- R181, R182, R377-R379: a swap begins with the lowest free slot (log 17, DEDUCED), or with the slot of the active squad that became
blocked long latest, which leaves it, and brings in the pending squad ready for the longest time; 40 ac later it ends with the squad in the slot; a comparator holds the stream that stands before its word; the handler lets a held
stream go on, its word not matched again, or, after `brk` or a move of its place, matched where it stands. -/
def Obligations.SwapsAndHolds : Prop :=
  ∀ (s : State) (c n w q : Nat) (x : Core) (th : Thread) (d : Drive) (k : Nat), s.cores[c]? = some x →
    let swaps := fun v : Option Swap => { s with cores := s.cores.set c { x with swap := v } }
    let placed := fun (s : State) (w q : Nat) (v : Option Nat) => s.updSquad w q fun y => { y with slot := v, since := none }
    let ready := fun (w q : Nat) => (w, q) ∈ s.squadsOn c ∧ s.pending c w q = true ∧ (s.sinceOf (w, q)).isSome = true ∧ s.squadReady w q = true
    let blocked := fun (m a b : Nat) => m < 8 ∧ s.inSlot c m = some (a, b) ∧ (s.sinceOf (a, b)).isSome = true ∧ s.blockedLong a b = true
    let rank := fun (a b : Nat) => s.rankOf (a, b) ((s.sinceOf (a, b)).getD 0)
    (x.swap = none → ready w q → (∀ a b, ready a b → (a, b) = (w, q) ∨ rankLt (rank w q) (rank a b) = true) →
      (s.freeSlotOf c = some n → exec (.squadSwapBegin c n w q) s = .next (swaps (some ⟨n, w, q, s.clk⟩))) ∧
      (∀ a b, s.freeSlotOf c = none → blocked n a b → (∀ m i j, blocked m i j → m = n ∨ rankLt (rank i j) (rank a b) = true) →
        exec (.squadSwapBegin c n w q) s = .next (placed (swaps (some ⟨n, w, q, s.clk⟩)) a b none))) ∧
    (∀ v : Nat, x.swap = some ⟨n, w, q, v⟩ → v + 40 ≤ s.clk → exec (.squadSwapEnd c) s = .next (placed (swaps none) w q (some n))) ∧
    (s.threads[k]? = some th →
      (s.issuer = some (.thread k) → th.unmatched = false → s.comparator th.wg false th.squad (wordAddr th.pc) = some n →
        ∃ (t : State) (y : Hold), exec (.pcComparatorHold n) s = .next t ∧ t.threads = s.threads.set k { th with hold := some y } ∧
          y.brk = false) ∧
      (∀ y : Hold, th.hold = some y → y.record = none → exec (.debugHandlerResume false k) s =
        .next (s.updThread k fun _ => { th with hold := none, unmatched := !y.brk }))) ∧
    (s.drive? w = some d →
      (s.issuer = some (.drive w) → d.unmatched = false → s.comparator w true 0 (wordAddr d.pc) = some n →
        ∃ (t : State) (y : Hold), exec (.pcComparatorHold n) s = .next t ∧ t.threads = s.threads ∧
          t.drive? w = some { d with hold := some y }) ∧
      (∀ y : Hold, d.hold = some y → y.record = none → exec (.debugHandlerResume true w) s =
        .next (s.updDrive w fun _ => { d with hold := none, unmatched := !y.brk })))

/-- R292, R298, R319, R331, R358, R378: a command takes a permit and takes effect at its Stile, or is held behind others: a
pre-emption request reaches every member of a team that may be pre-empted and has none, and is else ignored; a resumption goes to
the Stile that is to resume the team and reaches every saved member, whose saved context a debug handler may have edited, and is
ignored for a team with none; a kill reaches its workgroup, withdrawal and return their core. An
acknowledgement gives the permit back, or sends the next command or report. -/
def Obligations.Commands : Prop :=
  ∀ (s : State) (l t w c stile : Nat) (x : Launch) (m : Team) (link : CmdLink), s.launches[l]? = some x → x.teams[t]? = some m →
    s.links[stile]? = some link →
    let open_ := link.down ≠ 0 ∧ link.held = []
    let sent := { link with down := link.down - 1 }
    let member := fun u : Wg => u.launch = l ∧ u.team = t
    let busy := ∃ u ∈ s.wgs, member u ∧ (u.request ≠ none ∨ u.state = .saving)
    let wgs := fun f : Wg → Wg => { s with links := s.links.set stile sent, wgs := s.wgs.map fun u => if member u then f u else u }
    let holds := fun (i : Instr) (k : Command) => ¬ open_ → exec i s = .next { s with links := s.links.set stile { link with held := link.held ++ [k] } }
    let states := fun st : WgState => ∃ u ∈ s.wgs, member u ∧ u.state = st
    let core := fun (s : State) (v : Bool) => s.updCore c fun k => { k with withdrawn := v }
    (m.cluster = stile → holds (.preemptTeam l t) (.preempt l t) ∧
      (open_ → ¬ busy → x.desc.pre = true → exec (.preemptTeam l t) s =
        .next (wgs fun u => if u.state = .resident ∨ u.state = .lighting ∨ u.state = .restored then
          { u with request := some ⟨s.clk, false, false⟩ } else u)) ∧
      (open_ → busy ∨ x.desc.pre = false → exec (.preemptTeam l t) s = .next (wgs id))) ∧
    (let resumes := fun es : List ContextEdit => Instr.resumeTeam (l, t, stile) es;
      holds (resumes []) (.resume l t stile) ∧
      (open_ → states .saving ∨ (¬ states .saved ∧ ¬ states .resuming) → exec (resumes []) s = .next (wgs id)) ∧
      ∀ L : List Launch, (if ∃ u ∈ s.wgs, member u ∧ u.resident = true then L = s.launches else
          L = s.launches.set l { x with teams := x.teams.set t { m with cluster := stile } }) → open_ → states .saved → ¬ states .saving →
        let resumed := { (wgs fun u => if u.state = .saved then { u with state := .resuming } else u) with launches := L }
        exec (resumes []) s = .next resumed ∧
        (∀ (i : Nat) (y : Thread) (u : Wg) (pc : VAddr × BitVec 4) (r : BitVec 7) (v : Word) (j : BitVec 2) (mask : Word) (p : BitVec 7)
            (rm flags cause val ac : Word) (tpc tvec csb : VAddr) (stack : List VAddr) (depth : BitVec 13),
          s.threads[i]? = some y → s.wgs[y.wg]? = some u → member u → u.state = .saved → stack.length ≤ 16 →
          exec (resumes [.thread i ⟨some pc, [(r, v)], [(j, mask)], some p, some rm, some flags, some cause, some val, some ac, some tpc,
            some tvec, some csb, some (stack, depth)⟩]) s = .next { resumed with threads := s.threads.set i { y with
              pc := ⟨pc.1, pc.2⟩, g := y.g.set r.toNat v r.isLt, m := y.m.set j.toNat mask j.isLt, p := p, rm := rm, flags := flags
              tcause := cause, tval := val, tac := ac, tpc := tpc, tvec := tvec, csb := csb, stack := stack, depth := depth
              unmatched := false, hold := y.hold.map fun h => { h with brk := true } } }) ∧
        (∀ (u : Wg) (y : Drive) (pc : VAddr × BitVec 4) (r : BitVec 5) (v : Word) (mode : BitVec 3), s.wgs[w]? = some u → u.drive = some y →
          member u → u.state = .saved → exec (resumes [.drive w (some pc) [(r, v)] (some mode)]) s = .next (resumed.updDrive w fun _ =>
            { y with pc := ⟨pc.1, pc.2⟩, d := y.d.set r.toNat v r.isLt, mode := mode, unmatched := false
                     hold := y.hold.map fun h => { h with brk := true } })) ∧
        ∀ (u : Wg) (n off : Nat) (y : Kept) (a : Alloc) (b : Byte), s.wgs[w]? = some u → member u → u.state = .saved → u.kept[n]? = some y →
          Memory.wf y.bytes = true → a ∈ u.allocs → a.base = y.base → a.lost = false → a.base ≤ off → off < a.base + a.size →
          ∃ (t : State) (u' : Wg) (y' : Kept), exec (resumes [.scratch w off [b]]) s = .next t ∧ t.threads = s.threads ∧ t.mem = s.mem ∧
            t.wgs[w]? = some u' ∧ u'.kept[n]? = some y' ∧ y'.base = y.base ∧
            ∀ c, memGet y'.bytes c = if c = off - y.base then b else memGet y.bytes c) ∧
    (∀ u : Wg, s.wgs[w]? = some u → u.core / 4 = stile → holds (.killWorkgroup w) (.kill w) ∧
      (open_ → link.up ≠ 0 → link.upHeld = [] → u.state = .resident → ∃ (t : State) (u' : Wg), exec (.killWorkgroup w) s = .next t ∧ t.wgs[w]? = some u' ∧
        (u'.state = .killed ∨ u'.state = .failed) ∧ t.failures.length = s.failures.length + 1)) ∧
    (c < s.cores.length → c / 4 = stile → holds (.withdrawCore c) (.withdraw c) ∧ holds (.returnCore c) (.return_ c) ∧
      (open_ → exec (.returnCore c) s = .next (core { s with links := s.links.set stile sent } false)) ∧
      (open_ → (∀ u ∈ s.wgs, u.core = c → u.resident = false) →
        exec (.withdrawCore c) s = .next (core { s with links := s.links.set stile sent } true))) ∧
    (link.down < 8 → link.held = [] → exec (.commandAck stile false) s =
      .next { s with links := s.links.set stile { link with down := link.down + 1 } }) ∧
    (link.down < 8 → ∀ rest, link.held = .return_ c :: rest → exec (.commandAck stile false) s =
      .next (core { s with links := s.links.set stile { link with held := rest } } false)) ∧
    (link.up < 8 →
      (link.upHeld = [] → exec (.commandAck stile true) s = .next { s with links := s.links.set stile { link with up := link.up + 1 } }) ∧
      ∀ rest : List Report, let back := s.links.set stile { link with upHeld := rest }
        (∀ n, link.upHeld = .news n :: rest → exec (.commandAck stile true) s = .next { s with links := back, notices := s.notices ++ [n] }) ∧
        (∀ r, link.upHeld = .fault r :: rest → exec (.commandAck stile true) s = .next { s with links := back, faults := s.faults ++ [r] }) ∧
        ∀ r, link.upHeld = .failure r :: rest → exec (.commandAck stile true) s = .next { s with links := back, failures := s.failures ++ [r] })

/-- R215, R294-R298, R319: at its bound a workgroup whose words under way have completed is saved in full: no speculation and no
load is left, and no byte of memory changes; its context written, its slots are free, its pool's bytes gone and its allocations of the
kind not kept lost; resumed on a core with room in the cluster of the Stile that resumes its team, which has not failed there, alone in its team and with nothing to bring back, it
is resident there with its registers as they were, and a squad saved in the pending set stays there. -/
def Obligations.SaveAndResume : Prop :=
  ∀ (s : State) (w core : Nat) (u : Wg) (l : Launch), s.wgs[w]? = some u → s.launches[u.launch]? = some l →
    let mine := fun (P : Nat → Thread → Prop) => ∀ (i : Nat) (y : Thread), s.threads[i]? = some y → y.wg = w → P i y
    (∀ r : Request, u.state = .resident → u.request = some r → (r.now = true ∨ r.t0 + l.desc.ckbound * 2100 ≤ s.clk) → r.ckpt = false →
      u.wadds = [] → (∀ x ∈ u.due, ∀ i, x.agent ≠ .thread i) →
      (mine fun _ y => (∀ ids, y.park ≠ .drain ids) ∧ y.park ≠ .released ∧ y.park ≠ .launch) →
      ∃ (t : State) (u' : Wg), exec (.fullSave w) s = .next t ∧ (∀ a, memGet t.mem a = memGet s.mem a) ∧
        t.wgs[w]? = some u' ∧ u'.state = .saving ∧ u'.allocs = u.allocs ∧ u'.tiles = u.tiles ∧ u'.barriers = u.barriers ∧
        (mine fun i y => ∃ z : Thread, t.threads[i]? = some z ∧ z.spec = none ∧ z.loads = [] ∧
          (y.spec = none → y.loads = [] → z = { y with park := z.park, hold := z.hold })) ∧
        ∀ (i : Nat) (y : Thread), s.threads[i]? = some y → y.wg ≠ w → t.threads[i]? = some y) ∧
    (u.state = .saving → Safety.permits s (u.core / 4) → (∀ (j : Nat) (v : Wg), s.wgs[j]? = some v → j ≠ w → v.launch = u.launch → v.team = u.team →
        v.request ≠ none → v.state ≠ .resident ∧ v.state ≠ .restored) → ∃ (t : State) (u' : Wg), exec (.contextWritten w) s = .next t ∧ Safety.poolGone s t u ∧
      t.threads = s.threads ∧ t.wgs[w]? = some u' ∧ u'.state = .saved ∧ (∀ q ∈ u'.squads, q.slot = none) ∧
      u'.allocs = (u.allocs.map fun a => { a with lost := a.lost || ((u.request.map (·.ckpt)).getD false && a.rank ≠ 7) }) ∧
      t.notices = s.notices ++ [.saved w]) ∧
    (u.state = .resuming → u.allocs = [] → u.kept = [] → u.parks = [] → u.drive = none → (∀ c ∈ s.copies, c.wg ≠ w) →
      s.fits core l.proc l.desc = true → (s.processes[l.proc]?).bind (·.debug) = none →
      (∀ (j : Nat) (v : Wg), s.wgs[j]? = some v → j ≠ w → ¬ (v.launch = u.launch ∧ v.team = u.team)) →
      (∃ m : Team, l.teams[u.team]? = some m ∧ m.cluster = core / 4 ∧ m.avoid ≠ some (core / 4)) → ∃ (t : State) (u' : Wg), exec (.workgroupResume w core) s = .next t ∧ t.mem = s.mem ∧ t.wgs[w]? = some u' ∧
        u'.state = .resident ∧ u'.core = core ∧ u'.request = u.request ∧ u'.tiles = u.tiles ∧ u'.barriers = u.barriers ∧
        (∀ (n : Nat) (q : Squad), u.squads[n]? = some q → q.was = false → u'.squads[n]? = some q) ∧
        ∀ (i : Nat) (y : Thread), s.threads[i]? = some y → t.threads[i]? = some
          (if y.wg = w then { y with recheck := y.pc.idx ≠ 0 && !y.exited } else y))

/-- R301-R305, R331, R356: an uncorrectable error consumed kills its workgroup, with a record of its address, cause, source and
thread, its work dropped but for committed stores, its pool's bytes gone, and the lane or slice whose check found it is to be tested again; one in a detached
copy's page-table read ends that copy with FAULT; killed, with nothing of it still on its way, it is relaunched on a core of
another cluster, from its start where it keeps no restart record; poisoned data send a record and kill nothing; a die hub's
failure withdraws the die's cores, empties its table of parked accesses (log 46, DEDUCED) and kills every workgroup resident there. Which
cluster a relaunch may take, and what counts against the three kills, is the model's reading (log 41). -/
def Obligations.KillsAndFailures : Prop :=
  (∀ (s : State) (w core : Nat) (u : Wg) (l : Launch) (source : BitVec 4) (tid : BitVec 10) (addr : BitVec 64) (part : Nat), s.wgs[w]? = some u →
    s.launches[u.launch]? = some l →
    (∀ c : Copy, source = 2 → s.detachedCopy w part = some c → exec (.uncorrectableErrorConsumed w source ⟨tid, part⟩ addr) s = .next (s.copyEarly c 0x02)) ∧
    (u.state = .resident → source ≤ 6 → Safety.permits s (u.core / 4) → (source = 2 → s.detachedCopy w part = none) →
      (∀ (j : Nat) (v : Wg), s.wgs[j]? = some v → j ≠ w → v.launch = u.launch → v.team = u.team → v.state ≠ .lighting) → ∃ (t : State) (u' : Wg) (r : BitVec 256),
      exec (.uncorrectableErrorConsumed w source ⟨tid, part⟩ addr) s = .next t ∧ Safety.poolGone s t u ∧
      t.failures = s.failures ++ [r] ∧ r.extractLsb' 192 64 = addr ∧ r.extractLsb' 152 8 = (if source = 4 ∨ source = 5 then 0x20#8 else 0x21#8) ∧
      r.extractLsb' 148 4 = source ∧ r.extractLsb' 128 10 = (if source = 1 ∨ source = 3 ∨ source = 5 then 0 else tid) ∧
      r.extractLsb' 32 32 = l.id ∧ t.wgs[w]? = some u' ∧ (u'.state = .killed ∨ u'.state = .failed) ∧ u'.commons = none ∧
      u'.killsStart = u.killsStart + 1 ∧
      (∀ c : Core, s.cores[u.core]? = some c → ∃ c' : Core, t.cores[u.core]? = some c' ∧
        (source = 4 → part < 64 → c'.lanesTesting.getLsbD part = true) ∧
        (source = 5 → part < 4 → c'.slicesTesting.getLsbD part = true ∧ c'.slicesLit.getLsbD part = false)) ∧ u'.hay.map (·.id) = (u.hay.filter (·.committed)).map (·.id) ∧
      ∀ (i : Nat) (y : Thread), s.threads[i]? = some y → y.wg = w → ∃ z : Thread, t.threads[i]? = some z ∧ z.spec = none ∧ z.loads = []) ∧
    (u.state = .killed → u.hay = [] → u.wadds = [] → core / 4 ≠ u.core / 4 → s.fits core l.proc l.desc = true → l.desc.rst = false →
      (s.processes[l.proc]?).bind (·.debug) = none →
      (∀ (j : Nat) (v : Wg), s.wgs[j]? = some v → j ≠ w → ¬ (v.launch = u.launch ∧ v.team = u.team)) →
      (l.teams[u.team]?).bind (·.avoid) ≠ some (core / 4) → ∃ (t : State) (u' : Wg), exec (.workgroupRelaunch w core) s = .next t ∧ t.mem = s.mem ∧ t.wgs[w]? = some u' ∧
        u'.state = .resident ∧ u'.core = core ∧ u'.allocs = [] ∧ u'.killsStart = u.killsStart ∧
        ∀ (i : Nat) (y : Thread), s.threads[i]? = some y → y.wg = w → y.tid.toNat < 32 * l.desc.squads → l.desc.squads ≤ 32 →
          ∃ z : Thread, t.threads[i]? = some z ∧ (∀ r, z.reg r = 0) ∧ z.exited = false ∧ z.handler = none ∧ z.spec = none ∧
            z.pc = ⟨if y.tid.toNat < 32 * l.desc.squads0 then l.desc.entry0 else l.desc.entry1, 0⟩)) ∧
  ((∀ (s : State) (addr : Nat), exec (.dataPoisoned addr) s = .next { s with
    poison := addr :: s.poison.filter (· ≠ addr), notices := s.notices ++ [.poisoned addr] }) ∧
  ∀ (s : State) (die : Nat), die < s.hubs.length → ∃ t, exec (.dieHubFailure die) s = .next t ∧
    (∀ (c : Nat) (x : Core), c / 16 = die → t.cores[c]? = some x → x.withdrawn = true) ∧
    (∀ h : Hub, t.hubs[die]? = some h → ∀ x ∈ h.slots, x = none) ∧
    ∀ (w : Nat) (u : Wg), s.wgs[w]? = some u → u.core / 16 = die → u.state = .resident →
      ∃ u' : Wg, t.wgs[w]? = some u' ∧ (u'.state = .killed ∨ u'.state = .failed))

/-! ## Power, fabric, boot and debugging (R193-R195, R199, R214, R357-R376, R382-R404) -/

/-- R191, R199, R202, R214, R304, R362, R369: an array that passes its test lights its bank, its bytes zero, and the `salloc` that waited
for it alone succeeds; one that fails is retired with a record; a lane group or a slice that passes, none of a lower number being under
test, is lit again, one that fails is fused, and so is a lane; an array error retires the array, and a lit one's bank darkens and its
allocations are lost, one under test has failed it (log 72, DEDUCED); a column under a full test is back in use with its last part. -/
def Obligations.ArraysAndParts : Prop :=
  (∀ (s : State) (c n : Nat) (x : Core), s.cores[c]? = some x → x.proving = none →
    (∀ (b w k : Nat) (u : Wg) (th : Thread) (p : Lighting), x.arrays[n]? = some (.testing b) → s.poolOwner c b = some w → s.wgs[w]? = some u →
      u.core = c → s.threads[k]? = some th → th.wg = w → th.park = .array p → p.fresh = true → p.left = [b] →
      p.base / 65536 + u.poolFirst = b → p.base % 65536 + p.size ≤ 65536 → 0 < p.size → p.rank ≠ 0 →
      (∀ (j : Nat) (y : Thread), s.threads[j]? = some y → j ≠ k → ∀ q, y.park ≠ .array q) → x.litCount < x.budget →
      ∃ (t : State) (u' : Wg), exec (.inFieldTestComplete c .array n true) s = .next t ∧
        t.cores[c]? = some { x with arrays := x.arrays.set n (.lit b) } ∧
        t.threads[k]? = some (Safety.wrotePair th p.d (s.poolVa w p.base) 1) ∧ t.wgs[w]? = some u' ∧
        u'.allocs = u.allocs ++ [⟨p.base, p.size, p.rank, p.handler, false⟩] ∧
        ∀ a, memGet t.mem a = if 2 ^ 50 + c * 2 ^ 24 + b * 65536 ≤ a ∧ a < 2 ^ 50 + c * 2 ^ 24 + b * 65536 + 65536 then 0 else memGet s.mem a) ∧
    (∀ b, x.arrays[n]? = some (.testing b) → s.poolOwner c b = none →
      let becomes := fun a : ArrayState => s.cores.set c { x with arrays := x.arrays.set n a }
      exec (.inFieldTestComplete c .array n true) s = .next { s with cores := becomes .free } ∧
      (x.litCount ≤ { x with arrays := x.arrays.set n .retired }.budget → exec (.inFieldTestComplete c .array n false) s =
        .next { s with cores := becomes .retired, notices := s.notices ++ [.arrayRetired c n] })) ∧
    (∀ b m, x.arrays[n]? = some (.testing b) → exec (.uncorrectableArrayError c n m) s = exec (.inFieldTestComplete c .array n false) s) ∧
    (∀ pass : Bool, n < 64 → x.lanesTesting.getLsbD n = true → ∃ (t : State) (x' : Core), exec (.inFieldTestComplete c .lane n pass) s = .next t ∧
      t.cores[c]? = some x' ∧ x'.arrays = x.arrays ∧ x'.lanesTesting.getLsbD n = false ∧
      ∀ j < 64, x'.lanesFused.getLsbD j = (x.lanesFused.getLsbD j || decide (j = n ∧ pass = false))) ∧
    (∀ slice : Bool, n < 4 → (if slice then x.slicesTesting else x.groupsTesting).getLsbD n = true →
      (∀ j < n, (if slice then x.slicesTesting else x.groupsTesting).getLsbD j = false) →
      let part := if slice then TestPart.slice else .laneGroup
      (∃ (t : State) (x' : Core), exec (.inFieldTestComplete c part n true) s = .next t ∧ t.cores[c]? = some x' ∧
        x'.lanesFused = x.lanesFused ∧ x'.slicesFused = x.slicesFused ∧ t.notices = s.notices ∧ x'.arrays = x.arrays) ∧
      (∃ (t : State) (x' : Core), exec (.inFieldTestComplete c part n false) s = .next t ∧ t.cores[c]? = some x' ∧
        t.notices = s.notices ++ [.partFused c part n] ∧ (slice = true → x'.slicesFused.getLsbD n = true) ∧
        (slice = false → ∀ j < 16, x'.lanesFused.getLsbD (16 * n + j) = true) ∧
        (if slice then x'.slicesLit else x'.groupsLit).getLsbD n = false)) ∧
    (∀ b, x.arrays[n]? = some .free → x.litCount ≤ { x with arrays := x.arrays.set n .retired }.budget →
      exec (.uncorrectableArrayError c n b) s = .next { s with
        cores := s.cores.set c { x with arrays := x.arrays.set n .retired }, notices := s.notices ++ [.arrayRetired c n] }) ∧
    (∀ (b w : Nat) (u : Wg), x.arrays[n]? = some (.lit b) → x.arrays.length ≤ 192 → s.poolOwner c b = some w → s.wgs[w]? = some u →
      (∀ m : Nat, m ≠ n → x.arrays[m]? ≠ some (ArrayState.lit b)) →
      ∃ (t : State) (x' : Core) (u' : Wg), exec (.uncorrectableArrayError c n b) s = .next t ∧ t.cores[c]? = some x' ∧
        x'.arrays[n]? = some .retired ∧ (∀ m : Nat, x'.arrays[m]? ≠ some (ArrayState.lit b)) ∧ t.wgs[w]? = some u' ∧
        (∀ y ∈ u'.allocs, y.base < (b - u.poolFirst) * 65536 + 65536 → (b - u.poolFirst) * 65536 < y.base + y.size → y.lost = true) ∧
        ∃ rest, t.notices = s.notices ++ .arrayRetired c n :: rest)) ∧
  (∀ (s : State) (c n : Nat) (y : Core) (v : Proving), s.cores[c]? = some y → y.proving = some v → n ∈ v.arrays →
      let left := v.arrays.filter (· ≠ n)
      (left ≠ [] ∨ v.groups ≠ 0 ∨ v.slices ≠ 0 → exec (.inFieldTestComplete c .array n true) s =
        .next { s with cores := s.cores.set c { y with proving := some { v with arrays := left } } }) ∧
      (left = [] → v.groups = 0 → v.slices = 0 → s.busesPass c = true → s.boot.booted = false ∨ s.boot.ready = true →
        exec (.inFieldTestComplete c .array n true) s = .next { s with cores := s.cores.set c { y with proving := none } }))

/-- R194, R203, R360, R361, R363, R374: the host's and the management port's steps, each refusing a step past 64, and the brake; the fast
limit rises after ten measurements in turn above the budget and falls after a hundred well below it; a column takes the least of the
steps less its heat's, and scratchpad banks darken until they fit or none may. R357, R364-R368: the thermal ring's control, tail and base registers, base and size fixed while the ring is enabled; a repair
word is taken of a withdrawn column with no workgroup, which is then tested; every other offset ignores writes, and reads give the
effective budget and the ring's pointers; a command of Worxus adds a node or a process to the run tree (the commands' form is the
model's, log 70). A sample within
the checks is the column's temperature and its step; one that leaves the range or jumps fails the sensor, whose column then stands
8 °C above the hottest working column of its cluster, or else of its die; where none works on the die Worxus is told and its columns'
step is 0; at 105 °C a column trips, below 90 °C it recovers. -/
def Obligations.PowerAndSensors : Prop :=
  ((∀ (s : State) (v : Word),
    (exec (.budgetHostWrite v) s = .next (if (v.extractLsb' 0 7).toNat ≤ 64 then { s with hostStep := v.extractLsb' 0 7 } else s)) ∧
    (v.toNat ≤ 64 → exec (.budgetMgmtSet v) s = .next { s with mgmtStep := v.extractLsb' 0 7 }) ∧
    (64 < v.toNat → exec (.budgetMgmtSet v) s = .next { s with notices := s.notices ++ [.mgmtError] }) ∧
    exec .pwrbrkNAssert s = .next { s with brake := true } ∧ exec .pwrbrkNDeassert s = .next { s with brake := false } ∧
    exec .pldmMonitoring s = .next { s with notices := s.notices ++ [.monitored] }) ∧
  (∀ (s : State) (watts : Nat), s.ring.en = false →
    let step := min (min s.hostStep.toNat s.mgmtStep.toNat) (if s.brake then 0 else 64) - s.limit
    let p := 800 + 25 * step
    let counts := fun (over_ under limit : Nat) => exec (.powerMeasurement watts) s =
      .next { s with overCount := over_, underCount := under, limit := limit }
    (p < watts → s.overCount ≠ 9 → counts (s.overCount + 1) 0 s.limit) ∧
    (p < watts → s.overCount = 9 → counts 0 0 (min 64 (s.limit + 1))) ∧
    (watts + 50 ≤ p → s.underCount ≠ 99 → counts 0 (s.underCount + 1) s.limit) ∧
    (watts + 50 ≤ p → s.underCount = 99 → counts 0 0 (s.limit - 1)) ∧
    (watts ≤ p → p < watts + 50 → counts 0 0 s.limit)) ∧
  (∀ (s : State) (c step : Nat) (x : Core) (y : Sensor), s.cores[c]? = some x → s.sensors[c]? = some y → x.arrays.length ≤ 192 →
    let blind := ∀ (n : Nat) (z : Sensor), n / 16 = c / 16 → s.sensors[n]? = some z → z.failed = true
    (blind → step = 0) →
    (¬ blind → step = min (min s.hostStep.toNat s.mgmtStep.toNat) (if s.brake then 0 else 64) - s.limit - y.theta) →
    x.scol ≠ step → ∃ (t : State) (x' : Core), exec (.budgetApply c) s = .next t ∧ t.threads = s.threads ∧ t.cores[c]? = some x' ∧
      x'.scol = step ∧ x'.offset = x.offset ∧
      (x'.litCount ≤ x'.budget ∨ ∀ b, .lit b ∈ x'.arrays → 7 ≤ t.bankRank c b) ∧
      ((x.arrays.filter ArrayState.isLit).length ≤ x'.budget → x'.arrays = x.arrays ∧ t.mem = s.mem))) ∧
  (∀ (s : State) (v : Word) (off : Nat),
    let size := v.extractLsb' 4 4
    let ring := fun r : Ring => { s with ring := r }
    let base := s.ring.base
    exec (.tringCtlWrite v) s = .next (ring { s.ring with
      period := v.extractLsb' 8 12, en := v.getLsbD 0
      size := if s.ring.en = true ∨ size.toNat < 6 then s.ring.size else size }) ∧
    exec (.tringTailWrite v) s = .next (ring { s.ring with tail := v }) ∧
    (s.ring.en = true → off = 0x200000 ∨ off = 0x200004 → exec (.registerWrite off (.word v)) s = .next s) ∧
    (s.ring.en = false →
      (∃ b : VAddr, exec (.registerWrite 0x200000 (.word v)) s = .next (ring { s.ring with base := b }) ∧ b.extractLsb' 32 25 = base.extractLsb' 32 25 ∧
        b.extractLsb' 5 27 = v.extractLsb' 5 27 ∧ b.extractLsb' 0 5 = 0) ∧
      (∃ b : VAddr, exec (.registerWrite 0x200004 (.word v)) s = .next (ring { s.ring with base := b }) ∧ b.extractLsb' 0 32 = base.extractLsb' 0 32 ∧
        b.extractLsb' 32 25 = v.extractLsb' 0 25)) ∧
    (∀ (c n : Nat) (x : Core), s.cores[c]? = some x → c < 64 → n < 4096 → n % 4 = 0 →
      let at_ := c * 65536 + n
      let open_ := x.withdrawn = true ∧ ∀ u ∈ s.wgs, u.core = c → u.resident = false
      (open_ → exec (.registerWrite (0x800000 + at_) (.word v)) s = .next { s with
        repair := (at_, v &&& 0x800007FF) :: s.repair.filter fun y => y.1 ≠ at_
        cores := s.cores.set c { x with proving := some ⟨(List.range 192).filter fun j => decide (x.arrays[j]? ≠ some .retired), 15, 15⟩ } }) ∧
      (¬ open_ → exec (.registerWrite (0x800000 + at_) (.word v)) s = .next s)) ∧
    exec (.registerWrite 0x100000 (.word v)) s = exec (.budgetHostWrite v) s ∧
    exec (.registerWrite 0x200008 (.word v)) s = exec (.tringCtlWrite v) s ∧
    exec (.registerWrite 0x200010 (.word v)) s = exec (.tringTailWrite v) s ∧
    (off ∉ [0x100000, 0x200000, 0x200004, 0x200008, 0x200010] → ¬ (0x800000 ≤ off ∧ off < 0xC00000) →
      exec (.registerWrite off (.word v)) s = .next s) ∧
    (∀ c : HubCommand, s.boot.ready = false → exec (.registerWrite off (.command c)) s = .next s) ∧
    (s.boot.ready = true → off < 0x100000 → ∀ (parent : Option Nat) (weight : Nat), 1 ≤ weight → weight ≤ 1024 →
      (∀ p, parent = some p → p < s.tree.length) →
      exec (.registerWrite off (.command (.node parent weight))) s = .next { s with tree := s.tree ++ [⟨parent, weight, 0, false⟩] } ∧
      ∀ (root domain p : Nat) (table : Option Nat) (job : List Nat), parent = some p →
        exec (.registerWrite off (.command (.process root domain table p weight job))) s = .next { s with
          tree := s.tree ++ [⟨parent, weight, 0, false⟩], processes := s.processes ++ [⟨root, s.tree.length, domain, table, none, job, 0⟩] }) ∧
    (s.limit ≤ 64 → (s.hubRead 0x100008).getLsbD 16 = s.brake ∧ ((s.hubRead 0x100008).extractLsb' 8 7).toNat = s.limit ∧
      ((s.hubRead 0x100008).extractLsb' 0 7).toNat = min (min s.hostStep.toNat s.mgmtStep.toNat) (if s.brake then 0 else 64) - s.limit) ∧
    (s.ring.en = true → s.hubRead 0x20000C = s.ring.head ∧ s.hubRead 0x200010 = s.ring.tail ∧ s.hubRead 0x200014 = s.ring.drop)) ∧
  (∀ (s : State) (c : Nat) (raw : BitVec 16) (power : Nat) (x : Sensor) (k : Core), s.sensors[c]? = some x → s.cores[c]? = some k →
    s.ring.en = false →
    let t := raw.toInt
    let theta := fun t : Int => if t < 1520 then 0 else if t < 1680 then (4 * (t / 16 - 94)).toNat else 64
    let jump := ∃ a, x.accepted = some a ∧ (64 < t - a.toInt ∨ 64 < a.toInt - t)
    let range := -320 ≤ t ∧ t ≤ 2080
    let takes := fun (P : State → Sensor → Prop) => ∃ (t : State) (y : Sensor), exec (.sensorSample c raw power) s = .next t ∧
      t.threads = s.threads ∧ t.sensors = s.sensors.set c y ∧ P t y
    (x.failed = false → range → ¬ jump → x.raw ≠ raw → takes fun t' y => y.raw = raw ∧ y.failed = false ∧ y.accepted = some raw ∧ y.temp = t ∧
      y.theta = theta t ∧ y.run = [power] ∧
      ∃ k' : Core, t'.cores[c]? = some k' ∧ k' = { k with tripped := if 1680 ≤ t then true else if t < 1440 then false else k.tripped }) ∧
    (let works := fun (d n : Nat) (z : Sensor) => n / d = c / d ∧ n ≠ c ∧ s.sensors[n]? = some z ∧ z.failed = false;
      let hottest := fun (d : Nat) (y : Sensor) => (∃ n z, works d n z ∧ y.temp = z.temp + 128) ∧ ∀ n z, works d n z → z.temp + 128 ≤ y.temp;
      x.failed = true ∨ ¬ range ∨ jump → takes fun t' y => y.failed = true ∧ y.accepted = x.accepted ∧ y.theta = theta y.temp ∧
        ((∃ n z, works 4 n z) → hottest 4 y) ∧ (¬ (∃ n z, works 4 n z) → (∃ n z, works 16 n z) → hottest 16 y) ∧
        (¬ (∃ n z, works 16 n z) → y.temp = x.temp ∧ (x.failed = false → .sensorless (c / 16) ∈ t'.notices))) ∧
    (x.failed = false → range → ¬ jump → x.raw = raw → x.samples ≠ 0 →
      let run := (power :: x.run).take 256
      (x.run.length < 255 ∨ (∀ a ∈ run, ∀ b ∈ run, a < b + 2000) → takes fun _ y => y.failed = false ∧ y.run = run) ∧
      (255 ≤ x.run.length → (∃ a ∈ run, ∃ b ∈ run, b + 2000 ≤ a) → takes fun _ y => y.failed = true)))

/-- R392-R395, R397, R401, R403, R404: a link trains to a width; a flit that fails its CRC is replayed, one out of sequence dropped, one in
sequence acknowledges flits sent and is delivered, or goes on to the module it names; an access of another module's copy is
performed through the tables of the peer process, or answered with LOST or FAULT; its lock entry is taken and given back, its
module's release releases what it wrote, its signal is on its way, a reduction with a failed member fails. The link retrains at
the next lower width, or fails there, and down it hands its flits to others and cuts members of reductions off, whose workgroups
are killed (log 50, DEDUCED). A gang slice is ready on this module once its outgoing teams have left and the incoming stand, begins
with the last module, or late; at P + 50 µs a module that is not ready saves what is left at once. What a flit's payload stands
for, and an access served whole, are the model's choice (log 14). -/
def Obligations.LinksAndGangs : Prop :=
  (∀ (s : State) (k : Nat) (x : FLink), s.flinks[k]? = some x →
    let put := fun y : FLink => { s with flinks := s.flinks.set k y }
    let low := max 4 (x.width / 2)
    let carries := fun (t t' : State) (m : BitVec 12) (vc : BitVec 8) (e : FabricMessage) =>
      (t.routed m.toNat = false → t'.flinks = t.flinks) ∧
      (t.routed m.toNat = true → ∃ (n : Nat) (y : FLink) (g : Flit), t.flinks[n]? = some y ∧ y.up = true ∧ g.message = e ∧ g.dest.toNat = m.toNat ∧
        g.vc = vc ∧ g.seq = y.seqOut ∧ t'.flinks = t.flinks.set n { y with seqOut := y.seqOut + 1, sent := y.sent ++ [g] })
    (∀ (n : Nat) (m : BitVec 12) (routes : List (Nat × List Nat)), n ∈ [16, 8, 4] →
      (∃ (t : State) (y : FLink), exec (.linkTraining k n m routes) s = .next t ∧ t.fabricNo = m ∧ t.routes = routes ∧ t.flinks[k]? = some y ∧
        y.up = true ∧ y.width = n ∧ y.seqIn = 0 ∧ y.replays = 0) ∧
      ((∀ y ∈ s.flinks, y.sent = []) → s.reductions = [] → (∀ c ∈ s.cores, ∀ y ∈ c.locks, holderModule y.holder = none) →
        (∀ h ∈ s.hubs, ∀ y ∈ h.slots, ∀ p, y = some p → ∀ a, p.waiter ≠ .peer a) → exec (.linkTraining k n m routes) s =
          .next { put ⟨true, n, 0, 0, 0, []⟩ with fabricNo := m, routes := routes })) ∧
    (x.up = true → x.replays < 8 → ∀ (f : Flit) (left : List Flit),
      ((∀ g ∈ x.sent, g.seq ≠ f.ack) → left = x.sent) →
      (∀ (n : Nat) (g : Flit), x.sent[n]? = some g → g.seq = f.ack → (∀ i < n, ∀ h, x.sent[i]? = some h → h.seq ≠ f.ack) →
        left = x.sent.drop (n + 1)) →
      exec (.flitReceive k false f) s = .next (put { x with replays := x.replays + 1 }) ∧
      (f.crc ≠ Config.flitCrc (flitBytes f) → exec (.flitReceive k true f) s = .next (put { x with replays := x.replays + 1 })) ∧
      (f.crc = Config.flitCrc (flitBytes f) → f.seq ≠ x.seqIn → exec (.flitReceive k true f) s = .next (put { x with sent := left })) ∧
      (f.crc = Config.flitCrc (flitBytes f) → f.seq = x.seqIn →
        let base := put { x with seqIn := x.seqIn + 1, replays := 0, sent := left }
        let allowed := f.dest.extractLsb' 12 4 = 0 ∧ f.vc.toNat < 4 ∧ 1 ≤ f.len.toNat ∧ f.len.toNat ≤ 240 ∧ f.payload.length = f.len.toNat
        (¬ allowed → exec (.flitReceive k true f) s = .next base) ∧
        (allowed → f.dest.toNat ≠ s.fabricNo.toNat →
          (s.routed f.dest.toNat = true → ∃ (t : State) (n : Nat) (y : FLink) (g : Flit), exec (.flitReceive k true f) s = .next t ∧
            base.flinks[n]? = some y ∧ y.up = true ∧ g = { f with seq := y.seqOut, ack := y.seqIn - 1, crc := g.crc } ∧
            g.crc = Config.flitCrc (flitBytes g) ∧
            t = { base with flinks := base.flinks.set n { y with seqOut := y.seqOut + 1, sent := y.sent ++ [g] } }) ∧
          (s.routed f.dest.toNat = false → (∀ d e, f.message = .signal d e →
              exec (.flitReceive k true f) s = .next { base with notices := s.notices ++ [.signalDropped d] }) ∧
            ((∀ d e, f.message ≠ .signal d e) → exec (.flitReceive k true f) s = .next base))) ∧
        (allowed → f.dest.toNat = s.fabricNo.toNat →
        let got := { base with notices := s.notices ++ [.delivered k f.vc f.payload] }
        (f.message = .other ∨ (∃ c code bs, f.message = .answer c code bs) ∨ (∃ g us, f.message = .reduce g us) → exec (.flitReceive k true f) s = .next got) ∧
        (∀ p : FabricPeer, f.message = .ends p → exec (.flitReceive k true f) s = .next { got with
          cores := s.cores.map fun c => { c with locks := c.locks.filter fun y => y.holder ≠ peerHolder p } }) ∧
        (∀ (p : FabricPeer) (va : BitVec 44) (len : Nat) (w : Bool) (m off : Nat), f.message = .begins p va len w →
          got.peerPlace (k / 4) p.proc va.toNat = .pool m off → s.locksFree (s.coreOf m) ≠ 0 → ∃ y : Lock, y.holder = peerHolder p ∧ y.dst = w ∧
            exec (.flitReceive k true f) s = .next (got.updCore (s.coreOf m) fun c => { c with locks := c.locks ++ [y] })) ∧
        (∀ m : BitVec 12, f.message = .released m → ∃ t, exec (.flitReceive k true f) s = .next t ∧ t.mem = s.mem ∧ t.threads = s.threads ∧
          ∀ (n : Nat) (y : Write), s.writes[n]? = some y → y.agent = .peer m.toNat → y.obj = .default →
            ∃ y' : Write, t.writes[n]? = some y' ∧ y'.word = y.word ∧ ∃ r ∈ y'.rels, r.agent = .peer m.toNat ∧ r.scope = 9) ∧
        (∀ (d : Nat) (e : BitVec 16), f.message = .signal d e →
          exec (.flitReceive k true f) s = .next (if e = 0 then got else { got with messages := s.messages ++ [⟨d, e, none, true⟩] })) ∧
        (∀ (p : Nat) (g : BitVec 16), f.message = .fredFailed p g → ∃ t, exec (.flitReceive k true f) s = .next t ∧
          (∀ a < 2 ^ 50, memGet t.mem a = memGet s.mem a) ∧ ∀ r ∈ s.reductions, r.group = g → s.procOf r.wg = p → ∀ u : Wg, s.wgs[r.wg]? = some u →
            u.state = .resident → ∃ u' : Wg, t.wgs[r.wg]? = some u' ∧ u'.state = .failed) ∧
        ∀ a : FabricAccess, f.message = .access a → (∀ bs, a.data = some bs → bs.length = a.bytes) →
          let told := fun (t : State) (code : BitVec 8) (bs : List Byte) => carries got t a.peer.module 1 (.answer a.peer.copy code bs)
          let met := fun (P : Place → Prop) => ∀ j < a.bytes, P ((got.fillWalk (k / 4) a.peer.proc a.va.toNat).peerPlace (k / 4) a.peer.proc (a.va.toNat + j))
          (got.peerOk a.peer = false ∨ (0 < a.bytes ∧ met fun y => y = .bad) → ∃ t, exec (.flitReceive k true f) s = .next t ∧ told t 2 [] ∧
            Safety.aged s t fun _ => False) ∧
          (got.peerOk a.peer = true → 0 < a.bytes → met (fun y => y = .away) → ∃ t, exec (.flitReceive k true f) s = .next t ∧ told t 1 [] ∧
            Safety.aged s t fun _ => False) ∧
          ∀ phys : Nat, got.peerOk a.peer = true → (∀ j < a.bytes, ∃ perm : BitVec 3, perm.getLsbD 0 = true ∧ perm.getLsbD 1 = true ∧
              (got.fillWalk (k / 4) a.peer.proc a.va.toNat).peerPlace (k / 4) a.peer.proc (a.va.toNat + j) = .page (phys + j) perm) → phys + a.bytes ≤ 2 ^ 50 → Safety.memoryOk s →
            (a.data = none → ∃ t, exec (.flitReceive k true f) s = .next t ∧ told t 0 (memRead s.mem phys a.bytes) ∧ t.mem = s.mem) ∧
            ∀ bs, a.data = some bs → ∃ t, exec (.flitReceive k true f) s = .next t ∧ told t 0 [] ∧ Safety.stored s t phys bs))) ∧
    (x.up = true → exec (.linkRetrain k true) s = .next { put { x with width := low, replays := 0 } with
      notices := s.notices ++ [.linkRetrained k] }) ∧
    (x.up = true → low ≠ 4 → exec (.linkRetrain k false) s = .next { put { x with width := low, replays := 8 } with
      notices := s.notices ++ [.linkRetrained k] }) ∧
    (x.up = true → low = 4 → ∃ (t : State) (y : FLink), exec (.linkRetrain k false) s = .next t ∧ t.flinks[k]? = some y ∧
      y = { x with width := 4, up := false, sent := [] } ∧ (∀ a < 2 ^ 50, memGet t.mem a = memGet s.mem a) ∧
      (∀ f ∈ x.sent, (put { x with width := 4, up := false }).routed f.dest.toNat = true → ∃ (n : Nat) (z : FLink) (g : Flit), n ≠ k ∧
        t.flinks[n]? = some z ∧ g ∈ z.sent ∧ g.message = f.message ∧ g.dest = f.dest ∧ g.payload = f.payload) ∧
      ∀ (r : Reduction) (u : Wg) (m : BitVec 16), r ∈ s.reductions → m ∈ r.table → m.toNat % 4096 ≠ s.fabricNo.toNat →
        (put { x with width := 4, up := false }).routed (m.toNat % 4096) = false → s.wgs[r.wg]? = some u → u.state = .resident →
        ∃ u' : Wg, t.wgs[r.wg]? = some u' ∧ u'.state = .failed)) ∧
  (∀ (s : State) (id : Nat) (x : Gang), s.gangs.find? (fun y => y.id = id) = some x →
    let put := fun (y : Gang) => { s with gangs := s.gangs.map fun z => if z.id = id then y else z }
    let alone := ∀ z ∈ s.gangs, z.id = id → z = x
    let own := s.fabricNo.toNat
    let ready := (∀ y ∈ x.plan.outgoing, s.teamGone y = true) ∧ ∀ y ∈ x.plan.incoming, s.teamStands y = true
    let late := x.plan.start + 50 * 2100
    (∀ plan : GangPlan, plan.start ≤ s.clk → x.plan.start + x.plan.length ≤ plan.start → plan.outgoing = [] → exec (.gangSliceStart id plan) s =
      .next { s with gangs := (s.gangs.filter fun y => y.id ≠ id) ++ [⟨id, plan, [], false, []⟩] }) ∧
    (∀ m, m ∈ x.plan.modules → m ∉ x.ready → alone → (m = own → ready ∧ x.late = [] ∧ s.clk ≤ late) →
      exec (.gangReady id m) s = .next (put { x with ready := x.ready ++ [m] })) ∧
    (own ∈ x.plan.modules → own ∉ x.ready → alone → x.late ≠ [] ∨ late < s.clk → ready → ∃ t, exec (.gangReady id own) s = .next t ∧
      t.gangs = (put { x with ready := x.ready ++ [own], begun := true, late := if x.late = [] then x.plan.outgoing else x.late }).gangs ∧ t.threads = s.threads ∧ t.mem = s.mem ∧
      t.notices = s.notices ++ [.lateGang id (s.clk - late)]) ∧
    (alone → x.begun = false → x.late = [] → (∀ m ∈ x.plan.modules, m ∈ x.ready) →
      exec (.gangSliceBegin id) s = .next (put { x with begun := true })) ∧
    (alone → x.begun = false → x.late = [] → late ≤ s.clk →
      (own ∈ x.ready → exec (.gangLateTimeout id) s = .next (put { x with begun := true })) ∧
      (own ∉ x.ready → ∃ t, exec (.gangLateTimeout id) s = .next t ∧ t.threads = s.threads ∧ t.mem = s.mem ∧
        (∃ y ∈ t.gangs, y.id = id ∧ (x.plan.outgoing ≠ [] → y.late ≠ [])) ∧
        ∀ (w : Nat) (u : Wg) (r : Request), s.wgs[w]? = some u → (u.launch, u.team) ∈ x.plan.outgoing → u.state = .resident →
          u.request = some r → t.wgs[w]? = some { u with request := some { r with now := true } })))

/-- R342, R398-R400: cells cross the links in units of 64, each in the least width that holds them, and arrive as they were. `fred`
joins its group where its descriptor and table hold, is a drive fault where they do not, and parks where its table's page is absent; with
every member's part, of one n, one table and one shape, each destination cell is the sum of the parts rounded to the largest
exponent's grid, brought to this member's exponent and clamped; a part that differs is a drive fault. -/
def Obligations.FabricReductions : Prop :=
  (∀ cs : List WCell, unpackCells cs.length (packCells cs) = some cs ∧ (cs.length = 64 →
    let fits := fun (b : Nat) (c : WCell) => -(2 ^ b : Int) ≤ 2 * c.v.toInt ∧ 2 * c.v.toInt < 2 ^ b
    ∃ (b : Nat) (m : Bool) (rest : List Byte), packCells cs = BitVec.ofNat 8 (b + if m then 128 else 0) :: rest ∧
      rest.length = (if m then 8 else 0) + 8 * b ∧ b ≤ 96 ∧ (m = true ↔ ∃ c ∈ cs, c.sov = true) ∧ (∀ c ∈ cs, fits b c) ∧
      ∀ n < b, ∃ c ∈ cs, ¬ fits n c)) ∧
  (∀ (s : State) (w : Nat) (d : Drive) (u : Wg) (t : BitVec 4) (r : BitVec 5), s.wgs[w]? = some u →
    let D := fun j : BitVec 5 => d.reg (r + j)
    let field := fun (j : BitVec 5) (lo n : Nat) => ((D j).extractLsb' lo n).toNat
    let n := field 0 16 12 + 1; let rank := field 0 0 12
    let base := ((D 3).extractLsb' 0 25 ++ D 2 : VAddr).toNat
    let ok := field 0 28 4 = 0 ∧ field 0 12 4 = 0 ∧ 2 ≤ n ∧ rank < n ∧ field 1 16 16 = 0 ∧ field 1 0 16 ≠ 0 ∧ field 3 25 7 = 0 ∧ base % 2 = 0
    let i := Instr.fred t r
    let group := (D 1).extractLsb' 0 16
    (Safety.Drives s w d i → (∀ j < 4, ¬ Safety.awaited d (r + BitVec.ofNat 5 j)) →
      (¬ ok → exec i s = .next (Safety.driveFailed s w d i 0x01)) ∧
      (ok → s.fredVerdict w base n = .fault → exec i s = .next (Safety.driveFailed s w d i 0x08)) ∧
      (∀ (va : Nat) (st : BitVec 2) (p : State), ok → s.fredVerdict w base n = .absent va st → s.parkAccess w va st (.drive w) 0 1 0 = some p →
        exec i s = .next (p.updDrive w fun v => { v with park := .page })) ∧
      (∀ tbl : List (BitVec 16), ok → s.fredVerdict w base n = .ok → s.fredTable w base n = tbl →
        let mine := tbl.getD rank 0 = s.fabricNo.setWidth 16 ∧ ∀ x ∈ s.reductions, x.group = group → x.wg = w
        (¬ mine → exec i s = .next (Safety.driveFailed s w d i 0x01)) ∧
        (mine → 32 ≤ d.ops.length → exec i s = .next s) ∧
        (mine → d.ops.length < 32 → ∃ (t' : State) (d' : Drive) (o : Op), exec i s = .next t' ∧
          Safety.aged s t' (fun _ => False) ∧ t'.drive? w = some d' ∧ d' = { Safety.driven d 1 with ops := d.ops ++ [o] } ∧ o.word = i ∧
          o.id = s.nextId ∧ o.dregs = d.d ∧ o.mode = d.mode ∧ o.running = false ∧
          t'.reductions = s.reductions ++ [⟨group, w, s.nextId, tbl, [], none⟩]))) ∧
    (∀ (x : Reduction) (o : Op) (y : Tile) (others : List FredMember), s.reductions.find? (fun z => z.group.toNat = x.group.toNat && z.result.isNone) = some x →
      x.wg = w → u.drive = some d → d.ops.find? (fun z => z.id = x.op) = some o → o.word = i → o.running = true → o.dregs = d.d →
      u.tiles[t.toNat]? = some (some y) → others.length + 1 = n → (rank :: others.map (·.rank)).Nodup → (∀ m ∈ others, m.rank < n) →
      let alike := ∀ m ∈ others, m.n = n ∧ m.table = x.table ∧ m.rows = y.rows ∧ m.cols = y.cols
      let most := others.foldl (fun e m => max e m.exp.toInt) y.exp.toInt
      let grid := fun (v : BitVec 96) (e : BitVec 10) (z : Int) => v.toInt = z * 2 ^ (most - e.toInt).toNat
      (¬ alike → exec (.fredReductionBegin x.group.toNat others) s = .next (s.failWg w (o.addr.setWidth 64) (wordOf i) 0x01 1 0)) ∧
      (∀ part : FredMember → List WCell, alike → (∀ m ∈ others, unpackCells y.cells.length m.units = some (part m)) →
        ∃ (t' : State) (cells : List WCell), exec (.fredReductionBegin x.group.toNat others) s = .next t' ∧ t'.mem = s.mem ∧
        t'.threads = s.threads ∧ t'.wgs = s.wgs ∧
        t'.reductions = (s.reductions.map fun z => if z.op = x.op then { z with result := some cells } else z) ∧
        cells.length = y.cells.length ∧
        ∀ c < y.cells.length, ∀ (a : Int) (zs : List Int), zs.length = others.length → (y.cells.getD c ⟨0, false⟩).sov = false →
          grid (y.cells.getD c ⟨0, false⟩).v y.exp a →
          (∀ j < others.length, ∀ m z, others[j]? = some m → zs[j]? = some z → grid ((part m).getD c ⟨0, false⟩).v m.exp z ∧
            ((part m).getD c ⟨0, false⟩).sov = false) →
          cells[c]? = some (Safety.cellOf ((a + zs.sum) * 2 ^ (most - y.exp.toInt).toNat) false))))

/-- R357, R370-R375: at power good the preferred set of the flash boots if it verifies, else the other, and every part goes through
its test; with neither the module stops, and takes only the inputs of standby power; supplied again it boots afresh from its flash,
with the brake, the management port's step and the quotes asked for as they stood (the sets and the preference of the flash and
what a stop leaves are the model's choice, log 69, and how boot proves the parts is log 48).
An undervoltage kills every workgroup, a saved one too, and stops it. A quote is signed once its counter stands one higher, one request after
another, and at 2^40 it is refused; an update writes its set and, where it says so, the preference; the host reads and writes the
DRAM layer at its home, and the hub's registers. -/
def Obligations.BootAndHost : Prop :=
  (∀ s : State,
    let f := s.flash
    let first := if f.preferB then f.setB else f.setA
    let second := if f.preferB then f.setA else f.setB
    let chosen := if setVerifies first = true then first else second
    let some_ := setVerifies first || setVerifies second
    let boots := fun (t : State) => t.boot.booted = true ∧ t.boot.setB = (if setVerifies first = true then f.preferB else !f.preferB) ∧
      t.boot.measurements = setMeasure chosen ∧ t.repair = repairWords chosen.repair ∧ t.flash = f ∧
      t.notices = s.notices ++ [.booted (if setVerifies first = true then f.preferB else !f.preferB)] ∧
      ∀ c ∈ t.cores, ∃ v, c.proving = some v ∧ v.groups = 15 ∧ v.slices = 15 ∧ ∀ j, j ∈ v.arrays ↔ j < 192 ∧ c.arrays[j]? ≠ some .retired
    let powered := fun (t : State) => if some_ then boots t ∧ t.boot.stopped = false else
      t.boot.stopped = true ∧ t.boot.booted = false ∧ t.flash = f ∧ t.notices = s.notices ++ [.bootFailed]
    ∀ volts : Nat, 40 ≤ volts → volts ≤ 60 →
    (s.boot.booted = false → s.boot.stopped = false → ∃ t, exec (.powerGood volts) s = .next t ∧ powered t ∧ t.mem = s.mem ∧
      (some_ = false → t.cores = s.cores)) ∧
    (s.boot.stopped = true → ∃ t, exec (.powerGood volts) s = .next t ∧ powered t ∧ t.mem = [] ∧ t.wgs = [] ∧
      t.brake = s.brake ∧ t.mgmtStep = s.mgmtStep ∧ t.boot.quotes = s.boot.quotes ∧ t.boot.signing = s.boot.signing)) ∧
  (∀ e l, e ∈ repairWords l ↔ ∃ v : Word, (e.1, v) ∈ l ∧ e.1 % 4 = 0 ∧ e.1 % 65536 < 4096 ∧ e.1 < 64 * 65536 ∧ e.2 = v &&& 0x800007FF) ∧
  (∀ s : State, (s.boot.stopped = true → s.turn = none → s.inputs = [] → s.remains = [] → s.reductions = [] →
      (∀ u ∈ s.wgs, u.state ≠ .resident) → (∀ c ∈ s.cores, c.refit = false) → ∃ t, step s = .next t ∧ t.threads = s.threads ∧
      t.boot = s.boot ∧ t.turn = if s.boot.signing = none then none else some (.event .quoteSign)) ∧
    ∃ t, exec .inputUndervoltage s = .next t ∧ t.boot.stopped = true ∧ (∀ a < 2 ^ 50, memGet t.mem a = memGet s.mem a) ∧
      (∀ u ∈ t.wgs, u.resident = false ∧ u.state ≠ .saved ∧ u.state ≠ .resuming) ∧
      ∀ (w : Nat) (u : Wg), s.wgs[w]? = some u → u.resident = true ∨ u.state = .saved ∨ u.state = .resuming →
        ∃ u', t.wgs[w]? = some u' ∧ (u'.state = .killed ∨ u'.state = .failed)) ∧
  (∀ (s : State) (n : BitVec 256), let b := s.boot; let f := s.flash
    (b.signing = none → b.quotes = [] → f.counter < 2 ^ 40 → exec (.quoteRequest n) s =
      .next { s with boot := { b with signing := some (n, f.counter) }, flash := { f with counter := f.counter + 1 } }) ∧
    (b.signing = none → b.quotes = [] → 2 ^ 40 ≤ f.counter → exec (.quoteRequest n) s =
      .next { s with notices := s.notices ++ [.quoteRefused] }) ∧
    (b.signing ≠ none → exec (.quoteRequest n) s = .next { s with boot := { b with quotes := b.quotes ++ [n] } }) ∧
    (∀ m c, b.signing = some (m, c) →
      let signed := s.notices ++ [.quote c (s.quoteSignature m c)]
      (b.quotes = [] → exec .quoteSign s = .next { s with boot := { b with signing := none }, notices := signed }) ∧
      ∀ q rest, b.quotes = q :: rest → f.counter < 2 ^ 40 → exec .quoteSign s = .next { s with
        boot := { b with signing := some (q, f.counter), quotes := rest }, flash := { f with counter := f.counter + 1 }, notices := signed }) ∧
    ∀ (setB prefer : Bool) (x : ImageSet), exec (.firmwareUpdate setB x prefer) s = .next { s with
      flash := { f with
        setA := if setB then f.setA else x
        setB := if setB then x else f.setB
        preferB := if prefer then setB else f.preferB }
      notices := s.notices ++ [.updated setB] }) ∧
  (∀ (s : State) (a : Nat) (bs : List Byte), Safety.memoryOk s →
    (a + bs.length ≤ 384 * 2 ^ 30 →
      exec (.cxlMemRequest false (.dram a) bs) s = .next { s with notices := s.notices ++ [.hostRead a (memRead s.mem a bs.length)] } ∧
      ∃ t, exec (.cxlMemRequest true (.dram a) bs) s = .next t ∧ Safety.stored s t a bs) ∧
    (a + 4 ≤ 2 ^ 25 → a % 4 = 0 → ∀ b0 b1 b2 b3 : Byte, bs = [b0, b1, b2, b3] →
      exec (.cxlMemRequest false (.bar0 a) bs) s = .next { s with notices := s.notices ++ [.hostRead a
        ((List.range 4).map fun n => (s.hubRead a).extractLsb' (8 * n) 8)] } ∧
      exec (.cxlMemRequest true (.bar0 a) bs) s = exec (.registerWrite a (.word (b3 ++ b2 ++ b1 ++ b0))) s))

/-- R376, R382, R384-R386: a process is attached with a block within its table, and refused with any other; detached, no
core holds its block any more, and counts not yet in the histogram area go there; a write of the queue's tail lands in the block;
65,536 ac after the last a flush adds a core's counts to memory and clears them; a sample is taken at its time, which moves on by
the block's period, and of a squad that issued it carries the bundle's place, the lowest thread that did and how many did; it goes
to the ring with the samples dropped before it, or is dropped and counted. The block, the ring and the histogram area are at
physical addresses by the model's choice (log 34), as is when a flush after a late one is due (log 49). -/
def Obligations.Debugging : Prop :=
  (∀ (s : State) (p block : Nat), p < s.processes.length →
    (blockOk block (fun k => memWord s.mem (block + 4 * k)) = false → exec (.attachProcess p block) s =
      .next { s with notices := s.notices ++ [.attachRefused p] }) ∧
    (blockOk block (fun k => memWord s.mem (block + 4 * k)) = true → (∀ u ∈ s.wgs, u.resident = false) → exec (.attachProcess p block) s =
      .next { s with processes := s.processes.modify p fun x => { x with debug := some block } }) ∧
    (∀ (x : Process) (b : Nat), s.processes[p]? = some x → x.debug = some b → ∃ t, exec (.detachProcess p) s = .next t ∧ 
      ((∀ c ∈ s.cores, ∀ y, c.debug = some y → y.proc = p → y.samples = [] ∧ (y.words.getD 0 0).getLsbD 1 = false) → t.mem = s.mem) ∧
      t.threads = s.threads ∧ t.processes = s.processes.set p { x with debug := none } ∧ (∀ c ∈ t.cores, ∀ y, c.debug = some y → y.proc ≠ p) ∧
      (∀ v : Word, Safety.memoryOk s → (∀ y ∈ s.threads, y.hold = none) →
        (∀ u ∈ s.wgs, u.waiting = [] ∧ ∀ d, u.drive = some d → d.hold = none) →
        ∃ t, exec (.dqtailWrite p v) s = .next t ∧ Safety.stored s t (b + 24)
          [v.extractLsb' 0 8, v.extractLsb' 8 8, v.extractLsb' 16 8, v.extractLsb' 24 8]))) ∧
  (∀ (s : State) (c : Nat) (x : Core) (y : Debug), s.cores[c]? = some x → x.debug = some y → Safety.memoryOk s →
    let ctl := y.words.getD 0 0
    let base := (y.words.getD 15 0 ++ y.words.getD 14 0 : BitVec 64).toNat + 256 * c
    (ctl.getLsbD 1 = true → y.flushed + 65536 ≤ s.clk → y.bins.length = 9 → y.reasons.length = 16 → ∃ t, exec (.histogramFlush c) s = .next t ∧
      t.cores = s.cores.set c { x with debug := some { y with
        bins := List.replicate 9 0, reasons := List.replicate 16 0, flushed := y.flushed + (s.clk - y.flushed) / 65536 * 65536 } } ∧
      (∀ n < 9, (memDouble t.mem (base + 8 * n)).toNat = ((memDouble s.mem (base + 8 * n)).toNat + y.bins.getD n 0) % 2 ^ 64) ∧
      (∀ n < 16, (memDouble t.mem (base + 128 + 8 * n)).toNat = ((memDouble s.mem (base + 128 + 8 * n)).toNat + y.reasons.getD n 0) % 2 ^ 64) ∧
      ∀ a, a < base ∨ base + 256 ≤ a → memGet t.mem a = memGet s.mem a) ∧
    (ctl.getLsbD 1 = true → y.flushed + 65536 ≤ s.clk → y.samples = [] →
      (∀ (k : Nat) (x' : Core), s.cores[k]? = some x' → k ≠ c → ∀ z, x'.debug = some z → z.proc ≠ y.proc) →
      ∀ t t', exec (.histogramFlush c) s = .next t → exec (.detachProcess y.proc) s = .next t' → t'.mem = t.mem) ∧
    (∀ (r : BitVec 256) (rest : List (BitVec 256)), y.samples = r :: rest →
      let word := fun (t : State) k => (memWord t.mem (y.block + 4 * k)).toNat
      let size := 2 ^ (word s 10 % 32)
      let to_ := (memDouble s.mem (y.block + 32)).toNat + 32 * (word s 11 % size)
      let full := (word s 11 % size + 1) % size = word s 12 % size
      ∃ t, exec (.blinkSample c) s = .next t ∧ t.threads = s.threads ∧ t.cores = s.cores.set c { x with debug := some { y with samples := rest } } ∧
      (full → word t 13 = min (word s 13 + 1) 0xFFFFFFFF ∧
        ∀ a, a < y.block + 52 ∨ y.block + 56 ≤ a → memGet t.mem a = memGet s.mem a) ∧
      (¬ full → to_ + 32 ≤ y.block ∨ y.block + 512 ≤ to_ → word t 11 = (word s 11 % size + 1) % size ∧ word t 13 = 0 ∧
        memRead t.mem to_ 32 = (List.range 32).map (fun n =>
          (r ||| (BitVec.ofNat 256 (min (word s 13) 65535) <<< 16)).extractLsb' (8 * n) 8) ∧
        ∀ a, (a < to_ ∨ to_ + 32 ≤ a) → (a < y.block + 44 ∨ y.block + 48 ≤ a) → (a < y.block + 52 ∨ y.block + 56 ≤ a) →
          memGet t.mem a = memGet s.mem a)) ∧
    (∀ n m : Nat, ctl.getLsbD 2 = true → y.t0 = some n → n < m → ∃ z : Debug, s.takeSample c m = { s with cores := s.cores.set c { x with debug := some z } } ∧
      z = { y with t0 := some (n + (y.words.getD 1 0).toNat), lastSlot := z.lastSlot, samples := z.samples } ∧
      (s.nextSlot c y = none → z.lastSlot = y.lastSlot ∧ z.samples = y.samples) ∧
      ∀ k w q, s.nextSlot c y = some (k, w, q) → z.lastSlot = some k ∧
        let issued := (s.squadOf w q).filter (fun j => x.note.ac = n ∧ j ∈ x.note.threads)
        ∀ (j : Nat) (th : Thread), issued.head? = some j → s.threads[j]? = some th → ∃ r : BitVec 256, z.samples = y.samples ++ [r] ∧
          r.extractLsb' 192 64 = BitVec.ofNat 64 n ∧ r.extractLsb' 128 64 = x.note.pc.setWidth 64 ∧ r.extractLsb' 54 10 = th.tid ∧
          r.extractLsb' 44 4 = 0 ∧ r.extractLsb' 8 8 = BitVec.ofNat 8 issued.length))

/-- R193, R336, R357, R358, R360, R361: right after reset nothing is lit, every free frame ring and table of parked accesses is
empty, both budget steps are 64 and each command link has eight permits each way; memory lists nothing, in its canonical
form, and reads zero (the model's choice where the spec gives no value, logs 3 and 4). -/
def Obligations.ResetFacts : Prop :=
  State.reset.cores.length = 64 ∧
  (∀ c ∈ State.reset.cores, c.arrays = List.replicate 192 .free ∧ c.groupsLit = 15 ∧ c.slicesLit = 15 ∧ c.offset = 0 ∧ c.locks = [] ∧ c.tlb = []) ∧
  State.reset.hubs.length = 4 ∧ (∀ h ∈ State.reset.hubs, h.frames = [] ∧ h.slots = List.replicate 1024 none) ∧
  State.reset.hostStep = 64 ∧ State.reset.mgmtStep = 64 ∧ State.reset.brake = false ∧ State.reset.limit = 0 ∧
  (State.reset.links.length = 16 ∧ ∀ k ∈ State.reset.links, k.down = 8 ∧ k.up = 8 ∧ k.held = [] ∧ k.upHeld = []) ∧
  State.reset.wgs = [] ∧ State.reset.launches = [] ∧ State.reset.threads = [] ∧
  Safety.memoryOk State.reset ∧ ∀ a, memGet State.reset.mem a = 0
end

