-- ==== Sys2Proof/Laws/Issue.lean ====
section
/-! SUPPORT. Issue: what the issue operations answer (R38, R41, R48, R136, R184), once for every word. -/

namespace Sys2Proof.Machine

/-! ## Changing one thread -/

theorem modify_const {α : Type} {l : List α} {k : Nat} {x : α} (h : l[k]? = some x) (f : α → α) :
    l.modify k f = l.modify k fun _ => f x := by
  apply List.ext_getElem?
  intro j
  by_cases e : k = j
  · subst e; simp [h]
  · simp [e]

/-- What a change of thread `k` makes of it is a function of the thread that stands there. -/
theorem State.updThread_const {s : State} {k : Nat} {th : Thread} (h : s.threads[k]? = some th) (f : Thread → Thread) :
    s.updThread k f = s.updThread k fun _ => f th := by
  simp only [State.updThread, modify_const h]

theorem State.updThread_get {s : State} {k : Nat} {th : Thread} (h : s.threads[k]? = some th) (f : Thread → Thread) :
    (s.updThread k f).threads[k]? = some (f th) := by
  simp [State.updThread, h]

theorem State.updThread_get_ne {s : State} {k j : Nat} (f : Thread → Thread) (h : j ≠ k) :
    (s.updThread k f).threads[j]? = s.threads[j]? := by
  simp [State.updThread, Ne.symm h]

theorem State.updThread_only (s : State) (k : Nat) (f : Thread → Thread) : Safety.OnlyThread s (s.updThread k f) k :=
  ⟨rfl, fun _ h => State.updThread_get_ne f h, fun _ => rfl⟩

/-! ## Registers -/

theorem Thread.reg_setReg (th : Thread) (d r : BitVec 7) (v : Word) :
    (th.setReg d v).reg r = if r = d then v else th.reg r := by
  unfold Thread.reg Thread.setReg
  by_cases e : r = d
  · subst e; simp
  · have : d.toNat ≠ r.toNat := fun h => e (BitVec.eq_of_toNat_eq h.symm)
    simp [this, e]

/-! ## Words of the thread streams -/

/-- A word whose issue record passes every check takes its own effect. -/
theorem onIssue_runs {s : State} {k : Nat} {th : Thread} {i : Issue} {body : Nat → Thread → State → State}
    (h1 : s.issuer = some (.thread k)) (h2 : s.threads[k]? = some th) (h3 : i.wf = true) (h4 : th.allots i.regs = true)
    (h5 : th.pred i.guard = true) (h6 : th.awaits i.regs = false) (h7 : i.noSpec = true → th.spec = none) :
    onIssue i s body = .next (body k th s) := by
  have h8 : (i.noSpec && th.spec.isSome) = false := by
    cases e : i.noSpec
    · rfl
    · simp [h7 e]
  simp [onIssue, h1, h2, State.issueOn, h3, h4, h5, h6, h8]

theorem onThread_runs {s : State} {k : Nat} {th : Thread} {i : Instr} {body : Nat → Thread → State → State}
    (h : Safety.Issues s k th i) : onThread i s body = .next (body k th s) :=
  onIssue_runs h.issuer h.thread h.formed h.allotted h.guarded h.ready h.allowed

theorem onRegs_runs {s : State} {k : Nat} {th : Thread} {i : Instr} {f : Thread → Thread} (h : Safety.Issues s k th i) :
    onRegs i s f = .next (s.updThread k fun _ => (f th).advance i.slots) := by
  rw [onRegs, onThread_runs h, State.updThread_const h.thread]

/-- A word with an issue record of its own, that of its instruction. -/
theorem onIssue_runs_of {s : State} {k : Nat} {th : Thread} {i : Instr} {x : Issue}
    {body : Nat → Thread → State → State} (e : x = issueOf i) (h : Safety.Issues s k th i) :
    onIssue x s body = .next (body k th s) := by
  subst e; exact onThread_runs h

/-- A word that breaks R41 or R48 raises ILLEGAL, whatever its guard. -/
theorem onIssue_illegal {s : State} {k : Nat} {th : Thread} {i : Issue} {body : Nat → Thread → State → State}
    (h1 : s.issuer = some (.thread k)) (h2 : s.threads[k]? = some th) (h3 : (i.wf && th.allots i.regs) = false) :
    onIssue i s body = .next (s.illegalWord k i.word) := by
  simp [onIssue, h1, h2, State.issueOn, h3]

/-- A word whose guard is false only moves its thread on. -/
theorem onIssue_skips {s : State} {k : Nat} {th : Thread} {i : Issue} {body : Nat → Thread → State → State}
    (h1 : s.issuer = some (.thread k)) (h2 : s.threads[k]? = some th) (h3 : (i.wf && th.allots i.regs) = true)
    (h4 : th.pred i.guard = false) :
    onIssue i s body = .next (s.updThread k fun th => th.advance i.slots) := by
  simp [onIssue, h1, h2, State.issueOn, h3, h4]

/-- A word that names an awaited register changes nothing. -/
theorem onIssue_holds {s : State} {k : Nat} {th : Thread} {i : Issue} {body : Nat → Thread → State → State}
    (h1 : s.issuer = some (.thread k)) (h2 : s.threads[k]? = some th) (h3 : (i.wf && th.allots i.regs) = true)
    (h4 : th.pred i.guard = true) (h5 : th.awaits i.regs = true) : onIssue i s body = .next s := by
  simp [onIssue, h1, h2, State.issueOn, h3, h4, h5]

/-- A word that R136 forbids in speculation aborts it with code 5. -/
theorem onIssue_forbidden {s : State} {k : Nat} {th : Thread} {i : Issue} {body : Nat → Thread → State → State}
    (h1 : s.issuer = some (.thread k)) (h2 : s.threads[k]? = some th) (h3 : (i.wf && th.allots i.regs) = true)
    (h4 : th.pred i.guard = true) (h5 : th.awaits i.regs = false) (h6 : i.noSpec = true) (h7 : th.spec.isSome = true) :
    onIssue i s body = .next (s.abort k 5#8 0 0) := by
  simp [onIssue, h1, h2, State.issueOn, h3, h4, h5, h6, h7]

/-! ## Words of the drive stream -/

theorem onDrive_runs {s : State} {w : Nat} {d : Drive} {i : Instr} {body : Nat → Drive → State → State}
    (h : Safety.Drives s w d i) : onDrive i s body = .next (body w d s) := by
  simp [onDrive, h.issuer, h.drive, h.formed]

theorem onBoth_drive {s : State} {w : Nat} {d : Drive} {x : Issue} {i : Instr} {r : BitVec 7}
    {f : Nat → Thread → State → State} {g : Nat → Drive → State → State} (e : x = issueOf i)
    (h : Safety.DrivesBoth s w d i r) : onBoth x r s f g = .next (g w d s) := by
  subst e
  have h3 : (issueOf i).wf = true := h.formed
  have h4 : (issueOf i).guard = 7#3 := h.always
  simp [onBoth, h.issuer, h.drive, h3, h4, h.low]

theorem onBoth_thread {s : State} {k : Nat} {th : Thread} {x : Issue} {i : Instr} {r : BitVec 7}
    {f : Nat → Thread → State → State} {g : Nat → Drive → State → State} (e : x = issueOf i)
    (h : Safety.Issues s k th i) : onBoth x r s f g = .next (f k th s) := by
  subst e
  simp only [onBoth, h.issuer]
  exact onThread_runs h

/-! ## Issue records written out -/

theorem barArvIssue_eq (g : BitVec 3) (r : BitVec 7) (b : BitVec 4) : barArvIssue g r b = issueOf (.barArv g r b) := rfl
theorem barSyncIssue_eq (g : BitVec 3) (r : BitVec 7) (b : BitVec 4) : barSyncIssue g r b = issueOf (.barSync g r b) := rfl
theorem barInvalIssue_eq (g : BitVec 3) (b : BitVec 4) : barInvalIssue g b = issueOf (.barInval g b) := rfl
theorem tmbarSyncIssue_eq (g : BitVec 3) (a : BitVec 7) : tmbarSyncIssue g a = issueOf (.tmbarSync g a) := rfl
theorem tmbarArvIssue_eq (g : BitVec 3) (a : BitVec 7) : tmbarArvIssue g a = issueOf (.tmbarArv g a) := rfl
theorem ckptIssue_eq (g : BitVec 3) : ckptIssue g = issueOf (.ckpt g) := rfl
theorem sallocIssue_eq (g : BitVec 3) (d a : BitVec 7) : sallocIssue g d a = issueOf (.salloc g d a) := rfl
theorem sfreeIssue_eq (g : BitVec 3) (a : BitVec 7) : sfreeIssue g a = issueOf (.sfree g a) := rfl
theorem srelightIssue_eq (g : BitVec 3) (d a : BitVec 7) : srelightIssue g d a = issueOf (.srelight g d a) := rfl
theorem sretIssue_eq (g : BitVec 3) : sretIssue g = issueOf (.sret g) := rfl
theorem sinfoAllocIssue_eq (g : BitVec 3) (d a : BitVec 7) : sinfoAllocIssue g d a = issueOf (.sinfoAlloc g d a) := rfl
theorem sinfoEntryIssue_eq (g : BitVec 3) (d : BitVec 7) : sinfoEntryIssue g d = issueOf (.sinfoEntry g d) := rfl
theorem sinfoCoreIssue_eq (g : BitVec 3) (d : BitVec 7) : sinfoCoreIssue g d = issueOf (.sinfoCore g d) := rfl
theorem bdgtIssue_eq (g : BitVec 3) (a : BitVec 7) : bdgtIssue g a = issueOf (.bdgt g a) := rfl
theorem cjoinIssue_eq (g : BitVec 3) (d a : BitVec 7) : cjoinIssue g d a = issueOf (.cjoin g d a) := rfl
theorem cjoinInfoIssue_eq (g : BitVec 3) (d : BitVec 7) : cjoinInfoIssue g d = issueOf (.cjoinInfo g d) := rfl
theorem cleaveIssue_eq (g : BitVec 3) (d : BitVec 7) : cleaveIssue g d = issueOf (.cleave g d) := rfl
theorem wgdoneIssue_eq (g : BitVec 3) : wgdoneIssue g = issueOf (.wgdone g) := rfl
theorem lnchIssue_eq (g : BitVec 3) (d a : BitVec 7) : lnchIssue g d a = issueOf (.lnch g d a) := rfl
theorem ptsyncPageIssue_eq (g : BitVec 3) (a : BitVec 7) : ptsyncPageIssue g a = issueOf (.ptsyncPage g a) := rfl
theorem ptsyncAllIssue_eq (g : BitVec 3) : ptsyncAllIssue g = issueOf (.ptsyncAll g) := rfl
theorem icinvIssue_eq (g : BitVec 3) (a : BitVec 7) (sc : BitVec 4) : icinvIssue g a sc = issueOf (.icinv g a sc) := rfl
theorem fsigIssue_eq (g : BitVec 3) (a : BitVec 7) : fsigIssue g a = issueOf (.fsig g a) := rfl
theorem evsigIssue_eq (g : BitVec 3) (a : BitVec 7) : eventIssue g a 0 = issueOf (.evsig g a) := rfl
theorem evwaitIssue_eq (g : BitVec 3) (a : BitVec 7) : eventIssue g a 1 = issueOf (.evwait g a) := rfl
theorem evclrIssue_eq (g : BitVec 3) (a : BitVec 7) : eventIssue g a 2 = issueOf (.evclr g a) := rfl
theorem evarmIssue_eq (g : BitVec 3) (a : BitVec 7) : eventIssue g a 3 = issueOf (.evarm g a) := rfl

end Sys2Proof.Machine
end

