-- ==== Sys2Proof/Laws/Lookup.lean ====
section
/-! SUPPORT. Lookup: what a lookup of a translation can do, said once (R341, R343). -/

namespace Sys2Proof.Machine

/-- Two states that differ in what lookups leave alone: translation buffers, walk caches, and what threads have seen of a frame that
takes other contents (R341, R343). -/
def Looked (s t : State) : Prop :=
  ∃ cs hs ts ws, t = { s with cores := cs, hubs := hs, threads := ts, writes := ws } ∧
    (cs.map fun c => { c with tlb := [] }) = s.cores.map (fun c => { c with tlb := [] }) ∧
    (hs.map fun h => { h with walk := [] }) = s.hubs.map (fun h => { h with walk := [] }) ∧
    (ts.map fun th => { th with floors := [] }) = s.threads.map (fun th => { th with floors := [] })

theorem Looked.refl (s : State) : Looked s s := ⟨s.cores, s.hubs, s.threads, s.writes, rfl, rfl, rfl, rfl⟩

theorem Looked.trans {s t u : State} (a : Looked s t) (b : Looked t u) : Looked s u := by
  obtain ⟨cs, hs, ts, ws, rfl, h1, h2, h3⟩ := a
  obtain ⟨cs', hs', ts', ws', rfl, k1, k2, k3⟩ := b
  exact ⟨cs', hs', ts', ws', rfl, k1.trans h1, k2.trans h2, k3.trans h3⟩

theorem map_modify_same {α β : Type} (l : List α) (n : Nat) (f : α → α) (g : α → β) (h : ∀ x, g (f x) = g x) :
    (l.modify n f).map g = l.map g := by
  induction l generalizing n with
  | nil => cases n <;> rfl
  | cons x t ih => cases n with
    | zero => simp [List.modify, List.modifyTailIdx, List.modifyTailIdx.go, List.modifyHead, h]
    | succ n => simpa using ih n

theorem looked_arrived (s : State) (old : List Cached) (c : Cached) : Looked s (s.arrived old c) := by
  unfold State.arrived State.renewFrame
  split
  · exact ⟨s.cores, s.hubs, _, _, rfl, rfl, rfl, by simp [Function.comp_def]⟩
  · exact Looked.refl s

theorem looked_fillWalk (s : State) (d p va : Nat) : Looked s (s.fillWalk d p va) := by
  unfold State.fillWalk
  refine Looked.trans (t := match (s.walk d p va).getLast? with
    | some c => if c.pte.getLsbD 1 && !(s.heldLeaves p va).isEmpty then s.arrived (s.heldLeaves p va) c else s
    | none => s) ?_ ⟨_, _, _, _, rfl, rfl, map_modify_same _ _ _ _ fun _ => rfl, rfl⟩
  split
  · split
    · exact looked_arrived _ _ _
    · exact Looked.refl s
  · exact Looked.refl s

theorem looked_fill (s : State) (core p va : Nat) : Looked s (s.fill core p va) := by
  unfold State.fill
  split
  · exact Looked.refl s
  · refine (looked_fillWalk s (core / 16) p va).trans ?_
    dsimp only
    split
    · exact ⟨_, _, _, _, rfl, map_modify_same _ _ _ _ fun _ => rfl, rfl, rfl⟩
    · exact Looked.refl _

/-- A lookup changes translation buffers, walk caches and floors alone (R341, R343). -/
theorem looked_look (s : State) (w va : Nat) : Looked s (s.look w va) := by
  unfold State.look
  split
  · split
    · exact Looked.refl s
    · exact looked_fill _ _ _ _
  · exact Looked.refl s

theorem looked_lookRange (s : State) (w lo hi : Nat) : Looked s (s.lookRange w lo hi) := by
  unfold State.lookRange
  generalize chunks lo hi = l
  induction l generalizing s with
  | nil => exact Looked.refl s
  | cons c t ih => exact (looked_look s w c.1).trans (ih _)

/-- Past its translation buffer a core is as before. -/
theorem looked_core {s t : State} (h : Looked s t) {i : Nat} {c : Core} (e : s.cores[i]? = some c) :
    ∃ d, t.cores[i]? = some d ∧ d = { c with tlb := d.tlb } := by
  obtain ⟨cs, hs, ts, ws, rfl, h1, -, -⟩ := h
  have := congrArg (·[i]?) h1
  simp only [List.getElem?_map, e, Option.map_some] at this
  obtain ⟨d, hd, he⟩ := Option.map_eq_some_iff.1 this
  exact ⟨d, hd, by cases d; cases c; simp_all⟩
end Sys2Proof.Machine
end

