-- ==== Sys2Proof/Laws/Memory.lean ====
section
/-! SUPPORT. Memory: every memory operation keeps the canonical form, and the memory of State.reset has it (log 4). -/

namespace Sys2Proof.Machine

theorem Memory.wf_iff (m : List Host.Cell) :
    Memory.wf m = true ↔ (m.Pairwise fun c d => c.1 < d.1) ∧ ∀ c ∈ m, c.2 ≠ unlisted := by
  simp [Memory.wf]

/-- An address in the list after a write is the one written or was there before. -/
theorem memSet_addresses (m : List Host.Cell) (a : Nat) (b : Byte) :
    ∀ c ∈ memSet m a b, c.1 = a ∨ ∃ d ∈ m, d.1 = c.1 := by
  induction m with
  | nil => intro c; simp only [memSet]; split <;> simp +contextual
  | cons e t ih =>
    intro c
    simp only [memSet]
    split
    · split
      · intro h; exact .inr ⟨c, h, rfl⟩
      · intro h
        rcases List.mem_cons.1 h with h | h
        · exact .inl (by rw [h])
        · exact .inr ⟨c, h, rfl⟩
    · split
      · split
        · intro h; exact .inr ⟨c, List.mem_cons_of_mem _ h, rfl⟩
        · intro h
          rcases List.mem_cons.1 h with h | h
          · exact .inl (by rw [h])
          · exact .inr ⟨c, List.mem_cons_of_mem _ h, rfl⟩
      · intro h
        rcases List.mem_cons.1 h with h | h
        · exact .inr ⟨e, List.mem_cons_self, by rw [h]⟩
        · rcases ih c h with h | ⟨d, hd, h⟩
          · exact .inl h
          · exact .inr ⟨d, List.mem_cons_of_mem _ hd, h⟩

/-- Writing one byte keeps the form. -/
theorem memSet_wf {m : List Host.Cell} (a : Nat) (b : Byte) (h : Memory.wf m = true) : Memory.wf (memSet m a b) = true := by
  rw [Memory.wf_iff] at *
  induction m with
  | nil => simp only [memSet]; split <;> simp_all
  | cons e t ih =>
    obtain ⟨hp, hn⟩ := h
    obtain ⟨h1, h2⟩ := List.pairwise_cons.1 hp
    have ht := ih ⟨h2, fun c hc => hn c (List.mem_cons_of_mem _ hc)⟩
    have he := hn e List.mem_cons_self
    simp only [memSet]
    split
    · rename_i lt
      split
      · exact ⟨hp, hn⟩
      · rename_i nb
        refine ⟨List.pairwise_cons.2 ⟨?_, hp⟩, ?_⟩
        · intro c hc
          rcases List.mem_cons.1 hc with hc | hc
          · rw [hc]; exact lt
          · exact Nat.lt_trans lt (h1 c hc)
        · intro c hc
          rcases List.mem_cons.1 hc with hc | hc
          · rw [hc]; exact nb
          · exact hn c hc
    · split
      · rename_i eq
        split
        · exact ⟨h2, fun c hc => hn c (List.mem_cons_of_mem _ hc)⟩
        · rename_i nb
          refine ⟨List.pairwise_cons.2 ⟨fun c hc => ?_, h2⟩, fun c hc => ?_⟩
          · rw [eq]; exact h1 c hc
          · rcases List.mem_cons.1 hc with hc | hc
            · rw [hc]; exact nb
            · exact hn c (List.mem_cons_of_mem _ hc)
      · rename_i nlt neq
        refine ⟨List.pairwise_cons.2 ⟨fun c hc => ?_, ht.1⟩, fun c hc => ?_⟩
        · rcases memSet_addresses t a b c hc with hc | ⟨d, hd, hc⟩
          · show e.1 < c.1; omega
          · rw [← hc]; exact h1 d hd
        · rcases List.mem_cons.1 hc with hc | hc
          · rw [hc]; exact he
          · exact ht.2 c hc

/-- Writing consecutive bytes keeps the form. -/
theorem memPut_wf (bs : List Byte) : ∀ {m : List Host.Cell} (a : Nat), Memory.wf m = true → Memory.wf (memPut m a bs) = true := by
  induction bs with
  | nil => intro m a h; exact h
  | cons b t ih => intro m a h; exact ih (a + 1) (memSet_wf a b h)

/-- Clearing a range keeps the form. -/
theorem memClear_wf {m : List Host.Cell} (lo hi : Nat) (h : Memory.wf m = true) : Memory.wf (memClear m lo hi) = true := by
  rw [Memory.wf_iff] at *
  exact ⟨h.1.filter _, fun c hc => h.2 c (List.mem_of_mem_filter hc)⟩

/-- The memory of State.reset has the form: nothing is listed. -/
theorem reset_memoryOk : Safety.memoryOk State.reset := by
  show Memory.wf [] = true
  rfl

end Sys2Proof.Machine
end

