-- ==== Sys2Proof/Laws/State.lean ====
section
/-! SUPPORT. State: what each update of a part of the state leaves of every field, and what the updates of a thread leave. -/

namespace Sys2Proof.Machine

/-! ## updThread -/

@[simp] theorem State.updThread_mem (s : State) (i : Nat) (f : Thread → Thread) : (s.updThread i f).mem = s.mem := rfl
@[simp] theorem State.updThread_threads (s : State) (i : Nat) (f : Thread → Thread) : (s.updThread i f).threads = s.threads.modify i f := rfl
@[simp] theorem State.updThread_wgs (s : State) (i : Nat) (f : Thread → Thread) : (s.updThread i f).wgs = s.wgs := rfl
@[simp] theorem State.updThread_cores (s : State) (i : Nat) (f : Thread → Thread) : (s.updThread i f).cores = s.cores := rfl
@[simp] theorem State.updThread_hubs (s : State) (i : Nat) (f : Thread → Thread) : (s.updThread i f).hubs = s.hubs := rfl
@[simp] theorem State.updThread_copies (s : State) (i : Nat) (f : Thread → Thread) : (s.updThread i f).copies = s.copies := rfl
@[simp] theorem State.updThread_remains (s : State) (i : Nat) (f : Thread → Thread) : (s.updThread i f).remains = s.remains := rfl
@[simp] theorem State.updThread_processes (s : State) (i : Nat) (f : Thread → Thread) : (s.updThread i f).processes = s.processes := rfl
@[simp] theorem State.updThread_launches (s : State) (i : Nat) (f : Thread → Thread) : (s.updThread i f).launches = s.launches := rfl
@[simp] theorem State.updThread_requests (s : State) (i : Nat) (f : Thread → Thread) : (s.updThread i f).requests = s.requests := rfl
@[simp] theorem State.updThread_tree (s : State) (i : Nat) (f : Thread → Thread) : (s.updThread i f).tree = s.tree := rfl
@[simp] theorem State.updThread_events (s : State) (i : Nat) (f : Thread → Thread) : (s.updThread i f).events = s.events := rfl
@[simp] theorem State.updThread_messages (s : State) (i : Nat) (f : Thread → Thread) : (s.updThread i f).messages = s.messages := rfl
@[simp] theorem State.updThread_links (s : State) (i : Nat) (f : Thread → Thread) : (s.updThread i f).links = s.links := rfl
@[simp] theorem State.updThread_placements (s : State) (i : Nat) (f : Thread → Thread) : (s.updThread i f).placements = s.placements := rfl
@[simp] theorem State.updThread_rcores (s : State) (i : Nat) (f : Thread → Thread) : (s.updThread i f).rcores = s.rcores := rfl
@[simp] theorem State.updThread_failures (s : State) (i : Nat) (f : Thread → Thread) : (s.updThread i f).failures = s.failures := rfl
@[simp] theorem State.updThread_faults (s : State) (i : Nat) (f : Thread → Thread) : (s.updThread i f).faults = s.faults := rfl
@[simp] theorem State.updThread_notices (s : State) (i : Nat) (f : Thread → Thread) : (s.updThread i f).notices = s.notices := rfl
@[simp] theorem State.updThread_hostStep (s : State) (i : Nat) (f : Thread → Thread) : (s.updThread i f).hostStep = s.hostStep := rfl
@[simp] theorem State.updThread_mgmtStep (s : State) (i : Nat) (f : Thread → Thread) : (s.updThread i f).mgmtStep = s.mgmtStep := rfl
@[simp] theorem State.updThread_brake (s : State) (i : Nat) (f : Thread → Thread) : (s.updThread i f).brake = s.brake := rfl
@[simp] theorem State.updThread_limit (s : State) (i : Nat) (f : Thread → Thread) : (s.updThread i f).limit = s.limit := rfl
@[simp] theorem State.updThread_overCount (s : State) (i : Nat) (f : Thread → Thread) : (s.updThread i f).overCount = s.overCount := rfl
@[simp] theorem State.updThread_underCount (s : State) (i : Nat) (f : Thread → Thread) : (s.updThread i f).underCount = s.underCount := rfl
@[simp] theorem State.updThread_sensors (s : State) (i : Nat) (f : Thread → Thread) : (s.updThread i f).sensors = s.sensors := rfl
@[simp] theorem State.updThread_ring (s : State) (i : Nat) (f : Thread → Thread) : (s.updThread i f).ring = s.ring := rfl
@[simp] theorem State.updThread_repair (s : State) (i : Nat) (f : Thread → Thread) : (s.updThread i f).repair = s.repair := rfl
@[simp] theorem State.updThread_fabricNo (s : State) (i : Nat) (f : Thread → Thread) : (s.updThread i f).fabricNo = s.fabricNo := rfl
@[simp] theorem State.updThread_routes (s : State) (i : Nat) (f : Thread → Thread) : (s.updThread i f).routes = s.routes := rfl
@[simp] theorem State.updThread_flinks (s : State) (i : Nat) (f : Thread → Thread) : (s.updThread i f).flinks = s.flinks := rfl
@[simp] theorem State.updThread_reductions (s : State) (i : Nat) (f : Thread → Thread) : (s.updThread i f).reductions = s.reductions := rfl
@[simp] theorem State.updThread_gangs (s : State) (i : Nat) (f : Thread → Thread) : (s.updThread i f).gangs = s.gangs := rfl
@[simp] theorem State.updThread_flash (s : State) (i : Nat) (f : Thread → Thread) : (s.updThread i f).flash = s.flash := rfl
@[simp] theorem State.updThread_boot (s : State) (i : Nat) (f : Thread → Thread) : (s.updThread i f).boot = s.boot := rfl
@[simp] theorem State.updThread_poison (s : State) (i : Nat) (f : Thread → Thread) : (s.updThread i f).poison = s.poison := rfl
@[simp] theorem State.updThread_clk (s : State) (i : Nat) (f : Thread → Thread) : (s.updThread i f).clk = s.clk := rfl
@[simp] theorem State.updThread_nextId (s : State) (i : Nat) (f : Thread → Thread) : (s.updThread i f).nextId = s.nextId := rfl
@[simp] theorem State.updThread_writes (s : State) (i : Nat) (f : Thread → Thread) : (s.updThread i f).writes = s.writes := rfl
@[simp] theorem State.updThread_draw (s : State) (i : Nat) (f : Thread → Thread) : (s.updThread i f).draw = s.draw := rfl
@[simp] theorem State.updThread_issuer (s : State) (i : Nat) (f : Thread → Thread) : (s.updThread i f).issuer = s.issuer := rfl
@[simp] theorem State.updThread_turn (s : State) (i : Nat) (f : Thread → Thread) : (s.updThread i f).turn = s.turn := rfl
@[simp] theorem State.updThread_inputs (s : State) (i : Nat) (f : Thread → Thread) : (s.updThread i f).inputs = s.inputs := rfl

/-! ## updWg -/

@[simp] theorem State.updWg_mem (s : State) (w : Nat) (f : Wg → Wg) : (s.updWg w f).mem = s.mem := rfl
@[simp] theorem State.updWg_threads (s : State) (w : Nat) (f : Wg → Wg) : (s.updWg w f).threads = s.threads := rfl
@[simp] theorem State.updWg_wgs (s : State) (w : Nat) (f : Wg → Wg) : (s.updWg w f).wgs = s.wgs.modify w f := rfl
@[simp] theorem State.updWg_cores (s : State) (w : Nat) (f : Wg → Wg) : (s.updWg w f).cores = s.cores := rfl
@[simp] theorem State.updWg_hubs (s : State) (w : Nat) (f : Wg → Wg) : (s.updWg w f).hubs = s.hubs := rfl
@[simp] theorem State.updWg_copies (s : State) (w : Nat) (f : Wg → Wg) : (s.updWg w f).copies = s.copies := rfl
@[simp] theorem State.updWg_remains (s : State) (w : Nat) (f : Wg → Wg) : (s.updWg w f).remains = s.remains := rfl
@[simp] theorem State.updWg_processes (s : State) (w : Nat) (f : Wg → Wg) : (s.updWg w f).processes = s.processes := rfl
@[simp] theorem State.updWg_launches (s : State) (w : Nat) (f : Wg → Wg) : (s.updWg w f).launches = s.launches := rfl
@[simp] theorem State.updWg_requests (s : State) (w : Nat) (f : Wg → Wg) : (s.updWg w f).requests = s.requests := rfl
@[simp] theorem State.updWg_tree (s : State) (w : Nat) (f : Wg → Wg) : (s.updWg w f).tree = s.tree := rfl
@[simp] theorem State.updWg_events (s : State) (w : Nat) (f : Wg → Wg) : (s.updWg w f).events = s.events := rfl
@[simp] theorem State.updWg_messages (s : State) (w : Nat) (f : Wg → Wg) : (s.updWg w f).messages = s.messages := rfl
@[simp] theorem State.updWg_links (s : State) (w : Nat) (f : Wg → Wg) : (s.updWg w f).links = s.links := rfl
@[simp] theorem State.updWg_placements (s : State) (w : Nat) (f : Wg → Wg) : (s.updWg w f).placements = s.placements := rfl
@[simp] theorem State.updWg_rcores (s : State) (w : Nat) (f : Wg → Wg) : (s.updWg w f).rcores = s.rcores := rfl
@[simp] theorem State.updWg_failures (s : State) (w : Nat) (f : Wg → Wg) : (s.updWg w f).failures = s.failures := rfl
@[simp] theorem State.updWg_faults (s : State) (w : Nat) (f : Wg → Wg) : (s.updWg w f).faults = s.faults := rfl
@[simp] theorem State.updWg_notices (s : State) (w : Nat) (f : Wg → Wg) : (s.updWg w f).notices = s.notices := rfl
@[simp] theorem State.updWg_hostStep (s : State) (w : Nat) (f : Wg → Wg) : (s.updWg w f).hostStep = s.hostStep := rfl
@[simp] theorem State.updWg_mgmtStep (s : State) (w : Nat) (f : Wg → Wg) : (s.updWg w f).mgmtStep = s.mgmtStep := rfl
@[simp] theorem State.updWg_brake (s : State) (w : Nat) (f : Wg → Wg) : (s.updWg w f).brake = s.brake := rfl
@[simp] theorem State.updWg_limit (s : State) (w : Nat) (f : Wg → Wg) : (s.updWg w f).limit = s.limit := rfl
@[simp] theorem State.updWg_overCount (s : State) (w : Nat) (f : Wg → Wg) : (s.updWg w f).overCount = s.overCount := rfl
@[simp] theorem State.updWg_underCount (s : State) (w : Nat) (f : Wg → Wg) : (s.updWg w f).underCount = s.underCount := rfl
@[simp] theorem State.updWg_sensors (s : State) (w : Nat) (f : Wg → Wg) : (s.updWg w f).sensors = s.sensors := rfl
@[simp] theorem State.updWg_ring (s : State) (w : Nat) (f : Wg → Wg) : (s.updWg w f).ring = s.ring := rfl
@[simp] theorem State.updWg_repair (s : State) (w : Nat) (f : Wg → Wg) : (s.updWg w f).repair = s.repair := rfl
@[simp] theorem State.updWg_fabricNo (s : State) (w : Nat) (f : Wg → Wg) : (s.updWg w f).fabricNo = s.fabricNo := rfl
@[simp] theorem State.updWg_routes (s : State) (w : Nat) (f : Wg → Wg) : (s.updWg w f).routes = s.routes := rfl
@[simp] theorem State.updWg_flinks (s : State) (w : Nat) (f : Wg → Wg) : (s.updWg w f).flinks = s.flinks := rfl
@[simp] theorem State.updWg_reductions (s : State) (w : Nat) (f : Wg → Wg) : (s.updWg w f).reductions = s.reductions := rfl
@[simp] theorem State.updWg_gangs (s : State) (w : Nat) (f : Wg → Wg) : (s.updWg w f).gangs = s.gangs := rfl
@[simp] theorem State.updWg_flash (s : State) (w : Nat) (f : Wg → Wg) : (s.updWg w f).flash = s.flash := rfl
@[simp] theorem State.updWg_boot (s : State) (w : Nat) (f : Wg → Wg) : (s.updWg w f).boot = s.boot := rfl
@[simp] theorem State.updWg_poison (s : State) (w : Nat) (f : Wg → Wg) : (s.updWg w f).poison = s.poison := rfl
@[simp] theorem State.updWg_clk (s : State) (w : Nat) (f : Wg → Wg) : (s.updWg w f).clk = s.clk := rfl
@[simp] theorem State.updWg_nextId (s : State) (w : Nat) (f : Wg → Wg) : (s.updWg w f).nextId = s.nextId := rfl
@[simp] theorem State.updWg_writes (s : State) (w : Nat) (f : Wg → Wg) : (s.updWg w f).writes = s.writes := rfl
@[simp] theorem State.updWg_draw (s : State) (w : Nat) (f : Wg → Wg) : (s.updWg w f).draw = s.draw := rfl
@[simp] theorem State.updWg_issuer (s : State) (w : Nat) (f : Wg → Wg) : (s.updWg w f).issuer = s.issuer := rfl
@[simp] theorem State.updWg_turn (s : State) (w : Nat) (f : Wg → Wg) : (s.updWg w f).turn = s.turn := rfl
@[simp] theorem State.updWg_inputs (s : State) (w : Nat) (f : Wg → Wg) : (s.updWg w f).inputs = s.inputs := rfl

/-! ## updCore -/

@[simp] theorem State.updCore_mem (s : State) (c : Nat) (f : Core → Core) : (s.updCore c f).mem = s.mem := rfl
@[simp] theorem State.updCore_threads (s : State) (c : Nat) (f : Core → Core) : (s.updCore c f).threads = s.threads := rfl
@[simp] theorem State.updCore_wgs (s : State) (c : Nat) (f : Core → Core) : (s.updCore c f).wgs = s.wgs := rfl
@[simp] theorem State.updCore_cores (s : State) (c : Nat) (f : Core → Core) : (s.updCore c f).cores = s.cores.modify c f := rfl
@[simp] theorem State.updCore_hubs (s : State) (c : Nat) (f : Core → Core) : (s.updCore c f).hubs = s.hubs := rfl
@[simp] theorem State.updCore_copies (s : State) (c : Nat) (f : Core → Core) : (s.updCore c f).copies = s.copies := rfl
@[simp] theorem State.updCore_remains (s : State) (c : Nat) (f : Core → Core) : (s.updCore c f).remains = s.remains := rfl
@[simp] theorem State.updCore_processes (s : State) (c : Nat) (f : Core → Core) : (s.updCore c f).processes = s.processes := rfl
@[simp] theorem State.updCore_launches (s : State) (c : Nat) (f : Core → Core) : (s.updCore c f).launches = s.launches := rfl
@[simp] theorem State.updCore_requests (s : State) (c : Nat) (f : Core → Core) : (s.updCore c f).requests = s.requests := rfl
@[simp] theorem State.updCore_tree (s : State) (c : Nat) (f : Core → Core) : (s.updCore c f).tree = s.tree := rfl
@[simp] theorem State.updCore_events (s : State) (c : Nat) (f : Core → Core) : (s.updCore c f).events = s.events := rfl
@[simp] theorem State.updCore_messages (s : State) (c : Nat) (f : Core → Core) : (s.updCore c f).messages = s.messages := rfl
@[simp] theorem State.updCore_links (s : State) (c : Nat) (f : Core → Core) : (s.updCore c f).links = s.links := rfl
@[simp] theorem State.updCore_placements (s : State) (c : Nat) (f : Core → Core) : (s.updCore c f).placements = s.placements := rfl
@[simp] theorem State.updCore_rcores (s : State) (c : Nat) (f : Core → Core) : (s.updCore c f).rcores = s.rcores := rfl
@[simp] theorem State.updCore_failures (s : State) (c : Nat) (f : Core → Core) : (s.updCore c f).failures = s.failures := rfl
@[simp] theorem State.updCore_faults (s : State) (c : Nat) (f : Core → Core) : (s.updCore c f).faults = s.faults := rfl
@[simp] theorem State.updCore_notices (s : State) (c : Nat) (f : Core → Core) : (s.updCore c f).notices = s.notices := rfl
@[simp] theorem State.updCore_hostStep (s : State) (c : Nat) (f : Core → Core) : (s.updCore c f).hostStep = s.hostStep := rfl
@[simp] theorem State.updCore_mgmtStep (s : State) (c : Nat) (f : Core → Core) : (s.updCore c f).mgmtStep = s.mgmtStep := rfl
@[simp] theorem State.updCore_brake (s : State) (c : Nat) (f : Core → Core) : (s.updCore c f).brake = s.brake := rfl
@[simp] theorem State.updCore_limit (s : State) (c : Nat) (f : Core → Core) : (s.updCore c f).limit = s.limit := rfl
@[simp] theorem State.updCore_overCount (s : State) (c : Nat) (f : Core → Core) : (s.updCore c f).overCount = s.overCount := rfl
@[simp] theorem State.updCore_underCount (s : State) (c : Nat) (f : Core → Core) : (s.updCore c f).underCount = s.underCount := rfl
@[simp] theorem State.updCore_sensors (s : State) (c : Nat) (f : Core → Core) : (s.updCore c f).sensors = s.sensors := rfl
@[simp] theorem State.updCore_ring (s : State) (c : Nat) (f : Core → Core) : (s.updCore c f).ring = s.ring := rfl
@[simp] theorem State.updCore_repair (s : State) (c : Nat) (f : Core → Core) : (s.updCore c f).repair = s.repair := rfl
@[simp] theorem State.updCore_fabricNo (s : State) (c : Nat) (f : Core → Core) : (s.updCore c f).fabricNo = s.fabricNo := rfl
@[simp] theorem State.updCore_routes (s : State) (c : Nat) (f : Core → Core) : (s.updCore c f).routes = s.routes := rfl
@[simp] theorem State.updCore_flinks (s : State) (c : Nat) (f : Core → Core) : (s.updCore c f).flinks = s.flinks := rfl
@[simp] theorem State.updCore_reductions (s : State) (c : Nat) (f : Core → Core) : (s.updCore c f).reductions = s.reductions := rfl
@[simp] theorem State.updCore_gangs (s : State) (c : Nat) (f : Core → Core) : (s.updCore c f).gangs = s.gangs := rfl
@[simp] theorem State.updCore_flash (s : State) (c : Nat) (f : Core → Core) : (s.updCore c f).flash = s.flash := rfl
@[simp] theorem State.updCore_boot (s : State) (c : Nat) (f : Core → Core) : (s.updCore c f).boot = s.boot := rfl
@[simp] theorem State.updCore_poison (s : State) (c : Nat) (f : Core → Core) : (s.updCore c f).poison = s.poison := rfl
@[simp] theorem State.updCore_clk (s : State) (c : Nat) (f : Core → Core) : (s.updCore c f).clk = s.clk := rfl
@[simp] theorem State.updCore_nextId (s : State) (c : Nat) (f : Core → Core) : (s.updCore c f).nextId = s.nextId := rfl
@[simp] theorem State.updCore_writes (s : State) (c : Nat) (f : Core → Core) : (s.updCore c f).writes = s.writes := rfl
@[simp] theorem State.updCore_draw (s : State) (c : Nat) (f : Core → Core) : (s.updCore c f).draw = s.draw := rfl
@[simp] theorem State.updCore_issuer (s : State) (c : Nat) (f : Core → Core) : (s.updCore c f).issuer = s.issuer := rfl
@[simp] theorem State.updCore_turn (s : State) (c : Nat) (f : Core → Core) : (s.updCore c f).turn = s.turn := rfl
@[simp] theorem State.updCore_inputs (s : State) (c : Nat) (f : Core → Core) : (s.updCore c f).inputs = s.inputs := rfl

/-! ## updHub -/

@[simp] theorem State.updHub_mem (s : State) (d : Nat) (f : Hub → Hub) : (s.updHub d f).mem = s.mem := rfl
@[simp] theorem State.updHub_threads (s : State) (d : Nat) (f : Hub → Hub) : (s.updHub d f).threads = s.threads := rfl
@[simp] theorem State.updHub_wgs (s : State) (d : Nat) (f : Hub → Hub) : (s.updHub d f).wgs = s.wgs := rfl
@[simp] theorem State.updHub_cores (s : State) (d : Nat) (f : Hub → Hub) : (s.updHub d f).cores = s.cores := rfl
@[simp] theorem State.updHub_hubs (s : State) (d : Nat) (f : Hub → Hub) : (s.updHub d f).hubs = s.hubs.modify d f := rfl
@[simp] theorem State.updHub_copies (s : State) (d : Nat) (f : Hub → Hub) : (s.updHub d f).copies = s.copies := rfl
@[simp] theorem State.updHub_remains (s : State) (d : Nat) (f : Hub → Hub) : (s.updHub d f).remains = s.remains := rfl
@[simp] theorem State.updHub_processes (s : State) (d : Nat) (f : Hub → Hub) : (s.updHub d f).processes = s.processes := rfl
@[simp] theorem State.updHub_launches (s : State) (d : Nat) (f : Hub → Hub) : (s.updHub d f).launches = s.launches := rfl
@[simp] theorem State.updHub_requests (s : State) (d : Nat) (f : Hub → Hub) : (s.updHub d f).requests = s.requests := rfl
@[simp] theorem State.updHub_tree (s : State) (d : Nat) (f : Hub → Hub) : (s.updHub d f).tree = s.tree := rfl
@[simp] theorem State.updHub_events (s : State) (d : Nat) (f : Hub → Hub) : (s.updHub d f).events = s.events := rfl
@[simp] theorem State.updHub_messages (s : State) (d : Nat) (f : Hub → Hub) : (s.updHub d f).messages = s.messages := rfl
@[simp] theorem State.updHub_links (s : State) (d : Nat) (f : Hub → Hub) : (s.updHub d f).links = s.links := rfl
@[simp] theorem State.updHub_placements (s : State) (d : Nat) (f : Hub → Hub) : (s.updHub d f).placements = s.placements := rfl
@[simp] theorem State.updHub_rcores (s : State) (d : Nat) (f : Hub → Hub) : (s.updHub d f).rcores = s.rcores := rfl
@[simp] theorem State.updHub_failures (s : State) (d : Nat) (f : Hub → Hub) : (s.updHub d f).failures = s.failures := rfl
@[simp] theorem State.updHub_faults (s : State) (d : Nat) (f : Hub → Hub) : (s.updHub d f).faults = s.faults := rfl
@[simp] theorem State.updHub_notices (s : State) (d : Nat) (f : Hub → Hub) : (s.updHub d f).notices = s.notices := rfl
@[simp] theorem State.updHub_hostStep (s : State) (d : Nat) (f : Hub → Hub) : (s.updHub d f).hostStep = s.hostStep := rfl
@[simp] theorem State.updHub_mgmtStep (s : State) (d : Nat) (f : Hub → Hub) : (s.updHub d f).mgmtStep = s.mgmtStep := rfl
@[simp] theorem State.updHub_brake (s : State) (d : Nat) (f : Hub → Hub) : (s.updHub d f).brake = s.brake := rfl
@[simp] theorem State.updHub_limit (s : State) (d : Nat) (f : Hub → Hub) : (s.updHub d f).limit = s.limit := rfl
@[simp] theorem State.updHub_overCount (s : State) (d : Nat) (f : Hub → Hub) : (s.updHub d f).overCount = s.overCount := rfl
@[simp] theorem State.updHub_underCount (s : State) (d : Nat) (f : Hub → Hub) : (s.updHub d f).underCount = s.underCount := rfl
@[simp] theorem State.updHub_sensors (s : State) (d : Nat) (f : Hub → Hub) : (s.updHub d f).sensors = s.sensors := rfl
@[simp] theorem State.updHub_ring (s : State) (d : Nat) (f : Hub → Hub) : (s.updHub d f).ring = s.ring := rfl
@[simp] theorem State.updHub_repair (s : State) (d : Nat) (f : Hub → Hub) : (s.updHub d f).repair = s.repair := rfl
@[simp] theorem State.updHub_fabricNo (s : State) (d : Nat) (f : Hub → Hub) : (s.updHub d f).fabricNo = s.fabricNo := rfl
@[simp] theorem State.updHub_routes (s : State) (d : Nat) (f : Hub → Hub) : (s.updHub d f).routes = s.routes := rfl
@[simp] theorem State.updHub_flinks (s : State) (d : Nat) (f : Hub → Hub) : (s.updHub d f).flinks = s.flinks := rfl
@[simp] theorem State.updHub_reductions (s : State) (d : Nat) (f : Hub → Hub) : (s.updHub d f).reductions = s.reductions := rfl
@[simp] theorem State.updHub_gangs (s : State) (d : Nat) (f : Hub → Hub) : (s.updHub d f).gangs = s.gangs := rfl
@[simp] theorem State.updHub_flash (s : State) (d : Nat) (f : Hub → Hub) : (s.updHub d f).flash = s.flash := rfl
@[simp] theorem State.updHub_boot (s : State) (d : Nat) (f : Hub → Hub) : (s.updHub d f).boot = s.boot := rfl
@[simp] theorem State.updHub_poison (s : State) (d : Nat) (f : Hub → Hub) : (s.updHub d f).poison = s.poison := rfl
@[simp] theorem State.updHub_clk (s : State) (d : Nat) (f : Hub → Hub) : (s.updHub d f).clk = s.clk := rfl
@[simp] theorem State.updHub_nextId (s : State) (d : Nat) (f : Hub → Hub) : (s.updHub d f).nextId = s.nextId := rfl
@[simp] theorem State.updHub_writes (s : State) (d : Nat) (f : Hub → Hub) : (s.updHub d f).writes = s.writes := rfl
@[simp] theorem State.updHub_draw (s : State) (d : Nat) (f : Hub → Hub) : (s.updHub d f).draw = s.draw := rfl
@[simp] theorem State.updHub_issuer (s : State) (d : Nat) (f : Hub → Hub) : (s.updHub d f).issuer = s.issuer := rfl
@[simp] theorem State.updHub_turn (s : State) (d : Nat) (f : Hub → Hub) : (s.updHub d f).turn = s.turn := rfl
@[simp] theorem State.updHub_inputs (s : State) (d : Nat) (f : Hub → Hub) : (s.updHub d f).inputs = s.inputs := rfl

/-! ## updDrive -/

@[simp] theorem State.updDrive_mem (s : State) (w : Nat) (f : Drive → Drive) : (s.updDrive w f).mem = s.mem := rfl
@[simp] theorem State.updDrive_threads (s : State) (w : Nat) (f : Drive → Drive) : (s.updDrive w f).threads = s.threads := rfl
@[simp] theorem State.updDrive_cores (s : State) (w : Nat) (f : Drive → Drive) : (s.updDrive w f).cores = s.cores := rfl
@[simp] theorem State.updDrive_hubs (s : State) (w : Nat) (f : Drive → Drive) : (s.updDrive w f).hubs = s.hubs := rfl
@[simp] theorem State.updDrive_copies (s : State) (w : Nat) (f : Drive → Drive) : (s.updDrive w f).copies = s.copies := rfl
@[simp] theorem State.updDrive_remains (s : State) (w : Nat) (f : Drive → Drive) : (s.updDrive w f).remains = s.remains := rfl
@[simp] theorem State.updDrive_processes (s : State) (w : Nat) (f : Drive → Drive) : (s.updDrive w f).processes = s.processes := rfl
@[simp] theorem State.updDrive_launches (s : State) (w : Nat) (f : Drive → Drive) : (s.updDrive w f).launches = s.launches := rfl
@[simp] theorem State.updDrive_requests (s : State) (w : Nat) (f : Drive → Drive) : (s.updDrive w f).requests = s.requests := rfl
@[simp] theorem State.updDrive_tree (s : State) (w : Nat) (f : Drive → Drive) : (s.updDrive w f).tree = s.tree := rfl
@[simp] theorem State.updDrive_events (s : State) (w : Nat) (f : Drive → Drive) : (s.updDrive w f).events = s.events := rfl
@[simp] theorem State.updDrive_messages (s : State) (w : Nat) (f : Drive → Drive) : (s.updDrive w f).messages = s.messages := rfl
@[simp] theorem State.updDrive_links (s : State) (w : Nat) (f : Drive → Drive) : (s.updDrive w f).links = s.links := rfl
@[simp] theorem State.updDrive_placements (s : State) (w : Nat) (f : Drive → Drive) : (s.updDrive w f).placements = s.placements := rfl
@[simp] theorem State.updDrive_rcores (s : State) (w : Nat) (f : Drive → Drive) : (s.updDrive w f).rcores = s.rcores := rfl
@[simp] theorem State.updDrive_failures (s : State) (w : Nat) (f : Drive → Drive) : (s.updDrive w f).failures = s.failures := rfl
@[simp] theorem State.updDrive_faults (s : State) (w : Nat) (f : Drive → Drive) : (s.updDrive w f).faults = s.faults := rfl
@[simp] theorem State.updDrive_notices (s : State) (w : Nat) (f : Drive → Drive) : (s.updDrive w f).notices = s.notices := rfl
@[simp] theorem State.updDrive_hostStep (s : State) (w : Nat) (f : Drive → Drive) : (s.updDrive w f).hostStep = s.hostStep := rfl
@[simp] theorem State.updDrive_mgmtStep (s : State) (w : Nat) (f : Drive → Drive) : (s.updDrive w f).mgmtStep = s.mgmtStep := rfl
@[simp] theorem State.updDrive_brake (s : State) (w : Nat) (f : Drive → Drive) : (s.updDrive w f).brake = s.brake := rfl
@[simp] theorem State.updDrive_limit (s : State) (w : Nat) (f : Drive → Drive) : (s.updDrive w f).limit = s.limit := rfl
@[simp] theorem State.updDrive_overCount (s : State) (w : Nat) (f : Drive → Drive) : (s.updDrive w f).overCount = s.overCount := rfl
@[simp] theorem State.updDrive_underCount (s : State) (w : Nat) (f : Drive → Drive) : (s.updDrive w f).underCount = s.underCount := rfl
@[simp] theorem State.updDrive_sensors (s : State) (w : Nat) (f : Drive → Drive) : (s.updDrive w f).sensors = s.sensors := rfl
@[simp] theorem State.updDrive_ring (s : State) (w : Nat) (f : Drive → Drive) : (s.updDrive w f).ring = s.ring := rfl
@[simp] theorem State.updDrive_repair (s : State) (w : Nat) (f : Drive → Drive) : (s.updDrive w f).repair = s.repair := rfl
@[simp] theorem State.updDrive_fabricNo (s : State) (w : Nat) (f : Drive → Drive) : (s.updDrive w f).fabricNo = s.fabricNo := rfl
@[simp] theorem State.updDrive_routes (s : State) (w : Nat) (f : Drive → Drive) : (s.updDrive w f).routes = s.routes := rfl
@[simp] theorem State.updDrive_flinks (s : State) (w : Nat) (f : Drive → Drive) : (s.updDrive w f).flinks = s.flinks := rfl
@[simp] theorem State.updDrive_reductions (s : State) (w : Nat) (f : Drive → Drive) : (s.updDrive w f).reductions = s.reductions := rfl
@[simp] theorem State.updDrive_gangs (s : State) (w : Nat) (f : Drive → Drive) : (s.updDrive w f).gangs = s.gangs := rfl
@[simp] theorem State.updDrive_flash (s : State) (w : Nat) (f : Drive → Drive) : (s.updDrive w f).flash = s.flash := rfl
@[simp] theorem State.updDrive_boot (s : State) (w : Nat) (f : Drive → Drive) : (s.updDrive w f).boot = s.boot := rfl
@[simp] theorem State.updDrive_poison (s : State) (w : Nat) (f : Drive → Drive) : (s.updDrive w f).poison = s.poison := rfl
@[simp] theorem State.updDrive_clk (s : State) (w : Nat) (f : Drive → Drive) : (s.updDrive w f).clk = s.clk := rfl
@[simp] theorem State.updDrive_nextId (s : State) (w : Nat) (f : Drive → Drive) : (s.updDrive w f).nextId = s.nextId := rfl
@[simp] theorem State.updDrive_writes (s : State) (w : Nat) (f : Drive → Drive) : (s.updDrive w f).writes = s.writes := rfl
@[simp] theorem State.updDrive_draw (s : State) (w : Nat) (f : Drive → Drive) : (s.updDrive w f).draw = s.draw := rfl
@[simp] theorem State.updDrive_issuer (s : State) (w : Nat) (f : Drive → Drive) : (s.updDrive w f).issuer = s.issuer := rfl
@[simp] theorem State.updDrive_turn (s : State) (w : Nat) (f : Drive → Drive) : (s.updDrive w f).turn = s.turn := rfl
@[simp] theorem State.updDrive_inputs (s : State) (w : Nat) (f : Drive → Drive) : (s.updDrive w f).inputs = s.inputs := rfl

/-! ## updSquad -/

@[simp] theorem State.updSquad_mem (s : State) (w q : Nat) (f : Squad → Squad) : (s.updSquad w q f).mem = s.mem := rfl
@[simp] theorem State.updSquad_threads (s : State) (w q : Nat) (f : Squad → Squad) : (s.updSquad w q f).threads = s.threads := rfl
@[simp] theorem State.updSquad_cores (s : State) (w q : Nat) (f : Squad → Squad) : (s.updSquad w q f).cores = s.cores := rfl
@[simp] theorem State.updSquad_hubs (s : State) (w q : Nat) (f : Squad → Squad) : (s.updSquad w q f).hubs = s.hubs := rfl
@[simp] theorem State.updSquad_copies (s : State) (w q : Nat) (f : Squad → Squad) : (s.updSquad w q f).copies = s.copies := rfl
@[simp] theorem State.updSquad_remains (s : State) (w q : Nat) (f : Squad → Squad) : (s.updSquad w q f).remains = s.remains := rfl
@[simp] theorem State.updSquad_processes (s : State) (w q : Nat) (f : Squad → Squad) : (s.updSquad w q f).processes = s.processes := rfl
@[simp] theorem State.updSquad_launches (s : State) (w q : Nat) (f : Squad → Squad) : (s.updSquad w q f).launches = s.launches := rfl
@[simp] theorem State.updSquad_requests (s : State) (w q : Nat) (f : Squad → Squad) : (s.updSquad w q f).requests = s.requests := rfl
@[simp] theorem State.updSquad_tree (s : State) (w q : Nat) (f : Squad → Squad) : (s.updSquad w q f).tree = s.tree := rfl
@[simp] theorem State.updSquad_events (s : State) (w q : Nat) (f : Squad → Squad) : (s.updSquad w q f).events = s.events := rfl
@[simp] theorem State.updSquad_messages (s : State) (w q : Nat) (f : Squad → Squad) : (s.updSquad w q f).messages = s.messages := rfl
@[simp] theorem State.updSquad_links (s : State) (w q : Nat) (f : Squad → Squad) : (s.updSquad w q f).links = s.links := rfl
@[simp] theorem State.updSquad_placements (s : State) (w q : Nat) (f : Squad → Squad) : (s.updSquad w q f).placements = s.placements := rfl
@[simp] theorem State.updSquad_rcores (s : State) (w q : Nat) (f : Squad → Squad) : (s.updSquad w q f).rcores = s.rcores := rfl
@[simp] theorem State.updSquad_failures (s : State) (w q : Nat) (f : Squad → Squad) : (s.updSquad w q f).failures = s.failures := rfl
@[simp] theorem State.updSquad_faults (s : State) (w q : Nat) (f : Squad → Squad) : (s.updSquad w q f).faults = s.faults := rfl
@[simp] theorem State.updSquad_notices (s : State) (w q : Nat) (f : Squad → Squad) : (s.updSquad w q f).notices = s.notices := rfl
@[simp] theorem State.updSquad_hostStep (s : State) (w q : Nat) (f : Squad → Squad) : (s.updSquad w q f).hostStep = s.hostStep := rfl
@[simp] theorem State.updSquad_mgmtStep (s : State) (w q : Nat) (f : Squad → Squad) : (s.updSquad w q f).mgmtStep = s.mgmtStep := rfl
@[simp] theorem State.updSquad_brake (s : State) (w q : Nat) (f : Squad → Squad) : (s.updSquad w q f).brake = s.brake := rfl
@[simp] theorem State.updSquad_limit (s : State) (w q : Nat) (f : Squad → Squad) : (s.updSquad w q f).limit = s.limit := rfl
@[simp] theorem State.updSquad_overCount (s : State) (w q : Nat) (f : Squad → Squad) : (s.updSquad w q f).overCount = s.overCount := rfl
@[simp] theorem State.updSquad_underCount (s : State) (w q : Nat) (f : Squad → Squad) : (s.updSquad w q f).underCount = s.underCount := rfl
@[simp] theorem State.updSquad_sensors (s : State) (w q : Nat) (f : Squad → Squad) : (s.updSquad w q f).sensors = s.sensors := rfl
@[simp] theorem State.updSquad_ring (s : State) (w q : Nat) (f : Squad → Squad) : (s.updSquad w q f).ring = s.ring := rfl
@[simp] theorem State.updSquad_repair (s : State) (w q : Nat) (f : Squad → Squad) : (s.updSquad w q f).repair = s.repair := rfl
@[simp] theorem State.updSquad_fabricNo (s : State) (w q : Nat) (f : Squad → Squad) : (s.updSquad w q f).fabricNo = s.fabricNo := rfl
@[simp] theorem State.updSquad_routes (s : State) (w q : Nat) (f : Squad → Squad) : (s.updSquad w q f).routes = s.routes := rfl
@[simp] theorem State.updSquad_flinks (s : State) (w q : Nat) (f : Squad → Squad) : (s.updSquad w q f).flinks = s.flinks := rfl
@[simp] theorem State.updSquad_reductions (s : State) (w q : Nat) (f : Squad → Squad) : (s.updSquad w q f).reductions = s.reductions := rfl
@[simp] theorem State.updSquad_gangs (s : State) (w q : Nat) (f : Squad → Squad) : (s.updSquad w q f).gangs = s.gangs := rfl
@[simp] theorem State.updSquad_flash (s : State) (w q : Nat) (f : Squad → Squad) : (s.updSquad w q f).flash = s.flash := rfl
@[simp] theorem State.updSquad_boot (s : State) (w q : Nat) (f : Squad → Squad) : (s.updSquad w q f).boot = s.boot := rfl
@[simp] theorem State.updSquad_poison (s : State) (w q : Nat) (f : Squad → Squad) : (s.updSquad w q f).poison = s.poison := rfl
@[simp] theorem State.updSquad_clk (s : State) (w q : Nat) (f : Squad → Squad) : (s.updSquad w q f).clk = s.clk := rfl
@[simp] theorem State.updSquad_nextId (s : State) (w q : Nat) (f : Squad → Squad) : (s.updSquad w q f).nextId = s.nextId := rfl
@[simp] theorem State.updSquad_writes (s : State) (w q : Nat) (f : Squad → Squad) : (s.updSquad w q f).writes = s.writes := rfl
@[simp] theorem State.updSquad_draw (s : State) (w q : Nat) (f : Squad → Squad) : (s.updSquad w q f).draw = s.draw := rfl
@[simp] theorem State.updSquad_issuer (s : State) (w q : Nat) (f : Squad → Squad) : (s.updSquad w q f).issuer = s.issuer := rfl
@[simp] theorem State.updSquad_turn (s : State) (w q : Nat) (f : Squad → Squad) : (s.updSquad w q f).turn = s.turn := rfl
@[simp] theorem State.updSquad_inputs (s : State) (w q : Nat) (f : Squad → Squad) : (s.updSquad w q f).inputs = s.inputs := rfl

/-! ## Thread.setReg -/

@[simp] theorem Thread.setReg_wg (th : Thread) (r : BitVec 7) (v : Word) : (th.setReg r v).wg = th.wg := rfl
@[simp] theorem Thread.setReg_tid (th : Thread) (r : BitVec 7) (v : Word) : (th.setReg r v).tid = th.tid := rfl
@[simp] theorem Thread.setReg_role (th : Thread) (r : BitVec 7) (v : Word) : (th.setReg r v).role = th.role := rfl
@[simp] theorem Thread.setReg_regs (th : Thread) (r : BitVec 7) (v : Word) : (th.setReg r v).regs = th.regs := rfl
@[simp] theorem Thread.setReg_pc (th : Thread) (r : BitVec 7) (v : Word) : (th.setReg r v).pc = th.pc := rfl
@[simp] theorem Thread.setReg_clause (th : Thread) (r : BitVec 7) (v : Word) : (th.setReg r v).clause = th.clause := rfl
@[simp] theorem Thread.setReg_recheck (th : Thread) (r : BitVec 7) (v : Word) : (th.setReg r v).recheck = th.recheck := rfl
@[simp] theorem Thread.setReg_stack (th : Thread) (r : BitVec 7) (v : Word) : (th.setReg r v).stack = th.stack := rfl
@[simp] theorem Thread.setReg_depth (th : Thread) (r : BitVec 7) (v : Word) : (th.setReg r v).depth = th.depth := rfl
@[simp] theorem Thread.setReg_g (th : Thread) (r : BitVec 7) (v : Word) : (th.setReg r v).g = th.g.set r.toNat v r.isLt := rfl
@[simp] theorem Thread.setReg_p (th : Thread) (r : BitVec 7) (v : Word) : (th.setReg r v).p = th.p := rfl
@[simp] theorem Thread.setReg_m (th : Thread) (r : BitVec 7) (v : Word) : (th.setReg r v).m = th.m := rfl
@[simp] theorem Thread.setReg_rm (th : Thread) (r : BitVec 7) (v : Word) : (th.setReg r v).rm = th.rm := rfl
@[simp] theorem Thread.setReg_flags (th : Thread) (r : BitVec 7) (v : Word) : (th.setReg r v).flags = th.flags := rfl
@[simp] theorem Thread.setReg_tcause (th : Thread) (r : BitVec 7) (v : Word) : (th.setReg r v).tcause = th.tcause := rfl
@[simp] theorem Thread.setReg_tval (th : Thread) (r : BitVec 7) (v : Word) : (th.setReg r v).tval = th.tval := rfl
@[simp] theorem Thread.setReg_tac (th : Thread) (r : BitVec 7) (v : Word) : (th.setReg r v).tac = th.tac := rfl
@[simp] theorem Thread.setReg_tpc (th : Thread) (r : BitVec 7) (v : Word) : (th.setReg r v).tpc = th.tpc := rfl
@[simp] theorem Thread.setReg_tvec (th : Thread) (r : BitVec 7) (v : Word) : (th.setReg r v).tvec = th.tvec := rfl
@[simp] theorem Thread.setReg_csb (th : Thread) (r : BitVec 7) (v : Word) : (th.setReg r v).csb = th.csb := rfl
@[simp] theorem Thread.setReg_clkLatch (th : Thread) (r : BitVec 7) (v : Word) : (th.setReg r v).clkLatch = th.clkLatch := rfl
@[simp] theorem Thread.setReg_loads (th : Thread) (r : BitVec 7) (v : Word) : (th.setReg r v).loads = th.loads := rfl
@[simp] theorem Thread.setReg_handler (th : Thread) (r : BitVec 7) (v : Word) : (th.setReg r v).handler = th.handler := rfl
@[simp] theorem Thread.setReg_loss (th : Thread) (r : BitVec 7) (v : Word) : (th.setReg r v).loss = th.loss := rfl
@[simp] theorem Thread.setReg_spec (th : Thread) (r : BitVec 7) (v : Word) : (th.setReg r v).spec = th.spec := rfl
@[simp] theorem Thread.setReg_conflict (th : Thread) (r : BitVec 7) (v : Word) : (th.setReg r v).conflict = th.conflict := rfl
@[simp] theorem Thread.setReg_doom (th : Thread) (r : BitVec 7) (v : Word) : (th.setReg r v).doom = th.doom := rfl
@[simp] theorem Thread.setReg_park (th : Thread) (r : BitVec 7) (v : Word) : (th.setReg r v).park = th.park := rfl
@[simp] theorem Thread.setReg_exited (th : Thread) (r : BitVec 7) (v : Word) : (th.setReg r v).exited = th.exited := rfl
@[simp] theorem Thread.setReg_hold (th : Thread) (r : BitVec 7) (v : Word) : (th.setReg r v).hold = th.hold := rfl
@[simp] theorem Thread.setReg_unmatched (th : Thread) (r : BitVec 7) (v : Word) : (th.setReg r v).unmatched = th.unmatched := rfl
@[simp] theorem Thread.setReg_floors (th : Thread) (r : BitVec 7) (v : Word) : (th.setReg r v).floors = th.floors := rfl
@[simp] theorem Thread.setReg_lastAcq (th : Thread) (r : BitVec 7) (v : Word) : (th.setReg r v).lastAcq = th.lastAcq := rfl
@[simp] theorem Thread.setReg_related (th : Thread) (r : BitVec 7) (v : Word) : (th.setReg r v).related = th.related := rfl

/-! ## Thread.setPred -/

@[simp] theorem Thread.setPred_wg (th : Thread) (k : BitVec 3) (v : Bool) : (th.setPred k v).wg = th.wg := rfl
@[simp] theorem Thread.setPred_tid (th : Thread) (k : BitVec 3) (v : Bool) : (th.setPred k v).tid = th.tid := rfl
@[simp] theorem Thread.setPred_role (th : Thread) (k : BitVec 3) (v : Bool) : (th.setPred k v).role = th.role := rfl
@[simp] theorem Thread.setPred_regs (th : Thread) (k : BitVec 3) (v : Bool) : (th.setPred k v).regs = th.regs := rfl
@[simp] theorem Thread.setPred_pc (th : Thread) (k : BitVec 3) (v : Bool) : (th.setPred k v).pc = th.pc := rfl
@[simp] theorem Thread.setPred_clause (th : Thread) (k : BitVec 3) (v : Bool) : (th.setPred k v).clause = th.clause := rfl
@[simp] theorem Thread.setPred_recheck (th : Thread) (k : BitVec 3) (v : Bool) : (th.setPred k v).recheck = th.recheck := rfl
@[simp] theorem Thread.setPred_stack (th : Thread) (k : BitVec 3) (v : Bool) : (th.setPred k v).stack = th.stack := rfl
@[simp] theorem Thread.setPred_depth (th : Thread) (k : BitVec 3) (v : Bool) : (th.setPred k v).depth = th.depth := rfl
@[simp] theorem Thread.setPred_g (th : Thread) (k : BitVec 3) (v : Bool) : (th.setPred k v).g = th.g := rfl
@[simp] theorem Thread.setPred_m (th : Thread) (k : BitVec 3) (v : Bool) : (th.setPred k v).m = th.m := rfl
@[simp] theorem Thread.setPred_rm (th : Thread) (k : BitVec 3) (v : Bool) : (th.setPred k v).rm = th.rm := rfl
@[simp] theorem Thread.setPred_flags (th : Thread) (k : BitVec 3) (v : Bool) : (th.setPred k v).flags = th.flags := rfl
@[simp] theorem Thread.setPred_tcause (th : Thread) (k : BitVec 3) (v : Bool) : (th.setPred k v).tcause = th.tcause := rfl
@[simp] theorem Thread.setPred_tval (th : Thread) (k : BitVec 3) (v : Bool) : (th.setPred k v).tval = th.tval := rfl
@[simp] theorem Thread.setPred_tac (th : Thread) (k : BitVec 3) (v : Bool) : (th.setPred k v).tac = th.tac := rfl
@[simp] theorem Thread.setPred_tpc (th : Thread) (k : BitVec 3) (v : Bool) : (th.setPred k v).tpc = th.tpc := rfl
@[simp] theorem Thread.setPred_tvec (th : Thread) (k : BitVec 3) (v : Bool) : (th.setPred k v).tvec = th.tvec := rfl
@[simp] theorem Thread.setPred_csb (th : Thread) (k : BitVec 3) (v : Bool) : (th.setPred k v).csb = th.csb := rfl
@[simp] theorem Thread.setPred_clkLatch (th : Thread) (k : BitVec 3) (v : Bool) : (th.setPred k v).clkLatch = th.clkLatch := rfl
@[simp] theorem Thread.setPred_loads (th : Thread) (k : BitVec 3) (v : Bool) : (th.setPred k v).loads = th.loads := rfl
@[simp] theorem Thread.setPred_handler (th : Thread) (k : BitVec 3) (v : Bool) : (th.setPred k v).handler = th.handler := rfl
@[simp] theorem Thread.setPred_loss (th : Thread) (k : BitVec 3) (v : Bool) : (th.setPred k v).loss = th.loss := rfl
@[simp] theorem Thread.setPred_spec (th : Thread) (k : BitVec 3) (v : Bool) : (th.setPred k v).spec = th.spec := rfl
@[simp] theorem Thread.setPred_conflict (th : Thread) (k : BitVec 3) (v : Bool) : (th.setPred k v).conflict = th.conflict := rfl
@[simp] theorem Thread.setPred_doom (th : Thread) (k : BitVec 3) (v : Bool) : (th.setPred k v).doom = th.doom := rfl
@[simp] theorem Thread.setPred_park (th : Thread) (k : BitVec 3) (v : Bool) : (th.setPred k v).park = th.park := rfl
@[simp] theorem Thread.setPred_exited (th : Thread) (k : BitVec 3) (v : Bool) : (th.setPred k v).exited = th.exited := rfl
@[simp] theorem Thread.setPred_hold (th : Thread) (k : BitVec 3) (v : Bool) : (th.setPred k v).hold = th.hold := rfl
@[simp] theorem Thread.setPred_unmatched (th : Thread) (k : BitVec 3) (v : Bool) : (th.setPred k v).unmatched = th.unmatched := rfl
@[simp] theorem Thread.setPred_floors (th : Thread) (k : BitVec 3) (v : Bool) : (th.setPred k v).floors = th.floors := rfl
@[simp] theorem Thread.setPred_lastAcq (th : Thread) (k : BitVec 3) (v : Bool) : (th.setPred k v).lastAcq = th.lastAcq := rfl
@[simp] theorem Thread.setPred_related (th : Thread) (k : BitVec 3) (v : Bool) : (th.setPred k v).related = th.related := rfl

/-! ## Thread.setMask -/

@[simp] theorem Thread.setMask_wg (th : Thread) (k : BitVec 2) (v : Word) : (th.setMask k v).wg = th.wg := rfl
@[simp] theorem Thread.setMask_tid (th : Thread) (k : BitVec 2) (v : Word) : (th.setMask k v).tid = th.tid := rfl
@[simp] theorem Thread.setMask_role (th : Thread) (k : BitVec 2) (v : Word) : (th.setMask k v).role = th.role := rfl
@[simp] theorem Thread.setMask_regs (th : Thread) (k : BitVec 2) (v : Word) : (th.setMask k v).regs = th.regs := rfl
@[simp] theorem Thread.setMask_pc (th : Thread) (k : BitVec 2) (v : Word) : (th.setMask k v).pc = th.pc := rfl
@[simp] theorem Thread.setMask_clause (th : Thread) (k : BitVec 2) (v : Word) : (th.setMask k v).clause = th.clause := rfl
@[simp] theorem Thread.setMask_recheck (th : Thread) (k : BitVec 2) (v : Word) : (th.setMask k v).recheck = th.recheck := rfl
@[simp] theorem Thread.setMask_stack (th : Thread) (k : BitVec 2) (v : Word) : (th.setMask k v).stack = th.stack := rfl
@[simp] theorem Thread.setMask_depth (th : Thread) (k : BitVec 2) (v : Word) : (th.setMask k v).depth = th.depth := rfl
@[simp] theorem Thread.setMask_g (th : Thread) (k : BitVec 2) (v : Word) : (th.setMask k v).g = th.g := rfl
@[simp] theorem Thread.setMask_p (th : Thread) (k : BitVec 2) (v : Word) : (th.setMask k v).p = th.p := rfl
@[simp] theorem Thread.setMask_m (th : Thread) (k : BitVec 2) (v : Word) : (th.setMask k v).m = th.m.set k.toNat v k.isLt := rfl
@[simp] theorem Thread.setMask_rm (th : Thread) (k : BitVec 2) (v : Word) : (th.setMask k v).rm = th.rm := rfl
@[simp] theorem Thread.setMask_flags (th : Thread) (k : BitVec 2) (v : Word) : (th.setMask k v).flags = th.flags := rfl
@[simp] theorem Thread.setMask_tcause (th : Thread) (k : BitVec 2) (v : Word) : (th.setMask k v).tcause = th.tcause := rfl
@[simp] theorem Thread.setMask_tval (th : Thread) (k : BitVec 2) (v : Word) : (th.setMask k v).tval = th.tval := rfl
@[simp] theorem Thread.setMask_tac (th : Thread) (k : BitVec 2) (v : Word) : (th.setMask k v).tac = th.tac := rfl
@[simp] theorem Thread.setMask_tpc (th : Thread) (k : BitVec 2) (v : Word) : (th.setMask k v).tpc = th.tpc := rfl
@[simp] theorem Thread.setMask_tvec (th : Thread) (k : BitVec 2) (v : Word) : (th.setMask k v).tvec = th.tvec := rfl
@[simp] theorem Thread.setMask_csb (th : Thread) (k : BitVec 2) (v : Word) : (th.setMask k v).csb = th.csb := rfl
@[simp] theorem Thread.setMask_clkLatch (th : Thread) (k : BitVec 2) (v : Word) : (th.setMask k v).clkLatch = th.clkLatch := rfl
@[simp] theorem Thread.setMask_loads (th : Thread) (k : BitVec 2) (v : Word) : (th.setMask k v).loads = th.loads := rfl
@[simp] theorem Thread.setMask_handler (th : Thread) (k : BitVec 2) (v : Word) : (th.setMask k v).handler = th.handler := rfl
@[simp] theorem Thread.setMask_loss (th : Thread) (k : BitVec 2) (v : Word) : (th.setMask k v).loss = th.loss := rfl
@[simp] theorem Thread.setMask_spec (th : Thread) (k : BitVec 2) (v : Word) : (th.setMask k v).spec = th.spec := rfl
@[simp] theorem Thread.setMask_conflict (th : Thread) (k : BitVec 2) (v : Word) : (th.setMask k v).conflict = th.conflict := rfl
@[simp] theorem Thread.setMask_doom (th : Thread) (k : BitVec 2) (v : Word) : (th.setMask k v).doom = th.doom := rfl
@[simp] theorem Thread.setMask_park (th : Thread) (k : BitVec 2) (v : Word) : (th.setMask k v).park = th.park := rfl
@[simp] theorem Thread.setMask_exited (th : Thread) (k : BitVec 2) (v : Word) : (th.setMask k v).exited = th.exited := rfl
@[simp] theorem Thread.setMask_hold (th : Thread) (k : BitVec 2) (v : Word) : (th.setMask k v).hold = th.hold := rfl
@[simp] theorem Thread.setMask_unmatched (th : Thread) (k : BitVec 2) (v : Word) : (th.setMask k v).unmatched = th.unmatched := rfl
@[simp] theorem Thread.setMask_floors (th : Thread) (k : BitVec 2) (v : Word) : (th.setMask k v).floors = th.floors := rfl
@[simp] theorem Thread.setMask_lastAcq (th : Thread) (k : BitVec 2) (v : Word) : (th.setMask k v).lastAcq = th.lastAcq := rfl
@[simp] theorem Thread.setMask_related (th : Thread) (k : BitVec 2) (v : Word) : (th.setMask k v).related = th.related := rfl

/-! ## Thread.raise -/

@[simp] theorem Thread.raise_wg (th : Thread) (f : Word) : (th.raise f).wg = th.wg := rfl
@[simp] theorem Thread.raise_tid (th : Thread) (f : Word) : (th.raise f).tid = th.tid := rfl
@[simp] theorem Thread.raise_role (th : Thread) (f : Word) : (th.raise f).role = th.role := rfl
@[simp] theorem Thread.raise_regs (th : Thread) (f : Word) : (th.raise f).regs = th.regs := rfl
@[simp] theorem Thread.raise_pc (th : Thread) (f : Word) : (th.raise f).pc = th.pc := rfl
@[simp] theorem Thread.raise_clause (th : Thread) (f : Word) : (th.raise f).clause = th.clause := rfl
@[simp] theorem Thread.raise_recheck (th : Thread) (f : Word) : (th.raise f).recheck = th.recheck := rfl
@[simp] theorem Thread.raise_stack (th : Thread) (f : Word) : (th.raise f).stack = th.stack := rfl
@[simp] theorem Thread.raise_depth (th : Thread) (f : Word) : (th.raise f).depth = th.depth := rfl
@[simp] theorem Thread.raise_g (th : Thread) (f : Word) : (th.raise f).g = th.g := rfl
@[simp] theorem Thread.raise_p (th : Thread) (f : Word) : (th.raise f).p = th.p := rfl
@[simp] theorem Thread.raise_m (th : Thread) (f : Word) : (th.raise f).m = th.m := rfl
@[simp] theorem Thread.raise_rm (th : Thread) (f : Word) : (th.raise f).rm = th.rm := rfl
@[simp] theorem Thread.raise_flags (th : Thread) (f : Word) : (th.raise f).flags = th.flags ||| f := rfl
@[simp] theorem Thread.raise_tcause (th : Thread) (f : Word) : (th.raise f).tcause = th.tcause := rfl
@[simp] theorem Thread.raise_tval (th : Thread) (f : Word) : (th.raise f).tval = th.tval := rfl
@[simp] theorem Thread.raise_tac (th : Thread) (f : Word) : (th.raise f).tac = th.tac := rfl
@[simp] theorem Thread.raise_tpc (th : Thread) (f : Word) : (th.raise f).tpc = th.tpc := rfl
@[simp] theorem Thread.raise_tvec (th : Thread) (f : Word) : (th.raise f).tvec = th.tvec := rfl
@[simp] theorem Thread.raise_csb (th : Thread) (f : Word) : (th.raise f).csb = th.csb := rfl
@[simp] theorem Thread.raise_clkLatch (th : Thread) (f : Word) : (th.raise f).clkLatch = th.clkLatch := rfl
@[simp] theorem Thread.raise_loads (th : Thread) (f : Word) : (th.raise f).loads = th.loads := rfl
@[simp] theorem Thread.raise_handler (th : Thread) (f : Word) : (th.raise f).handler = th.handler := rfl
@[simp] theorem Thread.raise_loss (th : Thread) (f : Word) : (th.raise f).loss = th.loss := rfl
@[simp] theorem Thread.raise_spec (th : Thread) (f : Word) : (th.raise f).spec = th.spec := rfl
@[simp] theorem Thread.raise_conflict (th : Thread) (f : Word) : (th.raise f).conflict = th.conflict := rfl
@[simp] theorem Thread.raise_doom (th : Thread) (f : Word) : (th.raise f).doom = th.doom := rfl
@[simp] theorem Thread.raise_park (th : Thread) (f : Word) : (th.raise f).park = th.park := rfl
@[simp] theorem Thread.raise_exited (th : Thread) (f : Word) : (th.raise f).exited = th.exited := rfl
@[simp] theorem Thread.raise_hold (th : Thread) (f : Word) : (th.raise f).hold = th.hold := rfl
@[simp] theorem Thread.raise_unmatched (th : Thread) (f : Word) : (th.raise f).unmatched = th.unmatched := rfl
@[simp] theorem Thread.raise_floors (th : Thread) (f : Word) : (th.raise f).floors = th.floors := rfl
@[simp] theorem Thread.raise_lastAcq (th : Thread) (f : Word) : (th.raise f).lastAcq = th.lastAcq := rfl
@[simp] theorem Thread.raise_related (th : Thread) (f : Word) : (th.raise f).related = th.related := rfl

/-! ## Thread.advance -/

@[simp] theorem Thread.advance_wg (th : Thread) (n : Nat) : (th.advance n).wg = th.wg := rfl
@[simp] theorem Thread.advance_tid (th : Thread) (n : Nat) : (th.advance n).tid = th.tid := rfl
@[simp] theorem Thread.advance_role (th : Thread) (n : Nat) : (th.advance n).role = th.role := rfl
@[simp] theorem Thread.advance_regs (th : Thread) (n : Nat) : (th.advance n).regs = th.regs := rfl
@[simp] theorem Thread.advance_pc (th : Thread) (n : Nat) : (th.advance n).pc = pcAfter th.pc th.clause n := rfl
@[simp] theorem Thread.advance_clause (th : Thread) (n : Nat) : (th.advance n).clause = th.clause := rfl
@[simp] theorem Thread.advance_recheck (th : Thread) (n : Nat) : (th.advance n).recheck = th.recheck := rfl
@[simp] theorem Thread.advance_stack (th : Thread) (n : Nat) : (th.advance n).stack = th.stack := rfl
@[simp] theorem Thread.advance_depth (th : Thread) (n : Nat) : (th.advance n).depth = th.depth := rfl
@[simp] theorem Thread.advance_g (th : Thread) (n : Nat) : (th.advance n).g = th.g := rfl
@[simp] theorem Thread.advance_p (th : Thread) (n : Nat) : (th.advance n).p = th.p := rfl
@[simp] theorem Thread.advance_m (th : Thread) (n : Nat) : (th.advance n).m = th.m := rfl
@[simp] theorem Thread.advance_rm (th : Thread) (n : Nat) : (th.advance n).rm = th.rm := rfl
@[simp] theorem Thread.advance_flags (th : Thread) (n : Nat) : (th.advance n).flags = th.flags := rfl
@[simp] theorem Thread.advance_tcause (th : Thread) (n : Nat) : (th.advance n).tcause = th.tcause := rfl
@[simp] theorem Thread.advance_tval (th : Thread) (n : Nat) : (th.advance n).tval = th.tval := rfl
@[simp] theorem Thread.advance_tac (th : Thread) (n : Nat) : (th.advance n).tac = th.tac := rfl
@[simp] theorem Thread.advance_tpc (th : Thread) (n : Nat) : (th.advance n).tpc = th.tpc := rfl
@[simp] theorem Thread.advance_tvec (th : Thread) (n : Nat) : (th.advance n).tvec = th.tvec := rfl
@[simp] theorem Thread.advance_csb (th : Thread) (n : Nat) : (th.advance n).csb = th.csb := rfl
@[simp] theorem Thread.advance_clkLatch (th : Thread) (n : Nat) : (th.advance n).clkLatch = th.clkLatch := rfl
@[simp] theorem Thread.advance_loads (th : Thread) (n : Nat) : (th.advance n).loads = th.loads := rfl
@[simp] theorem Thread.advance_handler (th : Thread) (n : Nat) : (th.advance n).handler = th.handler := rfl
@[simp] theorem Thread.advance_loss (th : Thread) (n : Nat) : (th.advance n).loss = th.loss := rfl
@[simp] theorem Thread.advance_spec (th : Thread) (n : Nat) : (th.advance n).spec = th.spec := rfl
@[simp] theorem Thread.advance_conflict (th : Thread) (n : Nat) : (th.advance n).conflict = th.conflict := rfl
@[simp] theorem Thread.advance_doom (th : Thread) (n : Nat) : (th.advance n).doom = th.doom := rfl
@[simp] theorem Thread.advance_park (th : Thread) (n : Nat) : (th.advance n).park = .none := rfl
@[simp] theorem Thread.advance_exited (th : Thread) (n : Nat) : (th.advance n).exited = th.exited := rfl
@[simp] theorem Thread.advance_hold (th : Thread) (n : Nat) : (th.advance n).hold = th.hold := rfl
@[simp] theorem Thread.advance_unmatched (th : Thread) (n : Nat) : (th.advance n).unmatched = false := rfl
@[simp] theorem Thread.advance_floors (th : Thread) (n : Nat) : (th.advance n).floors = th.floors := rfl
@[simp] theorem Thread.advance_lastAcq (th : Thread) (n : Nat) : (th.advance n).lastAcq = th.lastAcq := rfl
@[simp] theorem Thread.advance_related (th : Thread) (n : Nat) : (th.advance n).related = th.related := rfl

/-! ## Thread.goto -/

@[simp] theorem Thread.goto_wg (th : Thread) (t : VAddr) : (th.goto t).wg = th.wg := rfl
@[simp] theorem Thread.goto_tid (th : Thread) (t : VAddr) : (th.goto t).tid = th.tid := rfl
@[simp] theorem Thread.goto_role (th : Thread) (t : VAddr) : (th.goto t).role = th.role := rfl
@[simp] theorem Thread.goto_regs (th : Thread) (t : VAddr) : (th.goto t).regs = th.regs := rfl
@[simp] theorem Thread.goto_pc (th : Thread) (t : VAddr) : (th.goto t).pc = ⟨t, 0⟩ := rfl
@[simp] theorem Thread.goto_clause (th : Thread) (t : VAddr) : (th.goto t).clause = th.clause := rfl
@[simp] theorem Thread.goto_recheck (th : Thread) (t : VAddr) : (th.goto t).recheck = th.recheck := rfl
@[simp] theorem Thread.goto_stack (th : Thread) (t : VAddr) : (th.goto t).stack = th.stack := rfl
@[simp] theorem Thread.goto_depth (th : Thread) (t : VAddr) : (th.goto t).depth = th.depth := rfl
@[simp] theorem Thread.goto_g (th : Thread) (t : VAddr) : (th.goto t).g = th.g := rfl
@[simp] theorem Thread.goto_p (th : Thread) (t : VAddr) : (th.goto t).p = th.p := rfl
@[simp] theorem Thread.goto_m (th : Thread) (t : VAddr) : (th.goto t).m = th.m := rfl
@[simp] theorem Thread.goto_rm (th : Thread) (t : VAddr) : (th.goto t).rm = th.rm := rfl
@[simp] theorem Thread.goto_flags (th : Thread) (t : VAddr) : (th.goto t).flags = th.flags := rfl
@[simp] theorem Thread.goto_tcause (th : Thread) (t : VAddr) : (th.goto t).tcause = th.tcause := rfl
@[simp] theorem Thread.goto_tval (th : Thread) (t : VAddr) : (th.goto t).tval = th.tval := rfl
@[simp] theorem Thread.goto_tac (th : Thread) (t : VAddr) : (th.goto t).tac = th.tac := rfl
@[simp] theorem Thread.goto_tpc (th : Thread) (t : VAddr) : (th.goto t).tpc = th.tpc := rfl
@[simp] theorem Thread.goto_tvec (th : Thread) (t : VAddr) : (th.goto t).tvec = th.tvec := rfl
@[simp] theorem Thread.goto_csb (th : Thread) (t : VAddr) : (th.goto t).csb = th.csb := rfl
@[simp] theorem Thread.goto_clkLatch (th : Thread) (t : VAddr) : (th.goto t).clkLatch = th.clkLatch := rfl
@[simp] theorem Thread.goto_loads (th : Thread) (t : VAddr) : (th.goto t).loads = th.loads := rfl
@[simp] theorem Thread.goto_handler (th : Thread) (t : VAddr) : (th.goto t).handler = th.handler := rfl
@[simp] theorem Thread.goto_loss (th : Thread) (t : VAddr) : (th.goto t).loss = th.loss := rfl
@[simp] theorem Thread.goto_spec (th : Thread) (t : VAddr) : (th.goto t).spec = th.spec := rfl
@[simp] theorem Thread.goto_conflict (th : Thread) (t : VAddr) : (th.goto t).conflict = th.conflict := rfl
@[simp] theorem Thread.goto_doom (th : Thread) (t : VAddr) : (th.goto t).doom = th.doom := rfl
@[simp] theorem Thread.goto_park (th : Thread) (t : VAddr) : (th.goto t).park = .none := rfl
@[simp] theorem Thread.goto_exited (th : Thread) (t : VAddr) : (th.goto t).exited = th.exited := rfl
@[simp] theorem Thread.goto_hold (th : Thread) (t : VAddr) : (th.goto t).hold = th.hold := rfl
@[simp] theorem Thread.goto_unmatched (th : Thread) (t : VAddr) : (th.goto t).unmatched = false := rfl
@[simp] theorem Thread.goto_floors (th : Thread) (t : VAddr) : (th.goto t).floors = th.floors := rfl
@[simp] theorem Thread.goto_lastAcq (th : Thread) (t : VAddr) : (th.goto t).lastAcq = th.lastAcq := rfl
@[simp] theorem Thread.goto_related (th : Thread) (t : VAddr) : (th.goto t).related = th.related := rfl

/-! ## Drive.setReg -/

@[simp] theorem Drive.setReg_pc (d : Drive) (r : BitVec 5) (v : Word) : (d.setReg r v).pc = d.pc := rfl
@[simp] theorem Drive.setReg_clause (d : Drive) (r : BitVec 5) (v : Word) : (d.setReg r v).clause = d.clause := rfl
@[simp] theorem Drive.setReg_recheck (d : Drive) (r : BitVec 5) (v : Word) : (d.setReg r v).recheck = d.recheck := rfl
@[simp] theorem Drive.setReg_mode (d : Drive) (r : BitVec 5) (v : Word) : (d.setReg r v).mode = d.mode := rfl
@[simp] theorem Drive.setReg_clkLatch (d : Drive) (r : BitVec 5) (v : Word) : (d.setReg r v).clkLatch = d.clkLatch := rfl
@[simp] theorem Drive.setReg_iter (d : Drive) (r : BitVec 5) (v : Word) : (d.setReg r v).iter = d.iter := rfl
@[simp] theorem Drive.setReg_ops (d : Drive) (r : BitVec 5) (v : Word) : (d.setReg r v).ops = d.ops := rfl
@[simp] theorem Drive.setReg_halted (d : Drive) (r : BitVec 5) (v : Word) : (d.setReg r v).halted = d.halted := rfl
@[simp] theorem Drive.setReg_park (d : Drive) (r : BitVec 5) (v : Word) : (d.setReg r v).park = d.park := rfl
@[simp] theorem Drive.setReg_hold (d : Drive) (r : BitVec 5) (v : Word) : (d.setReg r v).hold = d.hold := rfl
@[simp] theorem Drive.setReg_unmatched (d : Drive) (r : BitVec 5) (v : Word) : (d.setReg r v).unmatched = d.unmatched := rfl
@[simp] theorem Drive.setReg_related (d : Drive) (r : BitVec 5) (v : Word) : (d.setReg r v).related = d.related := rfl

/-! ## Drive.advance -/

@[simp] theorem Drive.advance_clause (d : Drive) (n : Nat) : (d.advance n).clause = d.clause := rfl
@[simp] theorem Drive.advance_recheck (d : Drive) (n : Nat) : (d.advance n).recheck = d.recheck := rfl
@[simp] theorem Drive.advance_d (d : Drive) (n : Nat) : (d.advance n).d = d.d := rfl
@[simp] theorem Drive.advance_mode (d : Drive) (n : Nat) : (d.advance n).mode = d.mode := rfl
@[simp] theorem Drive.advance_clkLatch (d : Drive) (n : Nat) : (d.advance n).clkLatch = d.clkLatch := rfl
@[simp] theorem Drive.advance_iter (d : Drive) (n : Nat) : (d.advance n).iter = d.iter := rfl
@[simp] theorem Drive.advance_ops (d : Drive) (n : Nat) : (d.advance n).ops = d.ops := rfl
@[simp] theorem Drive.advance_halted (d : Drive) (n : Nat) : (d.advance n).halted = d.halted := rfl
@[simp] theorem Drive.advance_hold (d : Drive) (n : Nat) : (d.advance n).hold = d.hold := rfl
@[simp] theorem Drive.advance_related (d : Drive) (n : Nat) : (d.advance n).related = d.related := rfl

/-! ## Drive.goto -/

@[simp] theorem Drive.goto_clause (d : Drive) (t : VAddr) : (d.goto t).clause = d.clause := rfl
@[simp] theorem Drive.goto_recheck (d : Drive) (t : VAddr) : (d.goto t).recheck = d.recheck := rfl
@[simp] theorem Drive.goto_d (d : Drive) (t : VAddr) : (d.goto t).d = d.d := rfl
@[simp] theorem Drive.goto_mode (d : Drive) (t : VAddr) : (d.goto t).mode = d.mode := rfl
@[simp] theorem Drive.goto_clkLatch (d : Drive) (t : VAddr) : (d.goto t).clkLatch = d.clkLatch := rfl
@[simp] theorem Drive.goto_iter (d : Drive) (t : VAddr) : (d.goto t).iter = d.iter := rfl
@[simp] theorem Drive.goto_ops (d : Drive) (t : VAddr) : (d.goto t).ops = d.ops := rfl
@[simp] theorem Drive.goto_halted (d : Drive) (t : VAddr) : (d.goto t).halted = d.halted := rfl
@[simp] theorem Drive.goto_hold (d : Drive) (t : VAddr) : (d.goto t).hold = d.hold := rfl
@[simp] theorem Drive.goto_related (d : Drive) (t : VAddr) : (d.goto t).related = d.related := rfl

end Sys2Proof.Machine
end

