-- ==== Sys2Proof/Tests/Slice0.lean ====
section
/-! SUPPORT. Slice0: decoding shown by words written out field by field, terms WellFormed refuses, states that meet the hypotheses
of every obligation, and single steps whose results are worked out from the rules. -/

set_option maxRecDepth 100000

namespace Sys2Proof.Tests

open Sys2Proof.Machine

/-! ## A small machine: one core, one workgroup, its page tables, its own scratchpad of one bank -/

def thread (tid : Nat) : Thread := { freshThread 0 tid false 128 0x20000 0x20000 0x300000 with
  pc := ⟨0x20000, 1⟩, clause := ⟨plainHeader 0, [some 0, some 0]⟩ }

def drive : Drive := { freshDrive 0x20000 with pc := ⟨0x20000, 1⟩, clause := ⟨plainHeader 4, [some 0, some 0]⟩ }

def group : Wg := { freshWg 0 placedDesc 0 0 0x20000 0x300000 (List.replicate 8 (List.replicate 32 0)) with
  state := .resident, squads := [{ freshSquad with slot := some 0 }], allocs := [⟨0, 4096, 0, 0, false⟩], drive := some drive }

def core : Core := { Core.reset with arrays := .lit 0 :: List.replicate 191 .free }

def launch : Launch :=
  ⟨1, 0, placedDesc, .placing, 0x2000000000, 0x3000000000, placedAt, placedAt, [freshTeam placedDesc 0], false, none⟩

def machine (ts : List Thread) (g : Wg) : State := { State.reset with
  mem := placedMem [] (plainHeader 0) 0 0
  threads := ts, wgs := [g], cores := core :: List.replicate 63 Core.reset, launches := [launch]
  processes := [⟨0x10000, 0, 0, none, none, [0], 0⟩], boot := { State.reset.boot with booted := true }
  issuer := some (.thread 0) }

/-- A thread alone. -/
def alone (th : Thread) : State := machine [th] group

/-- A thread with some registers set. -/
def regs (th : Thread) (l : List (BitVec 7 × Word)) : Thread := l.foldl (fun t x => t.setReg x.1 x.2) th

/-- A pair of registers. -/
def pair (th : Thread) (r : BitVec 7) (v : BitVec 64) : Thread :=
  regs th [(r, v.extractLsb' 0 32), (r + 1, v.extractLsb' 32 32)]

/-- The drive stream alone issues. -/
def driven (d : Drive) : State := { machine [thread 0] { group with drive := some d } with issuer := some (.drive 0) }

def mayIssue (th : Thread) (i : Instr) : Bool :=
  i.wellFormed && th.allots i.regs && th.pred i.guard && !th.awaits i.regs && (!i.noSpec || th.spec.isNone)

theorem issues_of {s : State} {k : Nat} {th : Thread} {i : Instr} (h1 : s.issuer = some (.thread k))
    (h2 : s.threads[k]? = some th) (h3 : mayIssue th i = true) : Safety.Issues s k th i := by
  simp only [mayIssue, Bool.and_eq_true, Bool.or_eq_true, Bool.not_eq_true', Option.isNone_iff_eq_none] at h3
  obtain ⟨⟨⟨⟨a, b⟩, c⟩, d⟩, e⟩ := h3
  exact ⟨h1, h2, a, b, c, d, fun x => e.resolve_left (by simp [x])⟩

/-- Every word of a list issues. -/
theorem all_issue {s : State} {k : Nat} {th : Thread} {l : List Instr} (h1 : s.issuer = some (.thread k))
    (h2 : s.threads[k]? = some th) (h3 : l.all (mayIssue th) = true) : ∀ i ∈ l, Safety.Issues s k th i :=
  fun i hi => issues_of h1 h2 (List.all_eq_true.1 h3 i hi)

/-- Every word of a list issues for each of the threads given. -/
theorem each_issue {α : Type} {vs : List α} {f : α → Thread} {l : List Instr}
    (h : (vs.all fun v => l.all (mayIssue (f v))) = true) : ∀ v ∈ vs, ∀ i ∈ l, Safety.Issues (alone (f v)) 0 (f v) i :=
  fun v hv => all_issue rfl rfl (List.all_eq_true.1 h v hv)

theorem drives_of {s : State} {w : Nat} {d : Drive} {l : List Instr} (h1 : s.issuer = some (.drive w))
    (h2 : s.drive? w = some d) (h3 : l.all Instr.wellFormed = true) : ∀ i ∈ l, Safety.Drives s w d i :=
  fun i hi => ⟨h1, h2, List.all_eq_true.1 h3 i hi⟩

/-- What holds of the one that stands there holds of whatever stands there. -/
theorem of_some {α : Type} {x : Option α} {a : α} {P : α → Prop} (h : x = some a) (p : P a) : ∀ y, x = some y → P y := by
  rintro y hy; cases h.symm.trans hy; exact p

/-! ## Decoding (R39-R48) -/

/-- Words of R81, each field written out. -/
theorem test_decode_sums :
    decodeWord (7#3 ++ 0b00000000#8 ++ 8#7 ++ 16#7 ++ 24#7) none = .ok (.addS32 7 8 16 24) ∧
    decodeWord (7#3 ++ 0b00000001#8 ++ 8#7 ++ 16#7 ++ 24#7) none = .ok (.addS32Sat 7 8 16 24) ∧
    decodeWord (7#3 ++ 0b00000010#8 ++ 8#7 ++ 16#7 ++ 24#7) none = .ok (.addN32Sat 7 8 16 24) ∧
    decodeWord (7#3 ++ 0b00000011#8 ++ 8#7 ++ 16#7 ++ 24#7) none = .ok (.addN64 7 8 16 24) ∧
    decodeWord (7#3 ++ 0b00000100#8 ++ 8#7 ++ 16#7 ++ 24#7) none = .ok (.subS32 7 8 16 24) ∧
    decodeWord (7#3 ++ 0b00000101#8 ++ 8#7 ++ 16#7 ++ 24#7) none = .ok (.subS32Sat 7 8 16 24) ∧
    decodeWord (7#3 ++ 0b00000110#8 ++ 8#7 ++ 16#7 ++ 24#7) none = .ok (.subN32Sat 7 8 16 24) ∧
    decodeWord (7#3 ++ 0b00000111#8 ++ 8#7 ++ 16#7 ++ 24#7) none = .ok (.subN64 7 8 16 24) ∧
    decodeWord (7#3 ++ 0b00001000#8 ++ 8#7 ++ 16#7 ++ 24#7) none = .ok (.mulS32 7 8 16 24) ∧
    decodeWord (7#3 ++ 0b00001001#8 ++ 8#7 ++ 16#7 ++ 24#7) none = .ok (.mulS32Sat 7 8 16 24) ∧
    decodeWord (7#3 ++ 0b00001010#8 ++ 8#7 ++ 16#7 ++ 24#7) none = .ok (.mulN32Sat 7 8 16 24) ∧
    decodeWord (7#3 ++ 0b00001011#8 ++ 8#7 ++ 16#7 ++ 24#7) none = .ok (.mulN64 7 8 16 24) ∧
    decodeWord (7#3 ++ 0b00001100#8 ++ 8#7 ++ 16#7 ++ 24#7) none = .ok (.madS32 7 8 16 24) ∧
    decodeWord (7#3 ++ 0b00001101#8 ++ 8#7 ++ 16#7 ++ 24#7) none = .ok (.madS32Sat 7 8 16 24) ∧
    decodeWord (7#3 ++ 0b00001110#8 ++ 8#7 ++ 16#7 ++ 24#7) none = .ok (.madN32Sat 7 8 16 24) ∧
    decodeWord (7#3 ++ 0b00001111#8 ++ 8#7 ++ 16#7 ++ 24#7) none = .ok (.madN64 7 8 16 24) := by
  decide +kernel

/-- Words of R82-R87, each field written out. -/
theorem test_decode_quotients_extremes :
    decodeWord (7#3 ++ 0b00010000#8 ++ 8#7 ++ 16#7 ++ 24#7) none = .ok (.mulhS32 7 8 16 24) ∧
    decodeWord (7#3 ++ 0b00010001#8 ++ 8#7 ++ 16#7 ++ 24#7) none = .ok (.mulhN32 7 8 16 24) ∧
    decodeWord (7#3 ++ 0b00010010#8 ++ 8#7 ++ 16#7 ++ 24#7) none = .ok (.divS32 7 8 16 24) ∧
    decodeWord (7#3 ++ 0b00010011#8 ++ 8#7 ++ 16#7 ++ 24#7) none = .ok (.divN32 7 8 16 24) ∧
    decodeWord (7#3 ++ 0b00010100#8 ++ 8#7 ++ 16#7 ++ 24#7) none = .ok (.remS32 7 8 16 24) ∧
    decodeWord (7#3 ++ 0b00010101#8 ++ 8#7 ++ 16#7 ++ 24#7) none = .ok (.remN32 7 8 16 24) ∧
    decodeWord (7#3 ++ 0b00010110#8 ++ 8#7 ++ 16#7 ++ 24#7) none = .ok (.minS32 7 8 16 24) ∧
    decodeWord (7#3 ++ 0b00010111#8 ++ 8#7 ++ 16#7 ++ 24#7) none = .ok (.minN32 7 8 16 24) ∧
    decodeWord (7#3 ++ 0b00011000#8 ++ 8#7 ++ 16#7 ++ 24#7) none = .ok (.maxS32 7 8 16 24) ∧
    decodeWord (7#3 ++ 0b00011001#8 ++ 8#7 ++ 16#7 ++ 24#7) none = .ok (.maxN32 7 8 16 24) ∧
    decodeWord (7#3 ++ 0b00011010#8 ++ 8#7 ++ 16#7 ++ 24#7) none = .ok (.addminS32 7 8 16 24) ∧
    decodeWord (7#3 ++ 0b00011011#8 ++ 8#7 ++ 16#7 ++ 24#7) none = .ok (.addminN32 7 8 16 24) ∧
    decodeWord (7#3 ++ 0b00011100#8 ++ 8#7 ++ 16#7 ++ 24#7) none = .ok (.addmaxS32 7 8 16 24) ∧
    decodeWord (7#3 ++ 0b00011101#8 ++ 8#7 ++ 16#7 ++ 24#7) none = .ok (.addmaxN32 7 8 16 24) ∧
    decodeWord (7#3 ++ 0b00011110#8 ++ 8#7 ++ 16#7 ++ 24#7) none = .ok (.clampS32 7 8 16 24) ∧
    decodeWord (7#3 ++ 0b00011111#8 ++ 8#7 ++ 16#7 ++ 24#7) none = .ok (.clampN32 7 8 16 24) ∧
    decodeWord (7#3 ++ 0b00100000#8 ++ 8#7 ++ 16#7 ++ 24#7) none = .ok (.addc 7 8 16 24) ∧
    decodeWord (7#3 ++ 0b00100001#8 ++ 8#7 ++ 16#7 ++ 24#7) none = .ok (.subb 7 8 16 24) ∧
    decodeWord (7#3 ++ 0b00100010#8 ++ 8#7 ++ 16#7 ++ 0b0000000#7) none = .ok (.neg 7 8 16) ∧
    decodeWord (7#3 ++ 0b00100011#8 ++ 8#7 ++ 16#7 ++ 0b0000000#7) none = .ok (.abs 7 8 16) ∧
    decodeWord (7#3 ++ 0b00100100#8 ++ 8#7 ++ 16#7 ++ 24#7) none = .ok (.lea 7 8 16 24) := by
  decide +kernel

/-- Words of R88-R91, each field written out. -/
theorem test_decode_bits :
    decodeWord (7#3 ++ 0b00100101#8 ++ 8#7 ++ 16#7 ++ 24#7) none = .ok (.and 7 8 16 24) ∧
    decodeWord (7#3 ++ 0b00100110#8 ++ 8#7 ++ 16#7 ++ 24#7) none = .ok (.or 7 8 16 24) ∧
    decodeWord (7#3 ++ 0b00100111#8 ++ 8#7 ++ 16#7 ++ 24#7) none = .ok (.xor 7 8 16 24) ∧
    decodeWord (7#3 ++ 0b00101000#8 ++ 8#7 ++ 16#7 ++ 24#7) none = .ok (.andn 7 8 16 24) ∧
    decodeWord (7#3 ++ 0b00101001#8 ++ 8#7 ++ 16#7 ++ 0b0000000#7) none = .ok (.not 7 8 16) ∧
    decodeWord (7#3 ++ 0b00101010#8 ++ 8#7 ++ 16#7 ++ 24#7) none = .ok (.shl 7 8 16 24) ∧
    decodeWord (7#3 ++ 0b00101011#8 ++ 8#7 ++ 16#7 ++ 24#7) none = .ok (.shr 7 8 16 24) ∧
    decodeWord (7#3 ++ 0b00101100#8 ++ 8#7 ++ 16#7 ++ 24#7) none = .ok (.sar 7 8 16 24) ∧
    decodeWord (7#3 ++ 0b00101101#8 ++ 8#7 ++ 16#7 ++ 24#7) none = .ok (.rot 7 8 16 24) ∧
    decodeWord (7#3 ++ 0b00101110#8 ++ 8#7 ++ 16#7 ++ 24#7) none = .ok (.bfx 7 8 16 24) ∧
    decodeWord (7#3 ++ 0b00101111#8 ++ 8#7 ++ 16#7 ++ 24#7) none = .ok (.bfi 7 8 16 24) ∧
    decodeWord (7#3 ++ 0b00110000#8 ++ 8#7 ++ 16#7 ++ 0b0000000#7) none = .ok (.popc 7 8 16) ∧
    decodeWord (7#3 ++ 0b00110001#8 ++ 8#7 ++ 16#7 ++ 0b0000000#7) none = .ok (.clz 7 8 16) ∧
    decodeWord (7#3 ++ 0b00110010#8 ++ 8#7 ++ 16#7 ++ 0b0000000#7) none = .ok (.ctz 7 8 16) ∧
    decodeWord (7#3 ++ 0b00110011#8 ++ 8#7 ++ 16#7 ++ 0b0000000#7) none = .ok (.brev 7 8 16) ∧
    decodeWord (7#3 ++ 0b00110100#8 ++ 8#7 ++ 16#7 ++ 0b0000000#7) none = .ok (.bswap 7 8 16) ∧
    decodeWord (7#3 ++ 0b00110101#8 ++ 8#7 ++ 16#7 ++ 24#7) none = .ok (.sel 7 8 16 24) := by
  decide +kernel

/-- Words of R91-R94, each field written out. -/
theorem test_decode_moves :
    decodeWord (7#3 ++ 0b00110110#8 ++ 8#7 ++ 16#7 ++ 0b0000000#7) none = .ok (.mov 7 8 16) ∧
    decodeWord (7#3 ++ 0b00110111#8 ++ 2#4 ++ 3#3 ++ 8#7 ++ 16#7) none = .ok (.cmp 7 2 3 8 16) ∧
    decodeWord (7#3 ++ 0b00111000#8 ++ 2#4 ++ 3#3 ++ 0b0000#4 ++ 4#3 ++ 0b0000#4 ++ 5#3) none = .ok (.plog 7 2 3 4 5) ∧
    decodeWord (7#3 ++ 0b00111001#8 ++ 8#7 ++ 0b00000000000000#14) none = .ok (.pmovRd 7 8) ∧
    decodeWord (7#3 ++ 0b001110010000000#15 ++ 8#7 ++ 0b0000001#7) none = .ok (.pmovWr 7 8) ∧
    decodeWord (7#3 ++ 0b00111010#8 ++ 8#7 ++ 2#14) none = .ok (.movi 7 8 2) ∧
    decodeWord (7#3 ++ 0b00111011#8 ++ 8#7 ++ 0#14) (some 0x89ABCDEF) = .ok (.movl 7 8 0x89ABCDEF) ∧
    decodeWord (7#3 ++ 0b00111100#8 ++ 2#4 ++ 3#3 ++ 8#7 ++ 16#7) none = .ok (.cmpi 7 2 3 8 16) ∧
    decodeWord (7#3 ++ 0b00111101#8 ++ 8#7 ++ 16#7 ++ 24#7) none = .ok (.addImm 7 8 16 24) ∧
    decodeWord (7#3 ++ 0b00111110#8 ++ 8#7 ++ 16#7 ++ 24#7) none = .ok (.andImm 7 8 16 24) ∧
    decodeWord (7#3 ++ 0b00111111#8 ++ 8#7 ++ 16#7 ++ 24#7) none = .ok (.orImm 7 8 16 24) ∧
    decodeWord (7#3 ++ 0b01000000#8 ++ 8#7 ++ 16#7 ++ 24#7) none = .ok (.xorImm 7 8 16 24) ∧
    decodeWord (7#3 ++ 0b01000001#8 ++ 8#7 ++ 16#7 ++ 0b00#2 ++ 24#5) none = .ok (.shlImm 7 8 16 24) ∧
    decodeWord (7#3 ++ 0b01000010#8 ++ 8#7 ++ 16#7 ++ 0b00#2 ++ 24#5) none = .ok (.shrImm 7 8 16 24) ∧
    decodeWord (7#3 ++ 0b01000011#8 ++ 8#7 ++ 16#7 ++ 0b00#2 ++ 24#5) none = .ok (.sarImm 7 8 16 24) ∧
    decodeWord (7#3 ++ 0b01000100#8 ++ 8#7 ++ 16#7 ++ 0b00#2 ++ 24#5) none = .ok (.rotImm 7 8 16 24) := by
  decide +kernel

/-- Words of R95-R100, each field written out. -/
theorem test_decode_float :
    decodeWord (7#3 ++ 0b01000101#8 ++ 8#7 ++ 16#7 ++ 24#7) none = .ok (.fmin 7 8 16 24) ∧
    decodeWord (7#3 ++ 0b01000110#8 ++ 8#7 ++ 16#7 ++ 24#7) none = .ok (.fmax 7 8 16 24) ∧
    decodeWord (7#3 ++ 0b01000111#8 ++ 8#7 ++ 16#7 ++ 24#7) none = .ok (.fdiv 7 8 16 24) ∧
    decodeWord (7#3 ++ 0b01001000#8 ++ 8#7 ++ 16#7 ++ 24#7) none = .ok (.fadd 7 8 16 24) ∧
    decodeWord (7#3 ++ 0b01001001#8 ++ 8#7 ++ 16#7 ++ 24#7) none = .ok (.faddRn 7 8 16 24) ∧
    decodeWord (7#3 ++ 0b01001010#8 ++ 8#7 ++ 16#7 ++ 24#7) none = .ok (.fsub 7 8 16 24) ∧
    decodeWord (7#3 ++ 0b01001011#8 ++ 8#7 ++ 16#7 ++ 24#7) none = .ok (.fsubRn 7 8 16 24) ∧
    decodeWord (7#3 ++ 0b01001100#8 ++ 8#7 ++ 16#7 ++ 24#7) none = .ok (.fmul 7 8 16 24) ∧
    decodeWord (7#3 ++ 0b01001101#8 ++ 8#7 ++ 16#7 ++ 24#7) none = .ok (.fmulRn 7 8 16 24) ∧
    decodeWord (7#3 ++ 0b01001110#8 ++ 8#7 ++ 16#7 ++ 24#7) none = .ok (.ffma 7 8 16 24) ∧
    decodeWord (7#3 ++ 0b01001111#8 ++ 8#7 ++ 16#7 ++ 24#7) none = .ok (.ffmaRn 7 8 16 24) ∧
    decodeWord (7#3 ++ 0b01010000#8 ++ 8#7 ++ 16#7 ++ 24#7) none = .ok (.fscale 7 8 16 24) ∧
    decodeWord (7#3 ++ 0b01010001#8 ++ 2#4 ++ 3#3 ++ 8#7 ++ 16#7) none = .ok (.fcmp 7 2 3 8 16) ∧
    decodeWord (7#3 ++ 0b01010010#8 ++ 8#7 ++ 16#7 ++ 0b0000000#7) none = .ok (.fabs 7 8 16) ∧
    decodeWord (7#3 ++ 0b01010011#8 ++ 8#7 ++ 16#7 ++ 0b0000000#7) none = .ok (.fneg 7 8 16) ∧
    decodeWord (7#3 ++ 0b01010100#8 ++ 8#7 ++ 16#7 ++ 0b0000000#7) none = .ok (.fclass 7 8 16) := by
  decide +kernel

/-- Words of R101, R102, R104, each field written out. -/
theorem test_decode_functions :
    decodeWord (7#3 ++ 0b01010101#8 ++ 8#7 ++ 16#7 ++ 5#7) none = .ok (.frnd 7 8 16 5) ∧
    decodeWord (7#3 ++ 0b01010110#8 ++ 8#7 ++ 16#7 ++ 5#7) none = .ok (.frcp 7 8 16 5) ∧
    decodeWord (7#3 ++ 0b01010111#8 ++ 8#7 ++ 16#7 ++ 5#7) none = .ok (.frsq 7 8 16 5) ∧
    decodeWord (7#3 ++ 0b01011000#8 ++ 8#7 ++ 16#7 ++ 5#7) none = .ok (.fsqrt 7 8 16 5) ∧
    decodeWord (7#3 ++ 0b01011001#8 ++ 8#7 ++ 16#7 ++ 5#7) none = .ok (.fex2 7 8 16 5) ∧
    decodeWord (7#3 ++ 0b01011010#8 ++ 8#7 ++ 16#7 ++ 5#7) none = .ok (.flg2 7 8 16 5) ∧
    decodeWord (7#3 ++ 0b01011011#8 ++ 8#7 ++ 16#7 ++ 5#7) none = .ok (.fsin 7 8 16 5) ∧
    decodeWord (7#3 ++ 0b01011100#8 ++ 8#7 ++ 16#7 ++ 5#7) none = .ok (.fcos 7 8 16 5) ∧
    decodeWord (7#3 ++ 0b01011101#8 ++ 8#7 ++ 16#7 ++ 24#7) none = .ok (.cvt 7 8 16 24) ∧
    decodeWord (7#3 ++ 0b01011110#8 ++ 8#7 ++ 16#7 ++ 24#7) none = .ok (.cvtRn 7 8 16 24) ∧
    decodeWord (7#3 ++ 0b01011111#8 ++ 8#7 ++ 16#7 ++ 24#7) none = .ok (.cvtRna 7 8 16 24) ∧
    decodeWord (7#3 ++ 0b01100000#8 ++ 8#7 ++ 16#7 ++ 24#7) none = .ok (.cvtRz 7 8 16 24) ∧
    decodeWord (7#3 ++ 0b01100001#8 ++ 8#7 ++ 16#7 ++ 24#7) none = .ok (.cvtRp 7 8 16 24) ∧
    decodeWord (7#3 ++ 0b01100010#8 ++ 8#7 ++ 16#7 ++ 24#7) none = .ok (.cvtRm 7 8 16 24) := by
  decide +kernel

/-- Words of R103, each field written out. -/
theorem test_decode_packed :
    decodeWord (7#3 ++ 0b01100011#8 ++ 8#7 ++ 16#7 ++ 24#7) none = .ok (.hadd2Bf16 7 8 16 24) ∧
    decodeWord (7#3 ++ 0b01100100#8 ++ 8#7 ++ 16#7 ++ 24#7) none = .ok (.hsub2Bf16 7 8 16 24) ∧
    decodeWord (7#3 ++ 0b01100101#8 ++ 8#7 ++ 16#7 ++ 24#7) none = .ok (.hmul2Bf16 7 8 16 24) ∧
    decodeWord (7#3 ++ 0b01100110#8 ++ 8#7 ++ 16#7 ++ 24#7) none = .ok (.hfma2Bf16 7 8 16 24) ∧
    decodeWord (7#3 ++ 0b01100111#8 ++ 8#7 ++ 16#7 ++ 24#7) none = .ok (.hmin2Bf16 7 8 16 24) ∧
    decodeWord (7#3 ++ 0b01101000#8 ++ 8#7 ++ 16#7 ++ 24#7) none = .ok (.hmax2Bf16 7 8 16 24) ∧
    decodeWord (7#3 ++ 0b01101001#8 ++ 8#7 ++ 16#7 ++ 24#7) none = .ok (.hadd2Hf16 7 8 16 24) ∧
    decodeWord (7#3 ++ 0b01101010#8 ++ 8#7 ++ 16#7 ++ 24#7) none = .ok (.hsub2Hf16 7 8 16 24) ∧
    decodeWord (7#3 ++ 0b01101011#8 ++ 8#7 ++ 16#7 ++ 24#7) none = .ok (.hmul2Hf16 7 8 16 24) ∧
    decodeWord (7#3 ++ 0b01101100#8 ++ 8#7 ++ 16#7 ++ 24#7) none = .ok (.hfma2Hf16 7 8 16 24) ∧
    decodeWord (7#3 ++ 0b01101101#8 ++ 8#7 ++ 16#7 ++ 24#7) none = .ok (.hmin2Hf16 7 8 16 24) ∧
    decodeWord (7#3 ++ 0b01101110#8 ++ 8#7 ++ 16#7 ++ 24#7) none = .ok (.hmax2Hf16 7 8 16 24) := by
  decide +kernel

/-- Words of R141, R142, each field written out. -/
theorem test_decode_loads :
    decodeWord (7#3 ++ 0b01110000#8 ++ 8#7 ++ 16#7 ++ 24#7) none = .ok (.ldS8 7 8 16 24) ∧
    decodeWord (7#3 ++ 0b01110001#8 ++ 8#7 ++ 16#7 ++ 24#7) none = .ok (.ldZ8 7 8 16 24) ∧
    decodeWord (7#3 ++ 0b01110010#8 ++ 8#7 ++ 16#7 ++ 24#7) none = .ok (.ldS16 7 8 16 24) ∧
    decodeWord (7#3 ++ 0b01110011#8 ++ 8#7 ++ 16#7 ++ 24#7) none = .ok (.ldZ16 7 8 16 24) ∧
    decodeWord (7#3 ++ 0b01110100#8 ++ 8#7 ++ 16#7 ++ 24#7) none = .ok (.ldW 7 8 16 24) ∧
    decodeWord (7#3 ++ 0b01110101#8 ++ 8#7 ++ 16#7 ++ 24#7) none = .ok (.ldD 7 8 16 24) ∧
    decodeWord (7#3 ++ 0b01110110#8 ++ 8#7 ++ 16#7 ++ 24#7) none = .ok (.ldQ 7 8 16 24) ∧
    decodeWord (5#3 ++ 0b01110111#8 ++ 8#7 ++ 16#7 ++ 6#3 ++ 1#1 ++ 0#3) (some 0xFFFFFFF0) = .ok (.ldl 5 8 16 6 1 0xFFFFFFF0) ∧
    decodeWord (7#3 ++ 0b01111000#8 ++ 8#7 ++ 16#7 ++ 24#7) none = .ok (.ldAdvW 7 8 16 24) ∧
    decodeWord (7#3 ++ 0b01111001#8 ++ 8#7 ++ 16#7 ++ 24#7) none = .ok (.ldAdvD 7 8 16 24) ∧
    decodeWord (7#3 ++ 0b01111010#8 ++ 8#7 ++ 16#7 ++ 24#7) none = .ok (.ldAdvQ 7 8 16 24) := by
  decide +kernel

/-- Words of R141-R155, each field written out. -/
theorem test_decode_stores :
    decodeWord (7#3 ++ 0b01111011#8 ++ 8#7 ++ 16#7 ++ 5#3 ++ 0#4) (some 0x00000100) = .ok (.stl 7 8 16 5 0x00000100) ∧
    decodeWord (7#3 ++ 0b01111100#8 ++ 8#7 ++ 16#7 ++ 24#7) none = .ok (.stB8 7 8 16 24) ∧
    decodeWord (7#3 ++ 0b01111101#8 ++ 8#7 ++ 16#7 ++ 24#7) none = .ok (.stB16 7 8 16 24) ∧
    decodeWord (7#3 ++ 0b01111110#8 ++ 8#7 ++ 16#7 ++ 24#7) none = .ok (.stW 7 8 16 24) ∧
    decodeWord (7#3 ++ 0b01111111#8 ++ 8#7 ++ 16#7 ++ 24#7) none = .ok (.stD 7 8 16 24) ∧
    decodeWord (7#3 ++ 0b10000000#8 ++ 8#7 ++ 16#7 ++ 24#7) none = .ok (.stQ 7 8 16 24) ∧
    decodeWord (7#3 ++ 0b10000001#8 ++ 8#7 ++ 16#7 ++ 24#7) none = .ok (.shld 7 8 16 24) ∧
    decodeWord (7#3 ++ 0b10000010#8 ++ 8#7 ++ 16#7 ++ 24#7) none = .ok (.ldfragT8 7 8 16 24) ∧
    decodeWord (7#3 ++ 0b10000011#8 ++ 8#7 ++ 16#7 ++ 24#7) none = .ok (.ldfragT16 7 8 16 24) ∧
    decodeWord (7#3 ++ 0b10000100#8 ++ 8#7 ++ 16#7 ++ 0b0000#4 ++ 2#3) none = .ok (.ldt 7 8 16 2) ∧
    decodeWord (7#3 ++ 0b10000101#8 ++ 8#7 ++ 16#7 ++ 0b0000#4 ++ 2#3) none = .ok (.stt 7 8 16 2) := by
  decide +kernel

/-- Words of R146-R152, each field written out. -/
theorem test_decode_atomics :
    decodeWord (7#3 ++ 0b100001100000000#15 ++ 8#7 ++ 16#7) none = .ok (.wadd 7 8 16) ∧
    decodeWord (7#3 ++ 0b10000111#8 ++ 8#7 ++ 16#7 ++ 0b0000000#7) none = .ok (.wld 7 8 16) ∧
    decodeWord (7#3 ++ 0b10001000#8 ++ 8#7 ++ 16#7 ++ 24#7) none = .ok (.atomAdd 7 8 16 24) ∧
    decodeWord (7#3 ++ 0b10001001#8 ++ 8#7 ++ 16#7 ++ 24#7) none = .ok (.atomMin 7 8 16 24) ∧
    decodeWord (7#3 ++ 0b10001010#8 ++ 8#7 ++ 16#7 ++ 24#7) none = .ok (.atomMax 7 8 16 24) ∧
    decodeWord (7#3 ++ 0b10001011#8 ++ 8#7 ++ 16#7 ++ 24#7) none = .ok (.atomAnd 7 8 16 24) ∧
    decodeWord (7#3 ++ 0b10001100#8 ++ 8#7 ++ 16#7 ++ 24#7) none = .ok (.atomOr 7 8 16 24) ∧
    decodeWord (7#3 ++ 0b10001101#8 ++ 8#7 ++ 16#7 ++ 24#7) none = .ok (.atomXor 7 8 16 24) ∧
    decodeWord (7#3 ++ 0b10001110#8 ++ 8#7 ++ 16#7 ++ 24#7) none = .ok (.atomExch 7 8 16 24) ∧
    decodeWord (7#3 ++ 0b10001111#8 ++ 8#7 ++ 16#7 ++ 24#7) none = .ok (.atomCas 7 8 16 24) ∧
    decodeWord (7#3 ++ 0b100100000000000#15 ++ 8#7 ++ 2#4 ++ 3#3) none = .ok (.acq 7 8 2 3) ∧
    decodeWord (7#3 ++ 0b100100010000000#15 ++ 8#7 ++ 2#4 ++ 3#3) none = .ok (.rel 7 8 2 3) ∧
    decodeWord (7#3 ++ 0b1001001000000000000000#22 ++ 9#4 ++ 0b000#3) none = .ok (.fence 7 9) ∧
    decodeWord (7#3 ++ 0b10010011#8 ++ 8#7 ++ 16#7 ++ 24#7) none = .ok (.bind 7 8 16 24) ∧
    decodeWord (7#3 ++ 0b10010100#8 ++ 8#7 ++ 0b00000000000000#14) none = .ok (.unbind 7 8) ∧
    decodeWord (7#3 ++ 0b100101010000000#15 ++ 8#7 ++ 16#7) none = .ok (.pgreq 7 8 16) ∧
    decodeWord (7#3 ++ 0b10010110#8 ++ 8#7 ++ 16#7 ++ 24#7) none = .ok (.pgprobe 7 8 16 24) := by
  decide +kernel

/-- Words of R113-R125, each field written out. -/
theorem test_decode_control :
    decodeWord (7#3 ++ 0b10011000#8 ++ 2#21) none = .ok (.br 7 2) ∧
    decodeWord (7#3 ++ 0b10011001#8 ++ 8#7 ++ 2#14) none = .ok (.brl 7 8 2) ∧
    decodeWord (7#3 ++ 0b100110100000000#15 ++ 8#7 ++ 0b0000000#7) none = .ok (.jmp 7 8) ∧
    decodeWord (7#3 ++ 0b10011011#8 ++ 2#21) none = .ok (.call 7 2) ∧
    decodeWord (7#3 ++ 0b100111000000000#15 ++ 8#7 ++ 0b0000000#7) none = .ok (.calli 7 8) ∧
    decodeWord (7#3 ++ 0b10011101000000000000000000000#29) none = .ok (.ret 7) ∧
    decodeWord (7#3 ++ 0b10011110000000000000000000#26 ++ 2#3) none = .ok (.enrol 7 2) ∧
    decodeWord (7#3 ++ 0b10011111000000000000000000#26 ++ 2#3) none = .ok (.join 7 2) ∧
    decodeWord (7#3 ++ 0b10100000000000000000000000000#29) none = .ok (.exit 7) ∧
    decodeWord (7#3 ++ 0b101000010000000000000#21 ++ 2#8) none = .ok (.trap 7 2) ∧
    decodeWord (7#3 ++ 0b10100010000000000000000000000#29) none = .ok (.tret 7) ∧
    decodeWord (7#3 ++ 0b101000110000000000000#21 ++ 2#8) none = .ok (.brk 7 2) ∧
    decodeWord (7#3 ++ 0b10100100000000000000000000000#29) none = .ok (.nop 7) ∧
    decodeWord (7#3 ++ 0b1010010100000#13 ++ 2#4 ++ 3#4 ++ 4#4 ++ 5#4) none = .ok (.wait 7 2 3 4 5) := by
  decide +kernel

/-- Words of R120, R132-R135, each field written out. -/
theorem test_decode_speculation :
    decodeWord (7#3 ++ 0b10100110#8 ++ 2#21) none = .ok (.tryW 7 2) ∧
    decodeWord (7#3 ++ 0b10100111#8 ++ 2#21) none = .ok (.tryL 7 2) ∧
    decodeWord (7#3 ++ 0b10101000000000000000000000000#29) none = .ok (.tcommit 7) ∧
    decodeWord (7#3 ++ 0b101010010000000000000#21 ++ 65#8) none = .ok (.tabort 7 65) ∧
    decodeWord (7#3 ++ 0b10101010#8 ++ 8#7 ++ 0b00#2 ++ 2#12) none = .ok (.srd 7 8 2) ∧
    decodeWord (7#3 ++ 0b10101011#8 ++ 8#7 ++ 0b00#2 ++ 2#12) none = .ok (.swr 7 8 2) := by
  decide +kernel

/-- Words of R157-R162, each field written out. -/
theorem test_decode_lanes :
    decodeWord (7#3 ++ 0b101100#6 ++ 2#2 ++ 8#7 ++ 16#7 ++ 24#7) none = .ok (.shflIdx 7 2 8 16 24) ∧
    decodeWord (7#3 ++ 0b10110100#8 ++ 8#7 ++ 16#7 ++ 2#2 ++ 24#5) none = .ok (.shflUp 7 8 16 2 24) ∧
    decodeWord (7#3 ++ 0b10110101#8 ++ 8#7 ++ 16#7 ++ 2#2 ++ 24#5) none = .ok (.shflDown 7 8 16 2 24) ∧
    decodeWord (7#3 ++ 0b10110110#8 ++ 8#7 ++ 16#7 ++ 2#2 ++ 24#5) none = .ok (.shflXor 7 8 16 2 24) ∧
    decodeWord (7#3 ++ 0b10110111#8 ++ 8#7 ++ 16#7 ++ 2#2 ++ 3#5) none = .ok (.vote 7 8 16 2 3) ∧
    decodeWord (7#3 ++ 0b10111000#8 ++ 8#7 ++ 16#7 ++ 2#2 ++ 2#5) none = .ok (.matchLanes 7 8 16 2 2) ∧
    decodeWord (7#3 ++ 0b10111001#8 ++ 8#7 ++ 16#7 ++ 2#2 ++ 8#5) none = .ok (.gred 7 8 16 2 8) ∧
    decodeWord (7#3 ++ 0b10111010#8 ++ 8#7 ++ 16#7 ++ 2#2 ++ 5#5) none = .ok (.gscan 7 8 16 2 5) ∧
    decodeWord (7#3 ++ 0b10111011#8 ++ 8#7 ++ 0b0000000#7 ++ 2#2 ++ 0b00000#5) none = .ok (.lanesGet 7 8 2) ∧
    decodeWord (7#3 ++ 0b101110110000000#15 ++ 8#7 ++ 2#2 ++ 0b00001#5) none = .ok (.lanesSet 7 8 2) ∧
    decodeWord (7#3 ++ 0b10111011#8 ++ 8#7 ++ 0b0000000#7 ++ 2#2 ++ 0b00010#5) none = .ok (.lanesPresent 7 8 2) := by
  decide +kernel

/-- Words of R219-R234, R398, each field written out. -/
theorem test_decode_engine :
    decodeWord (0b1111100000000000#16 ++ 2#3 ++ 0b00000#5 ++ 8#5 ++ 0b000#3) none = .ok (.breserve 2 8) ∧
    decodeWord (0b1111100000100000#16 ++ 2#3 ++ 0b0000000000000#13) none = .ok (.brelease 2) ∧
    decodeWord (0b1111100001000000#16 ++ 2#3 ++ 0b00000#5 ++ 8#5 ++ 6#3) none = .ok (.bfill 2 8 6) ∧
    decodeWord (0b1111100001100000#16 ++ 2#3 ++ 0b00000#5 ++ 8#5 ++ 0b0#1 ++ 2#2) none = .ok (.bgather 2 8 2) ∧
    decodeWord (0b11111000100#11 ++ 2#4 ++ 3#3 ++ 4#3 ++ 8#5 ++ 3#2 ++ 3#2 ++ 1#1 ++ 0b0#1) none = .ok (.mma 2 3 4 8 3 3 1) ∧
    decodeWord (0b11111000101#11 ++ 2#4 ++ 3#3 ++ 4#3 ++ 8#5 ++ 3#2 ++ 3#2 ++ 1#1 ++ 0b0#1) none = .ok (.mmaw 2 3 4 8 3 3 1) ∧
    decodeWord (0b11111000110#11 ++ 2#4 ++ 0b000000000#9 ++ 8#5 ++ 0b000#3) none = .ok (.talloc 2 8) ∧
    decodeWord (0b11111000111#11 ++ 2#4 ++ 0b00000000000000000#17) none = .ok (.tfree 2) ∧
    decodeWord (0b11111001000#11 ++ 2#4 ++ 0b00000000000000000#17) none = .ok (.tzero 2) ∧
    decodeWord (0b11111001001#11 ++ 2#4 ++ 0b000000000#9 ++ 8#5 ++ 2#3) none = .ok (.tld 2 8 2) ∧
    decodeWord (0b11111001010#11 ++ 2#4 ++ 0b000000000#9 ++ 8#5 ++ 1#3) none = .ok (.tst 2 8 1) ∧
    decodeWord (0b11111001011#11 ++ 2#4 ++ 0b0000#4 ++ 8#5 ++ 0b00000000#8) none = .ok (.tpost 2 8) ∧
    decodeWord (0b11111001100#11 ++ 2#4 ++ 0b00000000000000000#17) none = .ok (.tfinal 2) ∧
    decodeWord (0b1111100110100000000#19 ++ 8#5 ++ 16#5 ++ 0b000#3) none = .ok (.tsettle 8 16) ∧
    decodeWord (0b11111001110#11 ++ 2#4 ++ 0b0#1 ++ 3#3 ++ 0b00000000000#11 ++ 1#1 ++ 1#1) none = .ok (.tcvtBuffer 2 3 1 1) ∧
    decodeWord (0b11111001110#11 ++ 2#4 ++ 0b000000000#9 ++ 8#5 ++ 0b1#1 ++ 1#1 ++ 1#1) none = .ok (.tcvtMemory 2 8 1 1) ∧
    decodeWord (0b11111001111#11 ++ 2#4 ++ 0b000000000#9 ++ 8#5 ++ 0b000#3) none = .ok (.fred 2 8) := by
  decide +kernel

/-- Words of R229, each field written out. -/
theorem test_decode_linear :
    decodeWord (0b11111010000#11 ++ 2#4 ++ 3#4 ++ 8#5 ++ 0b00000000#8) none = .ok (.tadd 2 3 8) ∧
    decodeWord (0b11111010001#11 ++ 2#4 ++ 3#4 ++ 8#5 ++ 0b00000000#8) none = .ok (.tsub 2 3 8) ∧
    decodeWord (0b11111010010#11 ++ 2#4 ++ 3#4 ++ 8#5 ++ 0b00000000#8) none = .ok (.tneg 2 3 8) ∧
    decodeWord (0b11111010011#11 ++ 2#4 ++ 3#4 ++ 8#5 ++ 16#5 ++ 0b000#3) none = .ok (.tshift 2 3 8 16) ∧
    decodeWord (0b11111010100#11 ++ 2#4 ++ 3#4 ++ 8#5 ++ 16#5 ++ 0b000#3) none = .ok (.tmuli 2 3 8 16) ∧
    decodeWord (0b11111010101#11 ++ 2#4 ++ 3#4 ++ 8#5 ++ 0b00000000#8) none = .ok (.trsum 2 3 8) ∧
    decodeWord (0b11111010110#11 ++ 2#4 ++ 3#4 ++ 8#5 ++ 0b00000000#8) none = .ok (.tcsum 2 3 8) ∧
    decodeWord (0b11111010111#11 ++ 2#4 ++ 3#4 ++ 8#5 ++ 0b00000000#8) none = .ok (.ttrans 2 3 8) ∧
    decodeWord (0b11111011000#11 ++ 2#4 ++ 3#4 ++ 8#5 ++ 16#5 ++ 0b000#3) none = .ok (.tslice 2 3 8 16) ∧
    decodeWord (0b11111011001#11 ++ 2#4 ++ 3#4 ++ 8#5 ++ 0b00000000#8) none = .ok (.tcopy 2 3 8) := by
  decide +kernel

/-- Words of R249-R257, each field written out. -/
theorem test_decode_drive :
    decodeWord (0b11111100000#11 ++ 8#5 ++ 16#5 ++ 0b00000000000#11) none = .ok (.dmov 8 16) ∧
    decodeWord (0b11111100000#11 ++ 8#5 ++ 2#10 ++ 0b000001#6) none = .ok (.dmovImm 8 2) ∧
    decodeWord (0b11111100000#11 ++ 8#5 ++ 0b0000000000000010#16) none = .ok (.dmovRdstat 8) ∧
    decodeWord (0b1111110000000000#16 ++ 8#5 ++ 0b00000000011#11) none = .ok (.dmovWrstat 8) ∧
    decodeWord (0b11111100000#11 ++ 8#5 ++ 0b0000000000000100#16) none = .ok (.dmovRdrm 8) ∧
    decodeWord (0b1111110000000000#16 ++ 8#5 ++ 0b00000000101#11) none = .ok (.dmovWrrm 8) ∧
    decodeWord (0b11111100000#11 ++ 8#5 ++ 0b0000000000000110#16) none = .ok (.dmovRdcnt 8) ∧
    decodeWord (0b11111100000#11 ++ 8#5 ++ 0b0000000000000111#16) none = .ok (.dmovRdwg 8) ∧
    decodeWord (0b11111100000#11 ++ 8#5 ++ 0b0000000000001000#16) none = .ok (.dmovRdclk 8) ∧
    decodeWord (0b11111100000#11 ++ 8#5 ++ 0b0000000000001001#16) none = .ok (.dmovRdclkh 8) ∧
    decodeWord (7#3 ++ 0b11100001#8 ++ 9#5 ++ 0#16) (some 0x12345678) = .ok (.dmovl 9 0x12345678) ∧
    decodeWord (0b11111100010#11 ++ 8#5 ++ 16#5 ++ 24#5 ++ 0b000000#6) none = .ok (.dadd 8 16 24) ∧
    decodeWord (0b11111100010#11 ++ 8#5 ++ 16#5 ++ 24#5 ++ 0b000001#6) none = .ok (.daddSub 8 16 24) ∧
    decodeWord (0b11111100010#11 ++ 8#5 ++ 16#5 ++ 24#5 ++ 0b000010#6) none = .ok (.daddImm 8 16 24) ∧
    decodeWord (0b11111100010#11 ++ 8#5 ++ 16#5 ++ 24#5 ++ 0b000011#6) none = .ok (.daddD 8 16 24) ∧
    decodeWord (0b11111100011#11 ++ 8#5 ++ 16#5 ++ 24#5 ++ 0b000000#6) none = .ok (.dmul 8 16 24) ∧
    decodeWord (0b11111100100#11 ++ 8#5 ++ 16#5 ++ 24#5 ++ 0b00#2 ++ 2#4) none = .ok (.dcmp 8 16 24 2) ∧
    decodeWord (0b11111100101#11 ++ 8#5 ++ 2#16) none = .ok (.dbr 8 2) ∧
    decodeWord (0b11111100110#11 ++ 8#5 ++ 2#16) none = .ok (.dloop 8 2) ∧
    decodeWord (0b11111100111#11 ++ 8#5 ++ 0b0000000000000000#16) none = .ok (.dnext 8) ∧
    decodeWord (0b11111101000000000000000000000000#32) none = .ok (.dhalt ) ∧
    decodeWord (0b11111101001000000#17 ++ 2#4 ++ 0b0#1 ++ 3#4 ++ 0b000000#6) none = .ok (.dsync 2 3) := by
  decide +kernel

/-- Words of R263-R275, each field written out. -/
theorem test_decode_copies :
    decodeWord (7#3 ++ 0b11101010#8 ++ 24#7 ++ 2#6 ++ 3#4 ++ 1#1 ++ 0b000#3) none = .ok (.xcopy 7 24 2 3 1) ∧
    decodeWord (7#3 ++ 0b11101010#8 ++ 8#7 ++ 2#6 ++ 3#4 ++ 1#1 ++ 0b001#3) none = .ok (.xcopyAdd 7 8 2 3 1) ∧
    decodeWord (7#3 ++ 0b11101010#8 ++ 8#7 ++ 0b00000000000010#14) none = .ok (.xcopyDetach 7 8) ∧
    decodeWord (7#3 ++ 0b11101010#8 ++ 8#7 ++ 2#6 ++ 3#4 ++ 1#1 ++ 0b011#3) none = .ok (.xcopyFabric 7 8 2 3 1) ∧
    decodeWord (7#3 ++ 0b11101011#8 ++ 8#7 ++ 0b00000000000000#14) none = .ok (.xwaitany 7 8) ∧
    decodeWord (7#3 ++ 0b11101011#8 ++ 8#7 ++ 0b00000010000000#14) none = .ok (.xwaitall 7 8) ∧
    decodeWord (7#3 ++ 0b11101100#8 ++ 8#7 ++ 0b00000000000000#14) none = .ok (.xffr 7 8) ∧
    decodeWord (7#3 ++ 0b11101101#8 ++ 8#7 ++ 0b00000000000000#14) none = .ok (.xtags 7 8) := by
  decide +kernel

/-- Words of R277-R281, each field written out. -/
theorem test_decode_barriers :
    decodeWord (7#3 ++ 0b11101110#8 ++ 8#7 ++ 2#4 ++ 0b0000000000#10) none = .ok (.barInit 7 8 2) ∧
    decodeWord (7#3 ++ 0b11101110#8 ++ 8#7 ++ 2#4 ++ 0b0010000000#10) none = .ok (.barArv 7 8 2) ∧
    decodeWord (7#3 ++ 0b11101110#8 ++ 8#7 ++ 2#4 ++ 0b0100000000#10) none = .ok (.barSync 7 8 2) ∧
    decodeWord (7#3 ++ 0b111011100000000#15 ++ 2#4 ++ 0b0110000000#10) none = .ok (.barInval 7 2) ∧
    decodeWord (7#3 ++ 0b11101111000000000000000000000#29) none = .ok (.ckpt 7) := by
  decide +kernel

/-- Words of R202-R213, R320-R325, each field written out. -/
theorem test_decode_scratch :
    decodeWord (7#3 ++ 0b11110000#8 ++ 8#7 ++ 16#7 ++ 0b0000000#7) none = .ok (.salloc 7 8 16) ∧
    decodeWord (7#3 ++ 0b111100010000000#15 ++ 8#7 ++ 0b0000000#7) none = .ok (.sfree 7 8) ∧
    decodeWord (7#3 ++ 0b11110010#8 ++ 8#7 ++ 16#7 ++ 0b0000000#7) none = .ok (.srelight 7 8 16) ∧
    decodeWord (7#3 ++ 0b11110011000000000000000000000#29) none = .ok (.sret 7) ∧
    decodeWord (7#3 ++ 0b11110100#8 ++ 8#7 ++ 16#7 ++ 0b0000000#7) none = .ok (.sinfoAlloc 7 8 16) ∧
    decodeWord (7#3 ++ 0b11110100#8 ++ 8#7 ++ 0b00000000000001#14) none = .ok (.sinfoEntry 7 8) ∧
    decodeWord (7#3 ++ 0b11110100#8 ++ 8#7 ++ 0b00000000000010#14) none = .ok (.sinfoCore 7 8) ∧
    decodeWord (7#3 ++ 0b111101010000000#15 ++ 8#7 ++ 0b0000000#7) none = .ok (.bdgt 7 8) ∧
    decodeWord (7#3 ++ 0b11110110#8 ++ 8#7 ++ 16#7 ++ 0b0000000#7) none = .ok (.cjoin 7 8 16) ∧
    decodeWord (7#3 ++ 0b11110110#8 ++ 8#7 ++ 0b00000000000001#14) none = .ok (.cjoinInfo 7 8) ∧
    decodeWord (7#3 ++ 0b11110111#8 ++ 8#7 ++ 0b00000000000000#14) none = .ok (.cleave 7 8) ∧
    decodeWord (7#3 ++ 0b111110000000000#15 ++ 8#7 ++ 0b0000000#7) none = .ok (.tmbarSync 7 8) ∧
    decodeWord (7#3 ++ 0b111110000000000#15 ++ 8#7 ++ 0b0000001#7) none = .ok (.tmbarArv 7 8) := by
  decide +kernel

/-- Words of R346-R353, R402, each field written out. -/
theorem test_decode_events :
    decodeWord (7#3 ++ 0b111110010000000#15 ++ 8#7 ++ 0b0000000#7) none = .ok (.evsig 7 8) ∧
    decodeWord (7#3 ++ 0b111110010000000#15 ++ 8#7 ++ 0b0000001#7) none = .ok (.evwait 7 8) ∧
    decodeWord (7#3 ++ 0b111110010000000#15 ++ 8#7 ++ 0b0000010#7) none = .ok (.evclr 7 8) ∧
    decodeWord (7#3 ++ 0b111110010000000#15 ++ 8#7 ++ 0b0000011#7) none = .ok (.evarm 7 8) ∧
    decodeWord (7#3 ++ 0b11111010#8 ++ 8#7 ++ 16#7 ++ 0b0000000#7) none = .ok (.lnch 7 8 16) ∧
    decodeWord (7#3 ++ 0b11111011000000000000000000000#29) none = .ok (.wgdone 7) ∧
    decodeWord (7#3 ++ 0b111111000000000#15 ++ 8#7 ++ 0b0000000#7) none = .ok (.ptsyncPage 7 8) ∧
    decodeWord (7#3 ++ 0b11111100000000000000000000001#29) none = .ok (.ptsyncAll 7) ∧
    decodeWord (7#3 ++ 0b111111010000000#15 ++ 8#7 ++ 0b000#3 ++ 5#4) none = .ok (.icinv 7 8 5) ∧
    decodeWord (7#3 ++ 0b111111100000000#15 ++ 8#7 ++ 0b0000000#7) none = .ok (.fsig 7 8) := by
  decide +kernel

/-- Words that are no instruction: a dash of R46, a nonzero reserved field, a reserved sub-operation, an odd pair, a drive word whose
guard is not 7, a literal form with no literal, three bytes. -/
theorem test_decode_rejects :
    decodeWord (7#3 ++ 0b11111111#8 ++ 0#21) none = .error .unassignedOpcode ∧
    decodeWord (7#3 ++ 0b00100010#8 ++ 8#7 ++ 16#7 ++ 1#7) none = .error .reservedField ∧
    decodeWord (7#3 ++ 0b10110111#8 ++ 8#7 ++ 16#7 ++ 0#2 ++ 31#5) none = .error .illegalOperand ∧
    decodeWord (7#3 ++ 0b00000011#8 ++ 1#7 ++ 2#7 ++ 4#7) none = .error .illegalOperand ∧
    decodeWord (6#3 ++ 0b11100000#8 ++ 1#5 ++ 2#5 ++ 0#11) none = .error .reservedField ∧
    decodeWord (7#3 ++ 0b00111011#8 ++ 8#7 ++ 0#14) none = .error .noLiteral ∧
    decode [0#8, 0#8, 0xE0#8] = .error .tooShort := by
  decide +kernel

/-! ## Terms that WellFormed refuses: one for each check -/

/-- Register groups that are not aligned (R41, R80). -/
theorem test_illFormed_groups :
    ∀ i ∈ [Instr.addN64 7 9 8 8, .addN64 7 8 9 8, .subN64 7 8 8 9, .mulN64 7 1 0 0, .madN64 7 3 0 0, .addc 7 127 0 0, .subb 7 127 0 0,
        .lea 7 1 0 0, .lea 7 0 1 0, .cvt 7 0 1 0x08, .cvtRn 7 0 2 0x18, .cvtRna 7 4 0 0x20, .cvtRz 7 0 4 0x21, .cvtRp 7 0 2 0x28,
        .cvtRm 7 2 0 0x2A, .ldW 7 0 1 0, .ldD 7 1 0 0, .ldQ 7 2 0 0, .ldl 7 1 0 5 0 0, .ldl 7 2 0 6 0 0, .ldAdvQ 7 2 0 0, .stl 7 1 0 5 0,
        .stQ 7 2 0 0, .shld 7 0 1 0, .ldfragT8 7 2 0 0, .wld 7 2 0, .wadd 7 1 0, .atomCas 7 0 0 1, .bind 7 2 0 0, .unbind 7 2,
        .pgreq 7 1 0, .brl 7 1 0, .jmp 7 1, .calli 7 1, .matchLanes 7 1 0 0 2, .breserve 0 31, .bfill 0 30 0, .bfill 0 1 0,
        .bgather 0 28 0, .talloc 0 31, .tld 0 30 0, .tst 0 1 0, .tcvtMemory 0 30 0 0, .fred 0 30, .daddD 1 0 0, .daddD 0 1 0,
        .xwaitany 7 1, .xffr 7 1, .salloc 7 1 0, .salloc 7 0 2, .sfree 7 1, .sinfoAlloc 7 2 0, .sinfoCore 7 2, .cjoin 7 1 0,
        .cjoinInfo 7 2, .lnch 7 1 0, .ptsyncPage 7 1, .icinv 7 1 3], i.wellFormed = false := by
  decide +kernel

/-- Reserved values and operands that no word may name (R40, R42, R104, R135, R150, R159-R161, R263, R347). -/
theorem test_illFormed_values :
    ∀ i ∈ [Instr.cmp 7 10 0 0 0, .cmp 7 0 7 0 0, .cmpi 7 0 7 0 0, .plog 7 0 7 0 0, .fcmp 7 8 0 0 0, .fcmp 7 0 7 0 0, .frnd 7 0 0 6,
        .fcos 7 0 0 6, .cvt 7 0 0 0x0A, .cvt 7 0 0 0x2C, .ldl 7 0 0 7 0 0, .ldl 7 0 0 3 1 0, .stl 7 0 0 1 0, .acq 7 1 0 0, .acq 7 0 10 0,
        .acq 7 16 2 1, .rel 7 0 5 1, .rel 7 0 4 2, .rel 7 1 5 2, .acq 7 1 0 3, .acq 7 0 0 4, .fence 7 10, .tabort 7 0x3F, .vote 7 0 0 0 6,
        .matchLanes 7 0 0 0 4, .gred 7 0 0 0 11, .gscan 7 0 0 0 6, .bfill 0 0 3, .bgather 0 0 3, .tld 0 0 3, .tst 0 0 3, .dcmp 0 0 0 10,
        .xcopy 7 0 0 1 0, .xcopyAdd 7 0 0 1 0, .xcopyFabric 7 0 0 1 0, .icinv 7 0 4], i.wellFormed = false := by
  decide +kernel

/-! ## States that meet the hypotheses of the obligations -/

/-- A zero divisor, another one, the one quotient that does not fit, and a clamp whose bounds cross. -/
theorem test_meets_ProductsQuotientsExtremes :
    let th := fun v : Word × Word => regs (thread 0) [(16, v.1), (24, v.2)]
    (∀ v ∈ [(5, 0), (5, 3), (0x80000000, 0xFFFFFFFF), (9, 2)], ∀ i ∈ [Instr.mulhS32 7 8 16 24, .divS32 7 8 16 24, .divN32 7 8 16 24,
      .remS32 7 8 16 24, .remN32 7 8 16 24, .clampS32 7 8 16 24, .clampN32 7 8 16 24, .addmaxN32 7 8 16 24],
      Safety.Issues (alone (th v)) 0 (th v) i) ∧
    (th (0x80000000, 0xFFFFFFFF)).reg 16 = 0x80000000 ∧ (th (0x80000000, 0xFFFFFFFF)).reg 24 = 0xFFFFFFFF := by
  exact ⟨each_issue (by decide +kernel), by decide +kernel⟩

theorem test_meets_SumsAndProducts : let th := regs (thread 0) [(16, 0x80000000), (24, 1)]
    (∀ i ∈ [Instr.addS32 7 8 16 24, .subS32Sat 7 8 16 24, .madN32Sat 7 8 16 24, .addN64 7 8 16 24, .madN64 7 126 16 24, .addc 7 8 16 24,
      .subb 7 8 16 24, .neg 7 8 16, .abs 7 8 16, .lea 7 8 16 24], Safety.Issues (alone th) 0 th i) ∧ th.reg 16 = 0x80000000 := by
  exact ⟨all_issue rfl rfl (by decide +kernel), by decide +kernel⟩

theorem test_meets_BitWords : let th := regs (thread 0) [(16, 0x80000000), (24, 0x00012A1F)]
    ∀ i ∈ [Instr.andn 7 8 16 24, .not 7 8 16, .xorImm 7 8 16 64, .shl 7 8 16 24, .sar 7 8 16 24, .rot 7 8 16 24, .rotImm 7 8 16 31,
      .bfx 7 8 16 24, .bfi 7 8 16 24, .popc 7 8 16, .clz 7 8 16, .ctz 7 8 16, .brev 7 8 16, .bswap 7 8 16],
      Safety.Issues (alone th) 0 th i := by
  exact all_issue rfl rfl (by decide +kernel)

/-- Guards 7 and p2; the literal form stands in the first of two positions. -/
theorem test_meets_MovesAndComparisons : let th := { regs (thread 0) [(16, 0x80000000), (24, 1)] with p := 4 }
    ∀ i ∈ [Instr.sel 0 8 16 24, .mov 2 8 16, .movi 7 8 0x2000, .addImm 7 8 16 64, .movl 7 8 0x89ABCDEF, .cmp 7 9 6 16 24, .cmpi 7 2 0 16 64,
      .plog 7 6 0 2 7, .pmovRd 7 8, .pmovWr 7 16], Safety.Issues (alone th) 0 th i := by
  exact all_issue rfl rfl (by decide +kernel)

/-- The exact reals of an encoding that decodes to a finite value. -/
theorem valueOf_of {f : Fmt} {x : Nat} {n : Bool} {m : Nat} {e : Int} (h : f.decode x = .fin n m e) :
    Safety.finite f x ∧ Safety.valueOf f x = ((if n then -1 else 1) * (m : ℝ)) * (2 : ℝ) ^ e := by
  constructor
  · simp [Safety.finite, h, Safety.real]
  · simp only [Safety.valueOf, Safety.realOf, h, Safety.real, Option.getD_some]; cases n <;> push_cast <;> simp

/-- 3, 2 and -3, in the mode of s.rm and in that of the field. -/
theorem test_meets_ElementaryFunctions : let th := fun v : Word => { regs (thread 0) [(16, v)] with rm := 4 }
    (∀ v ∈ [0x40400000, 0x40000000, 0xC0400000], ∀ i ∈ [Instr.frcp 7 8 16 0, .frsq 7 8 16 5, .fsqrt 7 8 16 1, .fex2 7 8 16 2, .flg2 7 8 16 3,
      .fsin 7 8 16 4, .fcos 7 8 16 0], Safety.Issues (alone (th v)) 0 (th v) i) ∧
    (Safety.finite fp32 0x40400000 ∧ Safety.valueOf fp32 0x40400000 = (3 : Int)) ∧
    (Safety.finite fp32 0x40000000 ∧ Safety.valueOf fp32 0x40000000 = (2 : ℝ) ^ (1 : Int)) ∧
    (Safety.finite fp32 0xC0400000 ∧ Safety.valueOf fp32 0xC0400000 = (-3 : Int)) := by
  have h1 := valueOf_of (f := fp32) (x := 0x40400000) (n := false) (m := 0xC00000) (e := -22) (by decide +kernel)
  have h2 := valueOf_of (f := fp32) (x := 0x40000000) (n := false) (m := 0x800000) (e := -22) (by decide +kernel)
  have h3 := valueOf_of (f := fp32) (x := 0xC0400000) (n := true) (m := 0xC00000) (e := -22) (by decide +kernel)
  refine ⟨each_issue (by decide +kernel), ⟨h1.1, h1.2.trans ?_⟩, ⟨h2.1, h2.2.trans ?_⟩, h3.1, h3.2.trans ?_⟩ <;> norm_num

/-- A NaN, an infinity, a zero and finite values, scaled by numbers within 1,024 either way, and by numbers past it. -/
theorem test_meets_FloatResults : let th := fun v : Word × Word => regs (thread 0) [(16, v.1), (24, v.2)]
    (∀ v ∈ [(0x7F800001, 1), (0xFF800000, 1), (0x80000000, 1025), (0x3F800000, 1024), (0x3F800000, 0xFFFFFC00), (0x3F800000, 1025),
        (0xBF800000, 0xFFFFFBFF)],
      ∀ i ∈ [Instr.fadd 7 8 16 24, .faddRn 7 8 16 24, .fsub 7 8 16 24, .fsubRn 7 8 16 24, .fmul 7 8 16 24, .fmulRn 7 8 16 24,
        .ffma 7 8 16 24, .ffmaRn 7 8 16 24, .fdiv 7 8 16 24, .fscale 7 8 16 24, .hadd2Bf16 7 8 16 24, .hadd2Hf16 7 8 16 24,
        .hsub2Bf16 7 8 16 24, .hsub2Hf16 7 8 16 24, .hmul2Bf16 7 8 16 24, .hmul2Hf16 7 8 16 24, .hfma2Bf16 7 8 16 24,
        .hfma2Hf16 7 8 16 24, .hmin2Bf16 7 8 16 24, .hmax2Bf16 7 8 16 24, .hmin2Hf16 7 8 16 24, .hmax2Hf16 7 8 16 24],
      Safety.Issues (alone (th v)) 0 (th v) i) ∧
    fp32.decode 0x7F800001 = .nan true ∧ fp32.decode 0xFF800000 = .inf true ∧
    (∃ e, fp32.decode 0x80000000 = .fin true 0 e) ∧ (∃ m e, fp32.decode 0x3F800000 = .fin false m e ∧ m ≠ 0) ∧
    (∃ m e, fp32.decode 0xBF800000 = .fin true m e ∧ m ≠ 0) ∧ (0xFFFFFC00 : Word).toInt = -1024 ∧ (0xFFFFFBFF : Word).toInt < -1024 := by
  exact ⟨each_issue (by decide +kernel), by decide +kernel, by decide +kernel, ⟨_, rfl⟩, ⟨_, _, rfl, by decide +kernel⟩,
    ⟨_, _, rfl, by decide +kernel⟩, by decide +kernel, by decide +kernel⟩

/-- A quotient of significands that is inexact, in each mode; operands of either sign for the arithmetic, and a packed pair of ones. -/
theorem test_meets_RoundedOnce : let th := fun v : Word × Word => { regs (thread 0) [(8, v.1), (16, v.1), (24, v.2)] with rm := 4 }
    (∀ mode ∈ [0#3, 1, 2, 3, 4], mode.toNat ≤ 4 ∧ (fp32.round mode false true 1 3 0).flags = flagNX) ∧
    (∀ v ∈ [(0x40400000, 0xC0400000), (0x3F803F80, 0x3F803F80)], ∀ i ∈ [Instr.fadd 7 8 16 24, .faddRn 7 8 16 24, .fsub 7 8 16 24, .fsubRn 7 8 16 24,
        .fmul 7 8 16 24, .fmulRn 7 8 16 24, .ffma 7 8 16 24, .ffmaRn 7 8 16 24, .fdiv 7 8 16 24, .fscale 7 8 16 24, .hadd2Bf16 7 8 16 24,
        .hsub2Bf16 7 8 16 24, .hmul2Bf16 7 8 16 24, .hfma2Bf16 7 8 16 24, .hadd2Hf16 7 8 16 24, .hsub2Hf16 7 8 16 24, .hmul2Hf16 7 8 16 24,
        .hfma2Hf16 7 8 16 24], Safety.Issues (alone (th v)) 0 (th v) i) ∧
    ((Safety.finite fp32 0x40400000 ∧ Safety.valueOf fp32 0x40400000 = 3) ∧ Safety.finite fp32 0xC0400000 ∧ Safety.valueOf fp32 0xC0400000 = -3) ∧
    (Safety.finite bf16 0x3F80 ∧ Safety.finite fp16 0x3F80) := by
  have h1 := valueOf_of (f := fp32) (x := 0x40400000) (n := false) (m := 0xC00000) (e := -22) (by decide +kernel)
  have h3 := valueOf_of (f := fp32) (x := 0xC0400000) (n := true) (m := 0xC00000) (e := -22) (by decide +kernel)
  refine ⟨by decide +kernel, each_issue (by decide +kernel), ⟨⟨h1.1, h1.2.trans ?_⟩, h3.1, h3.2.trans ?_⟩, by simp only [Safety.finite]; decide +kernel,
    by simp only [Safety.finite]; decide +kernel⟩ <;> norm_num

/-- Each special operand of the table of R102, a NaN, a negative number, and an integer for `frnd`. -/
theorem test_meets_FloatSelectAndFunctions :
    let th := fun v : Word => regs (thread 0) [(16, v)]
    (∀ v ∈ [0x00000000, 0x80000000, 0x7F800000, 0xFF800000, 0x7F800001, 0xBF000000, 0x4B000000], ∀ i ∈ [Instr.fmin 7 8 16 24,
      .fclass 7 8 16, .fcmp 7 7 6 16 24, .frcp 7 8 16 0, .frsq 7 8 16 5, .fsqrt 7 8 16 1, .fex2 7 8 16 2, .flg2 7 8 16 3, .fsin 7 8 16 4,
      .fcos 7 8 16 0, .frnd 7 8 16 3], Safety.Issues (alone (th v)) 0 (th v) i) ∧ (th 0x80000000).reg 16 = 0x80000000 ∧
    Safety.isNan 0x7F800001 = true ∧ Safety.isNan 0x4B000000 = false ∧ 150 ≤ ((0x4B000000 : Word).extractLsb' 23 8).toNat ∧
    (0xBF000000 : Word).msb = true ∧ (0xBF000000 : Word).extractLsb' 23 8 ≠ 255 ∧
    Safety.finite fp32 0xBF000000 := by
  exact ⟨each_issue (by decide +kernel), by simp only [Safety.finite]; decide +kernel⟩

/-- A conversion to one register and one to four; the integers ±2^24, and pairs of finite elements and of infinities. -/
theorem test_meets_Conversions : let th := thread 0
    (∀ i ∈ [Instr.cvt 7 8 16 0x00, .cvtRn 7 8 16 0x20, .cvtRna 7 8 16 0x2A, .cvtRz 7 8 16 0x03, .cvtRp 7 8 16 0x13, .cvtRm 7 8 16 0x18],
      Safety.Issues (alone th) 0 th i) ∧
    (0x01000000#32).toInt = 2 ^ 24 ∧ (0xFF000000#32).toInt = -2 ^ 24 ∧
    (∀ i < 2, (0x3F80FF80#32).extractLsb' (16 * i + 7) 8 ≠ 255 ∨ (0x3F80FF80#32).extractLsb' (16 * i) 7 = 0) ∧
    (∀ i < 2, (0x3C007C00#32).extractLsb' (16 * i + 10) 5 ≠ 31 ∨ (0x3C007C00#32).extractLsb' (16 * i) 10 = 0) := by
  exact ⟨all_issue rfl rfl (by decide +kernel), by decide +kernel⟩

/-- Instructions of each layout are well formed and have words; a drive word followed by another byte decodes. -/
theorem test_meets_EncodingRoundTrips : (∀ i ∈ [Instr.addS32 7 8 16 24, .movl 7 8 5, .ldl 3 8 16 6 1 0xFFFFFFF0, .dmovl 9 1,
      .mma 1 2 3 4 1 2 1, .fsig 7 8], i.wellFormed = true ∧ encode i ≠ []) ∧
    decode [0#8, 0#8, 0#8, 0xFD#8, 0x55#8] = .ok (.dhalt, [0x55#8]) := by
  decide +kernel

/-- A speculation with its checkpoint (R132, R133). -/
def spec (kind : SpecKind) : Spec :=
  ⟨kind, 0, ⟨[4], [], 1, Vector.replicate 128 9, 5, Vector.replicate 4 3, 1, 2, 0x20000, 0x300000⟩, 0x20040, [], []⟩

/-- A workgroup with an empty share has nothing on its way out. -/
theorem undrained_one {s : State} {g : Wg} (h : s.wgs = [g]) (e : g.hay = []) : Safety.undrained s := by
  intro x hx y hy
  rw [h] at hx
  cases List.mem_singleton.1 hx
  rw [e] at hy
  cases hy

theorem noStores_alone (th : Thread) : Safety.noStores (alone th) 0 0 := by
  intro g h; cases h; intro e he; cases he

/-- A thread and a drive stream before their words, and a thread in speculation with no conflict and no request. -/
theorem test_meets_StepRunsWord :
    (let s := State.reset.withFetchWord 32 0xE00040C5; let t := Safety.turned s (.thread 0)
     ∃ th, s.turn = some (.stream (.thread 0)) ∧ t.threads[0]? = some th ∧ th.doom = none ∧ th.spec = none ∧
       th.pc.idx ≠ 0 ∧ th.recheck = false ∧ t.threadHold th = none ∧ Safety.NextIs th.pc th.clause (.addS32 7 1 1 69)) ∧
    (let s := State.reset.withFetchWord 32 0xFD000000; let t := Safety.turned s (.drive 0)
     ∃ d, s.turn = some (.stream (.drive 0)) ∧ t.drive? 0 = some d ∧ d.pc.idx ≠ 0 ∧ d.recheck = false ∧
       t.driveHold 0 d = none ∧ Safety.NextIs d.pc d.clause .dhalt) ∧
    (let th := { thread 0 with spec := some (spec .lone) }; let s := { alone th with turn := some (.stream (.thread 0)) }
     let t := Safety.turned s (.thread 0)
     t.threads[0]? = some th ∧ th.doom = none ∧ (th.conflict = false ∧ t.requested th.wg = false) ∧ th.pc.idx ≠ 0 ∧ th.recheck = false ∧
       t.threadHold th = none ∧ Safety.NextIs th.pc th.clause (.addS32 0 0 0 0)) := by
  exact ⟨⟨_, rfl, rfl, rfl, rfl, by decide, rfl, rfl, _, rfl, by decide +kernel, .inl ⟨by decide +kernel, by decide +kernel⟩⟩,
    ⟨_, rfl, rfl, by decide, rfl, rfl, _, rfl, by decide +kernel, .inl ⟨by decide +kernel, by decide +kernel⟩⟩,
    rfl, rfl, by decide +kernel, by decide, rfl, rfl, _, rfl, by decide +kernel, .inl ⟨by decide +kernel, by decide +kernel⟩⟩

/-- From a memory in its form a step answers a next state: here the one that chooses a turn. -/
theorem test_meets_StepKeepsMemoryForm : Safety.memoryOk (alone (thread 0)) ∧ ∃ t, step (alone (thread 0)) = .next t := by
  exact ⟨by unfold Safety.memoryOk; decide +kernel, _, rfl⟩

theorem test_meets_MemoryReadAfterWrite : Memory.wf (alone (thread 0)).mem = true := by decide +kernel

/-- A guard that is false; an odd pair and a register past the allotment; an awaited register; a word forbidden in speculation; a
thread word in the drive stream and a drive word in a thread's. -/
theorem test_meets_IssueRules :
    (Safety.Stands (alone (thread 0)) 0 (thread 0) (.addS32 0 8 16 24) ∧ (thread 0).pred (Instr.addS32 0 8 16 24).guard = false ∧
      Safety.threadWord (.addS32 0 8 16 24) = true ∧ Safety.collective (.addS32 0 8 16 24) = false) ∧
    ((Instr.addN64 7 9 8 8).wellFormed && (thread 0).allots (Instr.addN64 7 9 8 8).regs) = false ∧
    (let th := { thread 0 with regs := 32 }
     ((Instr.mov 7 32 8).wellFormed && th.allots (Instr.mov 7 32 8).regs) = false ∧ th.allots (Instr.mov 7 31 8).regs = true) ∧
    (let th := { thread 0 with loads := [⟨0, [(8#7, 1)], 0, false⟩] }
     Safety.Stands (alone th) 0 th (.mov 7 8 9) ∧ th.pred 7 = true ∧ th.awaits (Instr.mov 7 8 9).regs = true) ∧
    (let th := { thread 0 with spec := some (spec .lone) }
     Safety.Stands (alone th) 0 th (.evsig 7 16) ∧ th.awaits (Instr.evsig 7 16).regs = false ∧ (Instr.evsig 7 16).noSpec = true ∧
       th.spec.isSome = true) ∧
    ((driven drive).issuer = some (.drive 0) ∧ (driven drive).drive? 0 = some drive ∧ Safety.bothStreams (.addS32 7 8 16 24) = false) ∧
    Safety.driveWord .dhalt = true := by
  exact ⟨⟨⟨rfl, rfl, by decide +kernel, by decide +kernel⟩, by decide +kernel, by decide +kernel, by decide +kernel⟩, by decide +kernel,
    by decide +kernel, ⟨⟨rfl, rfl, by decide +kernel, by decide +kernel⟩, by decide +kernel, by decide +kernel⟩,
    ⟨⟨rfl, rfl, by decide +kernel, by decide +kernel⟩, by decide +kernel, by decide +kernel, rfl⟩, ⟨rfl, rfl, by decide +kernel⟩,
    by decide +kernel⟩

/-- Targets that are good, misaligned and past 57 bits; depths 0, 1, 4,095 and 4,096; limits met and not met; a thread with nothing outstanding at its
`exit`; sixteen entries on core, and one of which none is. -/
theorem test_meets_ControlTransfers :
    (let th := fun v : BitVec 64 × BitVec 13 × List VAddr => { pair (thread 0) 8 v.1 with depth := v.2.1, stack := v.2.2 }
     ∀ v ∈ [(0x20000, 0, []), (0x20002, 0, []), (0x200000000000000, 0, []), (0x20000, 1, [8]), (0x20000, 4095, [8, 12]), (0x20000, 4096, [1])],
      ∀ i ∈ [Instr.br 7 0x1FFFFF, .brl 7 126 1, .jmp 7 8, .calli 7 8, .call 7 5, .ret 7, .nop 7, .wait 7 0 0 0 0, .wait 7 15 15 15 15,
        .lanesGet 7 9 3, .lanesSet 7 9 0, .lanesPresent 7 9 1], Safety.Issues (alone (th v)) 0 (th v) i) ∧
    (let th := { thread 0 with loads := [⟨0, [(8#7, 1)], 0, false⟩] }
     Safety.Issues (alone th) 0 th (.wait 7 0 15 15 15) ∧ ¬ th.loads.length ≤ (0#4).toNat) ∧
    ((0x20002 : BitVec 64).extractLsb' 0 2 ≠ 0 ∧ (0x200000000000000 : BitVec 64).extractLsb' 57 7 ≠ 0) ∧
    (let s := alone (thread 0)
     s.wgs[(thread 0).wg]? = some group ∧ (∀ l, (thread 0).park ≠ .drain l) ∧ Safety.noStores s 0 (thread 0).wg ∧ group.wadds = [] ∧
       s.recordsHeld group.core ≤ 1024 ∧ Safety.Issues s 0 (thread 0) (.exit 7)) ∧
    (let th := { thread 0 with stack := List.replicate 15 4 ++ [8], depth := 16 }; let th' := { thread 0 with depth := 1 }
     Safety.Issues (alone th) 0 th (.call 7 5) ∧ Safety.memoryOk (alone th) ∧ Safety.Issues (alone th') 0 th' (.ret 7) ∧
       (0x300000 : BitVec 64).extractLsb' 57 7 = 0 ∧ th.csb.setWidth 64 + BitVec.ofNat 64 (8 * 0) = 0x300000 ∧
       (alone th).place 0 0x300000 = .page 0x300000 7 ∧ (alone th').place 0 0x300000 = .page 0x300000 7 ∧
       (alone th).permits 0 (.page 0x300000 7) .write = true ∧ (alone th').permits 0 (.page 0x300000 7) .read = true ∧
       (∀ s : State, s.physOf (.page 0x300000 7) = some 0x300000) ∧ ∀ j < 8, (alone th).litByte (0x300000 + j) = true) := by
  exact ⟨each_issue (by decide +kernel), ⟨issues_of rfl rfl (by decide +kernel), by decide⟩, by decide +kernel,
    ⟨rfl, nofun, noStores_alone _, rfl, by decide +kernel, issues_of rfl rfl (by decide +kernel)⟩,
    issues_of rfl rfl (by decide +kernel), by unfold Safety.memoryOk; decide +kernel, issues_of rfl rfl (by decide +kernel), by decide +kernel,
    by decide +kernel, by decide +kernel, by decide +kernel, by decide +kernel, by decide +kernel, fun _ => rfl, by decide +kernel⟩

/-- A register of joins with another thread parked, and one in which this thread is the last, or is not enrolled. -/
theorem test_meets_EnrolAndJoin :
    ∀ r ∈ [(⟨0, 0⟩ : Join), ⟨0, 1⟩, ⟨0, 3⟩, ⟨2, 3⟩],
      let s := machine [thread 0, { thread 1 with park := .join 0 }]
        { group with squads := [{ freshSquad with slot := some 0, joins := r :: List.replicate 7 ⟨0, 0⟩ }] }
      Safety.joinAt s 0 0 0 r ∧ (thread 0).park ≠ .join 0 ∧ ∀ i ∈ [Instr.enrol 7 0, .join 7 0], Safety.Issues s 0 (thread 0) i := by
  intro r hr
  exact ⟨⟨_, _, rfl, rfl, rfl⟩, by decide, all_issue rfl rfl (by decide +kernel)⟩

/-- The process attached, with the words of its debug context block (R376). -/
def debugged (ws : List Word) : State := { alone (thread 0) with
  processes := [⟨0x10000, 0, 0, none, some 0x50000, [0], 0⟩]
  cores := { core with debug := some ⟨0, 0x50000, ws, List.replicate 16 0, List.replicate 16 0, none, none, [], 0⟩ } ::
    List.replicate 63 Core.reset }

/-- A thread that runs, one in its handler with its resume point named and not named by s.tpc, one in a lone speculation; a workgroup
whose process has an attached debugger or none. -/
theorem test_meets_Traps :
    ((thread 0).spec = none ∧ (thread 0).handler = none ∧ ∀ i ∈ [Instr.trap 7 5, .brk 7 5, .tret 7], Safety.Issues (alone (thread 0)) 0 (thread 0) i) ∧
    (let th := { thread 0 with handler := some ⟨0x20000, 1⟩, tpc := 0x20004 }
     th.tpc = wordAddr ⟨0x20000, 1⟩ ∧ Safety.Issues (alone th) 0 th (.tret 7)) ∧
    (let th := { thread 0 with handler := some ⟨0x20000, 1⟩, tpc := 0x20100 }
     th.tpc ≠ wordAddr ⟨0x20000, 1⟩ ∧ Safety.Issues (alone th) 0 th (.tret 7)) ∧
    (let th := { thread 0 with spec := some (spec .lone) }
     (alone th).threads[0]? = some th ∧ (spec .lone).kind = .lone) ∧
    (alone (thread 0)).handled 0 = false ∧
    (debugged [1]).handled 0 = true ∧
    (let th := { thread 0 with handler := some ⟨0x20000, 1⟩ }; let s := alone th
     s.threads[0]? = some th ∧ th.spec = none ∧ th.handler.isSome = true ∧
       ∃ l, s.links[s.coreOf th.wg / 4]? = some l ∧ l.up ≠ 0 ∧ l.upHeld = []) := by
  exact ⟨⟨rfl, rfl, all_issue rfl rfl (by decide +kernel)⟩, ⟨by decide +kernel, issues_of rfl rfl (by decide +kernel)⟩,
    ⟨by decide +kernel, issues_of rfl rfl (by decide +kernel)⟩, ⟨rfl, rfl⟩, by decide +kernel, by decide +kernel,
    rfl, rfl, rfl, _, rfl, by decide, rfl⟩

/-- Values that each writable register takes and refuses; numbers that are read-only and unassigned. -/
theorem test_meets_SpecialRegisters :
    (let th := fun v : Word => regs (thread 0) [(9, v)]
     ∀ v ∈ [4, 5, 0x1FF, 0x200, 0x1FFFFFF, 0x2000000, 8, 2], ∀ i ∈ [Instr.srd 7 9 0x021, .srd 7 9 0x017, .swr 7 9 0x008, .swr 7 9 0x009,
      .swr 7 9 0x012, .swr 7 9 0x013, .swr 7 9 0x019, .swr 7 9 0x01A, .swr 7 9 0x000, .swr 7 9 0xFFF],
      Safety.Issues (alone (th v)) 0 (th v) i) ∧
    ∀ l ∈ (thread 0).loads, l.flags = 0 := by
  exact ⟨each_issue (by decide +kernel), by intro l hl; cases hl⟩

/-- Outside speculation, alone and as the last of its squad to reach a `try.w`; in a lone speculation, with a conflict observed, with
a load sent before it began; a return that finds
nothing on core, to an entry below D - 16 and to one that the checkpoint lacks. -/
theorem test_meets_Speculation :
    (∀ i ∈ [Instr.tryL 7 5, .tryW 7 5, .tcommit 7, .tabort 7 0x41], Safety.Issues (alone (thread 0)) 0 (thread 0) i) ∧
    (∀ (i : Nat) (x : Thread), (alone (thread 0)).threads[i]? = some x → Safety.ofSquad x 0 0 → x.park ≠ .tryGroup false ∧
      x.park ≠ .tryGroup true ∧ (x.spec.map (·.kind)) ≠ some .squad) ∧
    (let s := machine [thread 0, { thread 1 with park := .tryGroup false }] group
     Safety.Issues s 0 (thread 0) (.tryW 7 5) ∧ ∀ (i : Nat) (x : Thread), s.threads[i]? = some x → Safety.ofSquad x 0 0 → x.spec = none ∧
       x.park ≠ .tryGroup true ∧ (x.park = .tryGroup false → x.pc = (thread 0).pc) ∧
       (x.exited = false → x.handler = none → Safety.ofSquad x 0 0 ∧ (i = 0 ∨ x.park = .tryGroup false))) ∧
    (let th := { thread 0 with spec := some (spec .lone), conflict := true }
     (∀ i ∈ [Instr.tryL 7 5, .tryW 7 5, .tcommit 7, .tabort 7 0x41], Safety.Issues (alone th) 0 th i) ∧
     (alone th).issuer = some (.thread 0) ∧ (alone th).threads[0]? = some th ∧ ∀ l ∈ th.loads, (spec .lone).since ≤ l.id) ∧
    (let sp := { spec .squad with since := 5 }
     let th := { thread 0 with spec := some sp, loads := [⟨4, [(5#7, 1), (6#7, 2)], 0, true⟩, ⟨7, [(5#7, 3)], 1, true⟩] }
     (alone th).threads[0]? = some th ∧ th.spec = some sp ∧
       (∀ l ∈ th.loads, l.id < sp.since → (5#7, 1) ∈ l.writes ∧ (l.writes.map (·.1)).Nodup ∧ l.flags = 0)) ∧
    (let th := fun D : BitVec 13 => { thread 0 with depth := 1, spec := some { spec .lone with check := { (spec .lone).check with depth := D } } }
     (∀ D ∈ [2, 17], Safety.Issues (alone (th D)) 0 (th D) (.ret 7)) ∧ 1 + 15 < (17#13).toNat ∧ (2#13).toNat ≤ 1 + 15 ∧
       1 + (spec .lone).check.stack.length + (spec .lone).check.refilled.length = (2#13).toNat ∧
       (0x300000 : BitVec 64).extractLsb' 57 7 = 0 ∧ (thread 0).csb.setWidth 64 + BitVec.ofNat 64 (8 * (1 - 1)) = 0x300000 ∧
       (alone (th 2)).place 0 0x300000 = .page 0x300000 7 ∧ (alone (th 2)).permits 0 (.page 0x300000 7) .read = true) := by
  refine ⟨all_issue rfl rfl (by decide +kernel), ?_, ⟨issues_of rfl rfl (by decide +kernel), ?_⟩,
    ⟨all_issue rfl rfl (by decide +kernel), rfl, rfl, nofun⟩, ⟨rfl, rfl, by decide +kernel⟩, ?_, by decide +kernel⟩
  rotate_left 2
  · intro D hD
    exact issues_of rfl rfl (List.all_eq_true.1 (show (([2, 17] : List (BitVec 13)).all fun D => mayIssue { thread 0 with
      depth := 1, spec := some { spec .lone with check := { (spec .lone).check with depth := D } } } (.ret 7)) = true by decide +kernel) D hD)
  · rintro (_ | i) x h -
    · cases h; decide +kernel
    · cases h
  · rintro (_ | _ | i) x h hq
    · cases h; exact ⟨rfl, nofun, fun _ => rfl, fun _ _ => ⟨hq, .inl rfl⟩⟩
    · cases h; exact ⟨rfl, by decide, fun _ => rfl, fun _ _ => ⟨hq, .inr rfl⟩⟩
    · cases h

/-- No range is locked, and no `wadd` is on its way. -/
def quiet (s : State) : Bool := s.cores.all (·.locks.isEmpty) && s.wgs.all (·.wadds.isEmpty)

theorem quiet_look {s : State} (h : quiet s = true) (w va w' va' n k : Nat) (kind : Kind) :
    (s.look w va).lockMet w' va' n kind = false ∧ (s.look w va).waddWaits w' k va' n = false := by
  simp only [quiet, Bool.and_eq_true, List.all_eq_true, List.isEmpty_iff] at h
  have H := looked_look s w va
  constructor
  · unfold State.lockMet State.locked
    cases e : (s.look w va).cores[(s.look w va).coreOf w']? with
    | none => rfl
    | some d =>
      obtain ⟨cs, hs, ts, ws, E, h1, -, -⟩ := H
      rw [E] at e
      have := congrArg (·[(s.look w va).coreOf w']?) h1
      rw [E] at this
      simp only [List.getElem?_map, e, Option.map_some] at this
      obtain ⟨c, hc, hd⟩ := Option.map_eq_some_iff.1 this.symm
      have : d.locks = [] := by rw [show d.locks = c.locks from (congrArg Core.locks hd).symm]; exact h.1 c (List.mem_of_getElem? hc)
      simp [this]
  · obtain ⟨cs, hs, ts, ws, E, -, -, -⟩ := H
    unfold State.waddWaits State.waddBefore
    rw [E]
    simp only
    cases e : s.wgs[w']? with
    | none => rfl
    | some g => simp [h.2 g (List.mem_of_getElem? e)]

/-- The fields of a clear access in a quiet state, decided together. -/
theorem clear_of {s : State} {k : Nat} {th : Thread} {ea : BitVec 64} {n : Nat} {kind : Kind} {p : Place} {phys : Nat}
    (h : (ea.extractLsb' 57 7 = 0 ∧ ea.toNat % n = 0 ∧ s.place th.wg ea.toNat = p ∧ s.permits th.wg p kind = true ∧
      s.physOf p = some phys ∧ s.dead p = false ∧ s.watch th.wg ea.toNat n (if kind = .read then 0 else 1) = none ∧ quiet s = true)) :
    Safety.Clear s k th ea n kind p phys :=
  have q := quiet_look h.2.2.2.2.2.2.2 th.wg ea.toNat th.wg ea.toNat n k kind
  ⟨h.1, h.2.1, h.2.2.1, h.2.2.2.1, h.2.2.2.2.1, h.2.2.2.2.2.1, q.1, .inr h.2.2.2.2.2.2.1, .inr q.2⟩

/-- A thread whose pair g8 names the own scratchpad, and one whose pair names a page; offset 3 from each. -/
def toPool : Thread := pair (thread 0) 8 0x2000000000
def toPage : Thread := pair (thread 0) 8 0x40000
def toAbsent : Thread := pair (thread 0) 8 0x40000000

/-- The page at 2^30 is mapped and not resident (R340). -/
def absent : State := { alone toAbsent with mem := memPut (alone toAbsent).mem 0x12008 (toBytes 8 0xBB) }

/-- The own scratchpad, a page and a page not resident; a lone speculation whose read set has room and one that is full. -/
theorem test_meets_Loads :
    (∀ i ∈ [Instr.ldS8 7 16 8 3, .ldW 7 16 8 3, .ldQ 7 16 8 3, .ldAdvD 7 16 8 3, .ldl 7 16 8 6 0 48],
      Safety.Issues (alone toPool) 0 toPool i ∧ Safety.Issues (alone toPage) 0 toPage i ∧ Safety.Issues absent 0 toAbsent i) ∧
    Safety.Clear (alone toPool) 0 toPool 0x2000000030 16 .read (.pool 0 48) (2 ^ 50 + 48) ∧
    Safety.Clear (alone toPage) 0 toPage 0x40030 16 .read (.page 0x40030 7) 0x40030 ∧
    (absent.place 0 0x40000030 = .absent 2 7 ∧ absent.permits 0 (.absent 2 7) .read = true ∧ absent.watch 0 0x40000030 16 0 = none ∧
      (absent.look 0 0x40000030).lockMet 0 0x40000030 16 .read = false ∧ (absent.look 0 0x40000030).waddWaits 0 0 0x40000030 16 = false) ∧
    Safety.noStores (alone toPage) 0 0 ∧ toPool.loads.length < 63 ∧
    (let th := fun n : Nat => { toPool with spec := some { spec .lone with reads := (List.range n).map fun i => 0x40000 + 32 * i } }
     (∀ n ∈ [31, 32], ∀ i ∈ [Instr.ldAdvW 7 16 8 3], Safety.Issues (alone (th n)) 0 (th n) i) ∧
     Safety.Clear (alone (th 31)) 0 (th 31) 0x200000000C 4 .read (.pool 0 12) (2 ^ 50 + 12) ∧
     Safety.Clear (alone (th 32)) 0 (th 32) 0x200000000C 4 .read (.pool 0 12) (2 ^ 50 + 12)) := by
  refine ⟨fun i hi => ⟨?_, ?_, ?_⟩, clear_of (by decide +kernel), clear_of (by decide +kernel),
    ⟨by decide +kernel, by decide +kernel, by decide +kernel, quiet_look (by decide +kernel) _ _ _ _ _ 0 _⟩, noStores_alone _,
    by decide +kernel, each_issue (by decide +kernel), clear_of (by decide +kernel), clear_of (by decide +kernel)⟩
  · exact all_issue rfl rfl (by decide +kernel) i hi
  · exact all_issue rfl rfl (by decide +kernel) i hi
  · exact all_issue rfl rfl (by decide +kernel) i hi

/-- A store in the Hayrick (R284). -/
def entry (k : Nat) (spec committed : Bool) : Entry :=
  { id := 50, thread := k, tid := BitVec.ofNat 10 k, va := 0x40000, bytes := [1, 2, 3, 4], spec := spec, committed := committed,
    objs := [.default], spilled := false, held := false, parked := false, target := none, gone := false, acq := 0, related := [], made := 0 }

/-- Stores in lit scratchpad and to a page with room; a load outstanding; a committed entry at the head of its share. -/
theorem test_meets_Stores :
    Safety.memoryOk (alone toPool) ∧ toPool.spec = none ∧
    (∀ i ∈ [Instr.stB8 7 16 8 3, .stW 7 16 8 3, .stQ 7 16 8 3, .stl 7 16 8 6 48], Safety.Issues (alone toPool) 0 toPool i) ∧
    Safety.Clear (alone toPool) 0 toPool 0x2000000030 16 .write (.pool 0 48) (2 ^ 50 + 48) ∧
    (∀ j < 16, (alone toPool).litByte (2 ^ 50 + 48 + j) = true) ∧
    Safety.Clear (alone toPage) 0 toPage 0x40030 16 .write (.page 0x40030 7) 0x40030 ∧
    group.full = false ∧ (alone toPage).storesOf 0 0 < 2 ^ 20 - 1 ∧
    (let th := { thread 0 with loads := [⟨4, [(5#7, 1), (6#7, 2)], 3, true⟩] }
     (alone th).threads[0]? = some th ∧ th.loads[0]? = some ⟨4, [(5#7, 1), (6#7, 2)], 3, true⟩ ∧ th.spec = none ∧
       ([5#7, 6] : List (BitVec 7)).Nodup) ∧
    (let g := { group with hay := [entry 0 false true] }; let s := machine [thread 0] g
     Safety.memoryOk s ∧ s.wgs[0]? = some g ∧ g.nextDrain = some (entry 0 false true) ∧ s.place 0 0x40000 = .page 0x40000 7 ∧
       s.locked g.core (s.byteKey 0 0x40000) (s.byteKey 0 0x40000 + 4) true = false ∧ g.records = [] ∧ g.due = [] ∧ g.wadds = [] ∧ g.saved = false ∧
       (entry 0 false true).parked = false ∧ (entry 0 false true).held = false ∧ (entry 0 false true).gone = false ∧
       (entry 0 false true).target = none ∧ ∀ j < 4, s.litByte (0x40000 + j) = true) := by
  refine ⟨by unfold Safety.memoryOk; decide +kernel, rfl, all_issue rfl rfl (by decide +kernel), clear_of (by decide +kernel),
    by decide +kernel, clear_of (by decide +kernel), by decide +kernel, by decide +kernel, ⟨rfl, rfl, rfl, by decide +kernel⟩, ?_⟩
  exact ⟨by unfold Safety.memoryOk; decide +kernel, rfl, by decide +kernel, by decide +kernel, by decide +kernel, rfl, rfl,
    rfl, by decide +kernel, rfl, rfl, rfl, rfl, by decide +kernel⟩

/-- A range lock on part of a range of the workgroup (R269). -/
def lockedAt (p : LockPart) (s : State) : State := { s with
  cores := { core with locks := [⟨7, true, [p]⟩] } :: List.replicate 63 Core.reset }

/-- A thread's access to the first bytes of a locked range of mapped addresses meets the lock, wherever they lie. -/
theorem lockedAt_meets (s : State) (w va hi n : Nat) (h : chunks va hi = [(va, hi)]) (l : va < hi) (p : 0 < n)
    (e : s.coreOf w = 0) : let seen := (lockedAt (.mapped w va hi) s).look w va
    seen.coreOf w = 0 ∧ ∃ (c : Core) (l : Lock) (run : Nat × Nat), seen.cores[0]? = some c ∧ l ∈ c.locks ∧ l.dst = true ∧
      run ∈ seen.lockRuns 0 l ∧ run.1 < seen.byteKey w va + n ∧ seen.byteKey w va < run.2 := by
  have H := looked_look (lockedAt (.mapped w va hi) s) w va
  obtain ⟨d, h1, h2⟩ := looked_core H (i := 0) rfl
  refine ⟨?_, d, ⟨7, true, [.mapped w va hi]⟩, _, h1, by rw [h2]; exact List.mem_singleton.2 rfl, rfl,
    by simp only [State.lockRuns, State.partRuns, State.keyRange, namedRuns, h, List.flatMap_cons, List.flatMap_nil, List.map_cons,
      List.map_nil, List.append_nil, List.mem_singleton]; rfl, by simp only; omega, by simp only; omega⟩
  obtain ⟨_, _, _, _, E, -⟩ := H
  simp only [E]; exact e

/-- An address past 57 bits, a misaligned one, one without a mapping, one under a range lock: of a page that is resident, of one that is
not, of a pool. -/
theorem test_meets_AccessTraps :
    (let th := fun a : BitVec 64 => pair (thread 0) 8 a
     (∀ a ∈ [0x200000000000000, 0x40002, 0x50000000, 0x40000], ∀ i ∈ [Instr.ldW 7 16 8 0, .ldQ 7 16 8 0, .ldZ16 7 16 8 0, .stW 7 16 8 0,
      .stQ 7 16 8 0, .stB16 7 16 8 0, .atomAdd 7 16 8 20], Safety.Issues (alone (th a)) 0 (th a) i) ∧
     (0x200000000000000 : BitVec 64).extractLsb' 57 7 ≠ 0 ∧ (0x40002 : BitVec 64).toNat % 4 ≠ 0 ∧
     (alone (th 0x50000000)).permits 0 ((alone (th 0x50000000)).place 0 0x50000000) .read = false) ∧
    (∀ i ∈ [Instr.ldW 7 16 8 0, .stQ 7 16 8 0, .atomAdd 7 16 8 20],
      Safety.Issues (lockedAt (.mapped 0 0x40000 0x40008) (alone toPage)) 0 toPage i ∧
      Safety.Issues (lockedAt (.mapped 0 0x40000000 0x40000008) absent) 0 toAbsent i ∧ Safety.Issues (lockedAt (.pool 0 0 8) (alone toPool)) 0 toPool i) ∧
    (let s := lockedAt (.mapped 0 0x40000 0x40008) (alone toPage)
     s.place 0 0x40000 = .page 0x40000 7 ∧ s.permits 0 (.page 0x40000 7) .atomic = true ∧ (s.look 0 0x40000).coreOf 0 = 0 ∧
     ∃ (c : Core) (l : Lock) (run : Nat × Nat), (s.look 0 0x40000).cores[0]? = some c ∧ l ∈ c.locks ∧ l.dst = true ∧ run ∈ (s.look 0 0x40000).lockRuns 0 l ∧
       run.1 < (s.look 0 0x40000).byteKey 0 0x40000 + 4 ∧ (s.look 0 0x40000).byteKey 0 0x40000 < run.2) ∧
    (let s := lockedAt (.mapped 0 0x40000000 0x40000008) absent
     s.place 0 0x40000000 = .absent 2 7 ∧ s.permits 0 (.absent 2 7) .atomic = true ∧ (s.look 0 0x40000000).coreOf 0 = 0 ∧
     ∃ (c : Core) (l : Lock) (run : Nat × Nat), (s.look 0 0x40000000).cores[0]? = some c ∧ l ∈ c.locks ∧ l.dst = true ∧
       run ∈ (s.look 0 0x40000000).lockRuns 0 l ∧
       run.1 < (s.look 0 0x40000000).byteKey 0 0x40000000 + 4 ∧ (s.look 0 0x40000000).byteKey 0 0x40000000 < run.2) ∧
    (let s := lockedAt (.pool 0 0 8) (alone toPool)
     s.place 0 0x2000000000 = .pool 0 0 ∧ s.permits 0 (.pool 0 0) .atomic = true ∧ (s.look 0 0x2000000000).lockMet 0 0x2000000000 4 .write = true) ∧
    (thread 0).loads.length < 63 ∧ (thread 0).spec = none := by
  refine ⟨⟨each_issue (by decide +kernel), by decide +kernel⟩, fun i hi => ⟨all_issue rfl rfl (by decide +kernel) i hi,
    all_issue rfl rfl (by decide +kernel) i hi, all_issue rfl rfl (by decide +kernel) i hi⟩, ?_, ?_, by decide +kernel, by decide +kernel, rfl⟩
  · exact ⟨by decide +kernel, by decide +kernel, lockedAt_meets (alone toPage) 0 0x40000 0x40008 4 (by decide +kernel) (by decide) (by decide) rfl⟩
  · exact ⟨by decide +kernel, by decide +kernel, lockedAt_meets absent 0 0x40000000 0x40000008 4 (by decide +kernel) (by decide) (by decide) rfl⟩

/-- A shape record of two dimensions of 3 and 5 elements of a size, 2^k bytes each, with strides 8 and 16 (R144). -/
def shape (k base : Nat) : List Word :=
  [BitVec.ofNat 32 (2 + 16 * k), 0xAABBCCDD, BitVec.ofNat 32 base, BitVec.ofNat 32 (base / 2 ^ 32), 3, 5, 0, 0, 0, 0, 0, 8, 16] ++
    List.replicate 19 0

def shaped (k : Nat) (th : Thread) : State := machine [th] { group with shapes := List.replicate 8 (shape k 0x40000) }

/-- `shld` in the own scratchpad and on a page; coordinates (2, 4) inside, (3, 0) and (0, -1) outside; a data register that is odd for
8-byte elements. -/
theorem test_meets_SharedAndTensorWords :
    (∀ i ∈ [Instr.shld 7 16 8 3], Safety.Issues (alone toPool) 0 toPool i) ∧
    Safety.Clear (alone toPool) 0 toPool 0x200000000C 4 .read (.pool 0 12) (2 ^ 50 + 12) ∧
    (∀ off, (alone toPage).place 0 0x4000C ≠ .pool 0 off) ∧
    (let th := fun v : Word × Word => regs (thread 0) [(20, v.1), (21, v.2)]
     (∀ v ∈ [(2, 4), (3, 0), (0, 0xFFFFFFFF)], ∀ i ∈ [Instr.ldt 7 16 20 1, .stt 7 16 20 1],
       Safety.Issues (alone (th v)) 0 (th v) i) ∧
     (th (2, 4)).allots [20, 21, 16, 17] = true ∧ (th (2, 4)).awaits [20, 21, 16, 17] = false) ∧
    ((shaped 3 (thread 0)).shape 0 1 0).extractLsb' 0 3 = 2 ∧ ((shaped 3 (thread 0)).shape 0 1 0).extractLsb' 4 2 = 3 ∧
    ((shaped 3 (thread 0)).shape 0 1 4, (shaped 3 (thread 0)).shape 0 1 5) = (3, 5) := by
  refine ⟨all_issue rfl rfl (by decide +kernel), clear_of (by decide +kernel), ?_, ⟨each_issue (by decide +kernel), by decide +kernel⟩,
    by decide +kernel⟩
  have h : (alone toPage).place 0 0x4000C = .page 0x4000C 7 := by decide +kernel
  intro off; rw [h]; exact fun e => by cases e

/-- A `wadd` on its way (R148). -/
def wadd : Wadd := ⟨9, 0, 0x40010, 7, 0, List.replicate 4 .default, false, none, false, [], 0⟩

/-- Atomics in the scratchpad and on a page, `wadd` and `wld` in the scratchpad, on a page and at a region header, and a `wadd` with
none of its thread's before it. -/
theorem test_meets_AtomicsAndWideCells :
    (∀ i ∈ [Instr.atomAdd 7 16 8 20, .atomMin 7 16 8 20, .atomMax 7 16 8 20, .atomAnd 7 16 8 20, .atomOr 7 16 8 20, .atomXor 7 16 8 20,
      .atomExch 7 16 8 20, .atomCas 7 16 8 20], Safety.Issues (alone toPool) 0 toPool i ∧ Safety.Issues (alone toPage) 0 toPage i) ∧
    Safety.Clear (alone toPool) 0 toPool 0x2000000000 4 .atomic (.pool 0 0) (2 ^ 50) ∧
    Safety.Clear (alone toPage) 0 toPage 0x40000 4 .atomic (.page 0x40000 7) 0x40000 ∧
    (∀ j < 4, (alone toPool).litByte (2 ^ 50 + j) = true) ∧
    (let pool := pair (thread 0) 8 0x2000000010; let page := pair (thread 0) 8 0x40010; let header := pair (thread 0) 8 0x50000
     (∀ a ∈ [0x2000000010, 0x40010, 0x50000], ∀ i ∈ [Instr.wadd 7 8 20, .wld 7 16 8],
       Safety.Issues (alone (pair (thread 0) 8 a)) 0 (pair (thread 0) 8 a) i) ∧
     Safety.Clear (alone pool) 0 pool 0x2000000010 16 .write (.pool 0 16) (2 ^ 50 + 16) ∧
     Safety.Clear (alone page) 0 page 0x40010 16 .write (.page 0x40010 7) 0x40010 ∧
     Safety.Clear (alone pool) 0 pool 0x2000000010 16 .read (.pool 0 16) (2 ^ 50 + 16) ∧
     (header.reg 9 ++ header.reg 8).extractLsb' 57 7 = 0 ∧ (header.reg 9 ++ header.reg 8).toNat % 65536 = 0 ∧
     (∀ j < 16, (alone pool).litByte (2 ^ 50 + 16 + j) = true) ∧ (alone pool).place 0 0x2000000000 = .pool 0 0 ∧
     (pool.rm.extractLsb' 0 3).toNat ≤ 4 ∧ (alone pool).storesOf 0 0 < 2 ^ 20 - 1 ∧ wadd.mode.toNat ≤ 4) ∧
    (let g := { group with wadds := [{ wadd with id := 10, va := 0x40020 }, wadd] }; let s := machine [thread 0] g
     s.wgs[0]? = some g ∧ g.wadds[1]? = some wadd ∧ wadd.parked = false ∧ wadd.gone = false ∧ wadd.target = none ∧ g.saved = false ∧
       (∀ y ∈ g.wadds, y.thread = wadd.thread → wadd.id ≤ y.id) ∧
       s.place 0 0x40010 = .page 0x40010 7 ∧ g.due = [] ∧ ∀ j < 16, s.litByte (0x40010 + j) = true) := by
  refine ⟨fun i hi => ⟨all_issue rfl rfl (by decide +kernel) i hi, all_issue rfl rfl (by decide +kernel) i hi⟩, clear_of (by decide +kernel),
    clear_of (by decide +kernel), by decide +kernel, ⟨each_issue (by decide +kernel), clear_of (by decide +kernel),
    clear_of (by decide +kernel), clear_of (by decide +kernel), by decide +kernel⟩, rfl, rfl, rfl, rfl, rfl, rfl, by decide +kernel, by decide +kernel, rfl, by decide +kernel⟩

/-- A thread with nothing of its own outstanding; objects of each kind; a descriptor and a pair for `bind`; a page and the own
scratchpad for the requests. -/
theorem test_meets_OrderingAndResidencyWords :
    let th := regs toPage [(12, 0x121), (13, 0), (16, 0x100)]
    (∀ i ∈ [Instr.rel 7 0 9 0, .rel 7 3 2 1, .rel 7 0 5 2, .rel 7 8 9 3, .acq 7 8 0 3, .fence 7 0, .bind 7 12 8 16, .unbind 7 12, .pgreq 7 8 0,
      .pgprobe 7 20 8 63], Safety.Issues (alone th) 0 th i) ∧
    ((th.reg 9).extractLsb' 25 7 = 0 ∧ (th.reg 8).extractLsb' 0 2 = 0 ∧ (alone th).permits 0 ((alone th).place 0 0x40000) .read = true) ∧
    (∀ l, th.park ≠ .drain l) ∧ Safety.noStores (alone th) 0 0 ∧ (∀ x ∈ group.wadds, x.thread ≠ 0) ∧
    (∀ c ∈ (alone th).copies, c.agent ≠ .thread 0) ∧ (alone th).recordsHeld group.core ≤ 1024 ∧
    (∀ v ∈ (alone th).wgs, ∀ e ∈ v.hay, e.committed = false) ∧
    (let x : Binding := ⟨th.reg 12, th.reg 15 ++ th.reg 14, th.reg 9 ++ th.reg 8, th.reg 16⟩
     descBad (th.reg 12) (th.reg 13) (th.reg 15 ++ th.reg 14) = false ∧ x.base.toNat % 4 = 0 ∧ x.len ≠ 0 ∧ x.len.toNat % 4 = 0 ∧
       x ∉ group.bindings ∧ (∀ y ∈ group.bindings, (alone th).bindOverlap 0 x y = false) ∧ group.bindings.length < 16) ∧
    (alone th).place 0 0x40000 = .page 0x40000 7 ∧ (alone th).permits 0 (.page 0x40000 7) .read = true := by
  refine ⟨all_issue rfl rfl (by decide +kernel), by decide +kernel, fun l h => (by cases h), noStores_alone _, fun x hx => (by cases hx),
    fun c hc => (by cases hc), by decide +kernel, by decide +kernel, by decide +kernel, by decide +kernel, by decide +kernel⟩

/-- A thread of a mask of two, positions 0 and 2; the thread with index 1 stands at position 2. -/
def member (tid : Nat) (park : Park) : Thread := { thread tid with m := Vector.replicate 4 5, park := park }

/-- The occurrence of a collective word with the arrivals given. -/
def gathering (l : List Arrival) : Wg :=
  { group with squads := [{ freshSquad with slot := some 0, gathers := if l = [] then [] else [⟨⟨0x20000, 1⟩, .nop 7, 5, l, 0, false⟩] }] }

/-- Outside its mask; of another mask than the occurrence; with a member still to arrive; with a guard that is false. -/
theorem test_meets_CollectiveArrival :
    (let th := { thread 1 with m := Vector.replicate 4 5 }; let s := machine [th] group
     (∀ i ∈ [Instr.shflIdx 7 0 8 16 24, .vote 7 8 16 0 3, .matchLanes 7 8 16 0 3, .gscan 7 8 16 0 5], Safety.Issues s 0 th i) ∧
     s.gatherAt 0 0 th.pc = none ∧ (th.m[0]).getLsbD th.pos = false) ∧
    (let th := { thread 1 with m := Vector.replicate 4 7 }; let s := machine [th] (gathering [⟨0, true, [3]⟩])
     s.gatherAt 0 0 th.pc = some ⟨⟨0x20000, 1⟩, .nop 7, 5, [⟨0, true, [3]⟩], 0, false⟩ ∧ th.m[0] ≠ 5 ∧ th.pos ≠ 0) ∧
    (let th := member 0 .none; let s := machine [th, member 2 .none] group
     Safety.occurs s th 5 [] ∧ (5#32).getLsbD th.pos = true ∧ (5#32).getLsbD (member 2 .none).pos = true ∧
     (member 2 .none).pos ≠ th.pos ∧ Safety.ofSquad (member 2 .none) 0 0 ∧
     Safety.Stands s 0 th (.vote 0 8 16 0 3) ∧ th.pred 0 = false) := by
  refine ⟨⟨all_issue rfl rfl (by decide +kernel), by decide +kernel, by decide +kernel⟩, ⟨rfl, by decide +kernel, by decide +kernel⟩, ?_⟩
  exact ⟨⟨⟨_, _, rfl, rfl⟩, .inl ⟨by decide +kernel, rfl⟩, fun a ha => by cases ha⟩, by decide +kernel, by decide +kernel,
    by decide +kernel, ⟨rfl, by decide +kernel⟩, ⟨rfl, rfl, by decide +kernel, by decide +kernel⟩, by decide +kernel⟩

theorem gathering_completes :
    Safety.Completes (machine [member 0 .none, member 2 .collective] (gathering [⟨2, true, [3, 4]⟩])) 0 (member 0 .none) 5
      [⟨2, true, [3, 4]⟩] where
  occurs := ⟨⟨_, _, rfl, rfl⟩, .inr ⟨_, rfl, rfl, rfl, rfl, rfl⟩, by decide +kernel⟩
  own := by decide +kernel
  once := by decide +kernel
  known := by
    intro a ha
    refine ⟨1, _, rfl, ⟨rfl, by decide +kernel⟩, ?_⟩
    rw [List.mem_singleton.1 ha]; decide +kernel
  apart := by
    intro i j x y hx hy _ _ e
    match i, j with
    | 0, 0 => rfl
    | 1, 1 => rfl
    | 0, 1 => cases hx; cases hy; exact absurd e (by decide +kernel)
    | 1, 0 => cases hx; cases hy; exact absurd e (by decide +kernel)
    | _ + 2, _ => cases hx
    | _, _ + 2 => cases hy
  all := by
    intro i x hx _ _ _ _ ne
    match i with
    | 0 => exact absurd rfl ne
    | 1 => cases hx; exact ⟨_, List.mem_singleton.2 rfl, by decide +kernel⟩
    | _ + 2 => cases hx

/-- The last of two members arrives. -/
theorem test_meets_LaneOperations :
    let th := member 0 .none; let s := machine [th, member 2 .collective] (gathering [⟨2, true, [3, 4]⟩])
    Safety.Completes s 0 th 5 [⟨2, true, [3, 4]⟩] ∧ th.m[0] = 5 ∧
    ∀ i ∈ [Instr.shflIdx 7 0 8 16 24, .shflUp 7 8 16 0 2, .shflDown 7 8 16 0 2, .shflXor 7 8 16 0 2, .vote 7 8 16 0 4,
      .matchLanes 7 8 16 0 2, .gred 7 8 16 0 8, .gscan 7 8 16 0 5], Safety.Issues s 0 th i := by
  exact ⟨gathering_completes, by decide +kernel, all_issue rfl rfl (by decide +kernel)⟩

/-- A row that is misaligned, one outside the own scratchpad, one in it. -/
theorem test_meets_Fragments :
    (let th := fun a : BitVec 64 => pair (thread 0) 8 a
     ∀ a ∈ [0x2000000008, 0x40000, 0x2000000010], ∀ i ∈ [Instr.ldfragT8 7 20 8 0, .ldfragT16 7 20 8 0],
       Safety.Issues (alone (th a)) 0 (th a) i) ∧
    (alone (thread 0)).place 0 0x40000 = .page 0x40000 7 ∧ (alone (thread 0)).gatherAt 0 0 (thread 0).pc = none ∧
    (let th := pair (thread 0) 8 0x2000000010
     Safety.Clear (alone th) 0 th 0x2000000010 16 .read (.pool 0 16) (2 ^ 50 + 16) ∧
     (Safety.Completes (alone th) 0 th 0xFFFFFFFF [])) := by
  refine ⟨each_issue (by decide +kernel), by decide +kernel, by decide +kernel, clear_of (by decide +kernel), ?_⟩
  exact {
    occurs := ⟨⟨_, _, rfl, rfl⟩, .inl ⟨by decide +kernel, rfl⟩, fun a ha => by cases ha⟩
    own := by decide +kernel
    once := List.nodup_nil
    known := fun a ha => by cases ha
    apart := fun i j x y hx hy _ _ _ => by
      match i, j with
      | 0, 0 => rfl
      | _ + 1, _ => cases hx
      | _, _ + 1 => cases hy
    all := fun i x hx _ _ _ _ ne => by
      match i with
      | 0 => exact absurd rfl ne
      | _ + 1 => cases hx }

/-! ## The drive stream and the engine -/

/-- A drive stream with some registers set and words queued. -/
def dregs (l : List (BitVec 5 × Word)) : Vector Word 32 := l.foldl (fun v x => v.set x.1.toNat x.2 x.1.isLt) (Vector.replicate 32 0)

def op (i : Instr) (l : List (BitVec 5 × Word)) : Op :=
  { id := 9, word := i, addr := 0x20004, dregs := dregs l, mode := 0, iter := 0, running := false, parked := false, lost := false,
    dark := false, correction := none, flags := 0, settled := none, origin := ⟨0, [], []⟩ }

/-- A tile of integers, and a provisional one under tag 3. -/
def tile (r c : Nat) (f : Nat → Int) : Tile :=
  ⟨r, c, 0, (List.range (r * c)).map fun i => ⟨BitVec.ofInt 96 (f i), false⟩, .plain, none, none⟩

def posted : Tile := { tile 2 2 (fun _ => 0) with state := .provisional, tag := some 3, shadow := some (List.replicate 4 ⟨0, false⟩) }

/-- The drive stream with a tile in handle 5 that is posted under tag 3. -/
def postedGroup (d : Drive) : Wg :=
  { group with drive := some d, tiles := (List.replicate 16 none).set 5 (some posted), lineage := (List.replicate 32 none).set 3 (some ⟨5⟩) }

/-- Status and mode values that are taken and refused; a register awaited; a counter at 0, 1 and 2; three and four iterations open; a
stream that may end and one whose tile is provisional; limits met and not met. -/
theorem test_meets_DriveWords :
    (∀ i ∈ [Instr.dmov 8 16, .dmovImm 8 0x200, .dmovl 8 5, .dadd 8 16 24, .daddSub 8 16 24, .daddImm 8 16 16, .dmul 8 16 24, .daddD 8 16 24,
      .dcmp 8 16 24 9, .dmovRdstat 8, .dmovRdrm 8, .dmovRdcnt 8, .dmovRdwg 8, .dmovRdclk 8, .dmovRdclkh 8, .dmovWrstat 16, .dmovWrrm 16,
      .dbr 16 3, .dloop 16 3, .dnext 8, .dhalt, .dsync 15 0], Safety.Drives (driven drive) 0 drive i) ∧
    (driven drive).wgs[0]? = some { group with drive := some drive } ∧
    (0xF97#32 &&& 0xFFFFF068 = 0 ∧ 0x8#32 &&& 0xFFFFF068 ≠ 0 ∧ (4#32).toNat ≤ 4) ∧
    (let d := { drive with ops := [op (.tsettle 1 16) []] }
     Safety.awaited d 16 ∧ Safety.Drives (driven d) 0 d (.dmov 8 16)) ∧
    (∀ r, ¬ Safety.awaited drive r) ∧
    (let open_ := fun n : Nat => ((((List.range n).map fun k => { op (.tfree 1) [] with iter := BitVec.ofNat 32 k }).map (·.iter)).dedup).length
     open_ 3 ≤ 3 ∧ 3 < open_ 4) ∧
    (∀ x, some x ∉ group.lineage) ∧
    (let g := postedGroup drive
     g.lineage[3]? = some (some ⟨5⟩) ∧ g.tiles[5]? = some (some posted) ∧ posted.state = .provisional ∧ drive.ops = []) := by
  refine ⟨drives_of rfl rfl (by decide +kernel), rfl, by decide +kernel, ⟨⟨_, List.mem_singleton.2 rfl, 1, rfl⟩, rfl, rfl, by decide +kernel⟩,
    fun r ⟨o, h, _⟩ => (by cases h), by decide +kernel, ?_, rfl, rfl, rfl, rfl⟩
  intro x h
  rw [show group.lineage = List.replicate 32 none from rfl] at h
  cases List.eq_of_mem_replicate h

/-- Registers that keep the limits of a reservation, a tile, a fill, a gather, a load of each alignment and a conversion, and registers
that break them, in a field or in an alignment; room in the queue; a tag in no lineage and one whose tile may still change. -/
theorem test_meets_EngineWordsQueue :
    (∀ l ∈ [[((8 : BitVec 5), (0x00200001 : Word))], [(8, 0x00100010), (9, 0x3FF)], [(8, 0x40000), (10, 16), (11, 0x00010001)],
      [(8, 0x40001), (10, 16)], [(8, 0x01010400)], [(8, 0x04000FFF), (9, 0x0A)], [(8, 0x04000FFF), (9, 0x8A)],
        [(8, 0x40000), (10, 16), (11, 0x00010001), (12, 2)], [(9, 0x02000000)], [(8, 0x40001), (11, 5)]],
      ∀ i ∈ [Instr.breserve 3 8, .brelease 3, .bfill 3 8 0, .bgather 3 8 0, .mma 1 3 4 0 0 0 0, .mmaw 1 3 4 0 0 0 0, .talloc 1 8, .tfree 1,
        .tzero 1, .tld 1 8 0, .tst 1 8 2, .tpost 1 3, .tfinal 1, .tsettle 3 9, .tcvtBuffer 1 3 0 0, .tcvtMemory 1 8 0 0, .tadd 1 2 0,
        .tshift 1 2 0 9, .tcopy 1 2 0], Safety.Drives (driven { drive with d := dregs l }) 0 { drive with d := dregs l } i) ∧
    (driven drive).spaceHold 0 drive (.bfill 3 8 0) = false ∧ 2 ≤ (driven drive).locksFree 0 ∧ drive.ops.length < 32 ∧
    (∀ g, group.lineage[3]? ≠ some (some g)) ∧
    (let g := postedGroup drive
     g.lineage[3]? = some (some ⟨5⟩) ∧ g.tiles[5]? = some (some posted) ∧ posted.state = .provisional ∧ drive.ops = []) := by
  refine ⟨fun l _ => drives_of rfl rfl (by decide +kernel), by decide +kernel, by decide +kernel, by decide +kernel, ?_, rfl, rfl, rfl, rfl⟩
  intro g h; cases h

/-- A workgroup with tiles of 2 by 3 and one posted, a buffer of two rows, tag 3 posted nowhere or in handle 0; one word queued. -/
def buffer : Buffer := ⟨0x00200002, 0, List.replicate 2 (List.replicate 32 1)⟩

def engineGroup (tag : Option TagUse) (o : Op) : Wg := { group with
  tiles := [some (tile 2 3 fun i => i * 7 - 9), none, some posted, some (tile 2 3 fun i => i)] ++ List.replicate 12 none
  buffers := some buffer :: List.replicate 7 none
  lineage := (List.replicate 32 none).set 3 tag
  drive := some { drive with ops := [o] } }

theorem first_of (tag : Option TagUse) (o : Op) :
    Safety.First (machine [thread 0] (engineGroup tag o)) 0 (engineGroup tag o) { drive with ops := [o] } o [] :=
  ⟨rfl, rfl, rfl, rfl, fun x hx => by cases hx⟩

/-- Handles that hold a tile or a buffer and handles that are free, tagged and untagged, provisional and plain; room for a tile and a
buffer; ranges that fault nowhere; a tag's chain; two tiles of one shape. -/
theorem test_meets_EngineExecution :
    (∀ i ∈ [Instr.talloc 1 8, .talloc 0 8, .tfree 0, .tzero 0, .tfree 1, .tpost 0 3, .tpost 2 3, .tfinal 2, .tfinal 0, .breserve 1 8,
      .breserve 0 8, .brelease 0, .brelease 1, .tsettle 3 8, .fred 0 8, .tld 0 8 0, .tst 0 8 0, .tcvtMemory 0 8 0 0, .bfill 0 8 0,
      .bgather 0 8 0, .tadd 0 3 0, .trsum 0 3 0], ∀ tag, ∀ l, let o := op i l
      Safety.First (machine [thread 0] (engineGroup tag o)) 0 (engineGroup tag o) { drive with ops := [o] } o [] ∧ o.running = false) ∧
    (let g := engineGroup (some ⟨0⟩) (op (.tpost 0 3) []); let s := machine [thread 0] g
     g.tiles[0]? = some (some (tile 2 3 fun i => i * 7 - 9)) ∧ g.tiles[1]? = some none ∧ g.tiles[2]? = some (some posted) ∧
     g.tiles[3]? = some (some (tile 2 3 fun i => i)) ∧ g.buffers[0]? = some (some buffer) ∧ g.buffers[1]? = some none ∧
     g.lineage[3]? = some (some ⟨0⟩) ∧ posted.tag ≠ none ∧ posted.state = .provisional ∧ 1 + g.units ≤ 682 ∧
     1 + s.onCore 0 Wg.units ≤ 682 ∧ 256 + g.bufferBytes ≤ 2 ^ 20 ∧ 256 + s.onCore 0 Wg.bufferBytes ≤ 2 ^ 20 ∧
     (∀ e ∈ g.log, e.buf ≠ some 0)) ∧
    (let o := op (.tld 0 8 0) [(8, 0x40000), (10, 64)]
     (machine [thread 0] (engineGroup none o)).rangeFault 0 (engineGroup none o) [] o = none) ∧
    (let o := op (.bfill 0 8 0) [(8, 0x40000), (10, 64), (11, 0x00010001)]
     (machine [thread 0] (engineGroup none o)).rangeFault 0 (engineGroup none o) [] o = none) := by
  exact ⟨fun i _ tag l => ⟨first_of tag _, rfl⟩, by decide +kernel, by decide +kernel, by decide +kernel⟩

/-- A tile of 16 by 64 whose grid is 1, buffers of 16 and 64 rows of 32 elements E4M3 that are 1: every product is 1. -/
def productGroup (o : Op) : Wg := { group with
  tiles := some (tile 16 64 fun i => i) :: some (tile 16 32 fun _ => 1) :: List.replicate 14 none
  buffers := some ⟨0x00200010, 0, List.replicate 16 (List.replicate 32 0x38)⟩ ::
    some ⟨0x00200040, 0, List.replicate 64 (List.replicate 32 0x38)⟩ :: List.replicate 6 none
  drive := some { drive with ops := [o] } }

theorem test_meets_TileProducts :
    (∀ i ∈ [Instr.mma 0 0 1 0 0 0 0, .mmaw 0 1 1 0 0 0 1], let o := op i []
      Safety.First (machine [thread 0] (productGroup o)) 0 (productGroup o) { drive with ops := [o] } o [] ∧ o.running = false ∧ o.mode.toNat ≤ 4) ∧
    (let q : Buffer := ⟨0x00200040, 0, List.replicate 64 (List.replicate 32 0x38)⟩
     Safety.real (q.elem 63 31).1 = some 1 ∧ ((q.rec0).extractLsb' 16 16).toNat = 32 ∧ ((q.rec0).extractLsb' 0 12).toNat = 64) ∧
    (let p : Buffer := ⟨0x00200010, 0, List.replicate 16 (List.replicate 32 0x38)⟩
     Safety.real (p.elem 15 31).1 = some 1) ∧
    (1 : Rat) * 1 = ((1 : Int) : Rat) * (2 : Rat) ^ ((0 : BitVec 10).toInt) ∧
    (tile 16 64 fun i => i).cells.length = 16 * 64 := by
  refine ⟨fun i _ => ⟨⟨rfl, rfl, rfl, rfl, fun x hx => by cases hx⟩, rfl, by show (0 : BitVec 3).toNat ≤ 4; decide⟩,
    ⟨?_, by decide +kernel, by decide +kernel⟩, ?_, by simp, by decide +kernel⟩
  · have h : ((⟨0x00200040, 0, List.replicate 64 (List.replicate 32 0x38)⟩ : Buffer).elem 63 31).1 = .fin false 8 (-3) := by decide +kernel
    rw [h]; norm_num [Safety.real]
  · have h : ((⟨0x00200010, 0, List.replicate 16 (List.replicate 32 0x38)⟩ : Buffer).elem 15 31).1 = .fin false 8 (-3) := by decide +kernel
    intro p; rw [show (p.elem 15 31).1 = _ from h]; norm_num [Safety.real]

/-- Words that run, are not parked and met no lost or dark byte; no lineage and no debugger; a tile, a buffer, readable pages, a
reduction with its result, rows in lit scratchpad. -/
theorem test_meets_EngineCompletion :
    (∀ i ∈ [Instr.tfree 0, .tpost 0 3, .tadd 0 3 0, .mma 0 0 1 0 0 0 0, .tcvtBuffer 0 0 0 0, .tsettle 3 8, .tld 0 8 0, .tld 0 8 2, .bfill 0 8 0,
      .fred 0 8, .tst 0 8 0], ∀ l, let o := { op i l with running := true, settled := some 77 }
      Safety.First (machine [thread 0] (engineGroup none o)) 0 (engineGroup none o) { drive with ops := [o] } o [] ∧ o.running = true ∧
        o.parked = false ∧ o.lost = false ∧ o.dark = false ∧ o.correction = none ∧ o.settled = some 77) ∧
    (let o := { op (.tld 0 8 0) [] with running := true }; let g := engineGroup none o; let s := machine [thread 0] g
     (∀ y, some y ∉ g.lineage) ∧ g.due = [] ∧ s.engineBlock (s.coreOf 0) (s.procOf 0) = none ∧
     (∀ i < 2, ∀ j < 3, s.judge 0 (0x40000 + 64 * i + 16 * j) false = .ok ∧ s.judge 0 (0x2000000000 + 64 * i + 16 * j) true = .ok ∧
       s.place 0 (0x2000000000 + 64 * i + 16 * j) = .pool 0 (64 * i + 16 * j)) ∧
     s.physOf (.pool 0 0) = some (2 ^ 50) ∧ (∀ k < 16, s.litByte (2 ^ 50 + k) = true) ∧
     (tile 2 3 fun i => i * 7 - 9).cells.length = 2 * 3 ∧
     g.buffers[0]? = some (some buffer) ∧ buffer.data.length = 2 ∧ rawBytes buffer.rec0 buffer.rec1 = 32 ∧
     (buffer.rec1).extractLsb' 0 3 = 0 ∧ ∀ j < 32, s.judge 0 (0x40000 + j) false = .ok) := by
  refine ⟨fun i _ l => ⟨⟨rfl, rfl, rfl, rfl, fun x hx => by cases hx⟩, rfl, rfl, rfl, rfl, rfl, rfl⟩, ?_⟩
  refine ⟨fun y h => ?_, rfl, by decide +kernel, by decide +kernel, by decide +kernel, by decide +kernel, by decide +kernel, by decide +kernel,
    by decide +kernel, by decide +kernel, by decide +kernel, by decide +kernel⟩
  rw [show (engineGroup none { op (.tld 0 8 0) [] with running := true }).lineage = List.replicate 32 none by decide +kernel] at h
  cases List.eq_of_mem_replicate h

/-! ## Copies, tags, barriers -/

/-- A copy descriptor: source, destination, kind and length, rows and event, strides (R261). -/
def copyWords (src dst : Nat) (kl re : Word) : List Word :=
  [BitVec.ofNat 32 src, BitVec.ofNat 32 (src / 2 ^ 32), BitVec.ofNat 32 dst, BitVec.ofNat 32 (dst / 2 ^ 32), kl, re, 64, 32]

/-- Eight registers from g16 and the four tags of the launch, done or not. -/
def copyThread (ws : List Word) : Thread := (ws.zipIdx).foldl (fun t x => t.setReg (16 + BitVec.ofNat 7 x.2) x.1) (thread 0)

def tagged (done : Bool) : Wg := { group with tags := List.replicate 4 ⟨done, 0, 3⟩ }

def copyState (ws : List Word) (done : Bool) : State := machine [copyThread ws] (tagged done)

/-- Two rows of 16 bytes in the own scratchpad. -/
def poolWords (re : Word) : List Word := copyWords 0x2000000000 0x2000000400 16 re

/-- A copy of the thread's own, and the state it stands in. -/
def copy (inFlight lost : Bool) (ws : List Word) : Copy :=
  { id := 3, agent := .thread 0, wg := 0, core := 0, form := .plain, tag := 2, bar := none, desc := ws, mode := 0, iter := 0, members := [], cast := none, commons := [],
    revoked := false, darkIn := [],
    inFlight := inFlight, lost := lost, dark := false, squashed := false, parked := false, origin := ⟨0, [], []⟩ }

def copying (c : Copy) (done : Bool) : State := { machine [{ thread 0 with park := .copy }] (tagged done) with copies := [c] }

/-- Each form with a descriptor it takes and one that breaks step 1; the tag free (ready) and in flight (waiting); the drive stream. -/
theorem test_meets_CopyIssue :
    (∀ i ∈ [Instr.xcopy 7 16 2 3 1, .xcopyAdd 7 16 2 0 0, .xcopyFabric 7 16 2 0 0, .xcopyDetach 7 16, .xcopy 7 20 2 0 0],
      Safety.Issues (copyState (poolWords 2) true) 0 (copyThread (poolWords 2)) i) ∧
    (copyState (poolWords 2) true).launches[(tagged true).launch]? = some launch ∧
    (let ws := poolWords 2; let s := copyState ws true; let d := copyDesc ws
     s.copyIllegal 0 .plain 2 none d (s.copyMembers 0 d) = false ∧ s.copyFault 0 .plain d = none ∧ s.watchCopy 0 (copyThread ws) d = none ∧
     s.lostSide 0 .plain d.srcSpan false = none ∧ s.lostSide 0 .plain d.dstSpan true = none ∧
     s.copyReady (s.newCopy (.thread 0) 0 .plain 2 none ws 0 false) = true ∧
     (copying (copy true false ws) false).copyReady ((copyState ws false).newCopy (.thread 0) 0 .plain 2 none ws 0 false) = false) ∧
    (let ws := poolWords 0x00050002; let s := copyState ws true; let d := copyDesc ws
     s.copyIllegal 0 .detach 0 none d (s.copyMembers 0 d) = false ∧ s.copyFault 0 .detach d = none ∧
     s.copyReady (s.newCopy (.thread 0) 0 .detach 0 none ws 0 false) = true) ∧
    (let ws := copyWords 0x40000 0x2000000400 0x10000010 2; let s := copyState ws true; let d := copyDesc ws
     s.copyIllegal 0 .add 2 none d (s.copyMembers 0 d) = false ∧ s.copyFault 0 .add d = none) ∧
    ((copyDesc (copyWords 0x40000 0x41000 0 2)).len = 0 ∧ ((0 : Word).extractLsb' 0 24).toNat = 0 ∧ (20#7).toNat % 8 ≠ 0 ∧ (16#7).toNat % 8 = 0) ∧
    (let d := { drive with d := dregs [(16, 0), (17, 0x20), (18, 0x400), (19, 0x20), (20, 16), (21, 2), (22, 64), (23, 32)] }
     Safety.DrivesBoth (driven d) 0 d (.xcopy 7 16 2 0 0) 16 ∧ ∀ j < 8, ¬ Safety.awaited d (16 + BitVec.ofNat 5 j)) := by
  refine ⟨all_issue rfl rfl (by decide +kernel), rfl, by decide +kernel, by decide +kernel, by decide +kernel, by decide +kernel,
    ⟨rfl, rfl, by decide +kernel, by decide +kernel, by decide +kernel⟩, fun j _ ⟨o, h, _⟩ => by cases h⟩

/-- Without page tables every address is in a window or nowhere: none is absent. -/
theorem place_here (s : State) (w va : Nat) (st : BitVec 2) (perm : BitVec 3) (hp : s.processes = []) (hc : ∀ c ∈ s.cores, c.tlb = []) :
    s.place w va ≠ .absent st perm := by
  have leaf : ∀ core p, s.leaf core p va = none := by
    intro core p
    cases e : s.cores[core]? with
    | none => simp [State.leaf, State.walk, hp, e]
    | some c => simp [State.leaf, State.walk, hp, e, hc c (List.mem_of_getElem? e)]
  unfold State.place State.regionPlace State.commonsPlace State.slotPlace
  simp only [leaf]
  repeat' split
  all_goals exact nofun

/-- The copy in flight where no page is mapped. -/
def unmapped (c : Copy) : State := { copying c false with processes := [] }

/-- A copy that may take effect; in flight and held by nothing: between lit rows, with a side that faults, with a lost allocation. -/
theorem test_meets_CopyEffects :
    (let c := copy false false (poolWords 2); let s := copying c true
     s.copies.find? (fun x => x.id = c.id) = some c ∧ s.wgs[c.wg]? = some (tagged true) ∧ s.copyReady c = true ∧ s.lostSince c = false) ∧
    (let c := copy false false (poolWords 2)
     let s := { machine [{ thread 0 with park := .copy }] { tagged true with allocs := [⟨0, 4096, 0, 0, true⟩] } with copies := [c] }
     s.lostSince c = true ∧ s.threads[0]? = some { thread 0 with park := .copy }) ∧
    (let c := copy true false (poolWords 2); let s := copying c false; let d := copyDesc c.desc
     s.copyHeld c = false ∧ d.kind = 0 ∧ c.cast = none ∧ s.engineBlock c.core (s.procOf c.wg) = none ∧ d.rows = 2 ∧ d.len / 4 = 4 ∧
     (∀ i < 2, ∀ j < 4, s.copyPlace c (0x2000000000 + 64 * i + 4 * j) = some (.pool 0 (64 * i + 4 * j)) ∧
       s.copyPlace c (0x2000000400 + 32 * i + 4 * j) = some (.pool 0 (0x400 + 32 * i + 4 * j)) ∧
       s.judgeAt c false (0x2000000000 + 64 * i + 4 * j) = .ok ∧ s.judgeAt c true (0x2000000400 + 32 * i + 4 * j) = .ok ∧
       s.physOf (.pool 0 (64 * i + 4 * j)) = some (2 ^ 50 + 64 * i + 4 * j) ∧
       s.physOf (.pool 0 (0x400 + 32 * i + 4 * j)) = some (2 ^ 50 + 0x400 + 32 * i + 4 * j) ∧
       ∀ n < 4, s.litByte (2 ^ 50 + 0x400 + 32 * i + 4 * j + n) = true)) ∧
    (let c := copy true false (copyWords 0x80000000 0x2000000400 16 2); let s := copying c false
     s.copyHeld c = false ∧ s.judgeSide c (copySe (copyDesc c.desc).kind) false (s.side c.form (copyDesc c.desc).srcSpan) = .fault) ∧
    (let c := copy true false (copyWords 0x2000000400 0x80000000 16 2); let s := copying c false
     s.copyHeld c = false ∧ c.cast = none ∧ s.judgeSide c (copyDe (copyDesc c.desc).kind) true (s.side c.form (copyDesc c.desc).dstSpan) = .fault) ∧
    (let c := { copy true false (copyWords 0x2000000000 0x3010100000 16 2) with members := [0], cast := some 0 }; let s := copying c false
     s.copyHeld c = false ∧ s.judgeSide c (copyDe (copyDesc c.desc).kind) true (.here (s.portion 0 (copyDesc c.desc).dstSpan)) = .fault) ∧
    (let c := copy true true (poolWords 2); let s := unmapped c; let d := copyDesc c.desc
     s.copyHeld c = false ∧ c.lost = true ∧ c.cast = none ∧ c.bar = none ∧ (tagged false).due = [] ∧
     s.judgeSide c (copySe d.kind) false (s.side c.form d.srcSpan) ≠ .fault ∧
     s.judgeSide c (copyDe d.kind) true (s.side c.form d.dstSpan) ≠ .fault) ∧
    ∀ va st perm, (unmapped (copy true true (poolWords 2))).place 0 va ≠ .absent st perm := by
  exact ⟨by decide +kernel, ⟨by decide +kernel, rfl⟩, by decide +kernel, by decide +kernel, by decide +kernel, by decide +kernel, by decide +kernel,
    fun va st perm => place_here _ _ _ _ _ rfl (by decide +kernel)⟩

/-- Four tags, of which 0 and 2 are done. -/
def someDone : Wg := { group with tags := [⟨true, 1, 1⟩, ⟨false, 0, 2⟩, ⟨true, 2, 3⟩, ⟨false, 0, 0⟩] }

/-- Masks that are zero, past the launch's tags, with a done tag, with none and with all done; the drive stream. -/
theorem test_meets_TagWords :
    someDone.tags.length ≤ 64 ∧ (∀ p < 64, (5 : BitVec 64).getLsbD p = true ↔ (someDone.tags[p]?.map (·.done)) = some true) ∧
    (let th := fun m : BitVec 64 => pair (thread 0) 16 m
     ∀ m ∈ [0, 1, 5, 10, 15, 16, 0x8000000000000000], ∀ i ∈ [Instr.xwaitany 7 16, .xwaitall 7 16, .xffr 7 16, .xtags 7 16],
       Safety.Issues (machine [th m] someDone) 0 (th m) i) ∧
    (let s : State := { machine [thread 0] { someDone with drive := some drive } with issuer := some (.drive 0) }
     Safety.DrivesBoth s 0 drive (.xffr 7 16) 16 ∧ ∀ y ∈ [(16 : BitVec 5), 17], ¬ Safety.awaited drive y) := by
  refine ⟨by decide +kernel, by decide +kernel, fun m hm i hi => ?_, ⟨rfl, rfl, by decide +kernel, by decide +kernel, by decide +kernel⟩,
    fun y _ ⟨o, h, _⟩ => by cases h⟩
  exact all_issue rfl rfl (List.all_eq_true.1 (show ([0, 1, 5, 10, 15, 16, 0x8000000000000000].all fun m =>
    [Instr.xwaitany 7 16, .xwaitall 7 16, .xffr 7 16, .xtags 7 16].all (mayIssue (pair (thread 0) 16 m))) = true by decide +kernel) m hm) i hi

/-- A workgroup whose barriers are all as given, and a team whose barrier is. -/
def barred (x : Barrier) (ts : List Thread) : State := { machine ts { group with barriers := List.replicate 16 x } with
  launches := [{ launch with teams := [{ freshTeam placedDesc 0 with barrier := x }] }] }

/-- An idle barrier and a busy one; counts that keep their layout and break it; an arrival short of the weight, one that reaches it, one of
weight 0 at each parity; a barrier not initialised; the drive stream. -/
theorem test_meets_BarrierWords :
    (let th := fun v : Word => regs (thread 0) [(5, v)]
     (∀ v ∈ [0, 2, 0x10002, 0x1000], ∀ i ∈ [Instr.barInit 7 5 3, .barInval 7 3, .barArv 7 5 3, .barSync 7 5 3, .tmbarArv 7 5, .tmbarSync 7 5],
       Safety.Issues (alone (th v)) 0 (th v) i)) ∧
    (alone (thread 0)).barBusy 0 3 = false ∧
    (machine [thread 0, { thread 1 with park := .phase (some 3) }] group).barBusy 0 3 = true ∧
    (let x : Barrier := ⟨true, 7, 1, 4, [], []⟩; let s := barred x [thread 0]
     s.barrier? 0 (some 3) = some x ∧ s.barrier? 0 none = some x ∧ x.count.toNat + 2 < x.expected.toNat ∧
     x.expected.toNat ≤ x.count.toNat + 3 ∧ x.phase.getLsbD 0 ≠ (0x00000#32).getLsbD 16 ∧ x.phase.getLsbD 0 = (0x10000#32).getLsbD 16 ∧
     s.recordsHeld 0 ≤ 1024 ∧ s.wgs[0]?.map (·.due) = some [] ∧ (thread 0).park = .none) ∧
    Safety.undrained (barred ⟨true, 7, 1, 4, [], []⟩ [thread 0]) ∧
    Safety.noStores (barred ⟨true, 7, 1, 4, [], []⟩ [thread 0]) 0 0 ∧
    (barred ⟨false, 0, 0, 0, [], []⟩ [thread 0]).barrier? 0 (some 3) = some ⟨false, 0, 0, 0, [], []⟩ ∧
    (let x : Barrier := ⟨true, 7, 1, 4, [], []⟩; let d := { drive with d := dregs [(5, 1)] }
     let s : State := { barred x [thread 0] with
       issuer := some (.drive 0), wgs := [{ group with barriers := List.replicate 16 x, drive := some d }] }
     Safety.DrivesBoth s 0 d (.barArv 7 5 3) 5 ∧ d.ops = [] ∧ d.park = .none ∧ (∀ c ∈ s.copies, c.agent ≠ .drive 0) ∧
       s.barrier? 0 (some 3) = some x ∧ (d.reg 5).extractLsb' 17 15 = 0 ∧ (d.reg 5).extractLsb' 12 4 = 0 ∧
       0 < ((d.reg 5).extractLsb' 0 12).toNat ∧ x.count.toNat + ((d.reg 5).extractLsb' 0 12).toNat < x.expected.toNat) := by
  refine ⟨each_issue (by decide +kernel), by decide +kernel, by decide +kernel, by decide +kernel, undrained_one rfl rfl, fun g h => ?_, by decide +kernel,
    ⟨rfl, rfl, by decide +kernel, by decide +kernel, by decide +kernel⟩, rfl, rfl, by decide +kernel⟩
  cases h; intro e he; cases he

/-- A copy or a load of the thread's own; another member that has not arrived; every other member parked, in either stream. -/
theorem test_meets_CheckpointWord :
    (let th := { thread 0 with loads := [⟨0, [], 0, false⟩] }
     Safety.Issues (alone th) 0 th (.ckpt 7) ∧ th.loads ≠ []) ∧
    (let s := machine [thread 0, thread 1] group
     Safety.Issues s 0 (thread 0) (.ckpt 7) ∧ s.copiesOf (.thread 0) = 0 ∧ (thread 1).exited = false ∧ (thread 1).handler = none ∧
     (thread 1).park ≠ .ckpt ∧ group.request = none) ∧
    (let g := { group with drive := some { drive with park := .ckpt } }; let s := machine [thread 0, { thread 1 with park := .ckpt }] g
     Safety.Issues s 0 (thread 0) (.ckpt 7) ∧ ({ thread 1 with park := .ckpt } : Thread).park = .ckpt ∧ g.hay = [] ∧ g.wadds = [] ∧
     s.recordsHeld g.core ≤ 1024 ∧ s.restartable 0 = false) ∧
    (let s : State := { machine [{ thread 0 with park := .ckpt }] group with issuer := some (.drive 0) }
     Safety.DrivesBoth s 0 drive (.ckpt 7) 0 ∧ s.copiesOf (.drive 0) = 0 ∧ drive.ops = []) := by
  refine ⟨⟨issues_of rfl rfl (by decide +kernel), by decide +kernel⟩, ⟨issues_of rfl rfl (by decide +kernel), by decide +kernel⟩,
    ⟨issues_of rfl rfl (by decide +kernel), by decide +kernel⟩,
    ⟨rfl, rfl, by decide +kernel, by decide +kernel, by decide +kernel⟩, by decide +kernel, rfl⟩

/-! ## Scratchpad and commons -/

/-- A workgroup with a pool of two banks, of which the second is dark or lit, and the allocations given. -/
def pooled (l : List Alloc) : Wg := { group with poolBanks := 2, allocs := l }

def pooledOn (c : Core) (g : Wg) (ts : List Thread) : State := { machine ts g with
  launches := [{ launch with desc := { placedDesc with scratch := 131072 } }], cores := c :: List.replicate 63 Core.reset }

def bothLit : Core := { core with arrays := .lit 0 :: .lit 1 :: List.replicate 190 .free }

/-- A descriptor for `salloc` in g16-g19: size, rank, handler. -/
def asks (size rank handler : Word) : Thread := regs (thread 0) [(16, size), (17, rank), (18, handler), (19, 0)]

/-- Descriptors at the ends of their table; a full table; no place; a place in lit banks; a dark bank with an array to test, and none. -/
theorem test_meets_ScratchAllocation :
    (∀ v ∈ [((31 : Word), (7 : Word), (0 : Word)), (32, 7, 0), (12582912, 7, 0), (12582944, 7, 0), (48, 7, 0), (32, 0, 4), (32, 8, 4), (32, 1, 0),
      (32, 1, 6)], Safety.Issues (alone (asks v.1 v.2.1 v.2.2)) 0 (asks v.1 v.2.1 v.2.2) (.salloc 7 8 16)) ∧
    (let s := pooledOn core (pooled ((List.range 64).map fun i => ⟨i * 32, 32, 1, 4, false⟩)) [asks 32 7 0]
     64 ≤ (s.taken 0).length) ∧
    (pooledOn core (pooled []) [asks 32 7 0]).placeAlloc 0 131104 7 = none ∧
    (let s := pooledOn bothLit (pooled []) [asks 32 7 0]
     s.placeAlloc 0 32 7 = some 0 ∧ ((s.banksOf 0 0 32).filter fun b => !s.bankLit 0 b) = []) ∧
    (let s := pooledOn core (pooled [⟨0, 65536, 7, 0, false⟩]) [asks 32 7 0]
     s.placeAlloc 0 32 7 = some 65536 ∧ ((s.banksOf 0 65536 32).filter fun b => !s.bankLit 0 b) = [1] ∧ s.bankTesting 0 1 = false ∧
     core.taken < core.budget ∧ ArrayState.free ∈ core.arrays ∧ (asks 32 7 0).park = .none) ∧
    (let c := { core with offset := -192 }; let s := pooledOn c (pooled [⟨0, 65536, 7, 0, false⟩]) [asks 32 6 4]
     s.placeAlloc 0 32 6 = some 65536 ∧ ((s.banksOf 0 65536 32).filter fun b => !s.bankLit 0 b) = [1] ∧ s.bankTesting 0 1 = false ∧
     c.budget ≤ c.taken ∧ ∀ x < 256, .lit x ∈ c.arrays → 6 ≤ s.bankRank 0 x) := by
  refine ⟨fun v hv => issues_of rfl rfl ?_, by decide +kernel, by decide +kernel, by decide +kernel, by decide +kernel, by decide +kernel⟩
  exact (List.all_eq_true.1 (show ([((31 : Word), (7 : Word), (0 : Word)), (32, 7, 0), (12582912, 7, 0), (12582944, 7, 0), (48, 7, 0), (32, 0, 4),
    (32, 8, 4), (32, 1, 0), (32, 1, 6)].all fun v => mayIssue (asks v.1 v.2.1 v.2.2) (.salloc 7 8 16)) = true by decide +kernel) v hv)

/-- A base that names an allocation and one that does not; an allocation under a lock; lost ones that the budget allows and forbids; with a
loss entry and without; a thread that waits in `srelight` or in a handler for the allocation; a launch with and without
`.test budget`, with room for a smaller budget. -/
theorem test_meets_ScratchWords :
    (let th := pair (thread 0) 16 0x2000000000
     ∀ i ∈ [Instr.sfree 7 16, .srelight 7 20 16, .sret 7, .sinfoAlloc 7 20 16, .sinfoEntry 7 20, .sinfoCore 7 20, .bdgt 7 16],
       Safety.Issues (alone th) 0 th i) ∧
    (let g := pooled [⟨0, 4096, 3, 0x20000, true⟩]; let s := pooledOn bothLit g [thread 0]
     s.allocOf 0 0x2000000000 = some ⟨0, 4096, 3, 0x20000, true⟩ ∧ s.allocOf 0 0x2000000020 = none ∧
     s.locked 0 (poolKey 0 0) (poolKey 0 0 + 4096) true = false ∧
     s.rankedLit 0 3 (s.banksOf 0 0 4096) ≤ bothLit.budget ∧ ((s.banksOf 0 0 4096).filter fun b => !s.bankLit 0 b).length = 0) ∧
    (let c := { core with offset := -192 }; let s := pooledOn c (pooled [⟨65536, 64, 7, 0, true⟩]) [thread 0]
     c.budget < s.rankedLit 0 7 (s.banksOf 0 65536 64) + ((s.banksOf 0 65536 64).filter fun b => !s.bankLit 0 b).length) ∧
    (lockedAt (.pool 0 0 1) (alone (thread 0))).locked 0 (poolKey 0 0) (poolKey 0 0 + 4096) true = true ∧
    (let th := { thread 0 with loss := some ⟨0, 0x2000000010, true, ⟨0x20000, 2⟩⟩ }
     th.loss.isSome = true ∧ Safety.Issues (alone th) 0 th (.sret 7)) ∧
    (let p : Lighting := ⟨false, 20, 0, 4096, 3, 0x20000, [1], [1]⟩
     let s := pooledOn bothLit (pooled [⟨0, 4096, 3, 0x20000, true⟩]) [thread 0, { thread 1 with park := .array p }, { thread 2 with park := .handler 0 }]
     p.fresh = false ∧ p.base = 0 ∧ s.threads[1]? = some { thread 1 with park := .array p } ∧
       s.threads[2]? = some { thread 2 with park := .handler 0 } ∧ (thread 0).park = .none ∧ s.locked 0 (poolKey 0 0) (poolKey 0 0 + 4096) true = false) ∧
    ((core.arrays.filter ArrayState.isLit).length : Int) ≤ max 0 (min ((192 - (core.arrays.filter fun x => x = .retired).length : Nat) : Int)
      (64 + 2 * (core.scol : Int) + -1)) ∧
    launch.desc.tb = true ∧ ({ launch with desc := { placedDesc with tb := false } } : Launch).desc.tb = false := by
  exact ⟨all_issue rfl rfl (by decide +kernel), by decide +kernel, by decide +kernel, by decide +kernel,
    ⟨rfl, issues_of rfl rfl (by decide +kernel)⟩, by decide +kernel, by decide +kernel, by decide +kernel⟩

/-- A team whose commons have the slots given. -/
def sharing (slots : List (Option Nat)) (g : Wg) (th : Thread) : State := { machine [th] g with
  launches := [{ launch with teams := [{ freshTeam placedDesc 0 with commons := List.replicate 8 slots }] }] }

/-- A reserved bit; a member; a slot taken and one that is free; a member with nothing to wait for. -/
theorem test_meets_CommonsWords :
    (let th := fun v : Word => regs (thread 0) [(16, v)]
     ∀ v ∈ [0x700, 0x70F, 0x800, 0x10], ∀ i ∈ [Instr.cjoin 7 8 16, .cjoinInfo 7 8, .cleave 7 8], Safety.Issues (alone (th v)) 0 (th v) i) ∧
    (let s := sharing (some 5 :: List.replicate 15 none) group (thread 0)
     ∃ (l : Launch) (m : Team) (ms : List (Option Nat)), s.launches[0]? = some l ∧ l.teams[0]? = some m ∧ m.commons[7]? = some ms ∧
       ms[0]? = some (some 5) ∧ ms[15]? = some none) ∧
    (let g := { group with commons := some (3, 0) }; let s := sharing (some 0 :: List.replicate 15 none) g (thread 0)
     g.commons = some (3, 0) ∧ g.hay = [] ∧ g.wadds = [] ∧ s.recordsHeld 0 ≤ 1024 ∧ s.slotUsers 0 3 0 = [] ∧ (thread 0).spec = none ∧
     (thread 0).park = .none ∧ (∀ x ∈ s.threads, x.wg = 0 → x.spec = none) ∧
     ∃ (l : Launch) (m : Team) (ms : List (Option Nat)), s.launches[0]? = some l ∧ l.teams[0]? = some m ∧ m.commons[3]? = some ms ∧
       ms[0]? = some (some 0)) := by
  exact ⟨each_issue (by decide +kernel), ⟨_, _, _, rfl, rfl, rfl, rfl, rfl⟩, rfl, rfl, rfl, by decide +kernel, by decide +kernel, rfl, rfl,
    by decide +kernel, _, _, _, rfl, rfl, rfl, rfl⟩

/-! ## Events and launches -/

def event (target count : BitVec 16) (set : Bool) : Event := ⟨0, 5, target, count, set, false, [.squad 0 0]⟩

def signalled (e : Event) (ms : List EventMsg) (th : Thread) : State := { machine [th] group with events := [e], messages := ms }

/-- Event numbers and upper halves, zero and not; an event set and not set; a signal of the thread's own in flight and none; a module of the
job that is this one, another with a route, and one outside the job. -/
theorem test_meets_EventWords :
    (let th := fun v : Word => regs (thread 0) [(16, v)]
     ∀ v ∈ [0, 5, 0x30000, 0x30005, 0x20005, 0x10000005, 0xFFFF0005], ∀ i ∈ [Instr.evsig 7 16, .evwait 7 16, .evclr 7 16, .evarm 7 16, .fsig 7 16],
       Safety.Issues (alone (th v)) 0 (th v) i) ∧
    Safety.memoryOk (alone (thread 0)) ∧ (∀ l, (thread 0).park ≠ .drain l) ∧ Safety.noStores (alone (thread 0)) 0 0 ∧
    Safety.undrained (signalled (event 1 0 true) [] (thread 0)) ∧ (thread 0).park.acquires = false ∧
    ((signalled (event 1 0 true) [] (thread 0)).event 0 5).set = true ∧ ((signalled (event 3 1 false) [] (thread 0)).event 0 5).set = false ∧
    (⟨0, 5, some (.thread 0), false⟩ : EventMsg) ∈ (signalled (event 1 0 true) [⟨0, 5, some (.thread 0), false⟩] (thread 0)).messages ∧
    (let s : State := { alone (thread 0) with processes := [⟨0x10000, 0, 0, some 0x60000, none, [0, 2], 0⟩], routes := [(2, [0])]
                                              flinks := [⟨true, 16, 0, 0, 0, []⟩] }
     s.inJob 0 0 = true ∧ s.inJob 0 2 = true ∧ s.inJob 0 1 = false ∧ s.routed 2 = true ∧ s.eventTable 0 = some 0x60000) := by
  refine ⟨each_issue (by decide +kernel), by unfold Safety.memoryOk; decide +kernel, fun l h => (by cases h), noStores_alone _,
    undrained_one rfl rfl, rfl,    by decide +kernel, by decide +kernel, by decide +kernel, by decide +kernel⟩

/-- A signal at a set event, short of the target, and at the target with a thread and a launch that wait; a table. -/
theorem test_meets_EventSignals :
    (signalled (event 1 0 true) [⟨0, 5, none, false⟩] (thread 0)).messages[0]? = some ⟨0, 5, none, false⟩ ∧
    (event 3 1 false).count + 1 ≠ (event 3 1 false).target ∧ (event 3 2 false).count + 1 = (event 3 2 false).target ∧
    (let s : State := { signalled (event 3 1 false) [] { thread 0 with park := .event 0 5 } with
       processes := [⟨0x10000, 0, 0, some 0x60000, none, [0], 0⟩] }
     s.waiting 0 5 (.squad 0 0) = true ∧ (s.event 0 5).waiters.length ≤ 8 ∧ EvWaiter.squad 0 0 ∈ (s.event 0 5).waiters ∧
     s.wgs[0]?.map (·.state) = some .resident ∧ s.eventTable 0 = some 0x60000) ∧
    (signalled (event 3 1 false) [] (thread 0)).waiting 0 5 (.squad 0 0) = false ∧
    Safety.undrained (signalled (event 3 2 false) [⟨0, 5, none, false⟩] { thread 0 with park := .event 0 5 }) := by
  exact ⟨by decide +kernel, by decide +kernel, by decide +kernel, by decide +kernel, by decide +kernel, undrained_one rfl rfl⟩

/-- A descriptor of R348 at 0x40000 in three forms, and a request for it. -/
def sys : WorxusLaunch := ⟨77, 0x4000000000, 0x5000000000, 0x100000, 0x200000, 0x20000, 0x20000⟩

def descWords (f0 f1 f10 wait : Word) : List Word :=
  [f0, f1, 0x0120, 0, 0x20000, 0, 0, 0, 0x20000, 0, f10, 0x0404, 0, 0, 16, 0, 0, 0, 0, 0, 0, 0, wait, 0, 7]

def launching (queued : Nat) (l : List Word) : State :=
  let th := { pair (thread 0) 16 0x40000 with park := .launch }
  let s := machine [th] group
  { s with mem := memPut s.mem 0x40000 (l.flatMap fun w => toBytes 4 w.toNat), requests := [⟨0, some 0, 0x40000, 8, .thread 0, 0⟩]
           launches := launch :: List.replicate queued { launch with state := .queued } }

/-- A queue with room and a full one; a descriptor within its limits, one that is misaligned, one that fits no cluster. -/
theorem test_meets_LaunchWords :
    (let th := pair (thread 0) 16 0x40000
     (∀ i ∈ [Instr.lnch 7 8 16, .wgdone 7], Safety.Issues (alone th) 0 th i) ∧ group.published = false ∧ launch.desc.wgev = 0) ∧
    (let s := launching 0 (descWords 0x200A01 0 65536 5); let f := s.wordsVa 0 0x40000
     s.requests[0]? = some ⟨0, some 0, 0x40000, 8, .thread 0, 0⟩ ∧ s.queueOf 0 < 256 ∧ descOk f = true ∧
     badShape (s.wordsVa 0) (descOf f true 0 sys) = none ∧ s.fitsSomewhere (descOf f true 0 sys) = true) ∧
    0x40004 % 256 ≠ 0 ∧ descOk ((launching 0 (descWords 0x200A00 0 65536 5)).wordsVa 0 0x40000) = false ∧
    ((launching 0 (descWords 0x200A01 0 65536 5)).threads[0]?.map (·.park)) = some .launch ∧
    (let s := launching 0 (descWords 0x200A40 63 12582912 5); let f := s.wordsVa 0 0x40000
     descOk f = true ∧ s.fitsSomewhere (descOf f true 0 sys) = false) ∧
    256 ≤ (launching 256 []).queueOf 0 := by
  refine ⟨⟨all_issue rfl rfl (by decide +kernel), rfl, rfl⟩, by decide +kernel, by decide +kernel, by decide +kernel, by decide +kernel⟩

/-- Launches with links that have permits, no team waiting at a Stile, and one node in the scheduling tree. -/
def launched (ls : List Launch) (g : Wg) (th : Thread) : State := { machine [th] g with
  launches := ls, links := List.replicate 16 ⟨8, 8, [], []⟩, placements := List.replicate 16 [], tree := [⟨none, 1, 0, true⟩]
  boot := { State.reset.boot with booted := true, ready := true } }

/-- A launch that is ready at the head of its queue; one that fits nowhere, with a team not yet placed or one that waits; one that may be
placed on core 0 or 1, of which the first has no bank left; a workgroup whose work is done, the last of its launch or not; a Stile
with one workgroup and a root node. -/
theorem test_meets_LaunchLife :
    (let x := { launch with state := .ready }; let s := launched [x] group (thread 0)
     s.launches[0]? = some x ∧ x.state = .ready ∧ s.servedNext 0 = true) ∧
    (let x : Launch := { launch with desc := { placedDesc with team := 64, grid := 64, scratch := 12582912 }, teams := [] }
     let s : State := { launched [launch, x] group (thread 0) with cores := [] }
     s.launches[1]? = some x ∧ x.state ≠ .ended ∧ x.teams.length * x.desc.team < x.desc.grid ∧ s.fitsSomewhere x.desc = false) ∧
    (let s : State := { launched [launch] group (thread 0) with cores := [], placements := [(0, 0)] :: List.replicate 15 [] }
     launch.state ≠ .ended ∧ (∃ q ∈ s.placements, ∃ y ∈ q, y.1 = 0) ∧ s.fitsSomewhere launch.desc = false) ∧
    (let x : Launch := { launch with teams := [] }; let s := launched [launch, x] { group with poolBanks := 192 } (thread 0)
     s.launches[1]? = some x ∧ s.boot.ready = true ∧ x.state = .placing ∧ x.desc.team = 1 ∧ x.teams.length < x.desc.grid ∧
     (∃ link, s.links[0]? = some link ∧ link.down ≠ 0 ∧ link.held = []) ∧ s.placements[0]? = some [] ∧ s.fitsCluster 0 x.desc = true ∧
     s.fits 0 0 x.desc = false ∧ s.fits 1 0 x.desc = true ∧ x.desc.squads ≤ 32) ∧
    (let g := { group with drive := some { drive with halted := true } }
     ∀ n ∈ [1, 2], let x := { launch with desc := { placedDesc with grid := n } }; let s := launched [x] g { thread 0 with exited := true }
       s.wgs[0]? = some g ∧ g.launch = 0 ∧ g.state = .resident ∧ (∀ y ∈ s.threads, y.exited = true) ∧ s.copies = [] ∧ g.hay = [] ∧
       g.wadds = [] ∧ x.state ≠ .ended ∧ ((s.wgs.zipIdx.filter fun y => y.1.launch = 0).length = x.desc.grid ↔ n = 1)) ∧
    (let s := launched [launch] { group with charge := 77 } (thread 0)
     (∃ k : CmdLink, s.links[0]? = some k ∧ k.up ≠ 0 ∧ k.upHeld = []) ∧ 0 < s.links.length ∧
     group.core / 4 = 0 ∧ (∀ c ∈ s.rcores, c.leaf = none) ∧ s.wgs.length = 1 ∧ s.processes[launch.proc]?.map (·.leaf) = some 0 ∧
     s.tree[0]? = some ⟨none, 1, 0, true⟩) := by
  exact ⟨by decide +kernel, by decide +kernel, by decide +kernel,
    ⟨by decide +kernel, by decide +kernel, by decide +kernel, by decide +kernel, by decide +kernel, ⟨_, rfl, by decide, rfl⟩,
      by decide +kernel, by decide +kernel, by decide +kernel, by decide +kernel, by decide +kernel⟩, by decide +kernel,
    ⟨_, rfl, by decide, rfl⟩, by decide +kernel, by decide +kernel, by decide +kernel, by decide +kernel, by decide +kernel, by decide +kernel⟩

/-- The page at 2^30 is a cold image, being expanded or waiting; a thread parked on it. -/
def parkedAt : ParkedAccess := ⟨.thread 0, 0, 0x40000000, 0, 1, 0, 0, 0, 0⟩

def expanding (frame : Option (BitVec 52)) : Expand := ⟨0, 0x40000000, 0x5000000, frame, 0, 0, 0, 0, 0, 0, 0, false, none⟩

/-- Tables down to a page of 64 KiB at 2^30 (R339, R340), whose entry is given; the workgroup's core has no translation buffer to look
in, so that the entry is read where it stands. -/
def dieState (pte : Nat) (h : Hub) : State := { machine [{ toAbsent with park := .page }] { group with core := 100 } with
  mem := memPut (memPut (memPut (alone toAbsent).mem 0x12008 (toBytes 8 0x13001)) 0x13000 (toBytes 8 0x14001)) 0x14000 (toBytes 8 pte)
  hubs := h :: List.replicate 3 ⟨[], [], [], []⟩, links := List.replicate 16 ⟨8, 8, [], []⟩ }

/-- A privileged launch and one that is not, no access parked; a parked access whose page has come, and one whose page has not; an
expansion with a frame in the ring, with none, and with its frame taken. -/
theorem test_meets_TranslationsAndPages :
    (∀ i ∈ [Instr.ptsyncPage 7 8, .ptsyncAll 7, .icinv 7 8 3, .icinv 7 8 7], Safety.Issues (alone toPage) 0 toPage i) ∧
    launch.desc.priv = true ∧ ({ launch with desc := { placedDesc with priv := false } } : Launch).desc.priv = false ∧
    0 < (alone toPage).processes.length ∧ (alone toPage).physVa 0 0x40000 = some 0x40000 ∧
    (∀ h ∈ (alone toPage).hubs, ∀ x ∈ h.slots, x = none) ∧
    (let h : Hub := ⟨[], [some parkedAt], [], []⟩; let s := dieState 0x700003B h
     s.hubs[0]? = some h ∧ h.slots[0]? = some (some parkedAt) ∧ (s.lookParked 0 parkedAt).placeParked 0 parkedAt = .page 0x7000000 7 ∧
     s.threads[0]?.map (·.park) = some .page) ∧
    (let s := dieState 0xBB ⟨[], [some parkedAt], [], []⟩
     (s.lookParked 0 parkedAt).placeParked 0 parkedAt = .absent 2 7 ∧ parkedAt.count < 3 ∧
     ∃ k : CmdLink, s.links[parkedAt.core / 4]? = some k ∧ k.up ≠ 0 ∧ k.upHeld = []) ∧
    (let h : Hub := ⟨[0x7000000], [], [], [expanding none]⟩; let s := dieState 0x500007B h
     s.leafHome 0 0x40000000 = some 0x14000 ∧ (memDouble s.mem 0x14000).extractLsb' 6 2 = 1 ∧
     ((memDouble s.mem 0x14000).extractLsb' 8 44).toNat * 256 = (expanding none).image ∧ 0x14000 + 8 ≤ 0x7000000 / 65536 * 65536 ∧
     0x14000 + 8 ≤ (expanding none).image ∧ (expanding none).frame = none ∧ (expanding none).waits = false) ∧
    (let h : Hub := ⟨[], [], [], [expanding (some 0x7000000)]⟩; let s := dieState 0x50000FB h
     s.leafHome 0 0x40000000 = some 0x14000 ∧ h.expands[0]? = some (expanding (some 0x7000000)) ∧ ∀ x ∈ s.hubs, ∀ y ∈ x.slots, y = none) := by
  exact ⟨all_issue rfl rfl (by decide +kernel), by decide +kernel, by decide +kernel, by decide +kernel, by decide +kernel, by decide +kernel,
    by decide +kernel, ⟨by decide +kernel, by decide +kernel, _, rfl, by decide, rfl⟩, by decide +kernel, by decide +kernel⟩

/-! ## Streams, cores, recovery -/

/-- The word in the place of the header at 0x20000. -/
def headed (h : Word) (th : Thread) (d : Drive) : State := { machine [th] { group with drive := some d } with
  mem := memPut (alone (thread 0)).mem 0x20000 (toBytes 4 h.toNat) }

/-- Two words, class 4, every limit but the first 15. -/
def header (l : BitVec 4) (c : BitVec 3) : Word := 2#4 ++ c ++ l ++ 15#4 ++ 15#4 ++ 15#4 ++ 0#3 ++ 0b101101#6

/-- A clause in an executable mapping; its limits met and not; an invalid header; no mapping; the drive stream, with a class of its own. -/
theorem test_meets_ClauseHeaders :
    (let th := { thread 0 with pc := ⟨0x20000, 0⟩ }
     let one := { th with loads := [⟨0, [], 0, false⟩] }
     let clause := fun h : Word => Fetched.clause ⟨h, [some 0, some 0]⟩
     (headed (header 15 0) th drive).leaf 0 0 0x20000 = some ⟨0, 0, 2 ^ 30, 0x3B⟩ ∧
     (⟨0, 0, 2 ^ 30, 0x3B⟩ : Cached).place 0x20000 = .page 0x20000 7 ∧ (7#3).getLsbD 2 = true ∧ core.icache = [] ∧
     (headed (header 15 0) th drive).fetchClause 0 0x20000 = clause (header 15 0) ∧
     (headed (header 0 0) one drive).fetchClause 0 0x20000 = clause (header 0 0) ∧ ¬ one.loads.length ≤ (0#4).toNat ∧
     (headed (header 15 6) th drive).fetchClause 0 0x20000 = clause (header 15 6) ∧ th.spec = none ∧ th.handler = none ∧
     (headed (header 15 0) th drive).fetchClause 0 0x50000000 = .fault ∧ (header 15 0).extractLsb' 0 6 = 0b101101#6 ∧
     (header 15 4).extractLsb' 25 3 = 4) ∧
    (let d := { drive with pc := ⟨0x20000, 0⟩ }; let s : State := { headed (header 15 4) (thread 0) d with issuer := some (.drive 0) }
     s.issuer = some (.drive 0) ∧ s.drive? 0 = some d ∧ d.pc.idx = 0 ∧ s.fetchClause 0 0x20000 = .clause ⟨header 15 4, [some 0, some 0]⟩ ∧
     s.copiesOf (.drive 0) = 0 ∧ d.ops = []) := by
  decide +kernel

/-- Squads in the slots given, blocked or ready since the times given; a core with a swap or none. -/
def squads (l : List (Option Nat × Nat)) (v : Option Swap) (ts : List Thread) : State := { machine ts
    { group with squads := l.map fun x => { freshSquad with slot := x.1, since := some x.2 } } with
  cores := { core with swap := v } :: List.replicate 63 Core.reset, clk := 1000 }

/-- Two squads that are pending and ready with a free slot, the first for longer; one with eight squads in the slots, of which two are
blocked long, slot 5 later than slot 3; a swap to end; a comparator that matches in either stream; holds. -/
theorem test_meets_SwapsAndHolds :
    (let s := squads [(none, 5), (none, 6)] none [thread 0, thread 32]
     s.pending 0 0 0 = true ∧ (s.sinceOf (0, 0)).isSome = true ∧ s.squadReady 0 0 = true ∧ (0, 0) ∈ s.squadsOn 0 ∧ s.freeSlotOf 0 = some 0 ∧
     ∀ p ∈ s.squadsOn 0, p = (0, 0) ∨ rankLt (s.rankOf (0, 0) ((s.sinceOf (0, 0)).getD 0)) (s.rankOf p ((s.sinceOf p).getD 0)) = true) ∧
    (let ts := (List.range 9).map fun n => { thread (32 * n) with park := if n = 3 ∨ n = 5 then .event 0 5 else .none }
     let s := squads ((List.range 8).map (fun n => (some n, n)) ++ [(none, 9)]) none ts
     s.pending 0 0 8 = true ∧ (s.sinceOf (0, 8)).isSome = true ∧ s.squadReady 0 8 = true ∧ (0, 8) ∈ s.squadsOn 0 ∧ s.freeSlotOf 0 = none ∧
     s.inSlot 0 5 = some (0, 5) ∧ (s.sinceOf (0, 5)).isSome = true ∧ s.blockedLong 0 5 = true ∧ s.blockedLong 0 3 = true ∧
     (∀ p ∈ s.squadsOn 0, s.pending 0 p.1 p.2 = true → p = (0, 8)) ∧
     (∀ m < 8, ∀ p ∈ (s.inSlot 0 m).toList, s.blockedLong p.1 p.2 = true → m = 5 ∨
       rankLt (s.rankOf p ((s.sinceOf p).getD 0)) (s.rankOf (0, 5) ((s.sinceOf (0, 5)).getD 0)) = true)) ∧
    (let s := squads [(none, 5)] (some ⟨2, 0, 0, 960⟩) [thread 0]
     (s.cores[0]?.map (·.swap)) = some (some ⟨2, 0, 0, 960⟩) ∧ 960 + 40 ≤ s.clk) ∧
    (let words := fun stream : Word => 1 :: List.replicate 15 0 ++ [0x20004, 0, 0xFFFFFFFF, 0, stream, 0, 0, 0]
     (debugged (words 1)).comparator 0 false 0 (wordAddr (thread 0).pc) = some 0 ∧
     (debugged (words 3)).comparator 0 true 0 (wordAddr drive.pc) = some 0) ∧
    (∀ b, (⟨b, none⟩ : Hold).record = none) := by
  exact ⟨by decide +kernel, by decide +kernel, by decide +kernel, by decide +kernel, fun b => rfl⟩

/-- A launch and a link of Stile 0, with the workgroup given. -/
def linked (pre : Bool) (k : CmdLink) (g : Wg) : State := { machine [thread 0] g with
  launches := [{ launch with desc := { placedDesc with pre := pre } }], links := k :: List.replicate 15 ⟨8, 8, [], []⟩ }

/-- A team that may be pre-empted, one that may not, one that has a request and one being saved; a saved team; a link with permits,
without, with a command held, and with a report of each kind held; a workgroup to kill; a core with none and a core with one. -/
theorem test_meets_Commands :
    (∀ b, let s := linked b ⟨8, 8, [], []⟩ group
     s.launches[0]?.map (·.desc.pre) = some b ∧ (s.launches[0]?.bind (·.teams[0]?)).map (·.cluster) = some 0 ∧
     s.links[0]? = some ⟨8, 8, [], []⟩ ∧ (∃ u ∈ s.wgs, u.launch = 0 ∧ u.team = 0) ∧
     ¬ (∃ u ∈ s.wgs, (u.launch = 0 ∧ u.team = 0) ∧ (u.request ≠ none ∨ u.state = .saving))) ∧
    (∃ u ∈ (linked true ⟨8, 8, [], []⟩ { group with request := some ⟨5, false, false⟩ }).wgs, (u.launch = 0 ∧ u.team = 0) ∧ u.request ≠ none) ∧
    (let s := linked true ⟨8, 8, [], []⟩ { group with state := .saved }
     (∃ u ∈ s.wgs, (u.launch = 0 ∧ u.team = 0) ∧ u.state = .saved) ∧ (∀ u ∈ s.wgs, u.state ≠ .saving ∧ u.state ≠ .resident) ∧
     s.threads[0]? = some (thread 0) ∧ (s.wgs[0]?.map (·.drive)) = some (some drive) ∧
     0 < s.links.length ∧ (List.replicate 16 (0x20000 : VAddr)).length ≤ 16) ∧
    (let y : Kept := ⟨0, [⟨3, 7⟩]⟩; let g := { group with state := .saved, kept := [y] }
     g.kept[0]? = some y ∧ Memory.wf y.bytes = true ∧ (⟨0, 4096, 0, 0, false⟩ : Alloc) ∈ g.allocs ∧ 0 ≤ 4095 ∧ 4095 < 0 + 4096) ∧
    group.core / 4 = 0 ∧ group.state = .resident ∧ 1 < (alone (thread 0)).cores.length ∧
    (∀ u ∈ (alone (thread 0)).wgs, u.core = 1 → u.resident = false) ∧
    (∀ k ∈ [(⟨0, 8, [], []⟩ : CmdLink), ⟨5, 7, [.return_ 1], []⟩, ⟨0, 7, [.return_ 1], [.news .ready]⟩, ⟨7, 0, [], [.fault 5, .news .ready]⟩,
        ⟨7, 3, [], [.failure 5]⟩],
      (linked true k group).links[0]? = some k ∧ k.down < 8 ∧ (¬ (k.down ≠ 0 ∧ k.held = []) ∨ k.up < 8)) := by
  decide +kernel

/-- A request at its bound, of a thread in speculation and of one without; a context being written; a context with room on core 1, alone
in its team, whose launch keeps off another cluster. -/
theorem test_meets_SaveAndResume :
    (∀ r ∈ [(⟨0, false, true⟩ : Request), ⟨0, false, false⟩],
     ∀ th ∈ [thread 0, { thread 0 with spec := some (spec .lone), loads := [⟨0, [(5#7, 1)], 1, true⟩] }],
       let g := { group with request := some r }; let s : State := { machine [th] g with clk := 300000 }
       g.state = .resident ∧ g.request = some r ∧ (r.now = true ∨ r.t0 + launch.desc.ckbound * 2100 ≤ s.clk) ∧ r.ckpt = false ∧ g.wadds = [] ∧
         g.due = [] ∧ th.park = .none) ∧
    (let g := { group with state := .saving }; let s := linked true ⟨8, 8, [], []⟩ g
     g.state = .saving ∧ (∃ k : CmdLink, s.links[g.core / 4]? = some k ∧ k.up ≠ 0 ∧ k.upHeld = []) ∧ s.wgs.length = 1) ∧
    (let g : Wg := { group with state := .resuming, allocs := [], drive := none, core := 1, squads := [{ freshSquad with was := false }] }
     let s : State := { machine [thread 0] g with launches := [{ launch with teams := [{ freshTeam placedDesc 0 with avoid := some 1 }] }] }
     s.wgs[0]? = some g ∧ g.kept = [] ∧ g.parks = [] ∧ s.copies = [] ∧ s.fits 1 0 launch.desc = true ∧
     (s.processes[0]?).bind (·.debug) = none ∧ s.wgs.length = 1 ∧
     ((s.launches[0]?).bind (·.teams[g.team]?)).bind (·.avoid) ≠ some (1 / 4) ∧
     ((s.launches[0]?).bind (·.teams[g.team]?)).map (·.cluster) = some (1 / 4) ∧ (g.squads[0]?.map (·.was)) = some false) := by
  exact ⟨by decide +kernel, ⟨rfl, ⟨_, rfl, by decide, rfl⟩, rfl⟩, by decide +kernel⟩

/-- A resident workgroup on a Stile with a permit; a detached copy of its own in flight; a killed one with nothing on its way, on core 0,
with room on core 4 of another cluster. -/
theorem test_meets_KillsAndFailures :
    (let s := linked true ⟨8, 8, [], []⟩ group
     s.wgs[0]? = some group ∧ group.state = .resident ∧ (∃ k : CmdLink, s.links[group.core / 4]? = some k ∧ k.up ≠ 0 ∧ k.upHeld = []) ∧
     s.detachedCopy 0 3 = none ∧ s.cores[0]? = some core) ∧
    (let c := { copy true false (poolWords 0x00050002) with form := .detach }
     (copying c false).detachedCopy 0 c.id = some c) ∧
    (let g : Wg := { group with state := .killed }; let s := machine [thread 0] g
     s.wgs[0]? = some g ∧ g.hay = [] ∧ g.wadds = [] ∧ 4 / 4 ≠ g.core / 4 ∧ s.fits 4 0 launch.desc = true ∧ launch.desc.rst = false ∧
     (s.processes[0]?).bind (·.debug) = none ∧ s.wgs.length = 1 ∧ (launch.teams[g.team]?).bind (·.avoid) ≠ some (4 / 4) ∧
     (thread 0).tid.toNat < 32 * launch.desc.squads ∧ launch.desc.squads ≤ 32) ∧
    3 < (alone (thread 0)).hubs.length := by
  exact ⟨⟨rfl, rfl, ⟨_, rfl, by decide, rfl⟩, by decide +kernel, rfl⟩, by decide +kernel, by decide +kernel, by decide +kernel⟩

/-! ## Power, fabric, boot, debugging -/

/-- A `salloc` that waits for the array under test; one under test for nobody; a lane and parts under test; a free array and a lit one; a
column under a full test, with more parts left and with its last. -/
theorem test_meets_ArraysAndParts :
    (let c := { core with arrays := .lit 0 :: .testing 1 :: List.replicate 190 .free }
     let p : Lighting := ⟨true, 8, 65536, 4096, 7, 0, [1], [1]⟩; let th := { thread 0 with park := .array p }
     let s := pooledOn c (pooled []) [th]
     s.cores[0]? = some c ∧ c.proving = none ∧ c.arrays[1]? = some (.testing 1) ∧ s.poolOwner 0 1 = some 0 ∧ s.threads[0]? = some th ∧
     p.fresh = true ∧ p.left = [1] ∧ p.base / 65536 + (pooled []).poolFirst = 1 ∧ p.base % 65536 + p.size ≤ 65536 ∧ 0 < p.size ∧ p.rank ≠ 0 ∧
     c.litCount < c.budget) ∧
    (let c := { core with arrays := .testing 9 :: List.replicate 191 .free }
     (pooledOn c (pooled []) [thread 0]).poolOwner 0 9 = none ∧ c.litCount ≤ { c with arrays := c.arrays.set 0 .retired }.budget) ∧
    (let c := { core with groupsTesting := 8, slicesTesting := 1, lanesTesting := 2 }
     c.lanesTesting.getLsbD 1 = true ∧ c.groupsTesting.getLsbD 3 = true ∧ (∀ j < 3, c.groupsTesting.getLsbD j = false) ∧
     c.slicesTesting.getLsbD 0 = true) ∧
    (core.arrays[191]? = some .free ∧ core.litCount ≤ { core with arrays := core.arrays.set 191 .retired }.budget) ∧
    (core.arrays[0]? = some (.lit 0) ∧ core.arrays.length ≤ 192 ∧ (alone (thread 0)).poolOwner 0 0 = some 0 ∧
     ∀ m < 192, m ≠ 0 → core.arrays[m]? ≠ some (ArrayState.lit 0)) ∧
    (∀ v ∈ [(⟨[3, 5], 0, 0⟩ : Proving), ⟨[3], 0, 0⟩],
      let s : State := { alone (thread 0) with cores := { core with proving := some v } :: List.replicate 63 Core.reset }
      (s.cores[0]?.bind (·.proving)) = some v ∧ 3 ∈ v.arrays ∧ v.groups = 0 ∧ v.slices = 0) ∧
    (let s : State := { alone (thread 0) with boot := { State.reset.boot with booted := false } }
     s.busesPass 0 = true ∧ s.boot.booted = false) := by
  refine ⟨by decide +kernel, by decide +kernel, by decide +kernel, by decide +kernel, ⟨rfl, by decide +kernel, by decide +kernel, ?_⟩,
    by decide +kernel, by decide +kernel⟩
  intro m h1 h2
  rw [show core.arrays[m]? = some .free by
    rw [show core.arrays = .lit 0 :: List.replicate 191 .free from rfl, List.getElem?_cons, if_neg h2, List.getElem?_replicate,
      if_pos (by omega)]]
  exact fun e => by cases e

/-- The first columns' sensors have failed, each 8 °C above the rest. -/
def dimmed (k : Nat) : State := { State.reset with
  sensors := List.replicate k ⟨800, some 800, [5], true, 928, 0, 5⟩ ++ List.replicate (64 - k) ⟨800, some 800, [5], false, 800, 0, 5⟩ }

/-- A measurement above the budget, well below it and between; a column whose steps change; a ring that is enabled and one that is not; a
withdrawn column and one with a workgroup; a hub that is ready and one that is not; samples that are taken, that jump, that leave the
range and that repeat, fewer than 256 times and as often, near each other and not; failed sensors with a working
column in their cluster, in their die alone and in neither. -/
theorem test_meets_PowerAndSensors :
    (State.reset.ring.en = false ∧ 800 + 25 * (min (min State.reset.hostStep.toNat State.reset.mgmtStep.toNat) 64 - State.reset.limit) = 2400 ∧
      (2400 < 2401 ∧ 2350 + 50 ≤ 2400 ∧ 2400 < 2351 + 50)) ∧
    (∃ y, State.reset.sensors[0]? = some y ∧ y.failed = false ∧
      ({ core with scol := 3 } : Core).scol ≠ min (min State.reset.hostStep.toNat State.reset.mgmtStep.toNat) 64 - State.reset.limit - y.theta) ∧
    core.arrays.length ≤ 192 ∧
    (let c := { core with withdrawn := true }
     c.withdrawn = true ∧ (∀ u ∈ ([] : List Wg), u.core = 0 → u.resident = false) ∧ core.withdrawn = false) ∧
    (let s := launched [launch] group (thread 0)
     s.boot.ready = true ∧ State.reset.boot.ready = false ∧ 0 < s.tree.length ∧ s.limit ≤ 64 ∧ s.ring.en = false ∧
       ({ s.ring with en := true } : Ring).en = true) ∧
    (let x : Sensor := ⟨800, some 800, [5], false, 800, 0, 5⟩
     x.failed = false ∧ (-320 ≤ (801#16).toInt ∧ (801#16).toInt ≤ 2080 ∧ ¬ (64 < (801#16).toInt - 800 ∨ 64 < 800 - (801#16).toInt) ∧ x.raw ≠ 801) ∧
     (64 < (865#16).toInt - 800 ∧ x.samples ≠ 0) ∧ ¬ (2081#16).toInt ≤ 2080 ∧ (x.raw = 800 ∧ x.run.length < 255)) ∧
    (let x : Sensor := ⟨800, some 800, 5000 :: List.replicate 254 5, false, 800, 0, 5⟩; let run := (5 :: x.run).take 256
     255 ≤ x.run.length ∧ (∃ a ∈ run, ∃ b ∈ run, b + 2000 ≤ a)) ∧
    (let run := ((5 : Nat) :: List.replicate 255 5).take 256; ∀ a ∈ run, ∀ b ∈ run, a < b + 2000) ∧
    (let failed := fun (k n : Nat) => ((dimmed k).sensors[n]?.map (·.failed))
     failed 1 0 = some true ∧ failed 1 1 = some false ∧ (∀ n < 4, failed 4 n = some true) ∧ failed 4 15 = some false ∧
     (∀ n < 16, failed 16 n = some true) ∧ core.scol ≠ 0) := by
  exact ⟨by decide +kernel, ⟨_, rfl, rfl, by decide +kernel⟩, by decide +kernel, ⟨rfl, fun u h => (by cases h), rfl⟩, by decide +kernel,
    by decide +kernel, by decide +kernel, by decide +kernel, by decide +kernel⟩

def slice (incoming outgoing : List (Nat × Nat)) (ready : List Nat) (late : List (Nat × Nat)) : Gang :=
  ⟨5, ⟨0, 2100, [0, 1], outgoing, incoming⟩, ready, false, late⟩

/-- A copy of module 2, in one job with this module's process; no hub, so that entries are read where they stand. -/
def fabricPeer : FabricPeer := ⟨2, 0, 7, 0x100, 0⟩

def fabricProcess : Process := ⟨0x10000, 0, 0, none, none, [0, 2], 0⟩

def peered : State := { alone (thread 0) with processes := [fabricProcess], hubs := [] }

/-- A flit for a module, with the CRC of its bytes. -/
def flit (dest seq ack : BitVec 16) (m : FabricMessage) : Flit :=
  let f : Flit := ⟨dest, 0, 1, seq, ack, [5], 0, m⟩
  { f with crc := Config.flitCrc (flitBytes f) }

/-- A link up at each width, with a flit in sequence, one out of it and one whose CRC fails, that acknowledge a flit sent or none; a flit
for another module with a route and with none, and one that R393 does not allow; addresses of the peer process that are mapped, not
mapped, in a pool and in a pool whose workgroup has gone; a reduction that the link's failure cuts off, and a flit that another link
takes; a slice that follows another, with nothing to save; slices that are ready, not ready and late. -/
theorem test_meets_LinksAndGangs :
    (∀ w ∈ [16, 8, 4], (⟨true, w, 0, 7, 0, []⟩ : FLink).up = true) ∧ (max 4 (16 / 2) ≠ 4 ∧ max 4 (8 / 2) = 4 ∧ max 4 (4 / 2) = 4) ∧
    (∀ m, let f := flit 0 7 3 m
      f.crc = Config.flitCrc (flitBytes f) ∧ f.seq = (⟨true, 16, 0, 7, 0, []⟩ : FLink).seqIn ∧ (flit 0 8 3 m).seq ≠ 7 ∧
      ({ f with crc := f.crc + 1 } : Flit).crc ≠ Config.flitCrc (flitBytes { f with crc := f.crc + 1 }) ∧
      (∃ g ∈ [flit 2 2 0 .other, flit 2 3 0 .other], g.seq = f.ack) ∧ (∀ g ∈ [flit 2 4 0 .other], g.seq ≠ f.ack) ∧
      (f.dest.extractLsb' 12 4 = 0 ∧ f.vc.toNat < 4 ∧ 1 ≤ f.len.toNat ∧ f.len.toNat ≤ 240 ∧ f.payload.length = f.len.toNat) ∧
      f.dest.toNat = (alone (thread 0)).fabricNo.toNat ∧ (flit 2 7 3 m).dest.toNat ≠ (alone (thread 0)).fabricNo.toNat ∧
      (flit 0x1000 7 3 m).dest.extractLsb' 12 4 ≠ 0) ∧
    (let s : State := { alone (thread 0) with flinks := [⟨true, 16, 0, 7, 0, []⟩], routes := [(2, [0])] }
     s.routed 2 = true ∧ s.routed 3 = false ∧ (∀ y ∈ s.flinks, y.sent = []) ∧ s.reductions = [] ∧ (∀ c ∈ s.cores, c.locks = []) ∧
       ∀ h ∈ s.hubs, h.slots = List.replicate 1024 none) ∧
    (let s := peered
     let p := fabricPeer
     s.processes[0]? = some fabricProcess ∧ s.peerOk p = true ∧ s.peerOk { p with module := 3 } = false ∧
       (s.fillWalk 0 0 0x40000).peerPlace 0 0 0x40000 = .page 0x40000 7 ∧ (s.fillWalk 0 0 0x50000000).peerPlace 0 0 0x50000000 = .bad ∧
       s.peerPlace 0 0 (s.poolBase 0).toNat = .pool 0 0 ∧ s.locksFree (s.coreOf 0) ≠ 0 ∧
       { s with wgs := [{ group with state := .saved }] }.peerPlace 0 0 (s.poolBase 0).toNat = .away) ∧
    (let s : State := { alone (thread 0) with
       flinks := [⟨false, 4, 0, 7, 0, []⟩, ⟨true, 4, 0, 7, 0, []⟩], routes := [(2, [0]), (3, [0, 1])], reductions := [⟨3, 0, 9, [0, 2], [], none⟩] }
     s.fabricNo = 0 ∧ (2 : BitVec 16).toNat % 4096 ≠ s.fabricNo.toNat ∧ s.routed ((2 : BitVec 16).toNat % 4096) = false ∧ s.routed 3 = true ∧
       s.wgs[0]? = some group ∧ group.state = .resident) ∧
    (let x : Gang := { slice [] [] [] [] with begun := true }; x.plan.start + x.plan.length ≤ 2100 ∧ x.plan.outgoing = []) ∧
    (let x := slice [(0, 0)] [] [] []
     (∀ c ∈ [0, 107100], let s : State := { alone (thread 0) with gangs := [x], clk := c }
       s.gangs.find? (fun y => y.id = 5) = some x ∧ (∀ z ∈ s.gangs, z.id = 5 → z = x) ∧ s.fabricNo = 0 ∧ s.teamStands (0, 0) = true) ∧
     0 ∈ x.plan.modules ∧ 0 ∉ x.ready ∧ x.late = [] ∧ x.begun = false ∧ 0 ≤ x.plan.start + 50 * 2100 ∧ x.plan.start + 50 * 2100 < 107100) ∧
    (let x := slice [] [] [0, 1] []; (∀ m ∈ x.plan.modules, m ∈ x.ready) ∧ x.begun = false ∧ x.late = []) ∧
    (let x := slice [] [(0, 0)] [1] [(0, 0)]
     let s : State := { machine [thread 0] { group with state := .saved } with gangs := [x] }
     x.late ≠ [] ∧ s.teamGone (0, 0) = true) ∧
    (let x := slice [] [(0, 0)] [1] []; let g := { group with request := some ⟨5, false, false⟩ }
     let s : State := { machine [thread 0] g with gangs := [x], clk := 107100 }
     0 ∉ x.ready ∧ s.wgs[0]? = some g ∧ (g.launch, g.team) ∈ x.plan.outgoing ∧ g.state = .resident) := by
  refine ⟨by decide +kernel, by decide +kernel, fun m => ⟨rfl, rfl, by simp only [flit]; decide, ?_, ⟨_, .tail _ (.head _), rfl⟩, ?_,
    by simp only [flit]; decide, rfl, by simp only [flit]; decide, by simp only [flit]; decide⟩, by decide +kernel,
    by decide +kernel, by decide +kernel, by decide +kernel, by decide +kernel, by decide +kernel, by decide +kernel, by decide +kernel⟩
  · intro h
    have : (flit 0 7 3 m).crc + 1 = (flit 0 7 3 m).crc := h
    bv_omega
  · intro g h; cases h with
    | head => simp only [flit]; decide
    | tail _ h => cases h

/-- Cells that fill a unit; descriptors that hold and that do not, a table in memory whose entry of this rank is this module, one that is
not mapped and one whose page is absent; parts that are alike and one that is not. -/
theorem test_meets_FabricReductions :
    (List.replicate 64 (⟨5, true⟩ : WCell)).length = 64 ∧
    (let d := { drive with d := dregs [(8, 0x00010000), (9, 3), (10, 0x40000), (11, 0)] }
     Safety.Drives (driven d) 0 d (.fred 0 8) ∧ (driven d).fredVerdict 0 0x40000 2 = .ok ∧ (driven d).fredTable 0 0x40000 2 = [0, 0] ∧
     ([0, 0] : List (BitVec 16)).getD 0 0 = (driven d).fabricNo.setWidth 16 ∧ (driven d).reductions = [] ∧
     (driven d).fredVerdict 0 0x50000000 2 = .fault ∧ d.ops.length < 32) ∧
    (let d := { drive with d := dregs [(8, 0x00010000), (9, 3), (10, 0x40000000), (11, 0)] }
     let s : State := { driven d with mem := absent.mem, hubs := List.replicate 4 ⟨[], List.replicate 4 none, [], []⟩ }
     s.fredVerdict 0 0x40000000 2 = .absent 0x40000000 2 ∧ (s.parkAccess 0 0x40000000 2 (.drive 0) 0 1 0).isSome = true) ∧
    (let o := { op (.fred 0 8) [(8, 0x00010000), (9, 3), (10, 0x40000)] with running := true }
     let d := { drive with d := o.dregs, ops := [o] }
     let x : Reduction := ⟨3, 0, 9, [0, 1], [], none⟩
     let s : State := { machine [thread 0] { engineGroup none o with drive := some d } with reductions := [x] }
     s.reductions.find? (fun z => z.group.toNat = x.group.toNat && z.result.isNone) = some x ∧ d.ops.find? (fun z => z.id = x.op) = some o ∧
     (engineGroup none o).tiles[0]? = some (some (tile 2 3 fun i => i * 7 - 9)) ∧
     (let cells : List WCell := List.replicate 6 ⟨5, false⟩; let m : FredMember := ⟨1, 2, [0, 1], 2, 3, 0, 0, packCells cells⟩
      [m].length + 1 = 2 ∧ (0 :: [m].map (·.rank)).Nodup ∧ m.rank < 2 ∧ m.table = x.table ∧ unpackCells 6 m.units = some cells ∧
       ({ m with table := [0, 2] } : FredMember).table ≠ x.table)) := by
  exact ⟨by decide +kernel, ⟨⟨rfl, rfl, by decide +kernel⟩, by decide +kernel⟩, by decide +kernel, by decide +kernel⟩

/-- A module that has not booted and a stopped one; workgroups that an undervoltage kills; quotes at each point of the counter, with one being signed; memory within the DRAM
layer and a register of the window. -/
theorem test_meets_BootAndHost :
    (State.reset.boot.booted = false ∧ State.reset.boot.stopped = false) ∧
    ({ State.reset.boot with stopped := true } : Boot).stopped = true ∧ (State.reset.turn = none ∧ State.reset.inputs = [] ∧
      State.reset.remains = [] ∧ State.reset.reductions = [] ∧ (∀ u ∈ State.reset.wgs, u.state ≠ .resident) ∧ ∀ c ∈ State.reset.cores, c.refit = false) ∧
    (group.resident = true ∧ ({ group with state := .saved } : Wg).state = .saved) ∧
    (State.reset.boot.signing = none ∧ State.reset.boot.quotes = [] ∧ State.reset.flash.counter < 2 ^ 40) ∧
    ¬ ({ State.reset.flash with counter := 2 ^ 40 } : Flash).counter < 2 ^ 40 ∧
    (let b := { State.reset.boot with signing := some (5, 0), quotes := [6] }; b.signing = some (5, 0) ∧ b.quotes = [6]) ∧
    Safety.memoryOk State.reset ∧ (384 * 2 ^ 30 - 4 + ([1, 2, 3, 4] : List Byte).length ≤ 384 * 2 ^ 30) ∧
    (0x100000 + 4 ≤ 2 ^ 25 ∧ 0x100000 % 4 = 0) := by
  exact ⟨by decide +kernel, rfl, by decide +kernel, by decide +kernel, by decide +kernel, by decide +kernel, by decide +kernel,
    by unfold Safety.memoryOk; decide +kernel, by decide +kernel, by decide +kernel⟩

/-- A block that keeps its table and one that does not; a process with a block; a core, alone to hold it, with counts that are due, a
sample that is due and one that waits for the ring, which has room or is full, and a squad of which a thread issued. -/
theorem test_meets_Debugging :
    (let block := ([2, 0x1000, 0x8000, 0, 6, 0, 0, 0, 0x9000, 0, 6, 0, 0, 0, 0xA000, 0] : List Word)
     let mem := memPut [] 0x50000 (block.flatMap fun w => toBytes 4 w.toNat)
     blockOk 0x50000 (fun k => memWord mem (0x50000 + 4 * k)) = true ∧ blockOk 0x50000 (fun k => memWord [] (0x50000 + 4 * k)) = false ∧
     (memDouble mem (0x50000 + 32)).toNat + 32 ≤ 0x50000 ∧ (0 + 1) % 2 ^ ((memWord mem (0x50000 + 40)).toNat % 32) ≠ 0) ∧
    (0 + 1) % 2 ^ ((memWord [] (0x50000 + 40)).toNat % 32) = 0 ∧
    (∀ u ∈ State.reset.wgs, u.resident = false) ∧
    ((∀ y ∈ (debugged [6]).threads, y.hold = none) ∧ (∀ u ∈ (debugged [6]).wgs, u.waiting = [] ∧ ∀ d ∈ u.drive.toList, d.hold = none) ∧
      (debugged [6]).processes[0]?.bind (·.debug) = some 0x50000 ∧
      ∀ c ∈ (debugged [4]).cores, ∀ y ∈ (c.debug).toList, y.samples = [] ∧ (y.words.getD 0 0).getLsbD 1 = false) ∧
    Safety.memoryOk (debugged [6]) ∧
    (let y : Debug := ⟨0, 0x50000, [6], List.replicate 9 1, List.replicate 16 2, some 5, none, [], 0⟩
     let x : Core := { core with debug := some y, note := ⟨5, 0x20004, [0], []⟩ }
     let s : State := { debugged [6] with
       wgs := [{ group with ac0 := some 3 }], cores := x :: List.replicate 63 Core.reset, clk := 65536 }
     (y.words.getD 0 0).getLsbD 1 = true ∧ (y.words.getD 0 0).getLsbD 2 = true ∧ y.bins.length = 9 ∧ y.reasons.length = 16 ∧ y.t0 = some 5 ∧
     y.flushed + 65536 ≤ s.clk ∧ y.samples = [] ∧ (∀ c ∈ s.cores.tail, c.debug = none) ∧ s.nextSlot 0 y = some (0, 0, 0) ∧
     (s.squadOf 0 0).filter (fun j => x.note.ac = 5 ∧ j ∈ x.note.threads) = [0]) ∧
    (debugged [6]).nextSlot 0 ⟨0, 0x50000, [6], [], [], some 0, none, [], 0⟩ = none ∧
    (⟨0, 0x50000, [6], [], [], some 0, none, [7], 0⟩ : Debug).samples = [7] := by
  exact ⟨by decide +kernel, by decide +kernel, by decide +kernel, by decide +kernel, by unfold Safety.memoryOk; decide +kernel, by decide +kernel,
    by decide +kernel, rfl⟩

/-! ## Single steps, with results worked out from the rules -/

def after (i : Instr) (s : State) : Option State :=
  match exec i s with
  | .next t => some t
  | _ => none

/-- Registers and flags of a thread after a word. -/
def regAfter (i : Instr) (th : Thread) (r : BitVec 7) : Option Word := ((after i (alone th)).bind (·.threads[0]?)).map (·.reg r)

def flagsAfter (i : Instr) (th : Thread) : Option Word := ((after i (alone th)).bind (·.threads[0]?)).map (·.flags)

def two (a b : Word) : Thread := regs (thread 0) [(16, a), (24, b)]

/-- A whole step from the state the host places a word in: `movi g1, -5`. -/
theorem test_step_movi : (match step (State.reset.withFetchWord 32 (7#3 ++ 0b00111010#8 ++ 1#7 ++ 16379#14).toNat) with
    | .next t => (t.threads[0]?).map fun th => (th.reg 1, th.pc)
    | _ => none) = some (0xFFFFFFFB, ⟨0x20000, 2⟩) := by decide +kernel

/-- R63, R81. -/
theorem test_addS32Sat : (regAfter (.addS32Sat 7 8 16 24) (two 0x7FFFFFFF 1) 8, flagsAfter (.addS32Sat 7 8 16 24) (two 0x7FFFFFFF 1)) =
    (some 0x7FFFFFFF, some flagSAT) := by decide +kernel
theorem test_subN32Sat : regAfter (.subN32Sat 7 8 16 24) (two 1 2) 8 = some 0 := by decide +kernel
theorem test_mulN64 : (regAfter (.mulN64 7 8 16 24) (two 0xFFFFFFFF 0xFFFFFFFF) 8, regAfter (.mulN64 7 8 16 24) (two 0xFFFFFFFF 0xFFFFFFFF) 9) =
    (some 1, some 0xFFFFFFFE) := by decide +kernel
/-- R82, R83. -/
theorem test_mulhS32 : regAfter (.mulhS32 7 8 16 24) (two 0x80000000 0x80000000) 8 = some 0x40000000 := by decide +kernel
theorem test_divS32 : regAfter (.divS32 7 8 16 24) (two 0x80000000 0xFFFFFFFF) 8 = some 0x80000000 := by decide +kernel
theorem test_divS32_zero : (regAfter (.divS32 7 8 16 24) (two 0xFFFFFFFF 0) 8, flagsAfter (.divS32 7 8 16 24) (two 0xFFFFFFFF 0)) =
    (some 0x80000000, some flagIDZ) := by decide +kernel
theorem test_remS32 : regAfter (.remS32 7 8 16 24) (two 0xFFFFFFF9 4) 8 = some 0xFFFFFFFD := by decide +kernel
/-- R86: the carry in is bit 0 of the destination. -/
theorem test_addc : let th := regs (two 0xFFFFFFFF 0xFFFFFFFF) [(9, 7), (8, 1)]
    (regAfter (.addc 7 8 16 24) th 8, regAfter (.addc 7 8 16 24) th 9) = (some 0xFFFFFFFF, some 1) := by decide +kernel
theorem test_subb : let th := regs (two 0 0) [(8, 1)]
    (regAfter (.subb 7 8 16 24) th 8, regAfter (.subb 7 8 16 24) th 9) = (some 0xFFFFFFFF, some 1) := by decide +kernel
/-- R88-R90. -/
theorem test_sar : regAfter (.sar 7 8 16 24) (two 0x80000000 40) 8 = some 0xFFFFFFFF := by decide +kernel
theorem test_rot : regAfter (.rot 7 8 16 24) (two 0x80000001 33) 8 = some 3 := by decide +kernel
theorem test_bfx : regAfter (.bfx 7 8 16 24) (two 0x000000F0 0x00010404) 8 = some 0xFFFFFFFF := by decide +kernel
theorem test_bfi : regAfter (.bfi 7 8 16 24) (two 0x5 0x0000041C) 8 = some 0x50000000 := by decide +kernel
theorem test_counts : (regAfter (.clz 7 8 16) (two 1 0) 8, regAfter (.ctz 7 8 16) (two 0 0) 8, regAfter (.popc 7 8 16) (two 0xF00F 0) 8) =
    (some 31, some 32, some 8) := by decide +kernel
theorem test_reversals : (regAfter (.brev 7 8 16) (two 1 0) 8, regAfter (.bswap 7 8 16) (two 0x01020304 0) 8) =
    (some 0x80000000, some 0x04030201) := by decide +kernel
/-- R95, R96: a tie to even, inexact; the zeros in the order of their encodings. -/
theorem test_faddRn : (regAfter (.faddRn 7 8 16 24) (two 0x3F800000 0x33800000) 8,
    flagsAfter (.faddRn 7 8 16 24) (two 0x3F800000 0x33800000)) = (some 0x3F800000, some flagNX) := by decide +kernel
theorem test_fmin : regAfter (.fmin 7 8 16 24) (two 0x00000000 0x80000000) 8 = some 0x80000000 := by decide +kernel
/-- R102: the correctly rounded values of √2, 1/√2, 2^1, log₂ 3, sin 1 and cos 1. -/
theorem test_fsqrt : regAfter (.fsqrt 7 8 16 1) (two 0x40000000 0) 8 = some 0x3FB504F3 := by decide +kernel
theorem test_frsq : regAfter (.frsq 7 8 16 1) (two 0x40000000 0) 8 = some 0x3F3504F3 := by decide +kernel
theorem test_fex2 : regAfter (.fex2 7 8 16 1) (two 0x3F800000 0) 8 = some 0x40000000 := by decide +kernel
theorem test_flg2 : regAfter (.flg2 7 8 16 1) (two 0x40400000 0) 8 = some 0x3FCAE00D := by decide +kernel
theorem test_fsin : regAfter (.fsin 7 8 16 1) (two 0x3F800000 0) 8 = some 0x3F576AA4 := by decide +kernel
theorem test_fcos : regAfter (.fcos 7 8 16 1) (two 0x3F800000 0) 8 = some 0x3F0A5140 := by decide +kernel
/-- R103, R104: 1 + 1 in both elements; 1.5 to an integer, ties to even. -/
theorem test_hadd2Bf16 : regAfter (.hadd2Bf16 7 8 16 24) (two 0x3F803F80 0x3F803F80) 8 = some 0x40004000 := by decide +kernel
theorem test_cvtRn : regAfter (.cvtRn 7 8 16 0x02) (two 0x3FC00000 0) 8 = some 2 := by decide +kernel
/-- R141, R185: a signed byte is extended; the load waits, outstanding, with the one register it is to write. -/
theorem test_signReg : signReg 16 1 [0x81] = [(16, 0xFFFFFF81)] := by decide +kernel
theorem test_ldS8 : (((after (.ldS8 7 16 8 1) (alone toPool)).bind (·.threads[0]?)).map fun th =>
    th.loads.map fun l => (l.writes.map (·.1), l.flags, l.far)) = some [([16], 0, false)] := by decide +kernel
/-- R141: two registers, little-endian. -/
theorem test_stD : ((after (.stD 7 16 8 1) (alone (regs toPool [(16, 0x04030201), (17, 0x08070605)]))).map fun t =>
    memRead t.mem (2 ^ 50 + 8) 8) = some [1, 2, 3, 4, 5, 6, 7, 8] := by decide +kernel
/-- R146: the old value to the register, the sum to memory. -/
theorem test_atomAdd : let s : State := { alone (regs toPool [(20, 7)]) with mem := memSet (alone toPool).mem (2 ^ 50) 5 }
    ((after (.atomAdd 7 16 8 20) s).bind fun t => (t.threads[0]?).map fun th => (memWord t.mem (2 ^ 50), th.loads.map (·.writes))) =
    some (12, [[(16, 5)]]) := by decide +kernel
/-- R113, R114. -/
theorem test_br : (((after (.br 7 0x1FFFFF) (alone (thread 0))).bind (·.threads[0]?)).map (·.pc)) = some ⟨0x20000, 0⟩ := by decide +kernel
theorem test_call : (((after (.call 7 4) (alone (thread 0))).bind (·.threads[0]?)).map fun th => (th.pc, th.stack, th.depth)) =
    some (⟨0x20014, 0⟩, [0x2000C], 1) := by decide +kernel
/-- R122, R124: the cause, the code, the next header; the handler's address. -/
theorem test_trap : (((after (.trap 7 0x41) (alone { thread 0 with tvec := 0x40000 })).bind (·.threads[0]?)).map fun th =>
    (th.tcause, th.tval, th.tpc, th.pc)) = some (4, 0x41, 0x2000C, ⟨0x40000, 0⟩) := by decide +kernel
/-- R48, R60: a reserved value of s.rm raises ILLEGAL and leaves it. -/
theorem test_swr_rm : (((after (.swr 7 9 0x008) (alone (regs (thread 0) [(9, 5)]))).bind (·.threads[0]?)).map fun th => (th.tcause, th.rm)) =
    some (1, 0) := by decide +kernel
/-- R159: the lowest member that holds, of two. -/
theorem test_vote : let s := machine [regs (member 0 .none) [(16, 0)], member 2 .collective] (gathering [⟨2, true, [3]⟩])
    ((after (.vote 7 8 16 0 5) s).bind fun t => (t.threads[1]?).map (·.reg 8)) = some 2 := by decide +kernel
/-- R253, R254: a counter that reaches 0 falls through. -/
theorem test_dcmp : ((after (.dcmp 8 16 24 2) (driven { drive with d := dregs [(16, 0xFFFFFFFF), (24, 0)] })).bind (·.drive? 0)).map
    (·.reg 8) = some 1 := by decide +kernel
theorem test_dloop : ((after (.dloop 16 3) (driven { drive with d := dregs [(16, 1)] })).bind (·.drive? 0)).map
    (fun d => (d.reg 16, d.pc)) = some (0, ⟨0x20000, 2⟩) := by decide +kernel
/-- R229: a sum past 2^95 - 1 is clamped, its overflow sticky. -/
theorem test_tadd : let o := op (.tadd 0 1 0) []
    let g := { engineGroup none o with tiles := some (tile 1 1 fun _ => 2 ^ 95 - 1) :: some (tile 1 1 fun _ => 1) :: List.replicate 14 none }
    ((after (.engineOpExecute 0 0) (machine [thread 0] g)).bind (·.wgs[0]?)).map (fun g => (g.tiles[0]?).map (·.map (·.cells))) =
    some (some (some [⟨BitVec.ofInt 96 (2 ^ 95 - 1), true⟩])) := by decide +kernel
/-- R277, R278: one of an expected weight of 32. -/
theorem test_barArv : ((after (.barArv 7 16 3) (alone (regs (thread 0) [(16, 1)]))).bind (·.barrier? 0 (some 3))).map
    (fun x => (x.init, x.phase, x.count, x.expected)) = some (true, 0, 1, 32) := by decide +kernel
/-- R274: the lowest done tag and its status. -/
theorem test_xffr : let s := machine [pair (thread 0) 16 0xE] someDone
    ((after (.xffr 7 16) s).bind (·.threads[0]?)).map (fun th => (th.reg 16, th.reg 17)) = some (2, 2) := by decide +kernel
/-- R198, R202: the first 32 bytes of a lit bank. -/
theorem test_salloc : ((after (.salloc 7 8 16) (pooledOn bothLit (pooled []) [asks 32 7 0])).bind (·.threads[0]?)).map
    (fun th => (th.reg 9 ++ th.reg 8 : BitVec 64)) = some 0x2000000000 := by decide +kernel
/-- R353: the second of three signals. -/
theorem test_eventSignal : ((after (.eventSignalApply 0) (signalled (event 3 1 false) [⟨0, 5, none, false⟩] (thread 0))).map
    fun t => ((t.event 0 5).count, (t.event 0 5).set)) = some (2, false) := by decide +kernel
/-- R360, R374: a step past 64 is refused. -/
theorem test_budget : ((after (.budgetHostWrite 65) State.reset).map (·.hostStep), (after (.budgetMgmtSet 3) State.reset).map (·.mgmtStep)) =
    (some 64, some 3) := by decide +kernel
/-- R363: the tenth measurement in turn above 2,400 W lowers the limit by one step. -/
theorem test_power : (after (.powerMeasurement 2401) { State.reset with overCount := 9 }).map (fun t => (t.limit, t.overCount)) = some (1, 0) := by
  decide +kernel
/-- R393, R394: a flit in sequence moves the link on; one that fails is counted. -/
theorem test_flit : let f := flit 0 7 0 .other
    (after (.flitReceive 0 false f) { State.reset with flinks := [⟨true, 16, 0, 7, 0, []⟩] }).map (·.flinks) = some [⟨true, 16, 0, 7, 1, []⟩] := by
  decide +kernel
/-- R360: the brake takes the step of both inputs to 0. -/
theorem test_budgetEff : ({ State.reset with brake := true, limit := 3 } : State).hubRead 0x100008 = 0x00010300 := by decide +kernel
/-- R400: 64 cells of 5 take 4 bits each behind the head; one sticky bit brings the mask. -/
theorem test_packCells : (packCells (List.replicate 64 ⟨5, false⟩)).length = 33 ∧
    (packCells (⟨5, true⟩ :: List.replicate 63 ⟨5, false⟩)).length = 41 := by decide +kernel

end Sys2Proof.Tests
end

section
/-! The one rule behind the integer words: a word that only writes a register (R78). -/

namespace Sys2Proof.Machine

/-! ## A word that writes one register -/

section RegisterWords

variable {s : State} {k : Nat} {th : Thread} {i : Instr} {d : BitVec 7} {v flags : Word}

/-- A word whose meaning is to set a register to a value of the thread writes that value and raises nothing. -/
theorem writes_of_setReg {val : Thread → Word} (arm : exec i s = onRegs i s fun th => th.setReg d (val th))
    (one : i.slots = 1) (value : val th = v) : Safety.Writes s k th i d v 0 := by
  intro issues
  have same : (th.setReg d v).advance 1 = Safety.wrote th d v 0 1 := by
    simp [Thread.setReg, Thread.advance, Safety.wrote]
  rw [arm, onRegs_runs issues, one, value, same]

/-- A word whose meaning is to put a result with its flags writes the result and raises the flags. -/
theorem writes_of_put {val : Thread → Word × Word} (arm : exec i s = onRegs i s fun th => th.put d (val th))
    (one : i.slots = 1) (value : val th = (v, flags)) : Safety.Writes s k th i d v flags := by
  intro issues
  have same : (th.put d (v, flags)).advance 1 = Safety.wrote th d v flags 1 := rfl
  rw [arm, onRegs_runs issues, one, value, same]

end RegisterWords

end Sys2Proof.Machine
end

section
/-! R82-R85: each value function said in the operations of the statement, then O1 assembled from them. -/

namespace Sys2Proof.Machine

/-! ## High halves of products (R82) -/

/-- The signed product of two words fits 64 bits. -/
theorem toInt_signed_product (a b : Word) :
    (a.signExtend 64 * b.signExtend 64).toInt = a.toInt * b.toInt := by
  rw [BitVec.toInt_mul, BitVec.toInt_signExtend_of_le (by decide), BitVec.toInt_signExtend_of_le (by decide)]
  have ha := BitVec.two_mul_toInt_lt (x := a)
  have ha' := BitVec.le_two_mul_toInt (x := a)
  have hb := BitVec.two_mul_toInt_lt (x := b)
  have hb' := BitVec.le_two_mul_toInt (x := b)
  have bound : |a.toInt * b.toInt| ≤ 2 ^ 31 * 2 ^ 31 := by
    rw [abs_mul]
    exact mul_le_mul (abs_le.mpr ⟨by omega, by omega⟩) (abs_le.mpr ⟨by omega, by omega⟩) (abs_nonneg _) (by decide)
  obtain ⟨low, high⟩ := abs_le.mp bound
  exact Int.bmod_eq_of_le (by omega) (by omega)

/-- The unsigned product of two words fits 64 bits. -/
theorem toNat_unsigned_product (a b : Word) :
    (a.setWidth 64 * b.setWidth 64).toNat = a.toNat * b.toNat := by
  have bound : a.toNat * b.toNat < 2 ^ 32 * 2 ^ 32 := Nat.mul_lt_mul'' a.isLt b.isLt
  rw [BitVec.toNat_mul, BitVec.toNat_setWidth_of_le (by decide), BitVec.toNat_setWidth_of_le (by decide)]
  exact Nat.mod_eq_of_lt bound

theorem wordOfInt_toInt_div (x : BitVec 64) : wordOfInt (x.toInt / 2 ^ 32) = x.extractLsb' 32 32 := by
  apply BitVec.eq_of_toNat_eq
  rw [wordOfInt, BitVec.toNat_ofInt, BitVec.extractLsb'_toNat, BitVec.toInt_eq_toNat_cond, Nat.shiftRight_eq_div_pow]
  have := x.isLt
  split <;> omega

theorem wordOfInt_toNat_div (x : BitVec 64) : wordOfInt ((x.toNat : Int) / 2 ^ 32) = x.extractLsb' 32 32 := by
  apply BitVec.eq_of_toNat_eq
  rw [wordOfInt, BitVec.toNat_ofInt, BitVec.extractLsb'_toNat, Nat.shiftRight_eq_div_pow]
  omega

theorem signed_high_half (a b : Word) :
    wordOfInt (a.s * b.s / 2 ^ 32) = (a.signExtend 64 * b.signExtend 64).extractLsb' 32 32 := by
  rw [← wordOfInt_toInt_div, toInt_signed_product, Word.s, Word.s]

theorem unsigned_high_half (a b : Word) :
    wordOfInt (a.u * b.u / 2 ^ 32) = (a.setWidth 64 * b.setWidth 64).extractLsb' 32 32 := by
  rw [← wordOfInt_toNat_div, toNat_unsigned_product, Nat.cast_mul, Word.u, Word.u]

/-! ## Quotients and remainders (R83) -/

@[simp] theorem divide_signed_zero (a : Word) :
    divide true a 0 = (if 0 ≤ a.toInt then 0x7FFFFFFF else 0x80000000, flagIDZ) := rfl

@[simp] theorem divide_unsigned_zero (a : Word) : divide false a 0 = (0xFFFFFFFF, flagIDZ) := rfl

@[simp] theorem remainder_zero (signed : Bool) (a : Word) : remainder signed a 0 = (a, flagIDZ) := rfl

theorem divide_signed {a b : Word} (h : b ≠ 0) : divide true a b = (a.sdiv b, 0) := by
  have quotient : wordOfInt (a.s.tdiv b.s) = a.sdiv b :=
    BitVec.eq_of_toInt_eq (by rw [wordOfInt, BitVec.toInt_ofInt, BitVec.toInt_sdiv, Word.s, Word.s])
  rw [divide, if_neg h, if_pos rfl, quotient]

theorem divide_unsigned {a b : Word} (h : b ≠ 0) : divide false a b = (a.udiv b, 0) := by
  have quotient : wordOfInt (a.u.tdiv b.u) = a.udiv b := by
    rw [Word.u, Word.u, ← Int.ofNat_tdiv, wordOfInt, BitVec.ofInt_natCast, ← BitVec.toNat_udiv,
      BitVec.ofNat_toNat, BitVec.setWidth_eq]
    rfl
  simp only [divide, if_neg h, Bool.false_eq_true, if_false, quotient]

theorem remainder_signed {a b : Word} (h : b ≠ 0) : remainder true a b = (a.srem b, 0) := by
  have rest : wordOfInt (a.s.tmod b.s) = a.srem b := by
    rw [Word.s, Word.s, ← BitVec.toInt_srem, wordOfInt, BitVec.ofInt_toInt]
  rw [remainder, if_neg h, if_pos rfl, rest]

theorem remainder_unsigned {a b : Word} (h : b ≠ 0) : remainder false a b = (a.umod b, 0) := by
  have rest : wordOfInt (a.u.tmod b.u) = a.umod b := by
    rw [Word.u, Word.u, ← Int.ofNat_tmod, wordOfInt, BitVec.ofInt_natCast, ← BitVec.toNat_umod,
      BitVec.ofNat_toNat, BitVec.setWidth_eq]
    rfl
  simp only [remainder, if_neg h, Bool.false_eq_true, if_false, rest]

/-! ## The lesser and the greater (R84) -/

/-- The model compares with ≤ and the statement with <: at a tie the two words are the same. -/
theorem minS_eq (a b : Word) : minS a b = if a.slt b then a else b := by
  have tie : a.toInt = b.toInt → a = b := BitVec.eq_of_toInt_eq
  simp only [minS, Word.s, BitVec.slt_iff_toInt_lt]
  grind

theorem maxS_eq (a b : Word) : maxS a b = if a.slt b then b else a := by
  have tie : a.toInt = b.toInt → a = b := BitVec.eq_of_toInt_eq
  simp only [maxS, Word.s, BitVec.slt_iff_toInt_lt]
  grind

theorem minU_eq (a b : Word) : minU a b = if a.ult b then a else b := by
  have tie : a.toNat = b.toNat → a = b := BitVec.eq_of_toNat_eq
  simp only [minU, Word.u, BitVec.ult_iff_lt, BitVec.lt_def]
  grind

theorem maxU_eq (a b : Word) : maxU a b = if a.ult b then b else a := by
  have tie : a.toNat = b.toNat → a = b := BitVec.eq_of_toNat_eq
  simp only [maxU, Word.u, BitVec.ult_iff_lt, BitVec.lt_def]
  grind

theorem maxS_comm (a b : Word) : maxS a b = maxS b a := by
  have tie : a.toInt = b.toInt → a = b := BitVec.eq_of_toInt_eq
  simp only [maxS, Word.s]
  grind

theorem maxU_comm (a b : Word) : maxU a b = maxU b a := by
  have tie : a.toNat = b.toNat → a = b := BitVec.eq_of_toNat_eq
  simp only [maxU, Word.u]
  grind

/-- Bounds that cross: the greater of d and a lies above b. -/
theorem clampS_crossed {a b : Word} (d : Word) (h : b.slt a = true) : minS (maxS d a) b = b := by
  have below : b.s < a.s := BitVec.slt_iff_toInt_lt.mp h
  have above : b.s < (maxS d a).s := by unfold maxS; split <;> omega
  exact if_neg (not_le.mpr above)

theorem clampU_crossed {a b : Word} (d : Word) (h : b.ult a = true) : minU (maxU d a) b = b := by
  have below : b.u < a.u := Int.ofNat_lt.mpr (BitVec.ult_iff_lt.mp h)
  have above : b.u < (maxU d a).u := by unfold maxU; split <;> omega
  exact if_neg (not_le.mpr above)

/-! ## Saturated sums (R63, R85) -/

theorem saturate_eq_clamped {x lo hi : Int} (h : lo ≤ hi) : saturate x lo hi = Safety.clamped x lo hi := by
  have value : clampInt x lo hi = max lo (min hi x) := by unfold clampInt; split_ifs <;> omega
  have flag : flagIf (x < lo || hi < x) flagSAT = if lo ≤ x ∧ x ≤ hi then 0 else flagSAT := by
    have outside : (x < lo || hi < x) = !decide (lo ≤ x ∧ x ≤ hi) := by grind
    rw [flagIf, outside]
    by_cases inside : lo ≤ x ∧ x ≤ hi <;> simp [inside]
  rw [saturate, Safety.clamped, value, flag, wordOfInt]

theorem satS32_eq_clamped (x : Int) : satS32 x = Safety.clamped x (-2 ^ 31) (2 ^ 31 - 1) := saturate_eq_clamped (by decide)

theorem satN32_eq_clamped (x : Int) : satN32 x = Safety.clamped x 0 (2 ^ 32 - 1) := saturate_eq_clamped (by decide)

theorem sumThen_eq {sum : Word × Word} {f : Word → Word → Word} {d v : Word} (h : f sum.1 d = v) :
    sumThen sum f d = (v, sum.2) := by rw [sumThen, h]

/-! ## The words of R82-R85 -/

section Words

variable (s : State) (k : Nat) (th : Thread) (g : BitVec 3) (d a b : BitVec 7)

/-- R83 with a zero divisor. -/
theorem quotients_by_zero (zero : th.reg b = 0) :
    Safety.Writes s k th (.divS32 g d a b) d (if 0 ≤ (th.reg a).toInt then 0x7FFFFFFF else 0x80000000) flagIDZ ∧
    Safety.Writes s k th (.divN32 g d a b) d 0xFFFFFFFF flagIDZ ∧
    Safety.Writes s k th (.remS32 g d a b) d (th.reg a) flagIDZ ∧
    Safety.Writes s k th (.remN32 g d a b) d (th.reg a) flagIDZ :=
  ⟨writes_of_put rfl rfl (zero ▸ divide_signed_zero _), writes_of_put rfl rfl (zero ▸ divide_unsigned_zero _),
    writes_of_put rfl rfl (zero ▸ remainder_zero true _), writes_of_put rfl rfl (zero ▸ remainder_zero false _)⟩

/-- R83 with any other divisor. -/
theorem quotients_by_nonzero (nonzero : th.reg b ≠ 0) :
    Safety.Writes s k th (.divS32 g d a b) d ((th.reg a).sdiv (th.reg b)) 0 ∧
    Safety.Writes s k th (.remS32 g d a b) d ((th.reg a).srem (th.reg b)) 0 ∧
    Safety.Writes s k th (.divN32 g d a b) d ((th.reg a).udiv (th.reg b)) 0 ∧
    Safety.Writes s k th (.remN32 g d a b) d ((th.reg a).umod (th.reg b)) 0 :=
  ⟨writes_of_put rfl rfl (divide_signed nonzero), writes_of_put rfl rfl (remainder_signed nonzero),
    writes_of_put rfl rfl (divide_unsigned nonzero), writes_of_put rfl rfl (remainder_unsigned nonzero)⟩

/-- The one quotient that does not fit is -2^31 by -1; it wraps, and the remainder is zero (R83). -/
theorem quotient_that_does_not_fit (least : th.reg a = 0x80000000) (minusOne : th.reg b = 0xFFFFFFFF) :
    Safety.Writes s k th (.divS32 g d a b) d 0x80000000 0 ∧ Safety.Writes s k th (.remS32 g d a b) d 0 0 := by
  have nonzero : th.reg b ≠ 0 := by rw [minusOne]; decide
  obtain ⟨quotient, rest, -, -⟩ := quotients_by_nonzero s k th g d a b nonzero
  rw [least, minusOne] at quotient rest
  exact ⟨quotient, rest⟩

/-- R84: one of two words, or d between two bounds. -/
theorem extremes_write :
    let A := th.reg a; let B := th.reg b; let D := th.reg d
    let up := if D.slt A then A else D
    let upU := if D.ult A then A else D
    Safety.Writes s k th (.minS32 g d a b) d (if A.slt B then A else B) 0 ∧
    Safety.Writes s k th (.maxS32 g d a b) d (if A.slt B then B else A) 0 ∧
    Safety.Writes s k th (.minN32 g d a b) d (if A.ult B then A else B) 0 ∧
    Safety.Writes s k th (.maxN32 g d a b) d (if A.ult B then B else A) 0 ∧
    Safety.Writes s k th (.clampS32 g d a b) d (if up.slt B then up else B) 0 ∧
    Safety.Writes s k th (.clampN32 g d a b) d (if upU.ult B then upU else B) 0 ∧
    (B.slt A = true → Safety.Writes s k th (.clampS32 g d a b) d B 0) ∧
    (B.ult A = true → Safety.Writes s k th (.clampN32 g d a b) d B 0) :=
  ⟨writes_of_setReg rfl rfl (minS_eq _ _), writes_of_setReg rfl rfl (maxS_eq _ _),
    writes_of_setReg rfl rfl (minU_eq _ _), writes_of_setReg rfl rfl (maxU_eq _ _),
    writes_of_setReg rfl rfl (by rw [maxS_eq, minS_eq]), writes_of_setReg rfl rfl (by rw [maxU_eq, minU_eq]),
    fun crossed => writes_of_setReg rfl rfl (clampS_crossed _ crossed),
    fun crossed => writes_of_setReg rfl rfl (clampU_crossed _ crossed)⟩

/-- R85: the flag is the sum's, whichever of the sum and d is chosen. -/
theorem saturated_sums_combined :
    let x := Safety.clamped ((th.reg a).toInt + (th.reg b).toInt) (-2 ^ 31) (2 ^ 31 - 1)
    let y := Safety.clamped ((th.reg a).toNat + (th.reg b).toNat) 0 (2 ^ 32 - 1)
    let D := th.reg d
    Safety.Writes s k th (.addminS32 g d a b) d (if x.1.slt D then x.1 else D) x.2 ∧
    Safety.Writes s k th (.addmaxS32 g d a b) d (if D.slt x.1 then x.1 else D) x.2 ∧
    Safety.Writes s k th (.addminN32 g d a b) d (if y.1.ult D then y.1 else D) y.2 ∧
    Safety.Writes s k th (.addmaxN32 g d a b) d (if D.ult y.1 then y.1 else D) y.2 :=
  ⟨writes_of_put rfl rfl (by rw [satS32_eq_clamped]; exact sumThen_eq (minS_eq _ _)),
    writes_of_put rfl rfl (by rw [satS32_eq_clamped]; exact sumThen_eq (maxS_comm _ _ ▸ maxS_eq _ _)),
    writes_of_put rfl rfl (by rw [satN32_eq_clamped]; exact sumThen_eq (minU_eq _ _)),
    writes_of_put rfl rfl (by rw [satN32_eq_clamped]; exact sumThen_eq (maxU_comm _ _ ▸ maxU_eq _ _))⟩

end Words

/-- Settles O1: each word's value function is the operation of the statement (R82-R85), and a word that writes one
register leaves everything else. -/
theorem productsQuotientsExtremes : Obligations.ProductsQuotientsExtremes := by
  refine ⟨fun s k th g d a b => ⟨writes_of_setReg rfl rfl (signed_high_half _ _),
      writes_of_setReg rfl rfl (unsigned_high_half _ _)⟩,
    fun s k th g d a b => ⟨quotients_by_zero s k th g d a b, quotients_by_nonzero s k th g d a b,
      quotient_that_does_not_fit s k th g d a b⟩,
    extremes_write, saturated_sums_combined, ?example_of_R85⟩
  case example_of_R85 => rfl

end Sys2Proof.Machine
end

section
/-! R88-R90: each value function said bit by bit, then O3 assembled from them. -/

namespace Sys2Proof.Machine

/-! ## Shifts and rotations (R88) -/

theorem shiftR_eq (a : Word) (c : Nat) : shiftR a c = if 32 ≤ c then 0 else a >>> c := by
  unfold shiftR
  split
  next past => exact BitVec.ushiftRight_eq_zero past
  next => rfl

theorem shiftA_eq (a : Word) (c : Nat) :
    shiftA a c = if 32 ≤ c then (if a.msb then BitVec.allOnes 32 else 0) else a.sshiftRight c := by
  unfold shiftA
  split
  next past =>
    ext i hi
    rw [BitVec.getElem_sshiftRight, dif_neg (by omega)]
    cases a.msb
    · simp
    · exact (BitVec.getElem_allOnes i hi).symm
  next => rfl

theorem rotL_eq (a : Word) (c : Nat) : rotL a c = a <<< (c % 32) ||| a >>> ((32 - c % 32) % 32) := by
  rw [rotL, BitVec.rotateLeft_def, Nat.mod_mod]
  by_cases whole : c % 32 = 0
  · have gone : a >>> 32 = 0 := BitVec.ushiftRight_eq_zero (le_refl 32)
    simp [whole, gone]
  · rw [Nat.mod_eq_of_lt (show 32 - c % 32 < 32 by omega)]

/-- An immediate count is below 32 (R94). -/
theorem shiftL_imm (a : Word) (c : BitVec 5) : shiftL a c.toNat = a <<< c.toNat := if_neg (by omega)

theorem rotL_imm (a : Word) (c : BitVec 5) : rotL a c.toNat = a <<< c.toNat ||| a >>> ((32 - c.toNat) % 32) := by
  rw [rotL_eq, Nat.mod_eq_of_lt c.isLt]

/-! ## Bit fields (R89) -/

theorem fieldLen_eq (b : Word) : fieldLen b = min (min (b.extractLsb' 8 6).toNat 32) (32 - fieldPos b) := by
  unfold fieldLen
  dsimp only
  split_ifs <;> omega

theorem fieldPos_lt (b : Word) : fieldPos b < 32 := (b.extractLsb' 0 5).isLt

theorem field_fits (b : Word) : fieldPos b + fieldLen b ≤ 32 := by
  have := fieldPos_lt b
  rw [fieldLen_eq]
  omega

/-- `bfx` takes the field as a word of its own length and extends it with its sign or with zeros. -/
theorem extractField_eq (a b : Word) : extractField a b =
    if b.getLsbD 16 then (a.extractLsb' (fieldPos b) (fieldLen b)).signExtend 32
    else (a.extractLsb' (fieldPos b) (fieldLen b)).setWidth 32 := by
  unfold extractField
  generalize fieldPos b = pos
  generalize fieldLen b = len
  have field : a.toNat / 2 ^ pos % 2 ^ len = (a.extractLsb' pos len).toNat := by
    rw [BitVec.extractLsb'_toNat, Nat.shiftRight_eq_div_pow]
  dsimp only
  rw [field]
  generalize a.extractLsb' pos len = F
  by_cases empty : len = 0
  · subst empty
    simp [BitVec.eq_nil F]
  · rw [if_neg empty, BitVec.signExtend, BitVec.toInt_eq_msb_cond, BitVec.msb_eq_decide, wordOfInt, ← BitVec.ofNat_toNat]
    cases b.getLsbD 16
    · rfl
    · by_cases negative : 2 ^ (len - 1) ≤ F.toNat <;> simp [negative]

theorem extractField_bit (a b : Word) {i : Nat} (h : i < 32) : (extractField a b).getLsbD i =
    if i < fieldLen b then a.getLsbD (fieldPos b + i)
    else 0 < fieldLen b && b.getLsbD 16 && a.getLsbD (fieldPos b + fieldLen b - 1) := by
  have fits := field_fits b
  rw [extractField_eq]
  cases b.getLsbD 16
  · simp only [Bool.false_eq_true, if_false, BitVec.getLsbD_setWidth, BitVec.getLsbD_extractLsb']
    grind
  · simp only [if_true, BitVec.getLsbD_signExtend, BitVec.getLsbD_extractLsb', BitVec.msb_eq_getLsbD_last]
    grind

theorem insertField_bit (d a b : Word) {i : Nat} (h : i < 32) : (insertField d a b).getLsbD i =
    if fieldPos b ≤ i ∧ i < fieldPos b + fieldLen b then a.getLsbD (i - fieldPos b) else d.getLsbD i := by
  have fits := field_fits b
  have mask : (BitVec.ofNat 32 (2 ^ fieldLen b - 1) <<< fieldPos b).getLsbD i =
      decide (fieldPos b ≤ i ∧ i < fieldPos b + fieldLen b) := by
    rw [BitVec.getLsbD_shiftLeft, BitVec.getLsbD_ofNat, Nat.testBit_two_pow_sub_one]
    grind
  simp only [insertField, BitVec.getLsbD_or, BitVec.getLsbD_and, BitVec.getLsbD_not, BitVec.getLsbD_shiftLeft, mask]
  by_cases inside : fieldPos b ≤ i ∧ i < fieldPos b + fieldLen b
  · simp [inside, h, not_lt.mpr inside.1]
  · simp [inside, h]

/-! ## Counts and reversals (R90) -/

theorem popcount_eq (a : Word) : popcount a = BitVec.ofNat 32 ((List.finRange 32).countP fun i => a.getLsbD i) := by
  rw [popcount, ← List.countP_eq_length_filter, ← List.map_coe_finRange_eq_range, List.countP_map]
  rfl

/-- The place of the first index below n that holds, n where none does. -/
theorem find_range_first (p : Nat → Bool) (n : Nat) :
    let m := ((List.range n).find? p).getD n
    m ≤ n ∧ (∀ i < m, p i = false) ∧ (m < n → p m = true) := by
  cases found : (List.range n).find? p with
  | none =>
    rw [List.find?_range_eq_none] at found
    simpa using found
  | some m =>
    obtain ⟨holds, below, before⟩ := List.find?_range_eq_some.mp found
    exact ⟨(List.mem_range.mp below).le, by simpa using before, fun _ => holds⟩

theorem bitReverse_bit (a : Word) {i : Nat} (h : i < 32) : (bitReverse a).getLsbD i = a.getLsbD (31 - i) := by
  rw [bitReverse, BitVec.getLsbD_reverse, BitVec.getMsbD, decide_eq_true h, Bool.true_and]

/-- Byte i / 8 of the result is byte 3 - i / 8 of the operand: the four appended bytes are told apart by i. -/
theorem byteSwap_bit (a : Word) {i : Nat} (h : i < 32) :
    (byteSwap a).getLsbD i = a.getLsbD (8 * (3 - i / 8) + i % 8) := by
  simp only [byteSwap, BitVec.getLsbD_append, BitVec.getLsbD_extractLsb']
  grind

/-! ## The words of R88-R90 -/

section Words

variable (s : State) (k : Nat) (th : Thread) (g : BitVec 3) (d a b : BitVec 7)

/-- R90: `clz` answers how many zeros stand above the highest one. -/
theorem clz_writes : ∃ n ≤ 32, Safety.Writes s k th (.clz g d a) d (BitVec.ofNat 32 n) 0 ∧
    (∀ i < n, (th.reg a).getLsbD (31 - i) = false) ∧ (n < 32 → (th.reg a).getLsbD (31 - n) = true) :=
  have ⟨le, zeros, one⟩ := find_range_first (fun i => (th.reg a).getLsbD (31 - i)) 32
  ⟨_, le, writes_of_setReg rfl rfl rfl, zeros, one⟩

/-- R90: `ctz` answers how many zeros stand below the lowest one. -/
theorem ctz_writes : ∃ n ≤ 32, Safety.Writes s k th (.ctz g d a) d (BitVec.ofNat 32 n) 0 ∧
    (∀ i < n, (th.reg a).getLsbD i = false) ∧ (n < 32 → (th.reg a).getLsbD n = true) :=
  have ⟨le, zeros, one⟩ := find_range_first (fun i => (th.reg a).getLsbD i) 32
  ⟨_, le, writes_of_setReg rfl rfl rfl, zeros, one⟩

end Words

/-- Settles O3: each word's value function is said bit by bit or by the operation of the statement (R88-R90), and a word
that writes one register leaves everything else. -/
theorem bitWords : Obligations.BitWords := by
  refine ⟨?bitwise_and_shifts, ?fields, ?counts_and_reversals⟩
  case bitwise_and_shifts =>
    intro s k th g d a b i c
    exact ⟨writes_of_setReg rfl rfl rfl, writes_of_setReg rfl rfl rfl, writes_of_setReg rfl rfl rfl,
      writes_of_setReg rfl rfl rfl, writes_of_setReg rfl rfl rfl, writes_of_setReg rfl rfl rfl,
      writes_of_setReg rfl rfl rfl, writes_of_setReg rfl rfl rfl,
      writes_of_setReg rfl rfl rfl, writes_of_setReg rfl rfl (shiftR_eq _ _),
      writes_of_setReg rfl rfl (shiftA_eq _ _), writes_of_setReg rfl rfl (rotL_eq _ _),
      writes_of_setReg rfl rfl (shiftL_imm _ _), writes_of_setReg rfl rfl rfl,
      writes_of_setReg rfl rfl rfl, writes_of_setReg rfl rfl (rotL_imm _ _)⟩
  case fields =>
    intro s k th g d a b
    dsimp only
    rw [← fieldPos, ← fieldLen_eq]
    exact ⟨⟨_, writes_of_setReg rfl rfl rfl, fun _ h => extractField_bit _ _ h⟩,
      ⟨_, writes_of_setReg rfl rfl rfl, fun _ h => insertField_bit _ _ _ h⟩⟩
  case counts_and_reversals =>
    intro s k th g d a
    exact ⟨⟨_, writes_of_setReg rfl rfl (popcount_eq _), rfl⟩, clz_writes s k th g d a, ctz_writes s k th g d a,
      ⟨_, writes_of_setReg rfl rfl rfl, fun _ h => bitReverse_bit _ h⟩,
      ⟨_, writes_of_setReg rfl rfl rfl, fun _ h => byteSwap_bit _ h⟩⟩

end Sys2Proof.Machine
end

section
/-! Threads of a squad that wait, and their release: one change made to several threads, the join registers of a squad
(R115-R117), the frame of a release; then O17 assembled from them. -/

namespace Sys2Proof.Machine

/-! ## One change made to several threads -/

/-- The threads at several indices changed alike. -/
def State.updThreads (s : State) (l : List Nat) (f : Thread → Thread) : State := l.foldl (fun s i => s.updThread i f) s

section Several

variable (s : State) (l : List Nat) (f : Thread → Thread)

theorem State.updThreads_rest : s.updThreads l f = { s with threads := (s.updThreads l f).threads } :=
  List.foldlRecOn (motive := fun t : State => t = { s with threads := t.threads }) l _ rfl
    fun _ ih i _ => congrArg (fun t => t.updThread i f) ih

@[simp] theorem State.updThreads_wgs : (s.updThreads l f).wgs = s.wgs := by rw [State.updThreads_rest]

@[simp] theorem State.updThreads_mem : (s.updThreads l f).mem = s.mem := by rw [State.updThreads_rest]

/-- A change that a second time changes nothing more may meet an index twice. -/
theorem State.updThreads_get (again : ∀ x, f (f x) = f x) (i : Nat) :
    (s.updThreads l f).threads[i]? = if i ∈ l then (s.threads[i]?).map f else s.threads[i]? := by
  unfold State.updThreads
  induction l generalizing s with
  | nil => rfl
  | cons n l ih =>
    rw [List.foldl_cons, ih, State.updThread_threads, List.getElem?_modify]
    rcases eq_or_ne n i with rfl | apart
    · simp [Function.comp_def, again]
    · simp [apart, Ne.symm apart]

end Several

theorem mem_squadOf {s : State} {w q i : Nat} :
    i ∈ s.squadOf w q ↔ ∃ x, s.threads[i]? = some x ∧ Safety.ofSquad x w q := by
  rw [State.squadOf, State.threadsOf, List.mem_filter, List.mem_filter, List.mem_range]
  cases at_ : s.threads[i]? with
  | none => simp
  | some x =>
    have inside : i < s.threads.length := (List.getElem?_eq_some_iff.1 at_).1
    simp [inside, Safety.ofSquad]

/-! ## Join registers -/

/-- The bit of a thread's position in a join register. -/
theorem position_bit (th : Thread) : 1#32 <<< th.pos = BitVec.twoPow 32 th.pos := rfl

theorem position_lt (th : Thread) : th.pos < 32 := Nat.mod_lt _ (by decide)

theorem position_bit_ne_zero (th : Thread) : 1#32 <<< th.pos ≠ 0 := by
  intro zero
  have set : (1#32 <<< th.pos).getLsbD th.pos = true := by
    rw [position_bit, BitVec.getLsbD_twoPow]
    simp [position_lt th]
  simp [zero] at set

theorem and_position_bit_eq_zero {x : BitVec 32} {th : Thread} : x &&& 1#32 <<< th.pos = 0 ↔ x.getLsbD th.pos = false := by
  have nonzero := position_bit_ne_zero th
  rw [position_bit] at nonzero ⊢
  rw [BitVec.and_twoPow]
  cases x.getLsbD th.pos
  · simp
  · simpa using nonzero

theorem joinAt_updSquad {s : State} {w q : Nat} {j : BitVec 3} {r : Join} {f : Squad → Squad} :
    Safety.joinAt (s.updSquad w q f) w q j r ↔
      ∃ g sq, s.wgs[w]? = some g ∧ g.squads[q]? = some sq ∧ (f sq).joins[j.toNat]? = some r := by
  simp [Safety.joinAt, State.updSquad]

/-- A change of a squad that leaves its joins. -/
theorem joinAt_updSquad_same {s : State} {w q : Nat} {j : BitVec 3} {r : Join} {f : Squad → Squad}
    (same : ∀ sq, (f sq).joins = sq.joins) : Safety.joinAt (s.updSquad w q f) w q j r ↔ Safety.joinAt s w q j r := by
  rw [joinAt_updSquad]
  simp only [same, Safety.joinAt]

/-- One register of a squad changed. -/
theorem joinAt_modified {s : State} {w q : Nat} {j : BitVec 3} {r : Join} (f : Join → Join)
    (stands : Safety.joinAt s w q j r) :
    Safety.joinAt (s.updSquad w q fun sq => { sq with joins := sq.joins.modify j.toNat f }) w q j (f r) := by
  obtain ⟨g, sq, hg, hsq, hr⟩ := stands
  exact joinAt_updSquad.2 ⟨g, sq, hg, hsq, by simp [hr]⟩

/-- The joins of a squad are parts of its workgroup alone. -/
theorem joinAt_congr {s t : State} {w q : Nat} {j : BitVec 3} {r : Join} (same : t.wgs = s.wgs) :
    Safety.joinAt t w q j r ↔ Safety.joinAt s w q j r := by
  rw [Safety.joinAt, same, ← Safety.joinAt]

/-! ## The release of a join register (R116) -/

/-- What the release of register `j` makes of a thread. -/
def Thread.pastJoin (j : BitVec 3) (th : Thread) : Thread := if th.park = .join j then th.advance 1 else th

theorem Thread.pastJoin_of_parked {th : Thread} {j : BitVec 3} (h : th.park = .join j) : th.pastJoin j = Safety.moved th 1 :=
  if_pos h

theorem Thread.pastJoin_of_not_parked {th : Thread} {j : BitVec 3} (h : th.park ≠ .join j) : th.pastJoin j = th := if_neg h

theorem Thread.pastJoin_again (j : BitVec 3) (th : Thread) : (th.pastJoin j).pastJoin j = th.pastJoin j := by
  by_cases parked : th.park = .join j
  · rw [Thread.pastJoin_of_parked parked]
    exact Thread.pastJoin_of_not_parked nofun
  · rw [Thread.pastJoin_of_not_parked parked, Thread.pastJoin_of_not_parked parked]

/-- A join register cleared, the threads as they were. -/
def State.emptyJoin (s : State) (w q : Nat) (j : BitVec 3) : State :=
  s.updSquad w q fun sq => { sq with joins := sq.joins.set j.toNat ⟨0, 0⟩ }

/-- The release of a join register. -/
def State.releaseJoin (s : State) (w q : Nat) (j : BitVec 3) : State :=
  (s.emptyJoin w q j).updThreads (s.squadOf w q) (Thread.pastJoin j)

section Release

variable {s : State} {w q : Nat} {j : BitVec 3} {r : Join}

theorem testJoin_last (stands : Safety.joinAt s w q j r) (all : r.arrived = r.enrolled) (some : r.arrived ≠ 0) :
    s.testJoin w q j = s.releaseJoin w q j := by
  obtain ⟨g, sq, hg, hsq, hr⟩ := stands
  simp only [State.testJoin, hg, Option.bind_some, hsq, hr, all, ne_eq, all ▸ some, not_false_eq_true, and_self, if_true]
  rfl

theorem testJoin_not_last (stands : Safety.joinAt s w q j r) (not_all : r.arrived ≠ r.enrolled) : s.testJoin w q j = s := by
  obtain ⟨g, sq, hg, hsq, hr⟩ := stands
  simp [State.testJoin, hg, hsq, hr, not_all]

/-- The test of a register releases it or changes nothing. -/
theorem testJoin_cases (s : State) (w q : Nat) (j : BitVec 3) :
    s.testJoin w q j = s.releaseJoin w q j ∨ s.testJoin w q j = s := by
  unfold State.testJoin
  split
  · exact .inr rfl
  · split
    · exact .inr rfl
    · split
      · exact .inl rfl
      · exact .inr rfl

theorem releaseJoin_thread (i : Nat) : (s.releaseJoin w q j).threads[i]? =
    if i ∈ s.squadOf w q then (s.threads[i]?).map (Thread.pastJoin j) else s.threads[i]? :=
  State.updThreads_get _ _ _ (Thread.pastJoin_again j) i

/-- A parked thread of the squad goes on. -/
theorem releaseJoin_parked {i : Nat} {x : Thread} (at_ : s.threads[i]? = some x) (squad : Safety.ofSquad x w q)
    (parked : x.park = .join j) : (s.releaseJoin w q j).threads[i]? = some (Safety.moved x 1) := by
  rw [releaseJoin_thread, if_pos (mem_squadOf.2 ⟨x, at_, squad⟩), at_, Option.map_some, Thread.pastJoin_of_parked parked]

/-- Every other thread stays. -/
theorem releaseJoin_kept (s : State) (w q : Nat) (j : BitVec 3) : Safety.kept s (s.releaseJoin w q j)
    fun i => ∃ x, s.threads[i]? = some x ∧ Safety.ofSquad x w q ∧ x.park = .join j := by
  refine ⟨fun a => by rw [State.releaseJoin, State.updThreads_mem]; rfl, fun i other => ?_⟩
  rw [releaseJoin_thread]
  split
  · next member =>
    obtain ⟨x, at_, squad⟩ := mem_squadOf.1 member
    have stays : x.park ≠ .join j := fun parked => other ⟨x, at_, squad, parked⟩
    rw [at_, Option.map_some, Thread.pastJoin_of_not_parked stays]
  · rfl

/-- The register is clear after its release. -/
theorem joinAt_releaseJoin (stands : Safety.joinAt s w q j r) : Safety.joinAt (s.releaseJoin w q j) w q j ⟨0, 0⟩ := by
  obtain ⟨g, sq, hg, hsq, hr⟩ := stands
  rw [State.releaseJoin, joinAt_congr (State.updThreads_wgs _ _ _), State.emptyJoin, joinAt_updSquad]
  exact ⟨g, sq, hg, hsq, by rw [List.getElem?_set_self (List.getElem?_eq_some_iff.1 hr).1]⟩

/-- What a register holds after the release of one of its squad: what it held, or nothing. -/
theorem joinAt_of_releaseJoin {i : BitVec 3} (after : Safety.joinAt (s.releaseJoin w q j) w q i r) :
    Safety.joinAt s w q i r ∨ r = ⟨0, 0⟩ := by
  rw [State.releaseJoin, joinAt_congr (State.updThreads_wgs _ _ _), State.emptyJoin, joinAt_updSquad] at after
  obtain ⟨g, sq, hg, hsq, hr⟩ := after
  rw [List.getElem?_set] at hr
  split at hr
  · split at hr
    · exact .inr (Option.some.inj hr).symm
    · cases hr
  · exact .inl ⟨g, sq, hg, hsq, hr⟩

end Release

/-! ## `enrol` and `join` (R116) -/

section JoinWords

variable {s : State} {k : Nat} {th : Thread} {g j : BitVec 3} {r : Join}

/-- The state in which a thread has set its arrived bit and waits. -/
def State.arriveJoin (s : State) (k : Nat) (th : Thread) (j : BitVec 3) : State :=
  (s.updSquad th.wg th.squad fun sq => { sq with joins := sq.joins.modify j.toNat fun r =>
    { r with arrived := r.arrived ||| (1#32 <<< th.pos) } }).updThread k fun _ => { th with park := .join j }

theorem arriveJoin_kept (s : State) (k : Nat) (th : Thread) (j : BitVec 3) : Safety.kept s (s.arriveJoin k th j) (· = k) :=
  ⟨fun _ => rfl, fun _ other => State.updThread_get_ne _ other⟩

theorem arriveJoin_thread (stands : s.threads[k]? = some th) :
    (s.arriveJoin k th j).threads[k]? = some { th with park := .join j } :=
  State.updThread_get (s := s.updSquad _ _ _) stands _

theorem joinAt_arriveJoin (register : Safety.joinAt s th.wg th.squad j r) :
    Safety.joinAt (s.arriveJoin k th j) th.wg th.squad j ⟨r.arrived ||| 1#32 <<< th.pos, r.enrolled⟩ :=
  joinAt_modified (fun r => { r with arrived := r.arrived ||| (1#32 <<< th.pos) }) register

/-- `join` of a thread that its register does not enrol. -/
theorem join_passes (register : Safety.joinAt s th.wg th.squad j r) (awake : th.park ≠ .join j)
    (apart : r.enrolled &&& 1#32 <<< th.pos = 0) :
    Safety.Leads s k th (.join g j) (s.updThread k fun _ => Safety.moved th 1) := by
  intro issues
  obtain ⟨u, sq, hu, hsq, hr⟩ := register
  have arm : exec (.join g j) s = .next _ := onThread_runs issues
  rw [arm, if_neg awake]
  simp only [hu, Option.bind_some, hsq, hr, Option.getD_some, and_position_bit_eq_zero.1 apart, Bool.not_false, if_true]
  rw [State.updThread_const issues.thread]
  rfl

/-- `join` of a thread that its register enrols: it arrives, and the register is tested. -/
theorem join_arrives (register : Safety.joinAt s th.wg th.squad j r) (awake : th.park ≠ .join j)
    (enrolled : r.enrolled &&& 1#32 <<< th.pos ≠ 0) :
    Safety.Leads s k th (.join g j) ((s.arriveJoin k th j).testJoin th.wg th.squad j) := by
  intro issues
  obtain ⟨u, sq, hu, hsq, hr⟩ := register
  have set : r.enrolled.getLsbD th.pos = true := Bool.eq_true_of_not_eq_false fun clear =>
    enrolled (and_position_bit_eq_zero.2 clear)
  have arm : exec (.join g j) s = .next _ := onThread_runs issues
  rw [arm, if_neg awake]
  simp only [hu, Option.bind_some, hsq, hr, Option.getD_some, set, Bool.not_true, Bool.false_eq_true, if_false]
  rw [State.updThread_const (s := s.updSquad _ _ _) issues.thread]
  rfl

theorem enrol_enrols (register : Safety.joinAt s th.wg th.squad j r) :
    Safety.Reads s k th (.enrol g j) fun t =>
      t.threads[k]? = some (Safety.moved th 1) ∧ Safety.kept s t (· = k) ∧
      Safety.joinAt t th.wg th.squad j ⟨r.arrived, r.enrolled ||| 1#32 <<< th.pos⟩ :=
  fun issues => ⟨_, onThread_runs issues, State.updThread_get (s := s.updSquad _ _ _) issues.thread _,
    ⟨fun _ => rfl, fun _ other => State.updThread_get_ne _ other⟩,
    joinAt_modified (fun r => { r with enrolled := r.enrolled ||| (1#32 <<< th.pos) }) register⟩

/-- The thread waits while another enrolled one has still to arrive. -/
theorem join_waits (register : Safety.joinAt s th.wg th.squad j r) (awake : th.park ≠ .join j)
    (enrolled : r.enrolled &&& 1#32 <<< th.pos ≠ 0) (not_last : r.arrived ||| 1#32 <<< th.pos ≠ r.enrolled) :
    Safety.Reads s k th (.join g j) fun t =>
      t.threads[k]? = some { th with park := .join j } ∧ Safety.kept s t (· = k) ∧
      Safety.joinAt t th.wg th.squad j ⟨r.arrived ||| 1#32 <<< th.pos, r.enrolled⟩ := by
  intro issues
  have arrived := joinAt_arriveJoin (k := k) register
  have answer := join_arrives register awake enrolled issues
  rw [testJoin_not_last arrived not_last] at answer
  exact ⟨_, answer, arriveJoin_thread issues.thread, arriveJoin_kept s k th j, arrived⟩

/-- The last enrolled thread's arrival releases the register: the arriving thread is parked there too by then. -/
theorem join_releases (register : Safety.joinAt s th.wg th.squad j r) (awake : th.park ≠ .join j)
    (enrolled : r.enrolled &&& 1#32 <<< th.pos ≠ 0) (last : r.arrived ||| 1#32 <<< th.pos = r.enrolled) :
    Safety.Reads s k th (.join g j) fun t =>
      Safety.joinAt t th.wg th.squad j ⟨0, 0⟩ ∧
      Safety.kept s t (fun i => ∃ x : Thread, s.threads[i]? = some x ∧ (i = k ∨ Safety.ofSquad x th.wg th.squad ∧ x.park = .join j)) ∧
      ∀ (i : Nat) (x : Thread), s.threads[i]? = some x → (i = k ∨ Safety.ofSquad x th.wg th.squad ∧ x.park = .join j) →
        t.threads[i]? = some (Safety.moved x 1) := by
  intro issues
  have arrived := joinAt_arriveJoin (k := k) register
  have nonzero : r.arrived ||| 1#32 <<< th.pos ≠ 0 := by
    rw [last]
    intro empty
    exact enrolled (by rw [empty]; exact BitVec.zero_and)
  have answer := join_arrives register awake enrolled issues
  rw [testJoin_last arrived last nonzero] at answer
  have here := arriveJoin_thread (j := j) issues.thread
  have elsewhere := (arriveJoin_kept s k th j).2
  have released := releaseJoin_kept (s.arriveJoin k th j) th.wg th.squad j
  refine ⟨_, answer, joinAt_releaseJoin arrived, ⟨released.1, fun i other => ?_⟩, fun i x at_ goes => ?_⟩
  · have apart : i ≠ k := fun e => other ⟨th, e ▸ issues.thread, .inl e⟩
    rw [released.2 i, elsewhere i apart]
    rintro ⟨x, at_, waits⟩
    exact other ⟨x, elsewhere i apart ▸ at_, .inr waits⟩
  · by_cases e : i = k
    · subst e
      obtain rfl : th = x := Option.some.inj (issues.thread.symm.trans at_)
      exact releaseJoin_parked (x := { th with park := .join j }) here ⟨rfl, rfl⟩ rfl
    · obtain ⟨squad, parked⟩ := goes.resolve_left e
      exact releaseJoin_parked ((elsewhere i e).trans at_) squad parked

end JoinWords

/-- Settles O17: a `join` that its register enrols arrives and tests the register, which is released as a whole or left
(R116). -/
theorem enrolAndJoin : Obligations.EnrolAndJoin := by
  intro s k th g j r bit register awake
  exact ⟨enrol_enrols register, join_passes register awake, join_waits register awake, join_releases register awake⟩

end Sys2Proof.Machine
end

section
/-! Taking a trap outside speculation and handlers (R122): which threads it touches besides its own, and the join bits it
clears. -/

namespace Sys2Proof.Machine

/-! ## Threads that a leaving thread may release (R117, R132) -/

/-- Thread `i` of the squad waits at a `join` or for its `try.w` group to form. -/
def Waits (s : State) (w q i : Nat) : Prop :=
  ∃ (x : Thread) (j : BitVec 3), s.threads[i]? = some x ∧ Safety.ofSquad x w q ∧ (x.park = .join j ∨ x.park = .tryGroup false)

/-- A step that touches none but waiting threads. -/
def Releases (w q : Nat) (s t : State) : Prop := Safety.kept s t (Waits s w q)

section Waiting

variable {s t u : State} {w q : Nat}

theorem waits_congr {i : Nat} (same : t.threads[i]? = s.threads[i]?) : Waits t w q i ↔ Waits s w q i := by
  rw [Waits, same, ← Waits]

theorem Releases.refl (s : State) : Releases w q s s := ⟨fun _ => rfl, fun _ _ => rfl⟩

/-- A thread that waits after the first step waited before it. -/
theorem Releases.trans (first : Releases w q s t) (second : Releases w q t u) : Releases w q s u := by
  refine ⟨fun a => (second.1 a).trans (first.1 a), fun i awake => ?_⟩
  have same := first.2 i awake
  exact (second.2 i (mt (waits_congr same).1 awake)).trans same

theorem releases_updSquad (s : State) (f : Squad → Squad) : Releases w q s (s.updSquad w q f) := ⟨fun _ => rfl, fun _ _ => rfl⟩

/-- What a register's release touches waits there. -/
theorem releases_testJoin (s : State) (j : BitVec 3) : Releases w q s (s.testJoin w q j) := by
  obtain released | same := testJoin_cases s w q j
  · have kept := releaseJoin_kept s w q j
    rw [released]
    exact ⟨kept.1, fun i awake => kept.2 i fun ⟨x, at_, squad, parked⟩ => awake ⟨x, j, at_, squad, .inl parked⟩⟩
  · rw [same]
    exact Releases.refl s

theorem releases_leaveJoins (s : State) (pos : Nat) : Releases w q s (s.leaveJoins w q pos) :=
  (releases_updSquad s _).trans <| List.foldlRecOn (motive := Releases w q _) _ _ (Releases.refl _)
    fun _ ih j _ => ih.trans (releases_testJoin _ (BitVec.ofNat 3 j))

/-- What a group's forming makes of a thread. -/
def Thread.intoGroup (th : Thread) : Thread := if th.park = .tryGroup false then { th with park := .tryGroup true } else th

theorem Thread.intoGroup_of_not_waiting {th : Thread} (h : th.park ≠ .tryGroup false) : th.intoGroup = th := if_neg h

theorem Thread.intoGroup_again (th : Thread) : th.intoGroup.intoGroup = th.intoGroup := by
  by_cases waits : th.park = .tryGroup false
  · have enters : th.intoGroup = { th with park := .tryGroup true } := if_pos waits
    rw [enters]
    exact Thread.intoGroup_of_not_waiting nofun
  · rw [Thread.intoGroup_of_not_waiting waits, Thread.intoGroup_of_not_waiting waits]

theorem fixGroup_eq (s : State) (w q : Nat) :
    s.fixGroup w q = if s.groupReady w q then s.updThreads (s.squadOf w q) Thread.intoGroup else s := rfl

@[simp] theorem fixGroup_wgs (s : State) (w q : Nat) : (s.fixGroup w q).wgs = s.wgs := by
  rw [fixGroup_eq]
  split
  · exact State.updThreads_wgs _ _ _
  · rfl

theorem releases_fixGroup (s : State) : Releases w q s (s.fixGroup w q) := by
  rw [fixGroup_eq]
  split
  · refine ⟨fun a => by rw [State.updThreads_mem], fun i awake => ?_⟩
    rw [State.updThreads_get _ _ _ Thread.intoGroup_again]
    split
    · next member =>
      obtain ⟨x, at_, squad⟩ := mem_squadOf.1 member
      have stays : x.park ≠ .tryGroup false := fun waits => awake ⟨x, 0, at_, squad, .inr waits⟩
      rw [at_, Option.map_some, Thread.intoGroup_of_not_waiting stays]
    · rfl
  · exact Releases.refl s

theorem releases_absentNow (s : State) (pos : Nat) : Releases w q s (s.absentNow w q pos) :=
  ((releases_updSquad s _).trans (releases_updSquad _ _)).trans (releases_fixGroup _)

end Waiting

/-! ## The join bits of a leaving thread (R117) -/

/-- No join register of the squad holds the position's bits. -/
def OutOfJoins (s : State) (w q pos : Nat) : Prop :=
  ∀ j r, Safety.joinAt s w q j r → r.enrolled.getLsbD pos = false ∧ r.arrived.getLsbD pos = false

section Leaving

variable {s : State} {w q pos : Nat}

theorem joinAt_absentNow {p : Nat} {j : BitVec 3} {r : Join} :
    Safety.joinAt (s.absentNow w q p) w q j r ↔ Safety.joinAt s w q j r := by
  rw [State.absentNow, joinAt_congr (fixGroup_wgs _ _ _), State.formGathers, joinAt_updSquad_same, State.withdrawArrival,
    joinAt_updSquad_same]
  · exact fun _ => rfl
  · exact fun _ => rfl

theorem outOfJoins_testJoin (j : BitVec 3) (out : OutOfJoins s w q pos) : OutOfJoins (s.testJoin w q j) w q pos := by
  obtain released | same := testJoin_cases s w q j
  · rw [released]
    intro i r after
    obtain before | rfl := joinAt_of_releaseJoin after
    · exact out i r before
    · exact ⟨BitVec.getLsbD_zero, BitVec.getLsbD_zero⟩
  · rwa [same]

/-- Leaving the enrolments clears the thread's bits, and the releases that follow set none. -/
theorem outOfJoins_leaveJoins (s : State) (w q : Nat) (inSquad : pos < 32) : OutOfJoins (s.leaveJoins w q pos) w q pos := by
  refine List.foldlRecOn (motive := fun t => OutOfJoins t w q pos) _ _ ?_
    fun _ out j _ => outOfJoins_testJoin (BitVec.ofNat 3 j) out
  intro j r at_
  obtain ⟨u, sq, -, -, hr⟩ := joinAt_updSquad.1 at_
  obtain ⟨before, -, rfl⟩ := List.getElem?_map ▸ hr |> Option.map_eq_some_iff.1
  have off : (~~~(1#32 <<< pos)).getLsbD pos = false := by simp [inSquad]
  exact ⟨by rw [BitVec.getLsbD_and, off, Bool.and_false], by rw [BitVec.getLsbD_and, off, Bool.and_false]⟩

theorem outOfJoins_absentNow (p : Nat) (out : OutOfJoins s w q pos) : OutOfJoins (s.absentNow w q p) w q pos :=
  fun j r at_ => out j r (joinAt_absentNow.1 at_)

end Leaving

/-! ## Taking a trap (R122) -/

/-- Where a trap's return point stands: the next header after TRAP and BRK, else the word. -/
def Thread.returnPoint (th : Thread) (after : Bool) : VAddr := if after then nextHeader th.pc th.clause else wordAddr th.pc

/-- The thread that has taken a trap. -/
def Thread.trapped (th : Thread) (cause : BitVec 8) (val : Word) (after : Bool) : Thread :=
  { th with
    tcause := cause.setWidth 32, tval := val, tpc := th.returnPoint after
    handler := some (if after then ⟨th.returnPoint after, 0⟩ else th.pc)
    pc := ⟨th.tvec, 0⟩, park := .none, unmatched := false, recheck := false }

section Trap

variable {s : State} {k : Nat} {th : Thread} (cause : BitVec 8) (val : Word) (after : Bool)

theorem takeTrap_eq (here : s.threads[k]? = some th) (calm : th.spec = none) (outside : th.handler = none) :
    s.takeTrap k cause val after = (((s.updThread k fun _ => th.trapped cause val after).leaveJoins th.wg th.squad th.pos
      ).absentNow th.wg th.squad th.pos) := by
  simp only [State.takeTrap, here, calm, outside, Option.isSome_none, Bool.false_eq_true, if_false]
  rw [State.updThread_const here]
  rfl

/-- The trapping thread waits for nothing, so no release meets it. -/
theorem takeTrap_saves (here : s.threads[k]? = some th) (calm : th.spec = none) (outside : th.handler = none) :
    let t := s.takeTrap k cause val after
    t.threads[k]? = some (th.trapped cause val after) ∧ Safety.kept s t (fun i => i = k ∨ Waits s th.wg th.squad i) ∧
      OutOfJoins t th.wg th.squad th.pos := by
  intro t
  have enters := State.updThread_get here fun _ => th.trapped cause val after
  have others {i : Nat} := State.updThread_get_ne (s := s) (k := k) (j := i) fun _ => th.trapped cause val after
  have eq : t = _ := takeTrap_eq cause val after here calm outside
  have released : Releases th.wg th.squad (s.updThread k fun _ => th.trapped cause val after) t :=
    eq ▸ (releases_leaveJoins _ _).trans (releases_absentNow _ _)
  refine ⟨?own_thread, ⟨released.1, ?other_threads⟩, ?join_bits⟩
  case own_thread =>
    have awake : ¬ Waits (s.updThread k fun _ => th.trapped cause val after) th.wg th.squad k := by
      rintro ⟨x, j, at_, -, waits⟩
      obtain rfl := Option.some.inj (enters.symm.trans at_)
      exact waits.elim nofun nofun
    exact (released.2 k awake).trans enters
  case other_threads =>
    intro i untouched
    obtain ⟨apart, awake⟩ := not_or.1 untouched
    exact (released.2 i (mt (waits_congr (others apart)).1 awake)).trans (others apart)
  case join_bits =>
    rw [eq]
    exact outOfJoins_absentNow _ (outOfJoins_leaveJoins _ _ _ (position_lt th))

end Trap

end Sys2Proof.Machine
end

section
/-! A workgroup that fails (R123, R301, R303): its record goes out, its entries stay only where committed, and it ends
failed. -/

namespace Sys2Proof.Machine

/-! ## What leaves over the links -/

/-- Two states that differ in the fabric links' traffic alone. -/
def Sent (s t : State) : Prop := ∃ fl, t = { s with flinks := fl }

theorem Sent.refl (s : State) : Sent s s := ⟨s.flinks, rfl⟩

theorem Sent.trans {s t u : State} (a : Sent s t) (b : Sent t u) : Sent s u := by
  obtain ⟨_, rfl⟩ := a
  obtain ⟨fl, rfl⟩ := b
  exact ⟨fl, rfl⟩

theorem Sent.wgs {s t : State} (h : Sent s t) : t.wgs = s.wgs := by
  obtain ⟨_, rfl⟩ := h
  rfl

theorem Sent.failures {s t : State} (h : Sent s t) : t.failures = s.failures := by
  obtain ⟨_, rfl⟩ := h
  rfl

theorem sent_foldl {α : Type} (l : List α) (f : State → α → State) (each : ∀ s x, Sent s (f s x)) (s : State) :
    Sent s (l.foldl f s) :=
  List.foldlRecOn (motive := Sent s) l f (Sent.refl s) fun t ih x _ => ih.trans (each t x)

theorem sent_sendFlit (s : State) (m : Nat) (vc : BitVec 8) (x : FabricMessage) : Sent s (s.sendFlit m vc x) := by
  unfold State.sendFlit
  dsimp only
  split
  · exact ⟨_, rfl⟩
  · exact Sent.refl s

theorem sent_endFar (s : State) (c : Copy) : Sent s (s.endFar c) := by
  unfold State.endFar
  split
  · split
    · exact sent_sendFlit _ _ _ _
    · exact Sent.refl s
  · exact Sent.refl s

theorem sent_failReductions (s : State) (w : Nat) :
    Sent { s with reductions := s.reductions.filter (·.wg ≠ w) } (s.failReductions w) :=
  sent_foldl _ _ (fun t _ => sent_foldl _ _ (fun t m => sent_sendFlit t m _ _) t) _

/-! ## The workgroup that leaves its core -/

/-- The workgroup after its work is dropped: committed entries alone are left, and none of them is held back. -/
def Wg.committedOnly (g : Wg) : Wg :=
  { g with
    hay := (g.hay.filter (·.committed)).map fun e => { e with held := false }
    due := [], waiting := [], drive := g.drive.map fun d => { d with ops := [], hold := none }
    squads := g.squads.map fun q => { q with gathers := [] } }

theorem Wg.committedOnly_hay (g : Wg) : ∀ e ∈ g.committedOnly.hay, e.committed = true := by
  intro e member
  obtain ⟨_, kept, rfl⟩ := List.mem_map.1 member
  exact (List.mem_filter.1 kept).2

theorem dropWork_wgs (s : State) (w : Nat) : (s.dropWork w).wgs = s.wgs.modify w Wg.committedOnly := by
  unfold State.dropWork
  dsimp only [State.updWg_wgs]
  rw [(sent_failReductions _ w).wgs]
  exact congrArg (·.modify w Wg.committedOnly) (sent_foldl _ _ sent_endFar s).wgs

theorem dropWork_failures (s : State) (w : Nat) : (s.dropWork w).failures = s.failures := by
  unfold State.dropWork
  dsimp only [State.updWg_failures]
  rw [(sent_failReductions _ w).failures]
  exact (sent_foldl _ _ sent_endFar s).failures

/-- A step that leaves a workgroup's entries and the failure records. -/
structure SameHay (w : Nat) (s t : State) : Prop where
  hay : ∀ g, s.wgs[w]? = some g → ∃ g', t.wgs[w]? = some g' ∧ g'.hay = g.hay
  failures : t.failures = s.failures

theorem SameHay.refl (w : Nat) (s : State) : SameHay w s s := ⟨fun g h => ⟨g, h, rfl⟩, rfl⟩

theorem SameHay.trans {w : Nat} {s t u : State} (a : SameHay w s t) (b : SameHay w t u) : SameHay w s u := by
  refine ⟨fun g h => ?_, b.failures.trans a.failures⟩
  obtain ⟨g', h', e⟩ := a.hay g h
  obtain ⟨g'', h'', e'⟩ := b.hay g' h'
  exact ⟨g'', h'', e'.trans e⟩

theorem SameHay.of_wg {w : Nat} {s t : State} (wg : t.wgs[w]? = s.wgs[w]?) (failures : t.failures = s.failures) : SameHay w s t :=
  ⟨fun g h => ⟨g, wg.trans h, rfl⟩, failures⟩

/-- The workgroup changed, but for its entries, in a state that has left it. -/
theorem SameHay.updWg {w : Nat} {s t : State} {f : Wg → Wg} (stands : SameHay w s t) (same : ∀ g, (f g).hay = g.hay) :
    SameHay w s (t.updWg w f) :=
  stands.trans ⟨fun g h => ⟨f g, by simp [h], same g⟩, rfl⟩

theorem sameHay_endSwap (s : State) (w : Nat) : SameHay w s (s.endSwap w) := by
  unfold State.endSwap
  split
  · split
    · refine ((SameHay.refl w s).updWg ?_).trans (.of_wg rfl rfl)
      exact fun _ => rfl
    · exact .refl w s
  · exact .refl w s

/-- The entries that go nowhere are other workgroups'. -/
theorem goneEntries_wg (s : State) (w : Nat) : (s.goneEntries w).wgs[w]? = s.wgs[w]? := by
  cases here : s.wgs[w]? with
  | none => simp [State.goneEntries, here]
  | some g => simp [State.goneEntries, here]

theorem sameHay_revoke (s : State) (w : Nat) : SameHay w s (s.revoke w) := by
  unfold State.revoke
  split
  · exact .refl w s
  · split
    · exact .refl w s
    · exact SameHay.updWg (.of_wg (goneEntries_wg s w) rfl) fun _ => rfl

theorem sameHay_freeRoom (s : State) (w : Nat) : SameHay w s (s.freeRoom w) := by
  unfold State.freeRoom
  split
  · exact .refl w s
  · exact SameHay.updWg (.of_wg rfl rfl) fun _ => rfl

theorem sameHay_endOffset (s : State) (w core : Nat) : SameHay w s (s.endOffset core) := by
  unfold State.endOffset
  split
  · exact .refl w s
  · exact .of_wg rfl rfl

theorem endOffset_wgs (s : State) (core : Nat) : (s.endOffset core).wgs = s.wgs := by
  unfold State.endOffset
  split
  · rfl
  · rfl

/-- A workgroup that leaves its core has its committed entries alone left, in the state given. -/
theorem leaveCore_wg {s : State} {w : Nat} {g : Wg} (st : WgState) (here : s.wgs[w]? = some g) :
    ∃ g', (s.leaveCore w st).wgs[w]? = some g' ∧ g'.state = st ∧ ∀ e ∈ g'.hay, e.committed = true := by
  obtain ⟨g₁, at₁, -⟩ := (sameHay_endSwap s w).hay g here
  have at₂ : ((s.endSwap w).dropWork w).wgs[w]? = some g₁.committedOnly := by simp [dropWork_wgs, at₁]
  obtain ⟨g₃, at₃, same⟩ := ((sameHay_revoke _ w).trans (sameHay_freeRoom _ w)).hay _ at₂
  refine ⟨{ g₃ with state := st }, ?_, rfl, ?_⟩
  · rw [State.leaveCore, endOffset_wgs]
    simp [at₃]
  · have entries : ({ g₃ with state := st } : Wg).hay = g₁.committedOnly.hay := same
    rw [entries]
    exact g₁.committedOnly_hay

theorem leaveCore_failures (s : State) (w : Nat) (st : WgState) : (s.leaveCore w st).failures = s.failures :=
  calc (s.leaveCore w st).failures
    _ = ((((s.endSwap w).dropWork w).revoke w).freeRoom w).failures := (sameHay_endOffset _ w _).failures
    _ = ((s.endSwap w).dropWork w).failures := ((sameHay_revoke _ w).trans (sameHay_freeRoom _ w)).failures
    _ = (s.endSwap w).failures := dropWork_failures _ w
    _ = s.failures := (sameHay_endSwap s w).failures

/-! ## The record (R303, R358) -/

theorem sendUp_failure_wgs (s : State) (stile : Nat) (r : BitVec 256) : (s.sendUp stile (.failure r)).wgs = s.wgs := by
  unfold State.sendUp
  split
  · rfl
  · split
    · rfl
    · rfl

/-- With a permit and nothing before it a record goes out at once. -/
theorem sendUp_failure_failures {s : State} {stile : Nat} {l : CmdLink} (r : BitVec 256) (link : s.links[stile]? = some l)
    (permit : l.up ≠ 0) (first : l.upHeld = []) : (s.sendUp stile (.failure r)).failures = s.failures ++ [r] := by
  simp [State.sendUp, link, permit, first, State.take_]

section Failing

variable {s : State} {w : Nat} (addr : BitVec 64) (tval : Word) (cause : BitVec 8) (source : BitVec 4) (tid : BitVec 10)

theorem failWg_wg {g : Wg} (here : s.wgs[w]? = some g) :
    ∃ g', (s.failWg w addr tval cause source tid).wgs[w]? = some g' ∧ g'.state = .failed ∧ ∀ e ∈ g'.hay, e.committed = true :=
  leaveCore_wg .failed ((congrArg (·[w]?) (sendUp_failure_wgs s _ _)).trans here)

theorem failWg_failures {l : CmdLink} (link : s.links[s.coreOf w / 4]? = some l) (permit : l.up ≠ 0) (first : l.upHeld = []) :
    (s.failWg w addr tval cause source tid).failures =
      s.failures ++ [failureRecord addr tval cause source 2 tid (s.wgidOf w) (s.launchId w)] :=
  (leaveCore_failures _ w .failed).trans (sendUp_failure_failures _ link permit first)

end Failing

end Sys2Proof.Machine
end

section
/-! A trap in a handler and in a lone speculation, the words `trap`, `brk` and `tret`; then O18 assembled from them. -/

namespace Sys2Proof.Machine

/-! ## Rolling back (R131) -/

/-- The checkpoint with the loads that were outstanding at its `try` completed in it. -/
def Thread.settled (th : Thread) (sp : Spec) : Checkpoint :=
  (th.loads.filter fun l => l.id < sp.since).foldl Checkpoint.complete sp.check

theorem Thread.settled_of_none_before {th : Thread} {sp : Spec} (since : ∀ l ∈ th.loads, sp.since ≤ l.id) :
    th.settled sp = sp.check := by
  have none_before : th.loads.filter (fun l => l.id < sp.since) = [] :=
    List.filter_eq_nil_iff.2 fun l member => by simpa using since l member
  rw [Thread.settled, none_before, List.foldl_nil]

section Words

variable {s : State} {k : Nat} {th : Thread}

/-- What a rollback makes of its thread, in what the statements of traps read. -/
theorem rollback_thread {sp : Spec} (here : s.threads[k]? = some th) (speculates : th.spec = some sp)
    (cause : BitVec 8) (val : Word) : ∃ x, (s.rollback k 4 cause val).threads[k]? = some x ∧
      x.tcause = 0x100 ||| cause.setWidth 32 ∧ x.tval = val ∧ x.tac = 4 ∧ x.pc = ⟨sp.target, 0⟩ ∧
      x.g = (th.settled sp).g ∧ x.spec = none := by
  simp only [State.rollback, here, speculates]
  exact ⟨_, State.updThread_get (s := ((s.clearArrived _ _ _).withdrawArrival _ _ _).updWg _ _) here _,
    rfl, rfl, rfl, rfl, rfl, rfl⟩

/-! ## Traps in a handler and in speculation (R123, R131) -/

theorem takeTrap_in_handler (here : s.threads[k]? = some th) (calm : th.spec = none) (inside : th.handler.isSome = true)
    (cause : BitVec 8) (val : Word) (after : Bool) :
    s.takeTrap k cause val after = s.failWg th.wg ((wordAddr th.pc).setWidth 64) val cause 0 th.tid := by
  simp [State.takeTrap, here, calm, inside]

theorem takeTrap_in_lone {sp : Spec} (here : s.threads[k]? = some th) (speculates : th.spec = some sp) (lone : sp.kind = .lone)
    (cause : BitVec 8) (val : Word) (after : Bool) : s.takeTrap k cause val after = s.rollback k 4 cause val := by
  simp [State.takeTrap, State.abort, here, speculates, lone]

theorem takeTrap_fails_or_aborts (cause : BitVec 8) (val : Word) (after : Bool) (here : s.threads[k]? = some th) :
    (th.spec = none → th.handler.isSome = true →
      s.takeTrap k cause val after = s.failWg th.wg ((wordAddr th.pc).setWidth 64) val cause 0 th.tid ∧
      (∀ g, s.wgs[th.wg]? = some g → ∃ g', (s.takeTrap k cause val after).wgs[th.wg]? = some g' ∧ g'.state = .failed ∧
        ∀ e ∈ g'.hay, e.committed = true) ∧
      (∀ l, s.links[s.coreOf th.wg / 4]? = some l → l.up ≠ 0 → l.upHeld = [] →
        (s.takeTrap k cause val after).failures = s.failures ++ [failureRecord ((wordAddr th.pc).setWidth 64) val cause 0 2
          th.tid (s.wgidOf th.wg) (s.launchId th.wg)])) ∧
    (∀ sp, th.spec = some sp → sp.kind = .lone →
      s.takeTrap k cause val after = s.rollback k 4 cause val ∧
      ∃ x, (s.takeTrap k cause val after).threads[k]? = some x ∧ x.tcause = 0x100 ||| cause.setWidth 32 ∧ x.tval = val ∧
        x.tac = 4 ∧ x.pc = ⟨sp.target, 0⟩ ∧ ((∀ l ∈ th.loads, sp.since ≤ l.id) → x.g = sp.check.g) ∧ x.spec = none) := by
  refine ⟨fun calm inside => ?in_handler, fun sp speculates lone => ?in_speculation⟩
  case in_handler =>
    rw [takeTrap_in_handler here calm inside]
    exact ⟨rfl, fun g => failWg_wg _ _ _ _ _, fun l => failWg_failures _ _ _ _ _⟩
  case in_speculation =>
    rw [takeTrap_in_lone here speculates lone]
    obtain ⟨x, at_, hcause, hval, hcode, hpc, hg, hspec⟩ := rollback_thread here speculates cause val
    exact ⟨rfl, x, at_, hcause, hval, hcode, hpc,
      fun since => hg.trans (congrArg Checkpoint.g (Thread.settled_of_none_before since)), hspec⟩

/-! ## `trap`, `brk` and `tret` (R124, R125) -/

variable {g : BitVec 3} {c : BitVec 8}

theorem trap_traps : Safety.Leads s k th (.trap g c) (s.takeTrap k 0x04 (c.setWidth 32) true) := fun issues => onThread_runs issues

theorem brk_traps (unhandled : s.handled th.wg = false) :
    Safety.Leads s k th (.brk g c) (s.takeTrap k 0x05 (c.setWidth 32) true) := by
  intro issues
  have arm : exec (.brk g c) s = .next _ := onThread_runs issues
  rw [arm, unhandled]
  rfl

@[simp] theorem State.poke_threads (s : State) (a : Nat) (bs : List Byte) : (s.poke a bs).threads = s.threads := rfl

theorem pushDebug_threads {s t : State} {p block : Nat} {r : BitVec 256} (pushed : s.pushDebug p block r = some t) :
    t.threads = s.threads := by
  unfold State.pushDebug at pushed
  dsimp only at pushed
  split at pushed
  · cases pushed
  · rw [← Option.some.inj pushed, State.poke_threads, State.poke_threads]

/-- A hold's record leaves the threads. -/
theorem holdRecord_threads (s : State) (w : Nat) (r : BitVec 256) : (s.holdRecord w r).1.threads = s.threads := by
  unfold State.holdRecord
  split
  · rfl
  · split
    · next pushed => exact pushDebug_threads pushed
    · rfl

theorem holdThread_thread {s : State} (here : s.threads[k]? = some th) (brk : Bool) (r : BitVec 256) :
    ∃ h, (s.holdThread k brk r).threads[k]? = some { th with hold := some h } := by
  simp only [State.holdThread, here]
  exact ⟨_, State.updThread_get ((holdRecord_threads s _ r).symm ▸ here) _⟩

theorem brk_holds (handled : s.handled th.wg = true) :
    Safety.Reads s k th (.brk g c) fun t => ∃ x, t.threads[k]? = some x ∧ x.hold.isSome = true ∧
      x = { Safety.jumped th (nextHeader th.pc th.clause) with hold := x.hold } := by
  intro issues
  have arm : exec (.brk g c) s = .next _ := onThread_runs issues
  obtain ⟨h, held⟩ := holdThread_thread (State.updThread_get issues.thread fun th => th.goto (nextHeader th.pc th.clause)) true
    (s.debugRecordOf th.wg ((wordAddr th.pc).setWidth 64) 2#8 th.tid false 0 c)
  rw [if_pos handled] at arm
  exact ⟨_, arm, _, held, rfl, rfl⟩

theorem tret_outside (outside : th.handler = none) :
    Safety.Leads s k th (.tret g) (s.takeTrap k 0x01 (wordOf (.tret g))) := by
  intro issues
  have arm : exec (.tret g) s = .next _ := onThread_runs issues
  rw [arm, outside]
  rfl

theorem tret_returns {r : Pc} (inside : th.handler = some r) :
    Safety.Leads s k th (.tret g) (s.updThread k fun _ => th.trapReturn r) := by
  intro issues
  have arm : exec (.tret g) s = .next _ := onThread_runs issues
  rw [arm, inside]
  exact congrArg Host.Outcome.next (State.updThread_const issues.thread _)

theorem Thread.trapReturn_named {r : Pc} (named : th.tpc = wordAddr r) : th.trapReturn r =
    { th with handler := none, pc := r, recheck := r.idx ≠ 0, park := .none, unmatched := false } := if_pos named

theorem Thread.trapReturn_elsewhere {r : Pc} (elsewhere : th.tpc ≠ wordAddr r) :
    th.trapReturn r = { Safety.jumped th th.tpc with handler := none } := if_neg elsewhere

end Words

/-- Settles O18: a trap outside speculation and handlers touches its own thread and waiting ones and leaves the enrolments
(R122); in a handler its workgroup fails (R123), in a lone speculation it rolls back (R131); the three words lead to these
or to the return point (R124, R125). -/
theorem traps : Obligations.Traps := by
  refine ⟨fun s k th cause val after => takeTrap_saves cause val after,
    fun s k th cause val after => takeTrap_fails_or_aborts cause val after, fun s k th g c => ?words⟩
  case words =>
    refine ⟨trap_traps, brk_traps, brk_holds, tret_outside, fun r inside => ⟨fun named => ?_, fun elsewhere => ?_⟩⟩
    · exact Thread.trapReturn_named named ▸ tret_returns inside
    · exact Thread.trapReturn_elsewhere elsewhere ▸ tret_returns inside

end Sys2Proof.Machine
end

section
/-! The last arrival at a collective word (R153): the occurrence forms, the word executes once, and every executing member
receives its result and moves on. -/

namespace Sys2Proof.Machine

/-! ## The present members of a squad (R153) -/

/-- A position of the present mask is that of a present thread of the squad. -/
theorem exists_present_of_presentMask {s : State} {w q p : Nat} : (s.presentMask w q).getLsbD p = true →
    ∃ (i : Nat) (x : Thread), s.threads[i]? = some x ∧ Safety.ofSquad x w q ∧ x.exited = false ∧ x.handler = none ∧
      x.pos = p := by
  refine List.foldlRecOn (motive := fun m : Word => m.getLsbD p = true → _) (s.squadOf w q) _ (fun set => by simp at set) ?_
  intro m ih i member set
  obtain ⟨x, at_, squad⟩ := mem_squadOf.1 member
  simp only [at_] at set
  split at set
  · next present =>
    simp only [Thread.present, Bool.and_eq_true, Bool.not_eq_true', Option.isNone_iff_eq_none] at present
    rw [BitVec.getLsbD_or, Bool.or_eq_true, position_bit, BitVec.getLsbD_twoPow, Bool.and_eq_true, decide_eq_true_eq,
      decide_eq_true_eq] at set
    exact set.elim ih fun here => ⟨i, x, at_, squad, present.1, present.2, here.2⟩
  · exact ih set

/-! ## The occurrence of a squad's place -/

/-- The test of an occurrence: it stands, forms, or is over. -/
def State.tested (s : State) (w q : Nat) (g : Gather) : Option Gather :=
  if !s.gathered w q g then some g
  else if g.arrivals.any (·.live) then some { g with formed := true } else none

theorem tested_pc {s : State} {w q : Nat} {g h : Gather} (tested : s.tested w q g = some h) : h.pc = g.pc := by
  unfold State.tested at tested
  split at tested
  · rw [← Option.some.inj tested]
  · split at tested
    · rw [← Option.some.inj tested]
    · cases tested

/-- Every position of the mask that is present has an arrival: the occurrence forms. -/
theorem tested_forms {s : State} {w q : Nat} {g : Gather}
    (all : ∀ p, g.mask.getLsbD p = true → (s.presentMask w q).getLsbD p = true → ∃ a ∈ g.arrivals, a.pos = p)
    (executing : ∃ a ∈ g.arrivals, a.live = true) : s.tested w q g = some { g with formed := true } := by
  have gathered : s.gathered w q g = true := by
    simp only [State.gathered, List.all_eq_true, Bool.or_eq_true, Bool.not_eq_true', List.any_eq_true, decide_eq_true_eq]
    intro p _
    by_cases named : g.mask.getLsbD p = true ∧ (s.presentMask w q).getLsbD p = true
    · exact .inr (all p named.1 named.2)
    · refine .inl (Bool.eq_false_iff.2 fun h => named ?_)
      simp only [Bool.and_eq_true] at h
      exact h.1
  have waits : g.arrivals.any (·.live) = true := List.any_eq_true.2 executing
  rw [State.tested, gathered, waits]
  rfl

section Occurrence

variable {s : State} {w q : Nat} {pc : Pc}

theorem gatherAt_updSquad (f : Squad → Squad) : (s.updSquad w q f).gatherAt w q pc =
    ((s.wgs[w]?).bind (·.squads[q]?)).bind fun sq => (f sq).gathers.find? (·.pc = pc) := by
  unfold State.gatherAt
  cases here : s.wgs[w]? with
  | none => simp [State.updSquad, here]
  | some u => cases there : u.squads[q]? <;> simp [State.updSquad, here, there]

theorem gatherAt_setGather_none : (s.setGather w q pc none).gatherAt w q pc = none := by
  rw [State.setGather, gatherAt_updSquad, Option.bind_eq_none_iff]
  intro sq _
  simp

theorem gatherAt_setGather_some {g : Gather} (named : g.pc = pc) (u : Wg) (sq : Squad) (group : s.wgs[w]? = some u)
    (squad : u.squads[q]? = some sq) : (s.setGather w q pc (some g)).gatherAt w q pc = some g := by
  have others : (sq.gathers.filter fun x => decide (x.pc ≠ pc)).find? (fun x => decide (x.pc = pc)) = none := by
    simp
  rw [State.setGather, gatherAt_updSquad, group, Option.bind_some, squad, Option.bind_some, List.find?_append, others]
  simp [named]

/-- The test reads the squad's threads alone, and leaves every place's occurrence at its place. -/
theorem gatherAt_formGathers {g h : Gather} (stands : s.gatherAt w q pc = some g) (tested : s.tested w q g = some h) :
    (s.formGathers w q).gatherAt w q pc = some h := by
  have form : s.formGathers w q = s.updSquad w q fun sq => { sq with gathers := sq.gathers.filterMap (s.tested w q) } := rfl
  obtain ⟨sq, squad, found⟩ := Option.bind_eq_some_iff.1 stands
  obtain ⟨named, before, after, split, first⟩ := List.find?_eq_some_iff_append.1 found
  rw [form, gatherAt_updSquad, squad, Option.bind_some, split, List.filterMap_append, List.filterMap_cons, tested,
    List.find?_append]
  have elsewhere : (before.filterMap (s.tested w q)).find? (fun x => decide (x.pc = pc)) = none := by
    rw [List.find?_eq_none]
    intro x inside
    obtain ⟨y, earlier, from_⟩ := List.mem_filterMap.1 inside
    rw [tested_pc from_]
    simpa using first y earlier
  have here : h.pc = pc := (tested_pc tested).trans (of_decide_eq_true named)
  rw [elsewhere]
  simp [here]

end Occurrence

/-! ## The delivery to the executing members -/

/-- Thread `i` stands at position `p` of the squad. -/
def Seated (s : State) (w q i p : Nat) : Prop := ∃ x, s.threads[i]? = some x ∧ Safety.ofSquad x w q ∧ x.pos = p

/-- No two threads of the squad stand at one position. -/
def Apart (s : State) (w q : Nat) : Prop := ∀ i j p, Seated s w q i p → Seated s w q j p → i = j

/-- A thread of a squad stands at a position of its own, whatever else changes of it. -/
theorem seated_updThread {s : State} {w q i k p : Nat} {f : Thread → Thread} (wg : ∀ x, (f x).wg = x.wg)
    (tid : ∀ x, (f x).tid = x.tid) : Seated (s.updThread k f) w q i p ↔ Seated s w q i p := by
  rw [Seated, Seated, State.updThread_threads, List.getElem?_modify]
  cases s.threads[i]? with
  | none => simp
  | some x =>
    by_cases e : k = i
    · simp [e, Safety.ofSquad, Thread.squad, Thread.pos, wg, tid]
    · simp [e]

theorem atPos_eq {s : State} {w q k p : Nat} (apart : Apart s w q) (seat : Seated s w q k p) :
    s.atPos w q p = some k := by
  obtain ⟨x, here, squad, position⟩ := id seat
  have found : (s.atPos w q p).isSome = true :=
    List.find?_isSome.2 ⟨k, mem_squadOf.2 ⟨x, here, squad⟩, by simp [here, position]⟩
  obtain ⟨i, at_⟩ := Option.isSome_iff_exists.1 found
  obtain ⟨y, there, squad'⟩ := mem_squadOf.1 (List.mem_of_find?_eq_some at_)
  have position' : y.pos = p := by simpa [there] using List.find?_some at_
  rw [at_, apart i k p ⟨y, there, squad', position'⟩ seat]

/-- A result and its flags for register `d` of a member. -/
def laneResult (d : BitVec 7) (r : Word × Word) : Delivery := ⟨[(d, r.1)], r.2, false, none⟩

theorem deliver_laneResult (s : State) (k : Nat) (d : BitVec 7) (r : Word × Word) (n : Nat) :
    s.deliver k (laneResult d r) false n = s.updThread k fun x => Safety.wrote x d r.1 r.2 n := rfl

/-- The deliveries of a word that executes, one after another. -/
def State.deliverAll (s : State) (w q n : Nat) (give : Nat → Delivery) (l : List Arrival) : State :=
  l.foldl (fun t a => match t.atPos w q a.pos with
    | some k => t.deliver k (give a.pos) false n
    | none => t) s

theorem runGather_eq (s : State) (w q : Nat) (g : Gather) (n : Nat) (res : State → List Arrival → Nat → Delivery) :
    s.runGather w q g false n res =
      (s.setGather w q g.pc none).deliverAll w q n (res s (g.arrivals.filter (·.live))) (g.arrivals.filter (·.live)) := rfl

/-- What a word that executes for the positions given makes of a thread. -/
def Thread.served (w q n : Nat) (d : BitVec 7) (out : Nat → Word × Word) (ps : List Nat) (x : Thread) : Thread :=
  if (x.wg = w ∧ x.squad = q) ∧ x.pos ∈ ps then Safety.wrote x d (out x.pos).1 (out x.pos).2 n else x

section Served

variable {w q n : Nat} {d : BitVec 7} {out : Nat → Word × Word} {ps : List Nat} {x : Thread}

theorem Thread.served_of_mem (squad : Safety.ofSquad x w q) (executes : x.pos ∈ ps) :
    x.served w q n d out ps = Safety.wrote x d (out x.pos).1 (out x.pos).2 n := if_pos ⟨squad, executes⟩

theorem Thread.served_of_not_mem (apart : Safety.ofSquad x w q → x.pos ∉ ps) : x.served w q n d out ps = x :=
  if_neg fun h => apart h.1 h.2

/-- A position more or less makes no difference to a thread that does not stand there. -/
theorem Thread.served_cons {p : Nat} (apart : Safety.ofSquad x w q → x.pos ≠ p) :
    x.served w q n d out (p :: ps) = x.served w q n d out ps := by
  by_cases executes : Safety.ofSquad x w q ∧ x.pos ∈ ps
  · rw [Thread.served_of_mem executes.1 executes.2, Thread.served_of_mem executes.1 (List.mem_cons_of_mem _ executes.2)]
  · have not_here : Safety.ofSquad x w q → x.pos ∉ ps := fun squad inside => executes ⟨squad, inside⟩
    rw [Thread.served_of_not_mem not_here, Thread.served_of_not_mem fun squad inside =>
      (List.mem_cons.1 inside).elim (apart squad) (not_here squad)]

/-- The members that the arrivals name each receive their result, once; the rest of the state stays. -/
theorem deliverAll_serves {give : Nat → Delivery} (l : List Arrival) (s : State) (apart : Apart s w q)
    (known : ∀ a ∈ l, ∃ i, Seated s w q i a.pos) (once : (l.map (·.pos)).Nodup)
    (gives : ∀ a ∈ l, give a.pos = laneResult d (out a.pos)) :
    let t := s.deliverAll w q n give l
    t.wgs = s.wgs ∧ t.mem = s.mem ∧ ∀ j : Nat,
      t.threads[j]? = (s.threads[j]?).map (Thread.served w q n d out (l.map (·.pos))) := by
  induction l generalizing s with
  | nil =>
    refine ⟨rfl, rfl, fun j => ?_⟩
    have same : Thread.served w q n d out [] = id := funext fun x => Thread.served_of_not_mem fun _ => List.not_mem_nil
    rw [List.map_nil, same, Option.map_id, id]
    rfl
  | cons a l ih =>
    obtain ⟨k, seat⟩ := known a List.mem_cons_self
    obtain ⟨new, once⟩ := List.nodup_cons.1 once
    have first : s.deliverAll w q n give (a :: l) =
        (s.updThread k fun x => Safety.wrote x d (out a.pos).1 (out a.pos).2 n).deliverAll w q n give l := by
      rw [State.deliverAll, List.foldl_cons, atPos_eq apart seat]
      simp only [gives a List.mem_cons_self, deliver_laneResult]
      rfl
    have seats {i p : Nat} := seated_updThread (s := s) (w := w) (q := q) (i := i) (k := k) (p := p)
      (f := fun x => Safety.wrote x d (out a.pos).1 (out a.pos).2 n) (fun _ => rfl) fun _ => rfl
    obtain ⟨hwgs, hmem, hthreads⟩ := ih _ (fun i j p hi hj => apart i j p (seats.1 hi) (seats.1 hj))
      (fun b inside => (known b (List.mem_cons_of_mem _ inside)).imp fun _ => seats.2) once
      (fun b inside => gives b (List.mem_cons_of_mem _ inside))
    refine ⟨first ▸ hwgs, first ▸ hmem, fun j => ?_⟩
    rw [first, hthreads, List.map_cons]
    obtain ⟨x, here, squad, position⟩ := id seat
    by_cases e : j = k
    · subst e
      have stays : (Safety.wrote x d (out a.pos).1 (out a.pos).2 n).pos = a.pos := position
      have late : (Safety.wrote x d (out a.pos).1 (out a.pos).2 n).pos ∉ l.map (·.pos) := by
        rw [stays]
        exact new
      rw [State.updThread_get here, here, Option.map_some, Option.map_some, Thread.served_of_not_mem fun _ => late,
        Thread.served_of_mem squad (position ▸ List.mem_cons_self), position]
    · rw [State.updThread_get_ne _ e]
      refine Option.map_congr fun y there => (Thread.served_cons fun squad' position' => e ?_).symm
      exact apart j k a.pos ⟨y, there, squad', position'⟩ seat

end Served

/-! ## The last arrival (R153) -/

theorem gatherAt_congr {s t : State} {w q : Nat} {pc : Pc} (same : t.wgs = s.wgs) : t.gatherAt w q pc = s.gatherAt w q pc := by
  rw [State.gatherAt, same, ← State.gatherAt]

/-- A thread that waits at a collective word. -/
def Thread.gathering (th : Thread) : Thread := { th with park := .collective }

/-- The state in which a thread waits there. -/
def State.gathering (s : State) (k : Nat) : State := s.updThread k Thread.gathering

theorem State.gathering_eq (s : State) (k : Nat) :
    s.gathering k = s.updThread k fun th => { th with park := .collective } := rfl

section LastArrival

variable {s : State} {k : Nat} {th : Thread} {i : Instr} {mask : Word} {own : List Word} {prior : List Arrival}
  {res : State → List Arrival → Nat → Delivery}

/-- The executing members at the last arrival. -/
def executing (th : Thread) (own : List Word) (prior : List Arrival) : List Arrival :=
  (prior ++ [(⟨th.pos, true, own⟩ : Arrival)]).filter (·.live)

/-- A thread that has not arrived, whose mask is that of the occurrence and holds it, arrives. -/
theorem collective_arrives (issues : Safety.Issues s k th i) (occurs : Safety.occurs s th mask prior)
    (member : mask.getLsbD th.pos = true) :
    s.collective k th i mask false (fun s => .ok (s, own)) res =
      ((s.gathering k).addArrival th.wg th.squad th.pc i mask ⟨th.pos, true, own⟩).tryGather
        th.wg th.squad th.pc false i.slots res := by
  rw [State.gathering_eq]
  obtain ⟨-, ⟨nothing, -⟩ | ⟨x, found, same, came, -, waits⟩, new⟩ := occurs
  · simp [State.collective, nothing, issues.guarded, issues.ready, member]
  · have not_here : (x.arrivals.any fun a => decide (a.pos = th.pos)) = false := by
      simpa [came] using new
    simp [State.collective, found, issues.guarded, issues.ready, member, same, waits, not_here]

/-- The arrival enters the occurrence, which it begins if it is the first. -/
theorem addArrival_enters (occurs : Safety.occurs s th mask prior) (a : Arrival) :
    ∃ g : Gather, g.pc = th.pc ∧ g.mask = mask ∧ g.arrivals = prior ++ [a] ∧
      s.addArrival th.wg th.squad th.pc i mask a =
        (s.setGather th.wg th.squad th.pc (some g)).formGathers th.wg th.squad := by
  obtain ⟨-, ⟨nothing, rfl⟩ | ⟨x, found, same, came, -⟩, -⟩ := occurs
  · exact ⟨⟨th.pc, i, mask, [a], 0, false⟩, rfl, rfl, rfl, by rw [State.addArrival, nothing]⟩
  · obtain ⟨sq, -, there⟩ := Option.bind_eq_some_iff.1 found
    have place : x.pc = th.pc := by simpa using List.find?_some there
    exact ⟨{ x with
      mask := if x.arrivals.isEmpty then mask else x.mask
      arrivals := x.arrivals ++ [a], absent := x.absent &&& ~~~(1#32 <<< a.pos) },
      place, by simp [same], by simp [came], by rw [State.addArrival, found]⟩

/-- Once it waits there, every present member of the mask has arrived. -/
theorem gathering_all_arrived (here : s.threads[k]? = some th) (completes : Safety.Completes s k th mask prior) {p : Nat}
    (named : mask.getLsbD p = true) (present : ((s.gathering k).presentMask th.wg th.squad).getLsbD p = true) :
    ∃ a ∈ prior ++ [(⟨th.pos, true, own⟩ : Arrival)], a.pos = p := by
  obtain ⟨j, x, there, squad, stays, calm, rfl⟩ := exists_present_of_presentMask present
  by_cases e : j = k
  · subst e
    obtain rfl : x = th.gathering := Option.some.inj (there.symm.trans (State.updThread_get here _))
    exact ⟨_, List.mem_append_right _ List.mem_cons_self, rfl⟩
  · obtain ⟨a, earlier, position⟩ :=
      completes.all j x ((State.updThread_get_ne _ e).symm.trans there) squad stays calm named e
    exact ⟨a, List.mem_append_left _ earlier, position⟩

/-- The word executes: its occurrence is over, and what the executing members receive is delivered. -/
theorem collective_executes (issues : Safety.Issues s k th i) (completes : Safety.Completes s k th mask prior) :
    ∃ u : State, u.threads = (s.gathering k).threads ∧ u.mem = s.mem ∧
      s.collective k th i mask false (fun s => .ok (s, own)) res =
        (u.setGather th.wg th.squad th.pc none).deliverAll th.wg th.squad i.slots
          (res u (executing th own prior)) (executing th own prior) := by
  obtain ⟨g, place, same, came, adds⟩ :=
    addArrival_enters (s := s.gathering k) (i := i) completes.occurs ⟨th.pos, true, own⟩
  obtain ⟨⟨u, sq, group, squad⟩, -⟩ := completes.occurs
  let entered : State := (s.gathering k).setGather th.wg th.squad th.pc (some g)
  have forms : entered.tested th.wg th.squad g = some { g with formed := true } := by
    refine tested_forms (fun p named present => ?_) ⟨_, came ▸ List.mem_append_right _ List.mem_cons_self, rfl⟩
    rw [came]
    exact gathering_all_arrived issues.thread completes (same ▸ named) present
  have stands := gatherAt_formGathers (gatherAt_setGather_some (s := s.gathering k) place u sq group squad) forms
  refine ⟨entered.formGathers th.wg th.squad, rfl, rfl, ?_⟩
  rw [collective_arrives issues completes.occurs completes.own, adds, State.tryGather, stands]
  simp only [Bool.not_true, Bool.false_eq_true, if_false, List.isEmpty_nil, if_true]
  rw [runGather_eq, place, came]
  rfl

/-- The n-th value of an executing member, as the word reads it, is the one the member supplied. -/
theorem valAt_executing (new : ∀ a ∈ prior, a.pos ≠ th.pos) :
    valAt (executing th own prior) = Safety.supplied th own prior := by
  funext n p
  have earlier : (prior.filter (·.live)).find? (fun a => decide (a.pos = p)) =
      prior.find? fun a => decide (a.pos = p) && a.live := by
    rw [List.find?_filter]
    congr 1
    funext a
    simp [Bool.and_comm]
  rw [valAt, executing, List.filter_append, List.find?_append, earlier, Safety.supplied]
  by_cases own_ : p = th.pos
  · have apart : (prior.find? fun a => decide (a.pos = p) && a.live) = none := by
      rw [List.find?_eq_none]
      intro a inside here
      simp only [Bool.and_eq_true, decide_eq_true_eq] at here
      exact new a inside (here.1.trans own_)
    rw [apart, if_pos own_]
    simp [own_]
  · rw [if_neg own_]
    simp [Ne.symm own_]

theorem mem_executing {p : Nat} (new : ∀ a ∈ prior, a.pos ≠ th.pos) :
    p ∈ (executing th own prior).map (·.pos) ↔ (Safety.supplied th own prior 0 p).isSome = true := by
  rw [← valAt_executing new, valAt, Option.isSome_map, List.find?_isSome]
  simp

theorem executing_seated (here : s.threads[k]? = some th) (completes : Safety.Completes s k th mask prior) :
    ∀ a ∈ executing th own prior, ∃ j, Seated s th.wg th.squad j a.pos := by
  intro a inside
  obtain earlier | last := List.mem_append.1 (List.mem_of_mem_filter inside)
  · exact completes.known a earlier
  · rw [List.mem_singleton.1 last]
    exact ⟨k, th, here, ⟨rfl, rfl⟩, rfl⟩

theorem executing_once (completes : Safety.Completes s k th mask prior) : ((executing th own prior).map (·.pos)).Nodup := by
  obtain ⟨-, -, new⟩ := completes.occurs
  have all : ((prior ++ [(⟨th.pos, true, own⟩ : Arrival)]).map (·.pos)).Nodup := by
    rw [List.map_append, List.nodup_append_comm]
    exact List.nodup_cons.2 ⟨fun h => (List.mem_map.1 h).elim fun a h => new a h.1 h.2, completes.once⟩
  exact all.sublist (List.filter_sublist.map _)

theorem apart_of_completes (completes : Safety.Completes s k th mask prior) : Apart s th.wg th.squad :=
  fun i j _ ⟨x, hx, sx, px⟩ ⟨y, hy, sy, py⟩ => completes.apart i j x y hx hy sx sy (px.trans py.symm)

/-- What the last arrival makes of each thread. -/
theorem collective_serves {d : BitVec 7} {out : Nat → Word × Word} {give : List Arrival → Nat → Delivery}
    (issues : Safety.Issues s k th i) (completes : Safety.Completes s k th mask prior)
    (gives : ∀ a ∈ executing th own prior, give (executing th own prior) a.pos = laneResult d (out a.pos)) :
    let t := s.collective k th i mask false (fun s => .ok (s, own)) fun _ => give
    t.gatherAt th.wg th.squad th.pc = none ∧ t.mem = s.mem ∧ ∀ j : Nat, t.threads[j]? =
      ((s.gathering k).threads[j]?).map
        (Thread.served th.wg th.squad i.slots d out ((executing th own prior).map (·.pos))) := by
  obtain ⟨u, threads, mem, executes⟩ := collective_executes (own := own) (res := fun _ => give) issues completes
  let closed : State := u.setGather th.wg th.squad th.pc none
  have seats {j p : Nat} : Seated closed th.wg th.squad j p ↔ Seated s th.wg th.squad j p := by
    rw [Seated, show closed.threads = _ from threads, ← Seated]
    exact seated_updThread (fun _ => rfl) fun _ => rfl
  obtain ⟨hwgs, hmem, hthreads⟩ := deliverAll_serves (n := i.slots) (executing th own prior) closed
    (fun i j p hi hj => apart_of_completes completes i j p (seats.1 hi) (seats.1 hj))
    (fun a inside => (executing_seated issues.thread completes a inside).imp fun _ => seats.2)
    (executing_once completes) gives
  rw [executes]
  exact ⟨(gatherAt_congr hwgs).trans gatherAt_setGather_none, hmem.trans mem, fun j => threads ▸ hthreads j⟩

/-- A lane word whose result for an executing member is a function of the members' values executes as R153 has it. -/
theorem gathers_of_lanes {m : BitVec 2} {d : BitVec 7} {vs : List (BitVec 7)} {give : List Arrival → Nat → Delivery}
    {out : (Nat → Nat → Option Word) → Nat → Word × Word} (arm : exec i s = onLanes i s m vs give) (one : i.slots = 1)
    (value : ∀ live p, p < 32 → (valAt live 0 p).isSome = true → give live p = laneResult d (out (valAt live) p)) :
    Safety.Gathers s k th i (th.m[m.toNat]'m.isLt) d (vs.map th.reg) out := by
  intro prior issues (completes : Safety.Completes s k th (th.mask m) prior)
  obtain ⟨-, -, new⟩ := completes.occurs
  have here := issues.thread
  have answer : exec i s = .next (s.collective k th i (th.mask m) false (fun s => .ok (s, vs.map th.reg)) fun _ => give) := by
    rw [arm, onLanes, onCollective, issues.issuer]
    simp [here, issues.formed, issues.allotted]
  have gives : ∀ a ∈ executing th (vs.map th.reg) prior, give (executing th (vs.map th.reg) prior) a.pos =
      laneResult d (out (Safety.supplied th (vs.map th.reg) prior) a.pos) := by
    intro a inside
    obtain ⟨j, x, -, -, position⟩ := executing_seated here completes a inside
    rw [value _ _ (position ▸ position_lt x), valAt_executing new]
    rw [valAt_executing new]
    exact (mem_executing new).1 (List.mem_map_of_mem inside)
  obtain ⟨closed, mem, served⟩ := collective_serves issues completes gives
  refine ⟨_, answer, closed, ⟨fun a => by rw [mem], fun j other => ?others⟩, fun j x at_ squad executes => ?members⟩
  case others =>
    have apart : j ≠ k := fun e => other ⟨th, e ▸ here, ⟨rfl, rfl⟩, by simp [Safety.supplied]⟩
    rw [served, State.gathering, State.updThread_get_ne _ apart]
    cases at_ : s.threads[j]? with
    | none => rfl
    | some x =>
      exact congrArg some (Thread.served_of_not_mem fun squad inside =>
        other ⟨x, at_, squad, (mem_executing new).1 inside⟩)
  case members =>
    rw [served, one]
    by_cases e : j = k
    · subst e
      obtain rfl : th = x := Option.some.inj (here.symm.trans at_)
      rw [State.gathering, State.updThread_get here, Option.map_some]
      exact congrArg some (Thread.served_of_mem (x := th.gathering) squad ((mem_executing new).2 executes))
    · rw [State.gathering, State.updThread_get_ne _ e, at_, Option.map_some]
      exact congrArg some (Thread.served_of_mem squad ((mem_executing new).2 executes))

end LastArrival

end Sys2Proof.Machine
end

section
/-! The values of the lane words (R158-R161), each said of the members' values by position. -/

namespace Sys2Proof.Machine

/-! ## The members' values in order of position -/

theorem range_filter_lt {n m : Nat} (le : n ≤ m) : (List.range m).filter (fun p => decide (p < n)) = List.range n := by
  obtain ⟨k, rfl⟩ := Nat.exists_eq_add_of_le le
  have below : (List.range n).filter (fun p => decide (p < n)) = List.range n := by simp [List.filter_eq_self]
  rw [List.range_add, List.filter_append, below]
  simp

section Values

variable {live : List Arrival} {p n : Nat} {v : Word}

theorem valAt_isSome (live : List Arrival) (n p : Nat) : (valAt live n p).isSome = (valAt live 0 p).isSome := by
  rw [valAt, valAt, Option.isSome_map, Option.isSome_map]

theorem mem_ordered : (p, v) ∈ ordered live ↔ p < 32 ∧ valAt live 0 p = some v := by
  simp only [ordered, List.mem_filterMap, List.mem_range, Option.map_eq_some_iff, Prod.mk.injEq]
  exact ⟨fun ⟨_, inside, _, here, e, e'⟩ => e ▸ e' ▸ ⟨inside, here⟩, fun h => ⟨p, h.1, v, h.2, rfl, rfl⟩⟩

theorem ordered_values (live : List Arrival) : (ordered live).map (·.2) = (List.range 32).filterMap (valAt live 0) := by
  rw [ordered, List.map_filterMap]
  congr 1
  funext p
  simp [Function.comp_def]

/-- The values before a position are those of the positions before it. -/
theorem ordered_values_before (inside : n ≤ 32) :
    ((ordered live).filter fun x => decide (x.1 < n)).map (·.2) = (List.range n).filterMap (valAt live 0) := by
  have keep : (fun p => ((valAt live 0 p).map fun v => (p, v)).filter fun x => decide (x.1 < n)) =
      fun p => if decide (p < n) = true then (valAt live 0 p).map fun v => (p, v) else none := by
    funext p
    cases valAt live 0 p <;> simp [Option.filter]
  rw [ordered, List.filter_filterMap, keep, ← List.filterMap_filter, range_filter_lt inside, List.map_filterMap]
  congr 1
  funext p
  simp [Function.comp_def]

/-- The values up to a position and at it. -/
theorem ordered_values_upTo (inside : p < 32) :
    ((ordered live).filter fun x => decide (x.1 ≤ p)).map (·.2) = (List.range (p + 1)).filterMap (valAt live 0) := by
  rw [← ordered_values_before inside]
  simp only [Nat.lt_succ_iff]

end Values

/-! ## Masks of positions -/

theorem getLsbD_maskOf (ps : List Nat) (j : Nat) : (maskOf ps).getLsbD j = (decide (j < 32) && decide (j ∈ ps)) := by
  suffices general : ∀ m : Word, (ps.foldl (fun m p => m ||| 1#32 <<< p) m).getLsbD j =
      (m.getLsbD j || decide (j < 32) && decide (j ∈ ps)) by
    rw [maskOf, general]
    simp
  induction ps with
  | nil => simp
  | cons p ps ih =>
    intro m
    rw [List.foldl_cons, ih, BitVec.getLsbD_or, ← BitVec.twoPow_eq, BitVec.getLsbD_twoPow]
    by_cases e : p = j
    · subst e; cases m.getLsbD p <;> simp +contextual
    · simp [e, Ne.symm e]

/-- The mask of the positions that pass a test is the sum of their powers of two. -/
theorem maskOf_filter (f : Nat → Bool) : maskOf ((List.range 32).filter f) = Safety.bitsOf f := by
  suffices general : ∀ n ≤ 32, maskOf ((List.range n).filter f) =
      BitVec.ofNat 32 (((List.range n).map fun p => if f p then 2 ^ p else 0).sum) from general 32 le_rfl
  intro n
  induction n with
  | zero => exact fun _ => rfl
  | succ n ih =>
    intro inside
    rw [List.range_succ, List.filter_append, List.map_append, List.sum_append, BitVec.ofNat_add, ← ih (by omega)]
    cases here : f n with
    | false => simp [here]
    | true =>
      have apart : maskOf ((List.range n).filter f) &&& 1#32 <<< n = 0#32 := by
        apply BitVec.eq_of_getLsbD_eq
        intro j _
        rw [BitVec.getLsbD_and, getLsbD_maskOf, ← BitVec.twoPow_eq, BitVec.getLsbD_twoPow]
        by_cases e : n = j
        · subst e; simp
        · simp [e]
      have power : BitVec.ofNat 32 (2 ^ n) = 1#32 <<< n := by
        rw [← BitVec.twoPow_eq]
        exact BitVec.eq_of_toNat_eq (by rw [BitVec.toNat_ofNat, BitVec.toNat_twoPow])
      simp only [List.filter_cons, here, if_true, List.filter_nil, List.map_cons, List.map_nil, List.sum_cons, List.sum_nil,
        Nat.add_zero, power, BitVec.add_eq_or_of_and_eq_zero _ _ apart]
      rw [maskOf, List.foldl_append]
      rfl

/-! ## Votes and matches (R159) -/

section Votes

variable (live : List Arrival)

/-- A member that executes with a value other than zero. -/
def votesYes (f : Nat → Option Word) (p : Nat) : Bool := (f p).isSome && f p ≠ some 0

/-- The positions of the members that vote yes. -/
theorem yes_positions :
    ((ordered live).filter fun x => x.2 ≠ 0).map (·.1) = (List.range 32).filter (votesYes (valAt live 0)) := by
  rw [ordered, List.filter_filterMap, List.map_filterMap, ← List.filterMap_eq_filter]
  congr 1
  funext p
  cases here : valAt live 0 p with
  | none => simp [votesYes, here, Option.guard]
  | some v => by_cases zero : v = 0#32 <;> simp [votesYes, here, zero, Option.guard, Option.filter]

theorem yes_count :
    ((ordered live).filter fun x => x.2 ≠ 0).length = ((List.range 32).filter (votesYes (valAt live 0))).length := by
  rw [← yes_positions, List.length_map]

theorem yes_isEmpty : ((ordered live).filter fun x => x.2 ≠ 0).isEmpty = !(List.range 32).any (votesYes (valAt live 0)) := by
  rw [← List.isEmpty_map (f := (·.1)), yes_positions, Bool.eq_iff_iff]
  simp

/-- Every member votes yes where none votes no. -/
theorem yes_all : decide (((ordered live).filter fun x => x.2 ≠ 0).length = (ordered live).length) =
    !(List.range 32).any fun p => decide (valAt live 0 p = some 0) := by
  rw [Bool.eq_iff_iff, decide_eq_true_iff, Bool.not_eq_true', List.length_filter_eq_length_iff, List.any_eq_false]
  simp only [decide_eq_true_eq, List.mem_range]
  exact ⟨fun all p inside no => all (p, 0) (mem_ordered.2 ⟨inside, no⟩) rfl,
    fun no_one x member zero => no_one x.1 (mem_ordered.1 member).1 (zero ▸ (mem_ordered.1 member).2)⟩

end Votes

/-- Positions p and q hold the same value, and the same second value where the comparison is wide. -/
def agree (wide : Bool) (v : Nat → Nat → Option Word) (p q : Nat) : Bool :=
  (v 0 q).isSome && v 0 p = v 0 q && (!wide || v 1 p = v 1 q)

section Matches

variable {o : BitVec 5} {wide : Bool} {live : List Arrival} {p q : Nat}

/-- The value that a match compares at a position. -/
def matched (o : BitVec 5) (live : List Arrival) (p : Nat) : Option (Word × Word) :=
  (valAt live 0 p).map fun v => (v, if o.toNat < 2 then 0 else (valAt live 1 p).getD 0)

theorem matched_isSome : (matched o live q).isSome = (valAt live 0 q).isSome := Option.isSome_map

theorem matched_eq (narrow : wide = !decide (o.toNat < 2)) (executes : (valAt live 0 q).isSome = true) :
    matched o live p = matched o live q ↔ agree wide (valAt live) p q = true := by
  obtain ⟨y, at_q⟩ := Option.isSome_iff_exists.1 executes
  cases at_p : valAt live 0 p with
  | none => simp [matched, agree, at_p, at_q]
  | some x =>
    obtain ⟨x', at_p'⟩ := Option.isSome_iff_exists.1 ((valAt_isSome live 1 p).trans (at_p ▸ rfl))
    obtain ⟨y', at_q'⟩ := Option.isSome_iff_exists.1 ((valAt_isSome live 1 q).trans executes)
    by_cases one : o.toNat < 2
    · simp [matched, agree, at_p, at_q, narrow, one]
    · simp [matched, agree, at_p, at_q, at_p', at_q', narrow, one]

theorem matchValue_eq : matchValue o live p =
    let ps := (List.range 32).filter fun q => (matched o live q).isSome
    let same := ps.filter fun q => decide (matched o live q = matched o live p)
    if o.toNat % 2 = 0 then maskOf same else if same.length = ps.length then maskOf ps else 0 := rfl

/-- The members that agree with a member. -/
theorem matchValue_any (narrow : wide = !decide (o.toNat < 2)) (even : o.toNat % 2 = 0) :
    matchValue o live p = Safety.bitsOf (agree wide (valAt live) p) := by
  have test (q : Nat) : (decide (matched o live q = matched o live p) && (matched o live q).isSome) =
      agree wide (valAt live) p q := by
    rw [matched_isSome]
    cases executes : (valAt live 0 q).isSome with
    | false => simp [agree, executes]
    | true => rw [Bool.and_true, Bool.eq_iff_iff, decide_eq_true_eq, eq_comm, matched_eq narrow executes]
  rw [matchValue_eq]
  simp only [even, if_true, List.filter_filter, test]
  exact maskOf_filter _

/-- All the members, where every one agrees with the member. -/
theorem matchValue_all (narrow : wide = !decide (o.toNat < 2)) (odd : o.toNat % 2 = 1) :
    matchValue o live p = if (List.range 32).all fun q => !(valAt live 0 q).isSome || agree wide (valAt live) p q then
      Safety.bitsOf fun q => (valAt live 0 q).isSome else 0 := by
  rw [matchValue_eq]
  simp only [odd, Nat.one_ne_zero, if_false, List.length_filter_eq_length_iff, matched_isSome, maskOf_filter]
  refine if_congr ?_ rfl rfl
  simp only [List.mem_filter, List.all_eq_true, Bool.or_eq_true, Bool.not_eq_true', decide_eq_true_eq]
  refine forall_congr' fun q => ⟨fun all inside => ?_, fun all member => ?_⟩
  · cases executes : (valAt live 0 q).isSome with
    | false => exact .inl rfl
    | true => exact .inr ((matched_eq narrow executes).1 (all ⟨inside, executes⟩).symm)
  · exact ((matched_eq narrow member.2).2 ((all member.1).resolve_left (by simp [member.2]))).symm

end Matches

/-! ## Reductions and scans of integers (R160, R161) -/

section Folds

theorem foldVals_eq (f : Word → Word → Word) (l : List Word) : foldVals f l = l.tail.foldl f (l.headD 0) := by
  cases l <;> rfl

theorem foldVals_of_left_id {f : Word → Word → Word} {e : Word} (left_id : ∀ x, f e x = x)
    {l : List Word} (nonempty : l ≠ []) : foldVals f l = l.foldl f e := by
  cases l with
  | nil => exact absurd rfl nonempty
  | cons x l => rw [List.foldl_cons, left_id]; rfl

theorem foldVals_add (l : List Word) : foldVals (· + ·) l = BitVec.ofNat 32 (l.map (·.toNat)).sum := by
  have general (m : List Word) (x : Word) : m.foldl (· + ·) x = BitVec.ofNat 32 (x.toNat + (m.map (·.toNat)).sum) := by
    induction m generalizing x with
    | nil => simp
    | cons y m ih =>
      rw [List.foldl_cons, ih, List.map_cons, List.sum_cons]
      exact BitVec.eq_of_toNat_eq (by simp [Nat.add_assoc])
  cases l with
  | nil => rfl
  | cons x l => exact general l x

/-- The least of a list, where ties keep the earlier value. -/
theorem foldVals_least {f : Word → Word → Word} {lt : Word → Word → Bool}
    (pick : ∀ x y, f x y = if lt y x then y else x) (l : List Word) :
    foldVals f l = l.foldl (fun x y => if lt y x then y else x) (l.headD 0) := by
  cases l with
  | nil => rfl
  | cons x l =>
    rw [List.foldl_cons, List.headD_cons, ite_self, ← funext fun x => funext (pick x)]
    rfl

theorem minS_pick (x y : Word) : minS x y = if y.slt x then y else x := by
  have less : y.slt x = true ↔ ¬ x.s ≤ y.s := BitVec.slt_iff_toInt_lt.trans not_le.symm
  rw [minS, if_congr less rfl rfl, ite_not]

theorem minU_pick (x y : Word) : minU x y = if y.ult x then y else x := by
  have less : y.ult x = true ↔ ¬ x.u ≤ y.u :=
    BitVec.ult_iff_lt.trans (BitVec.lt_def.trans (Int.ofNat_lt.symm.trans not_le.symm))
  rw [minU, if_congr less rfl rfl, ite_not]

end Folds

/-! ## The tree (R160) -/

section Tree

/-- The values one level up, and the flags of the nodes there. -/
def nextLevel (v : Nat → Option Word) (i : Nat) : Option Word := (treeNode (v (2 * i)) (v (2 * i + 1))).1

/-- The flags of the nodes listed, one level up. -/
def levelFlags (v : Nat → Option Word) : List Nat → Word
  | [] => 0
  | i :: l => (treeNode (v (2 * i)) (v (2 * i + 1))).2 ||| levelFlags v l

theorem levelFlags_append (v : Nat → Option Word) (l m : List Nat) :
    levelFlags v (l ++ m) = levelFlags v l ||| levelFlags v m := by
  induction l with
  | nil => exact (BitVec.zero_or).symm
  | cons i l ih => rw [List.cons_append, levelFlags, ih, levelFlags, BitVec.or_assoc]

theorem treeLevel_range' (v : Nat → Option Word) (k n : Nat) :
    treeLevel ((List.range' (2 * k) (2 * n)).map v) = ((List.range' k n).map (nextLevel v), levelFlags v (List.range' k n)) := by
  induction n generalizing k with
  | zero => rfl
  | succ n ih =>
    have rest := ih (k + 1)
    rw [Nat.mul_succ, List.range'_succ, List.range'_succ]
    simp only [List.map_cons, treeLevel]
    rw [show 2 * k + 1 + 1 = 2 * (k + 1) by omega, rest]
    rfl

theorem tree_succ (v : Nat → Option Word) (n i : Nat) : Safety.tree v (n + 1) i =
    ((treeNode (Safety.tree v n (2 * i)).1 (Safety.tree v n (2 * i + 1)).1).1,
      (Safety.tree v n (2 * i)).2 ||| (Safety.tree v n (2 * i + 1)).2 |||
        (treeNode (Safety.tree v n (2 * i)).1 (Safety.tree v n (2 * i + 1)).1).2) := by
  rw [Safety.tree]
  cases (Safety.tree v n (2 * i)).1 <;> cases (Safety.tree v n (2 * i + 1)).1 <;> simp [treeNode]

/-- A node is the same node of the tree over the next level; the flags of the lowest nodes under it come in. -/
theorem tree_nextLevel (v : Nat → Option Word) (n i : Nat) : Safety.tree v (n + 1) i =
    ((Safety.tree (nextLevel v) n i).1,
      (Safety.tree (nextLevel v) n i).2 ||| levelFlags v (List.range' (2 ^ n * i) (2 ^ n))) := by
  induction n generalizing i with
  | zero => rw [tree_succ]; simp [Safety.tree, nextLevel, levelFlags]
  | succ n ih =>
    have halves : List.range' (2 ^ (n + 1) * i) (2 ^ (n + 1)) =
        List.range' (2 ^ n * (2 * i)) (2 ^ n) ++ List.range' (2 ^ n * (2 * i + 1)) (2 ^ n) := by
      rw [Nat.mul_succ, ← Nat.mul_one (2 ^ n * (2 * i)), List.range'_append_1, Nat.pow_succ]
      congr 1 <;> ring
    rw [tree_succ, ih, ih, tree_succ (nextLevel v), halves, levelFlags_append]
    refine Prod.ext rfl ?_
    simp only
    ac_rfl

theorem treeSum_eq (v : Nat → Option Word) (n : Nat) (f : Word) : treeSum n ((List.range (2 ^ n)).map v) f =
    ((Safety.tree v n 0).1, f ||| (Safety.tree v n 0).2) := by
  induction n generalizing v f with
  | zero => simp [treeSum, Safety.tree]
  | succ n ih =>
    have level := treeLevel_range' v 0 (2 ^ n)
    rw [Nat.mul_zero, ← List.range_eq_range', ← List.range_eq_range', ← Nat.pow_succ'] at level
    rw [treeSum, level]
    simp only
    rw [ih, tree_nextLevel, Nat.mul_zero, ← List.range_eq_range', BitVec.or_assoc, BitVec.or_comm (levelFlags _ _)]

end Tree

end Sys2Proof.Machine
end

section
/-! FP32 encodings in order (R64, R96): NaNs by their bits, and the order of the values as the order of the encodings. -/

namespace Sys2Proof.Machine

/-! ## The parts of an encoding (R64) -/

/-- The magnitude of an encoding: its exponent and fraction. -/
def magnitude (w : Word) : Nat := w.toNat % 2 ^ 31

section Parts

variable (w : Word)

theorem toNat_of_magnitude : w.toNat = (if w.msb then 2 ^ 31 else 0) + magnitude w := by
  rw [BitVec.msb_eq_decide, magnitude]
  have := w.isLt
  split <;> simp_all <;> omega

theorem rank_eq : Safety.rank w = if w.msb then -1 - (magnitude w : Int) else magnitude w := by
  have masked : (w &&& 0x7FFFFFFF#32).toNat = magnitude w := by
    rw [BitVec.toNat_and]
    exact Nat.and_two_pow_sub_one_eq_mod w.toNat 31
  rw [Safety.rank, show (0x7FFFFFFF : Word) = 0x7FFFFFFF#32 from rfl, masked]
  cases sign : w.msb with
  | true => rfl
  | false => simp [toNat_of_magnitude w, sign]

theorem rank_injective {a b : Word} (same : Safety.rank a = Safety.rank b) : a = b := by
  rw [rank_eq, rank_eq] at same
  apply BitVec.eq_of_toNat_eq
  rw [toNat_of_magnitude a, toNat_of_magnitude b]
  split at same <;> split at same <;> simp_all <;> omega

theorem isNan_eq : Safety.isNan w = decide (255 * 2 ^ 23 < magnitude w) := by
  have exponent : (w.extractLsb' 23 8 == 255#8) = decide (255 * 2 ^ 23 ≤ magnitude w) := by
    rw [Bool.eq_iff_iff, beq_iff_eq, BitVec.toNat_inj.symm, BitVec.extractLsb'_toNat, Nat.shiftRight_eq_div_pow,
      decide_eq_true_eq, magnitude]
    norm_num
    omega
  have fraction : (w.extractLsb' 0 23 != 0) = decide (magnitude w % 2 ^ 23 ≠ 0) := by
    rw [Bool.eq_iff_iff, bne_iff_ne, ne_eq, BitVec.toNat_inj.symm, BitVec.extractLsb'_toNat, Nat.shiftRight_zero,
      decide_eq_true_eq, magnitude]
    norm_num
    exact Iff.rfl
  rw [Safety.isNan, exponent, fraction, ← Bool.decide_and]
  refine decide_eq_decide.2 ?_
  have := Nat.mod_lt w.toNat (show 0 < 2 ^ 31 by decide)
  rw [magnitude]
  omega

theorem isSnan_eq : Safety.isSnan w = (decide (255 * 2 ^ 23 < magnitude w) && decide (magnitude w < 255 * 2 ^ 23 + 2 ^ 22)) := by
  have quiet : w.getLsbD 22 = decide (magnitude w / 2 ^ 22 % 2 = 1) := by
    rw [BitVec.getLsbD, Nat.testBit_eq_decide_div_mod_eq, magnitude]
    refine decide_eq_decide.2 ?_
    omega
  rw [Safety.isSnan, isNan_eq, quiet, ← decide_not, ← Bool.decide_and, ← Bool.decide_and]
  refine decide_eq_decide.2 ?_
  have := Nat.mod_lt w.toNat (show 0 < 2 ^ 31 by decide)
  rw [magnitude]
  omega

/-- The value of a magnitude in units of 2^-149. -/
def units (m : Nat) : Nat := if m / 2 ^ 23 = 0 then m % 2 ^ 23 else (2 ^ 23 + m % 2 ^ 23) * 2 ^ (m / 2 ^ 23 - 1)

theorem units_strictMono : StrictMono units := by
  refine strictMono_nat_of_lt_succ fun m => ?_
  have whole : m = 2 ^ 23 * (m / 2 ^ 23) + m % 2 ^ 23 := (Nat.div_add_mod m (2 ^ 23)).symm
  by_cases last : m % 2 ^ 23 = 2 ^ 23 - 1
  · have exponent : (m + 1) / 2 ^ 23 = m / 2 ^ 23 + 1 := by omega
    have fraction : (m + 1) % 2 ^ 23 = 0 := by omega
    rw [units, units, exponent, fraction, last, if_neg (Nat.succ_ne_zero _), Nat.add_sub_cancel]
    split
    · next zero => rw [zero]; decide
    · next e =>
      obtain ⟨n, e⟩ := Nat.exists_eq_succ_of_ne_zero e
      have positive := Nat.two_pow_pos n
      rw [e, Nat.succ_sub_one, Nat.pow_succ]
      omega
  · have exponent : (m + 1) / 2 ^ 23 = m / 2 ^ 23 := by omega
    have fraction : (m + 1) % 2 ^ 23 = m % 2 ^ 23 + 1 := by omega
    rw [units, units, exponent, fraction]
    split
    · exact Nat.lt_succ_self _
    · exact Nat.mul_lt_mul_of_pos_right (Nat.lt_succ_self _) (Nat.two_pow_pos _)

theorem decode_nan (nan : 255 * 2 ^ 23 < magnitude w) :
    fp32.decode w.toNat = .nan (decide (magnitude w < 255 * 2 ^ 23 + 2 ^ 22)) := by
  rw [magnitude] at nan ⊢
  have exponent : w.toNat / 2 ^ 23 % 2 ^ 8 = 2 ^ 8 - 1 := by omega
  have fraction : w.toNat % 2 ^ 23 ≠ 0 := by omega
  have quiet : (w.toNat % 2 ^ 23 / 2 ^ (23 - 1) = 0) = (w.toNat % 2 ^ 31 < 255 * 2 ^ 23 + 2 ^ 22) := by
    apply propext
    norm_num
    omega
  simp only [Fmt.decode, fp32, Bool.false_eq_true, if_false, exponent, if_true, fraction, quiet]

theorem sign_eq : decide (w.toNat / 2 ^ (fp32.fbits + fp32.ebits) % 2 = 1) = w.msb := by
  have := w.isLt
  rw [BitVec.msb_eq_decide]
  refine decide_eq_decide.2 ?_
  norm_num [fp32]
  omega

theorem decode_inf (inf : magnitude w = 255 * 2 ^ 23) : fp32.decode w.toNat = .inf w.msb := by
  rw [magnitude] at inf
  have exponent : w.toNat / 2 ^ 23 % 2 ^ 8 = 2 ^ 8 - 1 := by omega
  have fraction : w.toNat % 2 ^ 23 = 0 := by omega
  simp only [Fmt.decode, sign_eq]
  simp only [fp32, Bool.false_eq_true, if_false, exponent, if_true, fraction]

theorem decode_fin (fin : magnitude w < 255 * 2 ^ 23) : ∃ (m : Nat) (e : Int), fp32.decode w.toNat = .fin w.msb m e ∧
    -149 ≤ e ∧ units (magnitude w) = m * 2 ^ (e + 149).toNat := by
  rw [magnitude] at fin
  have exponent : w.toNat / 2 ^ 23 % 2 ^ 8 = magnitude w / 2 ^ 23 := by rw [magnitude]; omega
  have fraction : w.toNat % 2 ^ 23 = magnitude w % 2 ^ 23 := by rw [magnitude]; omega
  have finite : magnitude w / 2 ^ 23 ≠ 2 ^ 8 - 1 := by rw [magnitude]; omega
  simp only [Fmt.decode, sign_eq]
  simp only [fp32, Bool.false_eq_true, if_false, exponent, finite, fraction]
  rw [units]
  split
  · exact ⟨_, -149, rfl, le_rfl, (Nat.mul_one _).symm⟩
  · next normal =>
    refine ⟨_, (magnitude w / 2 ^ 23 : Nat) - 127 - 23, rfl, by omega, ?_⟩
    congr 2
    omega

end Parts

/-! ## The order of the values (R96) -/

/-- A value in units of 2^-149, infinities at the next magnitude above the finite values. -/
def signedUnits (w : Word) : Int := if w.msb then -(units (magnitude w) : Int) else units (magnitude w)

theorem signedUnits_of_align {w : Word} {m : Nat} {e lo : Int} (above : -149 ≤ lo) (le : lo ≤ e)
    (value : units (magnitude w) = m * 2 ^ (e + 149).toNat) :
    signedUnits w = alignTo w.msb m e lo * 2 ^ (lo + 149).toNat := by
  have split : (e + 149).toNat = (e - lo).toNat + (lo + 149).toNat := by omega
  rw [signedUnits, alignTo, value, split, pow_add]
  push_cast
  split <;> ring

section Order

variable {a b : Word}

/-- A finite value lies below the infinity and above the negative one. -/
theorem signedUnits_bounded (fin : magnitude a < 255 * 2 ^ 23) :
    -(units (255 * 2 ^ 23) : Int) < signedUnits a ∧ signedUnits a < units (255 * 2 ^ 23) := by
  have below := units_strictMono fin
  rw [signedUnits]
  split <;> omega

theorem signedUnits_infinite (inf : magnitude a = 255 * 2 ^ 23) :
    signedUnits a = if a.msb then -(units (255 * 2 ^ 23) : Int) else units (255 * 2 ^ 23) := by
  rw [signedUnits, inf]

theorem decode_lt (ha : magnitude a ≤ 255 * 2 ^ 23) (hb : magnitude b ≤ 255 * 2 ^ 23) :
    (fp32.decode a.toNat).lt (fp32.decode b.toNat) = decide (signedUnits a < signedUnits b) := by
  obtain fa | ia := ha.lt_or_eq <;> obtain fb | ib := hb.lt_or_eq
  case inl.inl =>
    obtain ⟨ma, ea, da, la, va⟩ := decode_fin a fa
    obtain ⟨mb, eb, db, lb, vb⟩ := decode_fin b fb
    have low : ∃ lo, (if ea ≤ eb then ea else eb) = lo ∧ -149 ≤ lo ∧ lo ≤ ea ∧ lo ≤ eb := by
      refine ⟨_, rfl, ?_⟩
      split <;> omega
    obtain ⟨lo, same, above, lea, leb⟩ := low
    rw [da, db, FVal.lt]
    simp only [same]
    rw [signedUnits_of_align above lea va, signedUnits_of_align above leb vb]
    exact decide_eq_decide.2 (mul_lt_mul_iff_left₀ (by positivity)).symm
  case inl.inr =>
    obtain ⟨ma, ea, da, -, -⟩ := decode_fin a fa
    have bound := signedUnits_bounded fa
    rw [da, decode_inf b ib, FVal.lt, signedUnits_infinite ib]
    generalize units (255 * 2 ^ 23) = top at bound
    cases b.msb <;> simp <;> omega
  case inr.inl =>
    obtain ⟨mb, eb, db, -, -⟩ := decode_fin b fb
    have bound := signedUnits_bounded fb
    rw [db, decode_inf a ia, FVal.lt, signedUnits_infinite ia]
    generalize units (255 * 2 ^ 23) = top at bound
    cases a.msb <;> simp <;> omega
  case inr.inr =>
    have positive : (0 : Int) < units (255 * 2 ^ 23) := by decide
    rw [decode_inf a ia, decode_inf b ib, FVal.lt, signedUnits_infinite ia, signedUnits_infinite ib]
    generalize units (255 * 2 ^ 23) = top at positive
    cases a.msb <;> cases b.msb <;> simp
    omega

theorem decode_sign (ha : magnitude a ≤ 255 * 2 ^ 23) : (fp32.decode a.toNat).sign = a.msb := by
  obtain fa | ia := ha.lt_or_eq
  · obtain ⟨ma, ea, da, -⟩ := decode_fin a fa
    rw [da, FVal.sign]
  · rw [decode_inf a ia, FVal.sign]

/-- The order of the values with -0 below +0 is the order of the ranks. -/
theorem rank_lt_iff : Safety.rank a < Safety.rank b ↔
    signedUnits a < signedUnits b ∨ ¬ signedUnits b < signedUnits a ∧ a.msb = true ∧ b.msb = false := by
  have grows : units (magnitude a) < units (magnitude b) ↔ magnitude a < magnitude b := units_strictMono.lt_iff_lt
  have falls : units (magnitude b) < units (magnitude a) ↔ magnitude b < magnitude a := units_strictMono.lt_iff_lt
  rw [rank_eq, rank_eq, signedUnits, signedUnits]
  cases a.msb <;> cases b.msb <;> simp <;> omega

end Order

/-! ## Minimum and maximum (R96) -/

section Pick

variable (a b : Word) (max : Bool)

theorem decode_isNan : (fp32.decode a.toNat).isNan = Safety.isNan a := by
  rw [isNan_eq]
  obtain fin | inf | nan := lt_trichotomy (magnitude a) (255 * 2 ^ 23)
  · obtain ⟨m, e, decoded, -⟩ := decode_fin a fin
    rw [decoded, decide_eq_false fin.le.not_gt]
    rfl
  · rw [decode_inf a inf, decide_eq_false inf.not_gt]
    rfl
  · rw [decode_nan a nan, FVal.isNan, decide_eq_true nan]

theorem decode_snan : (fp32.decode a.toNat).snan = Safety.isSnan a := by
  rw [isSnan_eq]
  obtain fin | inf | nan := lt_trichotomy (magnitude a) (255 * 2 ^ 23)
  · obtain ⟨m, e, decoded, -⟩ := decode_fin a fin
    rw [decoded, decide_eq_false fin.le.not_gt]
    rfl
  · rw [decode_inf a inf, decide_eq_false inf.not_gt]
    rfl
  · rw [decode_nan a nan, FVal.snan, decide_eq_true nan, Bool.true_and]

/-- Of two numbers the model picks by their values and the zeros' signs, the statement by their ranks. -/
theorem picks_by_rank (numberA : Safety.isNan a = false) (numberB : Safety.isNan b = false) :
    ((fp32.decode a.toNat).lt (fp32.decode b.toNat) ||
      (!(fp32.decode b.toNat).lt (fp32.decode a.toNat) && (fp32.decode a.toNat).sign && !(fp32.decode b.toNat).sign)) =
      decide (Safety.rank a < Safety.rank b) := by
  rw [isNan_eq, decide_eq_false_iff_not, not_lt] at numberA numberB
  rw [decode_lt numberA numberB, decode_lt numberB numberA, decode_sign numberA, decode_sign numberB, Bool.eq_iff_iff]
  simp [rank_lt_iff, and_assoc]

theorem minMax_bits : BitVec.ofNat 32 (fp32.minMax max a.toNat b.toNat).bits = Safety.floatPick max a b := by
  rw [Fmt.minMax, Safety.floatPick]
  simp only [decode_isNan]
  cases numberA : Safety.isNan a with
  | true =>
    cases Safety.isNan b <;> simp
    rfl
  | false =>
    cases numberB : Safety.isNan b with
    | true => simp
    | false =>
      simp only [picks_by_rank a b numberA numberB]
      obtain less | same | more := lt_trichotomy (Safety.rank a) (Safety.rank b)
      · cases max <;> simp [less, less.le]
      · obtain rfl := rank_injective same
        simp
      · cases max <;> simp [more, more.not_gt]

end Pick

end Sys2Proof.Machine
end

section
/-! R158-R161: each lane word from its values at the last arrival; O28 assembled from them. -/

namespace Sys2Proof.Machine

/-! ## The values of the votes (R159) -/

section VoteValues

variable (live : List Arrival)

theorem voteValue_all :
    voteValue 0 live = if !(List.range 32).any fun p => decide (valAt live 0 p = some 0) then 1 else 0 := by
  rw [← yes_all]
  exact if_congr decide_eq_true_iff.symm rfl rfl

theorem voteValue_any : voteValue 1 live = if (List.range 32).any (votesYes (valAt live 0)) then 1 else 0 := by
  have value : voteValue 1 live = if ((ordered live).filter fun x => x.2 ≠ 0).isEmpty then 0 else 1 := rfl
  rw [value, yes_isEmpty]
  cases (List.range 32).any (votesYes (valAt live 0)) <;> rfl

theorem voteValue_same : voteValue 2 live = if !((List.range 32).any (votesYes (valAt live 0)) &&
    (List.range 32).any fun p => decide (valAt live 0 p = some 0)) then 1 else 0 := by
  have value : voteValue 2 live = if ((ordered live).filter fun x => x.2 ≠ 0).isEmpty ||
    ((ordered live).filter fun x => x.2 ≠ 0).length = (ordered live).length then 1 else 0 := rfl
  rw [value, yes_isEmpty, Bool.not_and, yes_all]

theorem voteValue_mask : voteValue 3 live = Safety.bitsOf (votesYes (valAt live 0)) := by
  rw [← maskOf_filter, ← yes_positions]
  rfl

theorem voteValue_count : voteValue 4 live = BitVec.ofNat 32 ((List.range 32).filter (votesYes (valAt live 0))).length := by
  rw [← yes_count]
  rfl

theorem voteValue_first : voteValue 5 live = BitVec.ofNat 32 (((List.range 32).find? (votesYes (valAt live 0))).getD 32) := by
  rw [← List.head?_filter, ← yes_positions, List.head?_map]
  rfl

end VoteValues

/-! ## The values of the reductions and scans (R160, R161) -/

/-- The members' values before position `n`, in order. -/
def valuesBefore (v : Nat → Option Word) (n : Nat) : List Word := (List.range n).filterMap v

/-- A member that executes has a value among them. -/
theorem valuesBefore_ne_nil {v : Nat → Option Word} {n p : Nat} (inside : p < n) (executes : (v p).isSome = true) :
    valuesBefore v n ≠ [] := by
  obtain ⟨x, here⟩ := Option.isSome_iff_exists.1 executes
  exact List.ne_nil_of_mem (List.mem_filterMap.2 ⟨p, List.mem_range.2 inside, here⟩)

theorem snanFlag_eq (l : List Word) : snanFlag l = if l.any Safety.isSnan then flagNV else 0 := by
  rw [snanFlag, flagIf, show (fun v : Word => (fp32.decode v.toNat).snan) = Safety.isSnan from funext decode_snan]

theorem foldVals_minMax (max : Bool) (l : List Word) :
    foldVals (fun a b => BitVec.ofNat 32 (fp32.minMax max a.toNat b.toNat).bits) l =
      l.tail.foldl (Safety.floatPick max) (l.headD 0) := by
  rw [foldVals_eq]
  simp only [minMax_bits]

/-- A reduction of the values alone, without flags. -/
theorem gredValue_fold {o : BitVec 5} {f : Word → Word → Word} {live : List Arrival} {v : Word}
    (arm : gredValue o live = (foldVals f ((ordered live).map (·.2)), 0))
    (value : foldVals f (valuesBefore (valAt live 0) 32) = v) : gredValue o live = (v, 0) := by
  rw [arm, ordered_values, ← valuesBefore, value]

theorem gredValue_tree (live : List Arrival) : gredValue 8 live =
    ((Safety.tree (valAt live 0) 5 0).1.getD 0, (Safety.tree (valAt live 0) 5 0).2 |||
      if (valuesBefore (valAt live 0) 32).any Safety.isSnan then flagNV else 0) := by
  have sum : treeSum 5 ((List.range 32).map fun p => valAt live 0 p) 0 = Safety.tree (valAt live 0) 5 0 :=
    (treeSum_eq (valAt live 0) 5 0).trans (Prod.ext rfl BitVec.zero_or)
  have value : gredValue 8 live = ((treeSum 5 ((List.range 32).map fun p => valAt live 0 p) 0).1.getD 0,
      (treeSum 5 ((List.range 32).map fun p => valAt live 0 p) 0).2 ||| snanFlag ((ordered live).map (·.2))) := rfl
  rw [value, sum, ordered_values, snanFlag_eq]
  rfl

/-- The lesser and the greater of floats. -/
theorem gredValue_float {o : BitVec 5} {max : Bool} {live : List Arrival}
    (arm : gredValue o live = (foldVals (fun a b => BitVec.ofNat 32 (fp32.minMax max a.toNat b.toNat).bits)
      ((ordered live).map (·.2)), snanFlag ((ordered live).map (·.2)))) :
    let l := valuesBefore (valAt live 0) 32
    gredValue o live = (l.tail.foldl (Safety.floatPick max) (l.headD 0), if l.any Safety.isSnan then flagNV else 0) := by
  rw [arm, ordered_values, foldVals_minMax, snanFlag_eq]
  rfl

/-- A scan over the values up to a member. -/
theorem gscanValue_fold {o : BitVec 5} {f : Word → Word → Word} {live : List Arrival} {p : Nat} {v : Word} (inside : p < 32)
    (arm : gscanValue o live p = (foldVals f (((ordered live).filter fun x => x.1 ≤ p).map (·.2)), 0))
    (value : foldVals f (valuesBefore (valAt live 0) (p + 1)) = v) : gscanValue o live p = (v, 0) := by
  rw [arm, ordered_values_upTo inside, ← valuesBefore, value]

theorem gscanValue_before {live : List Arrival} {p : Nat} (inside : p < 32) : gscanValue 1 live p =
    (BitVec.ofNat 32 ((valuesBefore (valAt live 0) p).map (·.toNat)).sum, 0) := by
  have value : gscanValue 1 live p = (foldVals (· + ·) (((ordered live).filter fun x => x.1 < p).map (·.2)), 0) := rfl
  rw [value, ordered_values_before inside.le, foldVals_add]
  rfl

/-- The running sum of floats. -/
def runningSum (l : List Word) : Word × Word :=
  l.tail.foldl (fun (r : Word × Word) x =>
    (BitVec.ofNat 32 (fp32.add 0 r.1.toNat x.toNat).bits, r.2 ||| (fp32.add 0 r.1.toNat x.toNat).flags)) (l.headD 0, 0)

theorem scanF32_eq (l : List Word) : scanF32 l = runningSum l := by
  cases l <;> rfl

theorem gscanValue_float {live : List Arrival} {p : Nat} (inside : p < 32) :
    let l := valuesBefore (valAt live 0) (p + 1)
    gscanValue 5 live p = ((runningSum l).1, (runningSum l).2 ||| if l.any Safety.isSnan then flagNV else 0) := by
  have value : gscanValue 5 live p = ((scanF32 (((ordered live).filter fun x => x.1 ≤ p).map (·.2))).1,
      (scanF32 (((ordered live).filter fun x => x.1 ≤ p).map (·.2))).2 |||
        snanFlag (((ordered live).filter fun x => x.1 ≤ p).map (·.2))) := rfl
  rw [value, ordered_values_upTo inside, scanF32_eq, snanFlag_eq]
  rfl

section LaneWords

variable {s : State} {k : Nat} {th : Thread} {g : BitVec 3} {d a b : BitVec 7} {m : BitVec 2} {n o : BitVec 5}

/-! ## Shuffles (R158) -/

/-- What a shuffle gives a member: the value of its source where that executes, else its own. -/
def fromSource (v : Nat → Nat → Option Word) (p : Nat) (src : Option Nat) : Word × Word :=
  ((src.bind (v 0)).getD ((v 0 p).getD 0), 0)

theorem shflIdx_gathers : Safety.Gathers s k th (.shflIdx g m d a b) (th.m[m.toNat]'m.isLt) d [th.reg a, th.reg b]
    fun v p => fromSource v p (some (((v 1 p).getD 0).toNat % 32)) :=
  gathers_of_lanes (vs := [a, b]) (arm := rfl) rfl fun _ _ _ _ => rfl

theorem shflUp_gathers : Safety.Gathers s k th (.shflUp g d a m n) (th.m[m.toNat]'m.isLt) d [th.reg a]
    fun v p => fromSource v p (if n.toNat ≤ p then some (p - n.toNat) else none) :=
  gathers_of_lanes (vs := [a]) (arm := rfl) rfl fun _ _ _ _ => rfl

theorem shflDown_gathers : Safety.Gathers s k th (.shflDown g d a m n) (th.m[m.toNat]'m.isLt) d [th.reg a]
    fun v p => fromSource v p (some (p + n.toNat)) :=
  gathers_of_lanes (vs := [a]) (arm := rfl) rfl fun _ _ _ _ => rfl

theorem shflXor_gathers : Safety.Gathers s k th (.shflXor g d a m n) (th.m[m.toNat]'m.isLt) d [th.reg a]
    fun v p => fromSource v p (some (p ^^^ n.toNat)) :=
  gathers_of_lanes (vs := [a]) (arm := rfl) rfl fun _ _ _ _ => rfl

/-! ## Votes and matches (R159) -/

theorem vote_gathers {val : (Nat → Nat → Option Word) → Word} (value : ∀ live, voteValue o live = val (valAt live)) :
    Safety.Gathers s k th (.vote g d a m o) (th.m[m.toNat]'m.isLt) d [th.reg a] fun v _ => (val v, 0) :=
  gathers_of_lanes (vs := [a]) (arm := rfl) rfl fun live _ _ _ => congrArg (plain d) (value live)

theorem matchLanes_gathers {vs : List (BitVec 7)} {val : (Nat → Nat → Option Word) → Nat → Word}
    (operands : (if o.toNat < 2 then [a] else [a, a + 1]) = vs)
    (value : ∀ live p, matchValue o live p = val (valAt live) p) :
    Safety.Gathers s k th (.matchLanes g d a m o) (th.m[m.toNat]'m.isLt) d (vs.map th.reg) fun v p => (val v p, 0) :=
  gathers_of_lanes (operands ▸ rfl) rfl fun live p _ _ => congrArg (plain d) (value live p)

/-! ## Reductions and scans (R160, R161) -/

theorem gred_gathers {val : (Nat → Nat → Option Word) → Word × Word}
    (value : ∀ live p, p < 32 → (valAt live 0 p).isSome = true → gredValue o live = val (valAt live)) :
    Safety.Gathers s k th (.gred g d a m o) (th.m[m.toNat]'m.isLt) d [th.reg a] fun v _ => val v :=
  gathers_of_lanes (vs := [a]) (arm := rfl) rfl fun live p inside executes =>
    congrArg (laneResult d) (value live p inside executes)

theorem gscan_gathers {val : (Nat → Nat → Option Word) → Nat → Word × Word}
    (value : ∀ live p, p < 32 → (valAt live 0 p).isSome = true → gscanValue o live p = val (valAt live) p) :
    Safety.Gathers s k th (.gscan g d a m o) (th.m[m.toNat]'m.isLt) d [th.reg a] fun v p => val v p :=
  gathers_of_lanes (vs := [a]) (arm := rfl) rfl fun live p inside executes =>
    congrArg (laneResult d) (value live p inside executes)

end LaneWords

/-- Settles O28: at the last arrival every executing member receives the word's value (R153), and that value is what R158
to R161 say of the members' values by position: the model's list of values in ascending position, its masks and its tree
level by level are the statement's. -/
theorem laneOperations : Obligations.LaneOperations := by
  refine ⟨fun s k th g d a b m n => ?by_position, fun s k th g d a m => ?by_value⟩
  case by_position =>
    exact ⟨shflIdx_gathers, shflUp_gathers, shflDown_gathers, shflXor_gathers,
      vote_gathers voteValue_all, vote_gathers voteValue_any, vote_gathers voteValue_same,
      vote_gathers voteValue_mask, vote_gathers voteValue_count, vote_gathers voteValue_first,
      matchLanes_gathers rfl fun _ _ => matchValue_any rfl rfl,
      matchLanes_gathers rfl fun _ _ => matchValue_all rfl rfl,
      matchLanes_gathers rfl fun _ _ => matchValue_any rfl rfl,
      matchLanes_gathers rfl fun _ _ => matchValue_all rfl rfl⟩
  case by_value =>
    have nonempty {live : List Arrival} {p n : Nat} := valuesBefore_ne_nil (v := valAt live 0) (n := n) (p := p)
    exact ⟨gred_gathers fun _ _ _ _ => gredValue_fold rfl (foldVals_add _),
      gred_gathers fun _ _ _ _ => gredValue_fold rfl (foldVals_least minS_pick _),
      gred_gathers fun _ _ _ _ => gredValue_fold rfl (foldVals_least maxS_eq _),
      gred_gathers fun _ _ _ _ => gredValue_fold rfl (foldVals_least minU_pick _),
      gred_gathers fun _ _ _ _ => gredValue_fold rfl (foldVals_least maxU_eq _),
      gred_gathers fun _ _ inside executes => gredValue_fold rfl
        (foldVals_of_left_id (fun _ => BitVec.allOnes_and) (nonempty inside executes)),
      gred_gathers fun _ _ inside executes => gredValue_fold rfl
        (foldVals_of_left_id (fun _ => BitVec.zero_or) (nonempty inside executes)),
      gred_gathers fun _ _ inside executes => gredValue_fold rfl
        (foldVals_of_left_id (fun _ => BitVec.zero_xor) (nonempty inside executes)),
      gred_gathers fun live _ _ _ => gredValue_tree live,
      gred_gathers fun _ _ _ _ => gredValue_float rfl, gred_gathers fun _ _ _ _ => gredValue_float rfl,
      gscan_gathers fun _ _ inside _ => gscanValue_fold inside rfl (foldVals_add _),
      gscan_gathers fun _ _ inside _ => gscanValue_before inside,
      gscan_gathers fun _ _ inside _ => gscanValue_fold inside rfl (foldVals_least minS_pick _),
      gscan_gathers fun _ _ inside _ => gscanValue_fold inside rfl (foldVals_least maxS_eq _),
      gscan_gathers fun _ p inside executes => gscanValue_fold inside rfl
        (foldVals_of_left_id (fun _ => BitVec.zero_or) (nonempty (Nat.lt_succ_self p) executes)),
      gscan_gathers fun _ _ inside _ => gscanValue_float inside⟩

end Sys2Proof.Machine
end

section
/-! The tags of a workgroup and what a thread sees of them (R272, R411); then O37: the tag words in both streams
(R273-R275). -/

namespace Sys2Proof.Machine

/-! ## The done bits and the masks (R272, R273) -/

section Tags

variable {s : State} {w : Nat} {u : Wg} {m : BitVec 64}

/-- The bits that a fold over numbered tags sets. -/
theorem getLsbD_foldDone (l : List (Tag × Nat)) (m : BitVec 64) {p : Nat} (inside : p < 64) :
    (l.foldl (fun m t => if t.1.done then m ||| (1#64 <<< t.2) else m) m).getLsbD p = true ↔
      m.getLsbD p = true ∨ ∃ x : Tag, (x, p) ∈ l ∧ x.done = true := by
  induction l generalizing m with
  | nil => simp
  | cons t l ih =>
    obtain ⟨x, n⟩ := t
    have bit : (BitVec.twoPow 64 n).getLsbD p = true ↔ p = n := by
      rw [BitVec.getLsbD_twoPow, Bool.and_eq_true, decide_eq_true_eq, decide_eq_true_eq]
      omega
    have head : (if x.done then m ||| (1#64 <<< n) else m).getLsbD p = true ↔ m.getLsbD p = true ∨ p = n ∧ x.done = true := by
      rw [← BitVec.twoPow_eq]
      cases x.done with
      | false => simp
      | true => rw [if_pos rfl, BitVec.getLsbD_or, Bool.or_eq_true, bit, and_iff_left rfl]
    rw [List.foldl_cons, ih, head]
    simp only [List.mem_cons, Prod.mk.injEq, or_and_right, exists_or, and_assoc, exists_eq_left, or_assoc]

/-- Bit t of the done bits is tag t's. -/
theorem getLsbD_doneMask (group : s.wgs[w]? = some u) {p : Nat} (inside : p < 64) :
    (s.doneMask w).getLsbD p = true ↔ ∃ x : Tag, u.tags[p]? = some x ∧ x.done = true := by
  rw [State.doneMask, group, Option.map_some, Option.getD_some, getLsbD_foldDone _ _ inside]
  simp [List.mem_zipIdx_iff_getElem?]

/-- The mask whose bits are the done tags. -/
theorem eq_doneMask (group : s.wgs[w]? = some u)
    (bits : ∀ p < 64, m.getLsbD p = true ↔ ∃ x : Tag, u.tags[p]? = some x ∧ x.done = true) : m = s.doneMask w :=
  BitVec.eq_of_getLsbD_eq fun p inside => Bool.eq_iff_iff.2 ((bits p inside).trans (getLsbD_doneMask group inside).symm)

/-- The masks that R273 refuses. -/
theorem maskBad_iff (group : s.wgs[w]? = some u) :
    s.maskBad w m = true ↔ m = 0 ∨ ∃ p < 64, m.getLsbD p = true ∧ u.tags.length ≤ p := by
  have past : 2 ^ u.tags.length ≤ m.toNat ↔ ∃ p < 64, m.getLsbD p = true ∧ u.tags.length ≤ p := by
    constructor
    · intro large
      obtain ⟨p, above, set⟩ := Nat.exists_ge_and_testBit_of_ge_two_pow large
      exact ⟨p, BitVec.lt_of_getLsbD set, set, above⟩
    · rintro ⟨p, -, set, above⟩
      exact (Nat.pow_le_pow_right (by decide) above).trans (Nat.ge_two_pow_of_testBit set)
  rw [State.maskBad, group, Option.map_some, Option.getD_some, Bool.or_eq_true, decide_eq_true_eq, decide_eq_true_eq, past]

/-! ## The lowest done tag of a mask (R274) -/

theorem firstDone_none (empty : m &&& s.doneMask w = 0) : (s.firstDone w m).1 = 0xFFFFFFFF ∧ (s.firstDone w m).2.1 = 0 := by
  have search : ((List.range 64).find? fun t => m.getLsbD t && (s.doneMask w).getLsbD t) = none := by
    rw [List.find?_range_eq_none]
    intro t _
    rw [← BitVec.getLsbD_and, empty]
    simp
  rw [State.firstDone, search]
  exact ⟨rfl, rfl⟩

theorem firstDone_lowest (group : s.wgs[w]? = some u) {p : Nat} {x : Tag} (inside : p < 64) (named : m.getLsbD p = true)
    (tag : u.tags[p]? = some x) (done : x.done = true) (lowest : ∀ n < p, ¬ (m &&& s.doneMask w).getLsbD n) :
    (s.firstDone w m).1 = BitVec.ofNat 32 p ∧ (s.firstDone w m).2.1 = x.status.setWidth 32 := by
  have search : ((List.range 64).find? fun t => m.getLsbD t && (s.doneMask w).getLsbD t) = some p := by
    rw [List.find?_range_eq_some]
    refine ⟨?_, List.mem_range.2 inside, fun n below => ?_⟩
    · rw [named, (getLsbD_doneMask group inside).2 ⟨x, tag, done⟩, Bool.and_self]
    · rw [← BitVec.getLsbD_and, Bool.not_eq_true', Bool.eq_false_iff]
      exact lowest n below
  rw [State.firstDone, search]
  simp only [group, Option.bind_some, tag, Option.map_some, Option.getD_some, and_self]

end Tags

/-! ## What a thread sees (R272, R411) -/

/-- Of thread `k` only what it has seen of memory has changed, and of the others and of memory nothing. -/
def State.SeesOnly (s : State) (k : Nat) (t : State) : Prop :=
  Safety.kept s t (· = k) ∧ ∀ th : Thread, s.threads[k]? = some th → ∃ floors lastAcq related,
    t.threads[k]? = some { th with floors := floors, lastAcq := lastAcq, related := related }

section Sees

variable {s t : State} {k : Nat} {th : Thread} {i : Instr}

theorem State.SeesOnly.refl (s : State) (k : Nat) : s.SeesOnly k s :=
  ⟨⟨fun _ => rfl, fun _ _ => rfl⟩, fun th stands => ⟨th.floors, th.lastAcq, th.related, stands⟩⟩

theorem State.SeesOnly.trans {t' : State} (first : s.SeesOnly k t) (next : t.SeesOnly k t') : s.SeesOnly k t' := by
  obtain ⟨⟨memory, others⟩, own⟩ := first
  obtain ⟨⟨memory', others'⟩, own'⟩ := next
  refine ⟨⟨fun a => (memory' a).trans (memory a), fun j apart => (others' j apart).trans (others j apart)⟩, fun th stands => ?_⟩
  obtain ⟨_, _, _, seen⟩ := own th stands
  obtain ⟨floors, lastAcq, related, seen'⟩ := own' _ seen
  exact ⟨floors, lastAcq, related, seen'⟩

/-- An acquire at workgroup scope discards no copy held for other threads. -/
theorem obtain_seesOnly (s : State) (k : Nat) (rel : List Related) (f : Thread → Write → Bool) :
    s.SeesOnly k (s.obtain k 2#4 rel f) := by
  unfold State.obtain
  split
  · exact .refl s k
  · next stands =>
    refine ⟨⟨fun _ => rfl, fun j apart => State.updThread_get_ne _ apart⟩, fun th at_ => ?_⟩
    cases stands.symm.trans at_
    exact ⟨_, _, _, State.updThread_get stands _⟩

theorem observeTag_seesOnly (s : State) (k p : Nat) : s.SeesOnly k (s.observeTag k p) := by
  unfold State.observeTag
  split
  · exact .refl s k
  · split
    · exact obtain_seesOnly s k _ _
    · exact .refl s k

theorem observeTags_seesOnly (s : State) (k w : Nat) (m : BitVec 64) : s.SeesOnly k (s.observeTags k w m) :=
  List.foldlRecOn (motive := s.SeesOnly k) _ _ (.refl s k) fun t seen p _ => by
    split
    · exact seen.trans (observeTag_seesOnly t k p)
    · exact seen

/-- A word that lets its thread see more and then changes it alike, whatever it has seen. -/
theorem State.SeesOnly.passes {f : Thread → Thread} (seen : s.SeesOnly k t) (stands : s.threads[k]? = some th)
    (answer : exec i s = .next (t.updThread k f))
    (blind : ∀ floors lastAcq related, f { th with floors := floors, lastAcq := lastAcq, related := related } =
      { f th with floors := floors, lastAcq := lastAcq, related := related }) :
    Safety.Passes s k i (f th) fun _ => True := by
  obtain ⟨⟨memory, others⟩, own⟩ := seen
  obtain ⟨floors, lastAcq, related, now⟩ := own th stands
  refine ⟨_, _, answer, ⟨memory, fun j apart => (State.updThread_get_ne f apart).trans (others j apart)⟩,
    State.updThread_get now f, ?_, trivial⟩
  rw [blind]

end Sees

/-! ## The drive stream -/

theorem pendingWrite_iff {v : Drive} {q : BitVec 5} : v.pendingWrite q = true ↔ Safety.awaited v q := by
  rw [Drive.pendingWrite, List.any_eq_true]
  refine exists_congr fun o => and_congr_right fun _ => ?_
  cases word : o.word <;> simp

theorem drivePair_not_pending {v : Drive} {r : BitVec 7}
    (free : ∀ q ∈ [r.extractLsb' 0 5, r.extractLsb' 0 5 + 1], ¬ Safety.awaited v q) : (drivePair r).any v.pendingWrite = false :=
  List.any_eq_false.2 fun q named => pendingWrite_iff.not.2 (free q named)

/-- What a change of a drive stream makes of it is a function of the stream that stands there. -/
theorem State.updDrive_const {s : State} {w : Nat} {v : Drive} (stands : s.drive? w = some v) (f : Drive → Drive) :
    s.updDrive w f = s.updDrive w fun _ => f v := by
  obtain ⟨u, group, drive⟩ := Option.bind_eq_some_iff.1 stands
  simp only [State.updDrive, State.updWg]
  rw [modify_const group, modify_const group fun u => { u with drive := u.drive.map fun _ => f v }, drive]
  rfl

theorem driveFaultHere_eq {s : State} {w : Nat} {v : Drive} (stands : s.drive? w = some v) (i : Instr) (cause : BitVec 8) :
    s.driveFaultHere w i cause = Safety.driveFailed s w v i cause := by
  rw [State.driveFaultHere, stands]
  rfl

/-! ## A word that takes a mask of tags (R273, R274) -/

/-- The word has the mask in the pair at R checked, and then `thread` or `drive` is its effect. -/
def TakesMask (i : Instr) (r : BitVec 7) (thread : Nat → Thread → State → State) (drive : Nat → Drive → State → State) : Prop :=
  ∀ s, exec i s = onBoth (issueOf i) r s (fun k th s => if s.maskBad th.wg (th.pair r) then s.illegal k i else thread k th s)
    fun w v s => if (drivePair r).any v.pendingWrite then s
      else if s.maskBad w (v.mask r) then s.driveFaultHere w i causeIllegal else drive w v s

section Masked

variable {s : State} {k w : Nat} {th : Thread} {v : Drive} {i : Instr} {r : BitVec 7}
  {thread : Nat → Thread → State → State} {drive : Nat → Drive → State → State}

theorem TakesMask.illegal (takes : TakesMask i r thread drive) (bad : s.maskBad th.wg (th.pair r) = true) :
    Safety.Leads s k th i (s.takeTrap k 0x01 (wordOf i)) := by
  intro issues
  rw [takes, onBoth_thread rfl issues, if_pos bad]
  rfl

theorem TakesMask.runs (takes : TakesMask i r thread drive) (good : ¬ s.maskBad th.wg (th.pair r) = true)
    (issues : Safety.Issues s k th i) : exec i s = .next (thread k th s) := by
  rw [takes, onBoth_thread rfl issues, if_neg good]

theorem TakesMask.drive_fails (takes : TakesMask i r thread drive) (bad : s.maskBad w (v.mask r) = true)
    (drives : Safety.DrivesBoth s w v i r)
    (free : ∀ q ∈ [r.extractLsb' 0 5, r.extractLsb' 0 5 + 1], ¬ Safety.awaited v q) :
    exec i s = .next (Safety.driveFailed s w v i 0x01) := by
  rw [takes, onBoth_drive rfl drives, drivePair_not_pending free, if_neg Bool.false_ne_true, if_pos bad,
    driveFaultHere_eq drives.drive]
  rfl

/-- The effect in the drive stream where that only changes the stream. -/
theorem TakesMask.drive_turns (takes : TakesMask i r thread drive) (good : ¬ s.maskBad w (v.mask r) = true) {f : Drive → Drive}
    (effect : drive w v s = s.updDrive w f) :
    Safety.DriveTurns s w v i r [r.extractLsb' 0 5, r.extractLsb' 0 5 + 1] (f v) := by
  intro drives free
  rw [takes, onBoth_drive rfl drives, drivePair_not_pending free, if_neg Bool.false_ne_true, if_neg good, effect,
    State.updDrive_const drives.drive]

end Masked

/-! ## `xwaitany` and `xwaitall` (R273) -/

/-- What a wait for tags does in a thread. -/
def waitTags (met : BitVec 64 → BitVec 64 → Bool) (r : BitVec 7) (k : Nat) (th : Thread) (s : State) : State :=
  if met (th.pair r) (s.doneMask th.wg) then (s.observeTags k th.wg (th.pair r)).updThread k fun th => th.advance 1
  else s.updThread k fun th => { th with park := .copy }

/-- What a wait for tags does in the drive stream. -/
def driveWaitTags (met : BitVec 64 → BitVec 64 → Bool) (r : BitVec 7) (w : Nat) (v : Drive) (s : State) : State :=
  if met (v.mask r) (s.doneMask w) then s.updDrive w fun v => v.advance 1 else s.updDrive w fun v => { v with park := .copy }

theorem xwaitany_takesMask (g : BitVec 3) (r : BitVec 7) : TakesMask (.xwaitany g r) r
    (waitTags (fun m d => m &&& d ≠ 0) r) (driveWaitTags (fun m d => m &&& d ≠ 0) r) := fun _ => rfl

theorem xwaitall_takesMask (g : BitVec 3) (r : BitVec 7) : TakesMask (.xwaitall g r) r
    (waitTags (fun m d => m &&& d = m) r) (driveWaitTags (fun m d => m &&& d = m) r) := fun _ => rfl

section Waits

variable {s : State} {k w : Nat} {th : Thread} {v : Drive} {i : Instr} {r : BitVec 7} {met : BitVec 64 → BitVec 64 → Bool}

theorem waitTags_thread (takes : TakesMask i r (waitTags met r) (driveWaitTags met r))
    (good : ¬ s.maskBad th.wg (th.pair r) = true) {P : Prop} (means : met (th.pair r) (s.doneMask th.wg) = true ↔ P)
    (issues : Safety.Issues s k th i) :
    (P → Safety.Passes s k i (Safety.moved th 1) fun _ => True) ∧
      (¬ P → exec i s = .next (s.updThread k fun _ => { th with park := .copy })) := by
  have answer := takes.runs good issues
  refine ⟨fun holds => ?_, fun fails => ?_⟩
  · rw [waitTags, if_pos (means.2 holds)] at answer
    exact (observeTags_seesOnly s k th.wg (th.pair r)).passes issues.thread answer fun _ _ _ => rfl
  · rw [waitTags, if_neg (means.not.2 fails), State.updThread_const issues.thread] at answer
    exact answer

theorem waitTags_drive (takes : TakesMask i r (waitTags met r) (driveWaitTags met r))
    (good : ¬ s.maskBad w (v.mask r) = true) {P : Prop} (means : met (v.mask r) (s.doneMask w) = true ↔ P) :
    (P → Safety.DriveTurns s w v i r [r.extractLsb' 0 5, r.extractLsb' 0 5 + 1] (Safety.driven v 1)) ∧
      (¬ P → Safety.DriveTurns s w v i r [r.extractLsb' 0 5, r.extractLsb' 0 5 + 1] { v with park := .copy }) :=
  ⟨fun holds => takes.drive_turns good (if_pos (means.2 holds)),
    fun fails => takes.drive_turns good (if_neg (means.not.2 fails))⟩

end Waits

/-! ## `xffr` and `xtags` (R274, R275) -/

/-- A thread observes the tag that its word found, where it found one (R411). -/
def State.observeFound (s : State) (k : Nat) : Option Nat → State
  | some p => s.observeTag k p
  | none => s

theorem observeFound_seesOnly (s : State) (k : Nat) (found : Option Nat) : s.SeesOnly k (s.observeFound k found) := by
  cases found with
  | none => exact .refl s k
  | some p => exact observeTag_seesOnly s k p

/-- What `xffr` does in a thread. -/
def giveFirst (r : BitVec 7) (k : Nat) (th : Thread) (s : State) : State :=
  let x := s.firstDone th.wg (th.pair r)
  (s.observeFound k x.2.2).updThread k fun th => ((th.setReg r x.1).setReg (r + 1) x.2.1).advance 1

/-- What `xffr` does in the drive stream. -/
def driveGiveFirst (r : BitVec 7) (w : Nat) (v : Drive) (s : State) : State :=
  let x := s.firstDone w (v.mask r)
  s.updDrive w fun v => ((v.setReg (r.extractLsb' 0 5) x.1).setReg (r.extractLsb' 0 5 + 1) x.2.1).advance 1

theorem xffr_takesMask (g : BitVec 3) (r : BitVec 7) : TakesMask (.xffr g r) r (giveFirst r) (driveGiveFirst r) := fun _ => rfl

theorem takesMask_of_mem {g : BitVec 3} {r : BitVec 7} {i : Instr}
    (named : i ∈ [Instr.xwaitany g r, .xwaitall g r, .xffr g r]) : ∃ thread drive, TakesMask i r thread drive := by
  simp only [List.mem_cons, List.not_mem_nil, or_false] at named
  obtain rfl | rfl | rfl := named
  · exact ⟨_, _, xwaitany_takesMask g r⟩
  · exact ⟨_, _, xwaitall_takesMask g r⟩
  · exact ⟨_, _, xffr_takesMask g r⟩

theorem exec_xtags (g : BitVec 3) (r : BitVec 7) (s : State) : exec (.xtags g r) s = execXtags g r s := rfl

section Gives

variable {s : State} {k w : Nat} {th : Thread} {v : Drive} {g : BitVec 3} {r : BitVec 7}

theorem xffr_thread (good : ¬ s.maskBad th.wg (th.pair r) = true) (issues : Safety.Issues s k th (.xffr g r)) :
    Safety.Passes s k (.xffr g r) { Safety.moved th 1 with
      g := (th.g.set r.toNat (s.firstDone th.wg (th.pair r)).1 r.isLt).set (r + 1).toNat
        (s.firstDone th.wg (th.pair r)).2.1 (r + 1).isLt } fun _ => True := by
  have answer := (xffr_takesMask g r).runs good issues
  exact (observeFound_seesOnly s k _).passes issues.thread answer fun _ _ _ => rfl

theorem xffr_drive (good : ¬ s.maskBad w (v.mask r) = true) :
    Safety.DriveTurns s w v (.xffr g r) r [r.extractLsb' 0 5, r.extractLsb' 0 5 + 1] { Safety.driven v 1 with
      d := (v.d.set (r.extractLsb' 0 5).toNat (s.firstDone w (v.mask r)).1 (r.extractLsb' 0 5).isLt).set
        (r.extractLsb' 0 5 + 1).toNat (s.firstDone w (v.mask r)).2.1 (r.extractLsb' 0 5 + 1).isLt } :=
  (xffr_takesMask g r).drive_turns good rfl

theorem xtags_thread (issues : Safety.Issues s k th (.xtags g r)) :
    Safety.Passes s k (.xtags g r) { Safety.moved th 1 with
      g := (th.g.set r.toNat ((s.doneMask th.wg).extractLsb' 0 32) r.isLt).set (r + 1).toNat
        ((s.doneMask th.wg).extractLsb' 32 32) (r + 1).isLt } fun _ => True := by
  have answer := (exec_xtags g r s).trans (onBoth_thread rfl issues)
  exact (observeTags_seesOnly s k th.wg (s.doneMask th.wg)).passes issues.thread answer fun _ _ _ => rfl

theorem xtags_drive :
    Safety.DriveTurns s w v (.xtags g r) r [r.extractLsb' 0 5, r.extractLsb' 0 5 + 1] { Safety.driven v 1 with
      d := (v.d.set (r.extractLsb' 0 5).toNat ((s.doneMask w).extractLsb' 0 32) (r.extractLsb' 0 5).isLt).set
        (r.extractLsb' 0 5 + 1).toNat ((s.doneMask w).extractLsb' 32 32) (r.extractLsb' 0 5 + 1).isLt } := by
  intro drives free
  rw [exec_xtags, execXtags, onBoth_drive rfl drives, drivePair_not_pending free, if_neg Bool.false_ne_true,
    State.updDrive_const drives.drive]
  rfl

end Gives

/-- Settles O37: each of the three words that take a mask has it checked first (R273, R274); the model's mask of the done
bits is the statement's, so `met` of the two masks is any or all of the tags done; what a thread observes of the tags
changes only what it has seen (R272), and the drive stream observes nothing. -/
theorem tagWords_bothStreams : Obligations.TagWords := by
  intro s k w th v u g r D group _ bits
  obtain rfl : D = s.doneMask w := eq_doneMask group bits
  have first {m : BitVec 64} {p : Nat} (inside : p < 64) (x : Tag) (named : m.getLsbD p = true) :=
    firstDone_lowest (x := x) group inside named
  refine ⟨?threads, ?drives⟩
  case threads =>
    rintro stands rfl
    have refused := maskBad_iff (m := th.pair r) group
    refine ⟨fun i named bad => ?_, fun good f named issues => ?_, fun good issues =>
      ⟨_, _, ⟨firstDone_none, fun _ => first⟩, xffr_thread (refused.not.2 good) issues⟩, xtags_thread⟩
    · obtain ⟨_, _, takes⟩ := takesMask_of_mem named
      exact takes.illegal (refused.2 bad)
    · simp only [List.mem_cons, List.not_mem_nil, or_false] at named
      obtain rfl | rfl := named
      · exact waitTags_thread (xwaitany_takesMask g r) (refused.not.2 good) decide_eq_true_iff issues
      · exact waitTags_thread (xwaitall_takesMask g r) (refused.not.2 good) decide_eq_true_iff issues
  case drives =>
    have refused := maskBad_iff (m := v.mask r) group
    refine ⟨fun i named bad => ?_, fun good f named => ?_, fun good =>
      ⟨_, _, ⟨firstDone_none, fun _ => first⟩, xffr_drive (refused.not.2 good)⟩, xtags_drive⟩
    · obtain ⟨_, _, takes⟩ := takesMask_of_mem named
      exact takes.drive_fails (refused.2 bad)
    · simp only [List.mem_cons, List.not_mem_nil, or_false] at named
      obtain rfl | rfl := named
      · exact waitTags_drive (xwaitany_takesMask g r) (refused.not.2 good) decide_eq_true_iff
      · exact waitTags_drive (xwaitall_takesMask g r) (refused.not.2 good) decide_eq_true_iff

end Sys2Proof.Machine
end
